-- ==== Sys2Proof/Word.lean ====
section
/-! DEFINITION. The word types of the model and the two plain-data containers everything is kept in:
byte memories (`Mem`) and finite maps (`KV`), both lists sorted by a natural key. -/

namespace Sys2Proof

/-- One byte of any memory or message. -/
abbrev Byte := BitVec 8
/-- A register of the register map (R534), an FP32 encoding or a stall instruction word. -/
abbrev W32 := BitVec 32
/-- A column of a bank or a vector register: 256 bits (Table STL-1). -/
abbrev Col := BitVec 256
/-- An order of the Brodvin format: 64 bytes, byte `b` at bits `8b` to `8b+7` (R5, R57). -/
abbrev Order := BitVec 512
/-- A sequence of bytes, lowest address first. -/
abbrev Bytes := List Byte

/-- A finite map from natural keys to values, keys strictly rising. -/
abbrev KV (α : Type) := List (Nat × α)
/-- A byte memory: address and byte, addresses strictly rising, no listed zero byte. -/
abbrev Mem := List (Nat × BitVec 8)

/-- Ceiling division. -/
abbrev cdiv (a b : Nat) : Nat := (a + b - 1) / b

end Sys2Proof
end

