-- ==== Sys2Proof/Syntax.lean ====
section
/-! DEFINITION. The commands of the block: one constructor of `Instr` per row of spec/opcode_table.json,
with the row's operands. -/

namespace Sys2Proof

/-- The five rings of R48; ring 4 is the secure one. -/
abbrev RingId := Fin 5
/-- A stack site (R375). -/
abbrev SiteId := Fin 20
/-- A physical channel of a site. -/
abbrev ChId := Fin 32
/-- A bank pair of a channel (R127). -/
abbrev PairId := Fin 8
/-- A requester port (R14). -/
abbrev PortId := Fin 16

/-- Stall (s, c, k) of R127. -/
structure StallId where
  site : SiteId
  ch : ChId
  pair : PairId
deriving DecidableEq, Repr

/-- A unit that runs rule programs: a stall, or the relief engine of a site (R168). -/
inductive UnitId where
  | stall (st : StallId)
  | relief (s : SiteId)
deriving DecidableEq, Repr

/-- The booked resource instances of Table BEA-3. -/
inductive Inst where
  | channel (s : SiteId)
  | stall (s : SiteId)
  | relief (s : SiteId)
  | sealer (s : SiteId)
  | awning
  | cirrus
  | portIn (p : PortId)
  | portOut (p : PortId)
  | xchIn
  | xchOut
  | slots
  | energy
deriving DecidableEq, Repr

/-- An arbitration point (section Priority classes of MEM). -/
inductive ArbPt where
  | channel (s : SiteId) (c : ChId)
  | slice (i : Fin 64)
  | portIn (p : PortId)
  | portOut (p : PortId)
  | xchIn
  | xchOut
deriving DecidableEq, Repr

/-- Where a request, tile or remote access comes from. `ns` is the fabric's non-secure attribute of a
requester port; exchange-port traffic is always non-secure (section The two worlds of SEC). -/
inductive Origin where
  | port (p : PortId) (ns : Bool)
  | node (n : BitVec 24)
deriving DecidableEq, Repr

/-- What an endpoint gave for an order that reads it: whether every transfer completed, and the bytes of
the order's first and second input in ascending address order (R285). -/
structure EndpointInput where
  first : Bytes
  second : Bytes
deriving DecidableEq, Repr

/-- First read of an error (Table ITY-3). -/
inductive FirstRead where
  | corrected
  | uncorrectable
  | parityOpen
deriving DecidableEq, Repr

/-- The retry of R421. -/
inductive RetryRead where
  | clean
  | corrected
  | bad
deriving DecidableEq, Repr

/-- The reader that met an error (R421): it decides what an uncorrectable outcome does (Table ITY-3, R415). -/
inductive Reader where
  | requester
  | order (r : RingId) (idx : Nat)
  | sealer
  | scrub
deriving DecidableEq, Repr

/-- The retrain triggers of R390. -/
inductive RetrainTrig where
  | drift
  | parity
  | errors
deriving DecidableEq, Repr

/-- The input clocks whose loss R565 names. -/
inductive InClock where
  | ref | fab | xch | ts | axi
deriving DecidableEq, Repr

/-- What a site's self-test found (Table PWR-3): stalls that failed, and whether the relief engine and the
sealer passed. -/
structure SelfTest where
  badStalls : List (ChId × PairId)
  reliefOk : Bool
  sealerOk : Bool
deriving DecidableEq, Repr

/-- Why start-up may not become ready (R470), or which loopbacks failed (Table PWR-3). -/
structure ReadyTest where
  coreOk : Bool
  badPorts : List PortId
  xchOk : Bool
deriving DecidableEq, Repr

/-- Fields of a Format V stall instruction (Table STL-3). -/
structure FmtV where
  d : BitVec 6
  a : BitVec 6
  b : BitVec 6
  c : BitVec 6
  m : BitVec 2
deriving DecidableEq, Repr

/-- Fields of a Format M stall instruction (Table STL-3): register, column field, bit 13, source, mode. -/
structure FmtM where
  reg : BitVec 6
  col : BitVec 6
  g : Bool
  src : BitVec 2
  m : BitVec 2
deriving DecidableEq, Repr

/-- The commands, in the order of spec/opcode_table.json. -/
inductive Instr where
  -- orders taken from ring r
  | nop (r : RingId)
  | config (r : RingId)
  | layoutDef (r : RingId)
  | layoutFree (r : RingId)
  | repack (r : RingId)
  | updOpen (r : RingId)
  | updOpenAdmitAfterWait (r : RingId)
  | updAbort (r : RingId)
  | ruleLoad (r : RingId)
  | verRelease (r : RingId)
  | fetchPull (r : RingId)
  | fetchServe (r : RingId)
  | snapshot (r : RingId)
  | exportImage (r : RingId)
  | importImage (r : RingId)
  | ctxSave (r : RingId)
  | ctxRestore (r : RingId)
  | push (r : RingId)
  | tread (r : RingId)
  | stashPut (r : RingId)
  | stashGet (r : RingId)
  | queueDefDefine (r : RingId)
  | queueDefDelete (r : RingId)
  | queueDefRelease (r : RingId)
  | gather (r : RingId)
  | scatter (r : RingId)
  | scatterAdd (r : RingId)
  | ewAdd (r : RingId)
  | ewMul (r : RingId)
  | ewFma (r : RingId)
  | ewScale (r : RingId)
  | ewRelu (r : RingId)
  | ewGelu (r : RingId)
  | ewSilu (r : RingId)
  | ewTanh (r : RingId)
  | ewConvert (r : RingId)
  | ewKeep (r : RingId)
  | ewMask (r : RingId)
  | ewGumbelAdd (r : RingId)
  | ewGumbelMax (r : RingId)
  | reduceSum (r : RingId)
  | reduceMax (r : RingId)
  | reduceMin (r : RingId)
  | reduceNoisymax (r : RingId)
  | retireRow (r : RingId)
  | retireBankPair (r : RingId)
  | fenceStall (r : RingId)
  | fenceChannel (r : RingId)
  | fenceSite (r : RingId)
  | zeroizeFreeRows (r : RingId)
  | zeroizeLayout (r : RingId)
  | tally (r : RingId)
  | ledgerDrain (r : RingId)
  | drzSeed (r : RingId)
  | drzSeedDelete (r : RingId)
  -- progress of orders and receipts; an admitted order is named by its ring and its ring index
  | timedOrderComplete (r : RingId) (idx : Nat) (inp : EndpointInput)
  | lotStart (r : RingId) (idx : Nat)
  | heldReceiptWrite (r : RingId)
  -- AXI5-Lite accesses; sec is the world taken from AxPROT (R535)
  | doorbell (sec : Bool) (r : RingId) (v : W32)
  | rcpHeadWrite (sec : Bool) (r : RingId) (v : W32)
  | ringEnable (sec : Bool) (r : RingId) (depth : BitVec 5)
  | ringDisable (sec : Bool) (r : RingId) (depth : BitVec 5)
  | ringDepthWrite (sec : Bool) (r : RingId) (v : W32)
  | mbxNsInCommit (sec : Bool) (d : W32)
  | mbxSInCommit (sec : Bool) (d : W32)
  | mbxNsOutD15Read (sec : Bool)
  | mbxSOutD15Read (sec : Bool)
  | beatNowLoRead (sec : Bool)
  | stepNowLoRead (sec : Bool)
  | talBeatLoRead (sec : Bool)
  | talDataLoRead (sec : Bool)
  | cirPeakRead (sec : Bool)
  | ityFirstRead (sec : Bool)
  | secDenyRead (sec : Bool)
  | pwrPeakRead (sec : Bool)
  | debugUnlock (sec : Bool)
  | firewallEntryWrite (sec : Bool) (i : Fin 64) (word : Fin 3) (v : W32)
  | irqForceWrite (sec : Bool) (v : W32)
  | registerWrite (sec : Bool) (addr : Nat) (strb : BitVec 4) (v : W32)
  -- mailbox messages taken by the boot ROM or Drielm
  | imageDesc
  | imageDigest
  | digestCheckEnd (fetchOk : Bool) (image : Bytes)
  | keyLoad
  | keyClear
  | mark
  | status (sec : Bool)
  -- beats
  | beatStrobe (n : BitVec 48) (step : Option (BitVec 40))
  | sequencerStopped
  -- tiles, parcels, steps
  | tilePacket (src : Origin) (offset : Nat) (hdr : Order) (payload : Bytes)
  | tileContributionAdded (layout tile contrib : Nat)
  | parcelDispatch (s : SiteId) (layout parcel : Nat)
  | passSwitch (u : UnitId)
  | parcelSealWritten (u : UnitId) (layout parcel : Nat)
  | stallParityMismatch (u : UnitId) (layout parcel : Nat) (openCol : Bool) (first : Option FirstRead) (retry : RetryRead)
  | resealComplete (layout : Nat)
  | rollbackComplete (layout : Nat)
  -- exchange messages
  | queuePiece (node : BitVec 24) (hdr : Order) (payload : Bytes)
  | fetchRequest (node : BitVec 24) (hdr : Order)
  | fetchData (node : BitVec 24) (hdr : Order) (payload : Bytes)
  | fetchRefusal (node : BitVec 24) (hdr : Order)
  | fetchNoServeRetry (r : RingId) (idx : Nat)
  | fetchRangeReRequest (r : RingId) (idx : Nat)
  | fetchPullGiveUp (r : RingId) (idx : Nat)
  | close (node : BitVec 24) (epoch : BitVec 16) (reason : BitVec 8)
  | sync (node : BitVec 24) (epoch : BitVec 16) (reason : BitVec 8)
  | syncAck (node : BitVec 24) (epoch : BitVec 16) (reason : BitVec 8)
  | syncResend (node : BitVec 24)
  | linkDown
  | linkUp
  | graceEnd
  -- requester requests
  | requesterRead (p : PortId) (ns crit : Bool) (addr len : Nat)
  | requesterWrite (p : PortId) (ns posted : Bool) (addr : Nat) (data : Bytes)
  | narrowRead (o : Origin) (crit : Bool) (addr size : Nat)
  | narrowWrite (o : Origin) (addr : Nat) (data : Bytes)
  | narrowHoldRelease
  | fadd32 (p : PortId) (ns : Bool) (addr : Nat) (x : BitVec 32)
  | fmax32 (p : PortId) (ns : Bool) (addr : Nat) (x : BitVec 32)
  | fmin32 (p : PortId) (ns : Bool) (addr : Nat) (x : BitVec 32)
  | iadd32 (p : PortId) (ns : Bool) (addr : Nat) (x : BitVec 32)
  | iadd64 (p : PortId) (ns : Bool) (addr : Nat) (x : BitVec 64)
  | swap32 (p : PortId) (ns : Bool) (addr : Nat) (x : BitVec 32)
  | swap64 (p : PortId) (ns : Bool) (addr : Nat) (x : BitVec 64)
  | cas32 (p : PortId) (ns : Bool) (addr : Nat) (cmp x : BitVec 32)
  | cas64 (p : PortId) (ns : Bool) (addr : Nat) (cmp x : BitVec 64)
  | requestCompletion (id : Nat)
  | arbitrationGrant (pt : ArbPt) (ns : Nat)
  -- stack sites
  | sitePowerGood (s : SiteId)
  | trainingComplete (s : SiteId) (lanes : List (ChId × Nat))
  | retrainStart (s : SiteId) (c : ChId) (trig : RetrainTrig)
  | retrainComplete (s : SiteId) (c : ChId) (ok : Bool)
  | laneRepairRequest (s : SiteId) (c : ChId) (lane : BitVec 8)
  | laneRepairComplete (s : SiteId) (c : ChId)
  | commandParityAlert (s : SiteId) (c : ChId)
  | stackTrip (s : SiteId)
  | temperatureRead (s : SiteId) (readings : List (BitVec 11))
  | siteShutdownPowerOff (s : SiteId)
  | junctionRead (readings : List (BitVec 11))
  | refreshDue (s : SiteId) (c : ChId) (k : PairId)
  | refp (s : SiteId) (c : ChId) (k : PairId)
  | sfnc (s : SiteId) (c : ChId) (k : PairId)
  | rmap (s : SiteId) (c : ChId) (bank : Fin 16) (row : BitVec 16) (entry : BitVec 9) (valid : Bool)
  | seal (s : SiteId) (c : ChId) (bank : Fin 16) (row count : Nat)
  | pause (s : SiteId) (c : ChId) (k : PairId)
  | resume (s : SiteId) (c : ChId) (k : PairId)
  | rstw (s : SiteId) (c : ChId) (k : Option PairId) (word : Nat) (data : Col)
  | passd (s : SiteId) (c : ChId) (k : PairId) (data : Col)
  | latg (s : SiteId) (c : ChId) (k : PairId) (group : Nat) (data : Col)
  | statq (s : SiteId) (c : ChId) (k : PairId)
  | tempq (s : SiteId) (c : ChId)
  | bdreg (s : SiteId) (idx : Nat) (write : Option W32)
  -- stall instructions, issued on stall st
  | stallNop (st : StallId)
  | ld (st : StallId) (f : FmtM)
  | ldg (st : StallId) (f : FmtM)
  | stc (st : StallId) (f : FmtM)
  | stw (st : StallId) (f : FmtM)
  | bcst (st : StallId) (f : FmtM)
  | draw (st : StallId) (f : FmtM)
  | fma (st : StallId) (f : FmtV)
  | add (st : StallId) (f : FmtV)
  | mul (st : StallId) (f : FmtV)
  | min (st : StallId) (f : FmtV)
  | max (st : StallId) (f : FmtV)
  | abs (st : StallId) (f : FmtV)
  | sign (st : StallId) (f : FmtV)
  | sel (st : StallId) (f : FmtV)
  | cmp (st : StallId) (f : FmtV)
  | clamp (st : StallId) (f : FmtV)
  | cvt (st : StallId) (f : FmtV)
  | rsqrt (st : StallId) (f : FmtV)
  | rcp (st : StallId) (f : FmtV)
  | exp2 (st : StallId) (f : FmtV)
  | log2 (st : StallId) (f : FmtV)
  -- errors, scrub, spot checks
  | errorRetry (s : SiteId) (c : ChId) (bank row block : Nat) (first : FirstRead) (retry : RetryRead) (rd : Reader)
  | bucketLeakTick (s : SiteId) (c : ChId) (transient : Bool)
  | scrubRow (s : SiteId) (c : ChId)
  | scrubPassLate (s : SiteId) (c : ChId)
  | spotCheck (s : SiteId) (layout parcel : Nat) (memErr : Bool)
  | spotCheckSkip (s : SiteId) (layout parcel : Nat)
  -- faults
  | stallHardFault (st : StallId)
  | reliefEngineHardFault (s : SiteId)
  | reliefEngineRestartDone (s : SiteId)
  | siteControllerFault (s : SiteId)
  | fatalFault (writable : Bool)
  | clockLoss (clk : InClock) (writable : Bool)
  -- power, start-up, resets
  | powerOnReset
  | powerOnResetRelease
  | siteEnable
  | sitePowerGoodTimeout (s : SiteId)
  | selfTestComplete (s : SiteId) (t : SelfTest)
  | ready (t : ReadyTest)
  | blockReset
  | blockResetRelease
  | railPowerGoodLoss
  | sitePowerGoodLoss (s : SiteId)
  | squallHold
  | bus48WarnDeassert
  | squallHoldEnd
  | rippleStart
  | squallLate (i : Inst)
  | bus48Reset
  | bus48ResetRelease
  | peakLimiter (est : BitVec 11)
  | axiPortReset
  | testLogicReset
  -- TAP instructions
  | extest
  | idcode
  | samplePreload
  | wrapsel (s : SiteId)
  | dbgsel
  | bypass
  -- refusals and checks that have a row of their own
  | reservedEncodingOrder (r : RingId)
  | mailboxMessageMalformed (sec : Bool)
  | faultAllowanceExceeded (i : Inst)
deriving DecidableEq, Repr

end Sys2Proof
end

