-- ==== Sys2Proof/Decode.lean ====
section
/-! DEFINITION. The decoder of table words. spec/opcode_table.json gives no row any bits (the block is commanded
by orders, accesses, messages and events, not by words of its own), so no word spells a command. -/

namespace Sys2Proof

/-- The command a word spells by the table's bits: none, for the table gives no row bits (DESIGN CHOICE, log 61). -/
def decodeTableWord (_nbits _w : Nat) : Option Instr := none

end Sys2Proof
end

