-- ==== Sys2Proof/Machine/Bits.lean ====
section
/-! DEFINITION. Finite maps, byte memories, little-endian fields and CRC-32C: the plain helpers of every
other file. -/

namespace Sys2Proof.Machine

/-- The value a map holds at a key. -/
def kvGet {α : Type} : KV α → Nat → Option α
  | [], _ => none
  | (k, v) :: r, a => if a = k then some v else if a < k then none else kvGet r a

/-- The value at a key, or the default of an absent key. -/
def kvGetD {α : Type} (m : KV α) (a : Nat) (d : α) : α := (kvGet m a).getD d

/-- Set the value at a key, keeping keys strictly rising. -/
def kvPut {α : Type} : KV α → Nat → α → KV α
  | [], a, x => [(a, x)]
  | (k, v) :: r, a, x =>
    if a < k then (a, x) :: (k, v) :: r
    else if a = k then (a, x) :: r
    else (k, v) :: kvPut r a x

/-- Remove a key. -/
def kvDel {α : Type} : KV α → Nat → KV α
  | [], _ => []
  | (k, v) :: r, a => if a = k then r else (k, v) :: kvDel r a

/-- Is the key present? -/
def kvHas {α : Type} (m : KV α) (a : Nat) : Bool := (kvGet m a).isSome

/-- Keys strictly rising. -/
def kvWf {α : Type} : KV α → Bool
  | [] => true
  | [_] => true
  | (a, _) :: (b, y) :: r => decide (a < b) && kvWf ((b, y) :: r)

/-- A byte of memory; an unlisted address reads zero. -/
def memRead (m : Mem) (a : Nat) : Byte := kvGetD m a 0

/-- Write a byte, keeping the canonical form: a zero byte is not listed. -/
def memWrite (m : Mem) (a : Nat) (b : Byte) : Mem := if b = 0 then kvDel m a else kvPut m a b

/-- The canonical form of a byte memory: addresses strictly rising, no listed zero byte. -/
def memWf (m : Mem) : Bool := kvWf m && m.all (fun c => c.2 != 0)

/-- `n` bytes from address `a`. -/
def memReadN (m : Mem) (a : Nat) : Nat → Bytes
  | 0 => []
  | n + 1 => memRead m a :: memReadN m (a + 1) n

/-- Write bytes in ascending address order. -/
def memWriteN : Mem → Nat → Bytes → Mem
  | m, _, [] => m
  | m, a, b :: r => memWriteN (memWrite m a b) (a + 1) r

/-- Bytes as one little-endian number (R5). -/
def leNat : Bytes → Nat
  | [] => 0
  | b :: r => b.toNat + 256 * leNat r

/-- The low `n` bytes of a number, least significant first (R5). -/
def leBytes : Nat → Nat → Bytes
  | 0, _ => []
  | n + 1, x => BitVec.ofNat 8 x :: leBytes n (x / 256)

/-- Bits `lo .. lo+n-1` of a number. -/
def bitsOf (x lo n : Nat) : Nat := x / 2 ^ lo % 2 ^ n

/-- Bytes `b .. b+n-1` of an order, as a number (R57). -/
def fld (o : Order) (b n : Nat) : Nat := bitsOf o.toNat (8 * b) (8 * n)

/-- Bits `lo .. lo+n-1` of byte `b` onward of an order. -/
def fldBits (o : Order) (b lo n : Nat) : Nat := bitsOf o.toNat (8 * b + lo) n

/-- Byte `b` of an order. -/
def ordByte (o : Order) (b : Nat) : Byte := BitVec.ofNat 8 (fld o b 1)

/-- An order or message header of 64 bytes from bytes. -/
def orderOf (b : Bytes) : Order := BitVec.ofNat 512 (leNat (b.take 64))

/-- The bytes of an order or header. -/
def orderBytes (o : Order) : Bytes := leBytes 64 o.toNat

/-- The lowest of the byte positions `ps` whose byte is non-zero. -/
def lowestNonZero (o : Order) (ps : List Nat) : Option Nat := ps.find? (fun b => fld o b 1 != 0)

/-- Positions `a .. b`. -/
def span (a b : Nat) : List Nat := (List.range (b + 1 - a)).map (a + ·)

/-- Least element of a list of numbers, if any. -/
def leastOf : List Nat → Option Nat
  | [] => none
  | a :: r => match leastOf r with
    | none => some a
    | some b => some (Nat.min a b)

/-- Replace one element of a fixed group. -/
def updV {α : Type} {n : Nat} (v : Vector α n) (i : Fin n) (f : α → α) : Vector α n := v.set i (f v[i])

/-- Pad a list of bytes with zeros to a length. -/
def padTo (n : Nat) (b : Bytes) : Bytes := b ++ List.replicate (n - b.length) 0

/-- Is a power-of-two-free multiple test: `a` is a multiple of `m`. -/
def mulOf (a m : Nat) : Bool := a % m == 0

/-- Number of set bits among the low `n`. -/
def popcount (x n : Nat) : Nat := ((List.range n).filter (fun i => x.testBit i)).length

/-- Eight shift steps of CRC-32C, reflected polynomial 0x82F6_3B78 (R193). -/
def crcStep : Nat → BitVec 32 → BitVec 32
  | 0, c => c
  | n + 1, c =>
    crcStep n (if c.getLsbD 0 then (c >>> 1) ^^^ 0x82F63B78#32 else c >>> 1)

def crcAdd (c : BitVec 32) : Bytes → BitVec 32
  | [] => c
  | b :: r => crcAdd (crcStep 8 (c ^^^ b.zeroExtend 32)) r

/-- CRC-32C of a byte sequence (R193). -/
def crc32c (b : Bytes) : BitVec 32 := crcAdd 0xFFFFFFFF#32 b ^^^ 0xFFFFFFFF#32

/-- The 32 bytes of a column, byte 0 first. -/
def colBytes (c : Col) : Bytes := leBytes 32 c.toNat

/-- A column from bytes. -/
def colOf (b : Bytes) : Col := BitVec.ofNat 256 (leNat (b.take 32))

/-- Lane `j` of a register as 32 bits. -/
def lane (c : Col) (j : Nat) : W32 := c.extractLsb' (32 * j) 32

/-- A register from its eight lanes (R112: element i at bytes 4i to 4i+3). -/
def ofLanes (f : Nat → W32) : Col :=
  BitVec.ofNat 256 ((List.range 8).foldr (fun j acc => (f j).toNat + 2 ^ 32 * acc) 0)

/-- Half-word `j` of a column. -/
def half (c : Col) (j : Nat) : BitVec 16 := c.extractLsb' (16 * j) 16

/-- A column from its sixteen half-words. -/
def ofHalves (f : Nat → BitVec 16) : Col :=
  BitVec.ofNat 256 ((List.range 16).foldr (fun j acc => (f j).toNat + 2 ^ 16 * acc) 0)

end Sys2Proof.Machine
end

