-- ==== Sys2Proof/Machine/Crypto.lean ====
section
/-! DEFINITION. The ciphers and digest the spec takes from named standards: AES-256 with XTS (R508, IEEE 1619),
GMAC (R296, R510) and SHA-384 (R502, FIPS 180-4). -/

namespace Sys2Proof.Machine

/-- The AES S-box as one number, entry i at byte i. -/
def sboxN : Nat := 0x16bb54b00f2d99416842e6bf0d89a18cdf2855cee9871e9b948ed9691198f8e19e1dc186b95735610ef6034866b53e708a8bbd4b1f74dde8c6b4a61c2e2578ba08ae7a65eaf4566ca94ed58d6d37c8e779e4959162acd3c25c2406490a3a32e0db0b5ede14b8ee4688902a22dc4f816073195d643d7ea7c41744975fec130ccdd2f3ff1021dab6bcf5389d928f40a351a89f3c507f02f94585334d43fbaaefd0cf584c4a39becb6a5bb1fc20ed00d153842fe329b3d63b52a05a6e1b1a2c830975b227ebe28012079a059618c323c7041531d871f1e5a534ccf73f362693fdb7c072a49cafa2d4adf04759fa7dc982ca76abd7fe2b670130c56f6bf27b777c63
/-- The inverse S-box. -/
def invSboxN : Nat := 0x7d0c2155631469e126d677ba7e042b17619953833cbbebc8b0f52aae4d3be0a0ef9cc9939f7ae52d0d4ab519a97f51605fec8027591012b131c7078833a8dd1ff45acd78fec0db9a2079d2c64b3e56fc1bbe18aa0e62b76f89c5291d711af1476edf751ce837f9e28535ade72274ac9673e6b4f0cecff297eadc674f4111913a6b8a130103bdafc1020f3fca8f1e2cd00645b3b80558e4f70ad3bc8c00abd890849d8da75746155edab9edfd5048706c92b6655dcc5ca4d41698688664f6f87225d18b6d49a25b76b224d92866a12e084ec3fa420b954cee3d23c2a632947b54cbe9dec444438e3487ff2f9b8239e37cfbd7f3819ea340bf38a53630d56a0952

def sub8 (t : Nat) (b : Byte) : Byte := BitVec.ofNat 8 (t / 2 ^ (8 * b.toNat))

/-- Multiplication by x in the field of AES. -/
def xtime (b : Byte) : Byte := (b <<< 1) ^^^ (if b.getLsbD 7 then 0x1B else 0)

/-- Multiplication by a small constant in the field of AES. -/
def gmul (b : Byte) (k : Nat) : Byte :=
  let b2 := xtime b
  let b4 := xtime b2
  let b8 := xtime b4
  (if k.testBit 0 then b else 0) ^^^ (if k.testBit 1 then b2 else 0) ^^^ (if k.testBit 2 then b4 else 0)
    ^^^ (if k.testBit 3 then b8 else 0)

def xorB (a b : Bytes) : Bytes := List.zipWith (· ^^^ ·) a b

/-- The next word of the AES-256 key schedule from the words so far. -/
def keyWord (ws : List Bytes) (i : Nat) : Bytes :=
  let t := ws.getD (i - 1) []
  let t' := if i % 8 = 0 then
      let r := (t.drop 1 ++ t.take 1).map (sub8 sboxN)
      xorB r [1 <<< (i / 8 - 1), 0, 0, 0]
    else if i % 8 = 4 then t.map (sub8 sboxN) else t
  xorB (ws.getD (i - 8) []) t'

/-- Round keys of AES-256: 60 words of 4 bytes. -/
def keySchedule (key : Bytes) : List Bytes :=
  let w0 := (List.range 8).map (fun i => (key.drop (4 * i)).take 4)
  (List.range 52).foldl (fun ws j => ws ++ [keyWord ws (8 + j)]) w0

def roundKey (ks : List Bytes) (r : Nat) : Bytes := ((ks.drop (4 * r)).take 4).flatten

/-- Permute the 16 bytes of a state: byte i comes from byte `f i`. -/
def permB (f : Nat → Nat) (s : Bytes) : Bytes := (List.range 16).map (fun i => s.getD (f i) 0)

def shiftRows : Bytes → Bytes := permB (fun i => (i + 4 * (i % 4)) % 16)
def invShiftRows : Bytes → Bytes := permB (fun i => (i + 12 * (i % 4)) % 16)

/-- Mix one byte of a column with coefficients a, b, c, d. -/
def mixWith (a b c d : Nat) (s : Bytes) : Bytes :=
  (List.range 16).map (fun i =>
    let col := i / 4 * 4
    let g (k : Nat) := s.getD (col + (i + k) % 4) 0
    gmul (g 0) a ^^^ gmul (g 1) b ^^^ gmul (g 2) c ^^^ gmul (g 3) d)

/-- AES-256 of one block under a key schedule. -/
def aesEnc (ks : List Bytes) (p : Bytes) : Bytes :=
  let s0 := xorB p (roundKey ks 0)
  let s := (List.range 13).foldl (fun s r =>
    xorB (mixWith 2 3 1 1 (shiftRows (s.map (sub8 sboxN)))) (roundKey ks (r + 1))) s0
  xorB (shiftRows (s.map (sub8 sboxN))) (roundKey ks 14)

/-- The inverse of `aesEnc`. -/
def aesDec (ks : List Bytes) (c : Bytes) : Bytes :=
  let s0 := (invShiftRows (xorB c (roundKey ks 14))).map (sub8 invSboxN)
  let s := (List.range 13).foldl (fun s r =>
    (invShiftRows (mixWith 14 11 13 9 (xorB s (roundKey ks (13 - r))))).map (sub8 invSboxN)) s0
  xorB s (roundKey ks 0)

/-- Multiply an XTS tweak by the primitive element: a 128-bit number, byte 0 lowest. -/
def xtsMul (t : Nat) : Nat := if t.testBit 127 then (2 * t % 2 ^ 128) ^^^ 0x87 else 2 * t

/-- XTS over the blocks of a data unit. -/
def xtsBlocks (f : Bytes → Bytes) : Nat → Nat → Bytes → Bytes
  | 0, _, _ => []
  | n + 1, t, d =>
    let tb := leBytes 16 t
    xorB (f (xorB (d.take 16) tb)) tb ++ xtsBlocks f n (xtsMul t) (d.drop 16)

/-- XTS-AES-256 of one 64-byte data unit (R508). -/
def xtsUnit (enc : Bool) (k1 k2 : BitVec 256) (seq : Nat) (d : Bytes) : Bytes :=
  let ks1 := keySchedule (leBytes 32 k1.toNat)
  let t := leNat (aesEnc (keySchedule (leBytes 32 k2.toNat)) (leBytes 16 seq))
  xtsBlocks (if enc then aesEnc ks1 else aesDec ks1) 4 t d

/-! ### GMAC -/

/-- A block as a number whose most significant bit is bit 7 of byte 0 (SP 800-38D). -/
def beNat (b : Bytes) : Nat := b.foldl (fun a x => 256 * a + x.toNat) 0
def beBytes (n x : Nat) : Bytes := (leBytes n x).reverse

/-- Product in GF(2^128) of GCM. -/
def ghashMul (x y : Nat) : Nat :=
  ((List.range 128).foldl (fun (a : Nat × Nat) i =>
    let z := if x.testBit (127 - i) then a.1 ^^^ a.2 else a.1
    let v := if a.2.testBit 0 then (a.2 / 2) ^^^ (0xE1 * 2 ^ 120) else a.2 / 2
    (z, v)) (0, y)).1

/-- GHASH over whole blocks. -/
def ghash (h : Nat) : Nat → Nat → Bytes → Nat
  | 0, y, _ => y
  | n + 1, y, d => ghash h n (ghashMul (y ^^^ beNat (padTo 16 (d.take 16))) h) (d.drop 16)

/-- GMAC tag of a message under a 96-bit IV: GCM with the message as additional data and no plaintext. -/
def gmac (key : BitVec 256) (iv : Bytes) (msg : Bytes) : Bytes :=
  let ks := keySchedule (leBytes 32 key.toNat)
  let h := beNat (aesEnc ks (List.replicate 16 0))
  let n := cdiv msg.length 16
  let y := ghash h n 0 msg
  let y' := ghashMul (y ^^^ (msg.length * 8 * 2 ^ 64)) h
  xorB (beBytes 16 y') (aesEnc ks (iv.take 12 ++ [0, 0, 0, 1]))

/-! ### SHA-384 -/

def shaK0 : List (BitVec 64) := [
  0x428A2F98D728AE22, 0x7137449123EF65CD, 0xB5C0FBCFEC4D3B2F, 0xE9B5DBA58189DBBC,
  0x3956C25BF348B538, 0x59F111F1B605D019, 0x923F82A4AF194F9B, 0xAB1C5ED5DA6D8118,
  0xD807AA98A3030242, 0x12835B0145706FBE, 0x243185BE4EE4B28C, 0x550C7DC3D5FFB4E2,
  0x72BE5D74F27B896F, 0x80DEB1FE3B1696B1, 0x9BDC06A725C71235, 0xC19BF174CF692694,
  0xE49B69C19EF14AD2, 0xEFBE4786384F25E3, 0x0FC19DC68B8CD5B5, 0x240CA1CC77AC9C65,
  0x2DE92C6F592B0275, 0x4A7484AA6EA6E483, 0x5CB0A9DCBD41FBD4, 0x76F988DA831153B5,
  0x983E5152EE66DFAB, 0xA831C66D2DB43210, 0xB00327C898FB213F, 0xBF597FC7BEEF0EE4,
  0xC6E00BF33DA88FC2, 0xD5A79147930AA725, 0x06CA6351E003826F, 0x142929670A0E6E70,
  0x27B70A8546D22FFC, 0x2E1B21385C26C926, 0x4D2C6DFC5AC42AED, 0x53380D139D95B3DF,
  0x650A73548BAF63DE, 0x766A0ABB3C77B2A8, 0x81C2C92E47EDAEE6, 0x92722C851482353B]

def shaK1 : List (BitVec 64) := [
  0xA2BFE8A14CF10364, 0xA81A664BBC423001, 0xC24B8B70D0F89791, 0xC76C51A30654BE30,
  0xD192E819D6EF5218, 0xD69906245565A910, 0xF40E35855771202A, 0x106AA07032BBD1B8,
  0x19A4C116B8D2D0C8, 0x1E376C085141AB53, 0x2748774CDF8EEB99, 0x34B0BCB5E19B48A8,
  0x391C0CB3C5C95A63, 0x4ED8AA4AE3418ACB, 0x5B9CCA4F7763E373, 0x682E6FF3D6B2B8A3,
  0x748F82EE5DEFB2FC, 0x78A5636F43172F60, 0x84C87814A1F0AB72, 0x8CC702081A6439EC,
  0x90BEFFFA23631E28, 0xA4506CEBDE82BDE9, 0xBEF9A3F7B2C67915, 0xC67178F2E372532B,
  0xCA273ECEEA26619C, 0xD186B8C721C0C207, 0xEADA7DD6CDE0EB1E, 0xF57D4F7FEE6ED178,
  0x06F067AA72176FBA, 0x0A637DC5A2C898A6, 0x113F9804BEF90DAE, 0x1B710B35131C471B,
  0x28DB77F523047D84, 0x32CAAB7B40C72493, 0x3C9EBE0A15C9BEBC, 0x431D67C49C100D4C,
  0x4CC5D4BECB3E42B6, 0x597F299CFC657E2A, 0x5FCB6FAB3AD6FAEC, 0x6C44198C4A475817]

def shaK : List (BitVec 64) := shaK0 ++ shaK1
def shaH : List (BitVec 64) := [
  0xCBBB9D5DC1059ED8, 0x629A292A367CD507, 0x9159015A3070DD17, 0x152FECD8F70E5939,
  0x67332667FFC00B31, 0x8EB44A8768581511, 0xDB0C2E0D64F98FA7, 0x47B5481DBEFA4FA4]

/-- The message schedule of a 128-byte block. -/
def shaW (blk : Bytes) : List (BitVec 64) :=
  let w0 := (List.range 16).map (fun i => BitVec.ofNat 64 (beNat ((blk.drop (8 * i)).take 8)))
  (List.range 64).foldl (fun w i =>
    let g (k : Nat) : BitVec 64 := w.getD (i + 16 - k) 0
    let a := g 15
    let b := g 2
    let s0 := a.rotateRight 1 ^^^ a.rotateRight 8 ^^^ (a >>> 7)
    let s1 := b.rotateRight 19 ^^^ b.rotateRight 61 ^^^ (b >>> 6)
    w ++ [g 16 + s0 + g 7 + s1]) w0

/-- One compression. -/
def shaBlock (h : List (BitVec 64)) (blk : Bytes) : List (BitVec 64) :=
  let w := shaW blk
  let v := (List.range 80).foldl (fun (v : List (BitVec 64)) i =>
    let g (k : Nat) : BitVec 64 := v.getD k 0
    let e := g 4
    let a := g 0
    let t1 := g 7 + (e.rotateRight 14 ^^^ e.rotateRight 18 ^^^ e.rotateRight 41) + ((e &&& g 5) ^^^ (~~~e &&& g 6))
      + shaK.getD i 0 + w.getD i 0
    let t2 := (a.rotateRight 28 ^^^ a.rotateRight 34 ^^^ a.rotateRight 39)
      + ((a &&& g 1) ^^^ (a &&& g 2) ^^^ (g 1 &&& g 2))
    [t1 + t2, a, g 1, g 2, g 3 + t1, e, g 5, g 6]) h
  List.zipWith (· + ·) h v

def shaRun : Nat → List (BitVec 64) → Bytes → List (BitVec 64)
  | 0, h, _ => h
  | n + 1, h, d => shaRun n (shaBlock h (d.take 128)) (d.drop 128)

/-- SHA-384 of a message, 48 bytes (FIPS 180-4). -/
def sha384 (m : Bytes) : Bytes :=
  let z := (128 - (m.length + 17) % 128) % 128
  let p := m ++ [0x80] ++ List.replicate z 0 ++ beBytes 16 (8 * m.length)
  ((shaRun (p.length / 128) shaH p).take 6).flatMap (fun x => beBytes 8 x.toNat)

end Sys2Proof.Machine
end

