-- ==== Sys2Proof/Config.lean ====
section
/-! DEFINITION. What the spec leaves open: free values, opaque constants with no body. Nothing in Lean can
evaluate one or prove a value of it; a meaning applies one to operands, or to the counter `State.fresh`. -/

namespace Sys2Proof

/-- What a register of an FCS-48 base die may hold, of what the spec describes: an entry of the remap table of a bank
(channel × 16 + bank, entry; R434), the stall-fault flags of 32 pairs (R443), the record of a parity failure (R382), an
entry of the run list and a CRC-32C it returned (R414), and the flag ForceSeal (R415). -/
inductive BdReg where
  | plain
  | remap (bank entry : Nat)
  | stallFault (word : Nat)
  | parity
  | run (i : Nat)
  | crc (i : Nat)
  | forceSeal
deriving DecidableEq, Repr, Inhabited

end Sys2Proof

namespace Sys2Proof.Config

/-- Undefined bytes of a read (R9, R277, R304, R512, R516, Table MEM-11): the n-th free byte (DESIGN CHOICE, log 6). -/
opaque freeByte : Nat → Byte
/-- Which cached line makes room for another when the cache area is full (R353 names no rule; DESIGN CHOICE, log 7). -/
opaque cacheVictim : Nat → Nat
/-- Which of the binary64 values within 1 ulp of the exact result an SFU function returns in FP64 mode (R170; DEDUCED,
log 8): function code (Op of Table STL-4) and binary64 operand. -/
opaque sfuPick : Nat → BitVec 64 → Nat
/-- The value a base-die register reads whose content the spec does not give (R381 BDREG; DESIGN CHOICE, log 9):
site, register index. -/
opaque baseDieReg : Nat → Nat → W32
/-- What the base-die register of an index holds: the spec describes the contents and gives no index (DESIGN CHOICE, log
9). -/
opaque bdReg : Nat → BdReg
/-- The column run that an entry of the run list names (R414): its first column and its length, in a layout that is not
in the spec (DESIGN CHOICE, log 9). -/
opaque runOf : W32 → Nat × Nat
/-- How a base die records a command-parity failure of a channel (R382): the spec gives no layout (DESIGN CHOICE, log
9). -/
opaque parityRecord : Nat → Nat → W32
/-- A lane that failed training, which the event does not name (R388): DESIGN CHOICE, log 46. -/
opaque failedLane : Nat → BitVec 8
/-- Bits captured from the boundary register (R571: its layout is in the BSDL, not in the spec; DESIGN CHOICE, log 10).
-/
opaque boundaryBits : Nat → W32

/-- Length in ns of the wait for a retry, at most 200 (R423). -/
opaque retryNs : Nat → Nat

/-- How many column writes of a commit were done when a hard fault or a stack trip stopped the unit inside it
(R443, R446, R487 name no point; DESIGN CHOICE, log 30). -/
opaque cutAt : Nat → Nat
/-- The burst that STATQ returns for watch counters and status flags: its layout is not in the spec (DESIGN CHOICE, log
31). -/
opaque statqBurst : List Nat → Col
/-- A field of the burst of PASSD, whose layout is not in the spec: 0 prologue size, 1 body size, 2 StateLayout,
3 and 4 stream selectors, 5 Step, 6 and 7 seeds (DESIGN CHOICE, log 32). -/
opaque passField : Nat → Col → Nat
/-- A field of the parcel descriptor that LATG carries with group 0, whose layout is not in the spec: 0 the global index
of the first element, 1 the count of real elements, 2 the parcel number, 3 the state row, 4 the TensorId (DESIGN CHOICE,
log 32). -/
opaque latchField : Nat → Col → Nat
/-- The burst that TEMPQ returns for the sensor readings, whose layout is not in the spec (DESIGN CHOICE, log 31). -/
opaque tempqBurst : List (BitVec 11) → Col
/-- The histogram bin of a largest disagreement above 0 and below 2^-32, to which R253 gives none (DESIGN CHOICE, log
35). -/
opaque smallBin : Nat → Nat

end Sys2Proof.Config
end

