-- ==== Sys2Proof/Machine/State.lean ====
section
/-! DEFINITION. The state of the block as plain data, and the machine right after reset.
Docstrings name the rule or table of spec/ each field comes from; INVENTORY.md lists the reset values. -/

namespace Sys2Proof.Machine

/-- Reasons the machine stops. -/
inductive Fault where
  /-- Raised by the stall instruction meanings for a word whose mode or unused field is a reserved encoding
  (R141): the spec gives such a word no effect, and RULE_LOAD never lets one into a rule store (R231). Safe. -/
  | reservedEncoding
deriving DecidableEq, Repr

/-- Reasons the machine refuses a command. -/
inductive Refusal where
  /-- Raised by a dispatch arm of a command that has no meaning yet. Safe. -/
  | notModelled (mnemonic : String)
deriving DecidableEq, Repr

/-- Kind of a site (Table LAY-9, Table ITG-1). -/
inductive SiteKind where
  | none | fcs48 | hbm4 | hbm3e
deriving DecidableEq, Repr

/-- Integration parameters (R552, Table ITG-1), tie-offs that no command changes (R1). -/
structure Params where
  siteKind : Vector SiteKind 20
  awnMib : Nat
  reqNs : BitVec 16
  regBase : Nat
  winLayout : Nat
  winRing : Nat
  winStage : Nat
  winTile : Nat
  xchNode : Nat
  graceUs : Nat
  isoReqUp : Bool
  isoXchUp : Bool
  isoAxiReady : Bool
  isoSiteEn : Bool
  isoIrq : Bool
deriving DecidableEq, Repr

/-- The beat input (Table BEA-2). `start`, `lastStrobe` are ticks of the 1 GHz reference. -/
structure BeatSt where
  valid : Bool
  now : Nat
  start : Nat
  measured : W32
  status : W32
  stepValid : Bool
  step : Nat
  lastStrobe : Nat
deriving DecidableEq, Repr

/-- One world's latches of the LO and HI pairs (R542). -/
structure Latches where
  beatHi : BitVec 16
  stepHi : BitVec 8
  talBeatHi : BitVec 16
  talDataHi : BitVec 16
  talGen : BitVec 16
deriving DecidableEq, Repr

/-- Settings made by CONFIG (Table ORD-4, Table ITY-4, Table PWR-8, R528, R496). `period` 0 is not set. -/
structure Cfg where
  period : Nat
  rho : Nat
  budget : Nat
  spotLog : Nat
  slots : Nat
  scrubS : Nat
  lastThr : Nat
  lastLeak : Nat
  tranThr : Nat
  tranLeak : Nat
  suspectS : Nat
  spareLow : Nat
  cirPct : Nat
  hyst : Nat
  ledRec : Nat
  fillLevel : Nat
  fwDefault : Nat
deriving DecidableEq, Repr

/-- A receipt that is due and not yet written (R78, R81, R579). Word 0 is kept with Phase 0. -/
structure Held where
  /-- step of R78: 0 acceptance and refusal, 1 completion, 2 notice. -/
  cls : Nat
  /-- does writing it give back the entry that R80 reserved? -/
  owes : Bool
  due : Nat
  seq : Nat
  idx : Nat
  word0 : BitVec 64
  body : BitVec 192
  irqDone : Bool
deriving DecidableEq, Repr

/-- A ring and its receipt ring (Table ORD-1). Indices count modulo 2^17. -/
structure RingSt where
  depth : Nat
  enable : Bool
  head : Nat
  tail : Nat
  rcpHead : Nat
  rcpTail : Nat
  status : W32
  irq : W32
  owed : Nat
  held : List Held
deriving DecidableEq, Repr

/-- Work booked on one instance in one beat (R35); `served` lists the arbitration points that have run it (R345). -/
structure Booking where
  inst : Inst
  beat : Nat
  ns : Rat
  served : List Nat
deriving DecidableEq, Repr

/-- What an admitted order fixed at its admission. -/
inductive OrderCtx where
  | plain
  /-- EW: the stream's seed and the step drawn at admission (R266). -/
  | ew (seed step : Nat)
  /-- LEDGER_DRAIN: entries to copy, Seq of the first, entries dropped since the last drain (R530). -/
  | drain (n first lost : Nat)
  /-- TALLY: latch beat and generation once latched (R522). -/
  | tally (latched : Option (Nat × Nat))
  /-- ZEROIZE Scope 0: the row ranges fixed at admission (R513): bank key, first row, row after the last. -/
  | zeroFree (rows : List (Nat × Nat × Nat))
  /-- FETCH serve: the slot it reads (R276), pullers counted, and the byte ranges sent to each (R294). -/
  | serve (slot : Nat) (counted : List (Nat × Nat)) (sent : List ((Nat × Nat) × List (Nat × Nat)))
  /-- SNAPSHOT: the slot it reads (R276). -/
  | slot (v : Nat)
  /-- STASH_GET: the entry as it stood at admission (R316, Table STA-11). -/
  | entry (layout offset fmt count : Nat)
  /-- FETCH pull: ranges in place, tick of the last data, whether a NO_SERVE retry waits (R291-R293),
  beats past the due beat without data, reason of a refusal. -/
  | pull (got : List (Nat × Nat)) (lastData : Nat) (retry : Bool) (idle : Nat) (reason : Nat)
  /-- REDUCE: its source list as read when it was taken: layout, area, offset (R358). -/
  | reduce (srcs : List (Nat × Nat × Nat))
  /-- EXPORT: the slots of each named layout Readable at admission, when Versions is set (R276, R298). -/
  | image (masks : List (List Nat))
  /-- RETIRE of a row: the remap entry taken (R435). -/
  | retire (entry : Nat)
deriving DecidableEq, Repr

/-- An admitted timed order that is not complete (R26-R47). -/
structure InFlight where
  ring : Nat
  idx : Nat
  order : Order
  due : Nat
  admBeat : Nat
  seq : Nat
  booked : List Booking
  /-- expected completion beat of the last notice: none before the first notice (R45). -/
  late : Option Nat
  /-- cause of the last event of Table BEA-5 examined since admission (R46). -/
  lastEvent : Nat
  lotsTotal : Nat
  lotsStarted : Nat
  lotsDone : Nat
  /-- bytes of the Staging area that each lot in flight holds (R352); 0 for an order that stages nothing. -/
  stage : Nat
  /-- GATHER and SCATTER: the Cirrus tracker entries of each lot in flight, the oldest first (R364). -/
  entries : List Nat
  /-- the order met a lasting uncorrectable error (Table ITY-3): the Where of R289. -/
  bad : Option Nat
  ctx : OrderCtx
deriving DecidableEq, Repr

/-- An UPD_OPEN that has been taken and waits for its slot (R280), with its hyperparameter block as read when it
was taken (R173). -/
structure Waiting where
  ring : Nat
  idx : Nat
  order : Order
  hyper : List W32
deriving DecidableEq, Repr

/-- A mailbox (R89): words D0 to D15, Full, IrqEn. -/
structure Mbx where
  d : Vector W32 16
  full : Bool
  irqEn : Bool
deriving DecidableEq, Repr

/-- A STATUS answer that waits for its outbound mailbox (R578): code and Seq of the message answered. -/
structure Answer where
  code : BitVec 8
  seq : BitVec 8
deriving DecidableEq, Repr

/-- A segment of a descriptor (Table LAY-4). -/
structure Segment where
  tensor : Nat
  first : Nat
  count : Nat
deriving DecidableEq, Repr

/-- Version slot states (Table VER-1). -/
inductive SlotSt where
  | released
  | filling
  | readable (v : Nat)
  | draining (v : Nat)
deriving DecidableEq, Repr

/-- Shard update states (Table UPD-4). -/
inductive ShardSt where
  | unfilled | idle | isOpen | resealing | torn | rolling | damaged
deriving DecidableEq, Repr

/-- The last close of a shard (R199): body of the receipt, Attempt, RuleId and the body of that rule, slot, and whether
guarded. -/
structure CloseRec where
  body : BitVec 192
  hasBody : Bool
  attempt : Nat
  ruleId : Nat
  rule : List W32
  slot : Nat
  guarded : Bool
deriving DecidableEq, Repr

/-- A contribution whose addition into its slot is in progress (R184). -/
structure Adding where
  contrib : Nat
  src : Origin
  hdr : Order
  payload : Bytes
  /-- copies that wait for this addition to be answered ACK_DUP. -/
  dups : List (Origin × Order)
deriving DecidableEq, Repr

/-- A tile that holds a reduction slot (R187, R188). -/
structure Tile where
  bits : List Nat
  adding : List Adding
  acc : List W32
deriving DecidableEq, Repr

/-- A parcel dispatched whose seal is not yet written: its unit and retained gradient (R192), how often it has been
dispatched again (R205), and the UndoCrc of its pre-image as the controller records it (R204). -/
structure Disp where
  unit : UnitId
  grad : List (BitVec 16)
  tries : Nat
  undoCrc : Nat
  /-- a pre-image that must be restored before the parcel is applied again (R204). -/
  restore : Bool
deriving DecidableEq, Repr

/-- An update in progress (Table UPD-1 fields, R177). -/
structure Upd where
  ring : Nat
  idx : Nat
  tag : Nat
  seq : Nat
  due : Nat
  ruleId : Nat
  slot : Nat
  step : Nat
  attempt : Nat
  d : Nat
  localN : Nat
  portMask : BitVec 16
  guarded : Bool
  holdTile : Bool
  clip : Bool
  clipFactor : W32
  stream0 : Nat
  stream1 : Nat
  seed0 : BitVec 64
  seed1 : BitVec 64
  share : Nat
  hyper : List W32
  tiles : KV Tile
  ripe : KV Bool
  /-- the seam entry: tile and reduced gradient of the part of a straddling parcel that is there (R111, R191). -/
  seam : KV (Nat × List W32)
  ready : KV (List (BitVec 16))
  disp : KV Disp
  sealed : KV Bool
  /-- parcels left open by a hard fault (R444, R446). -/
  cut : KV Bool
  zeros : Nat
  sats : Nat
  nfGrad : Nat
  nfStore : Nat
  sumSq : W32
  heldTiles : Nat
  /-- contributions answered ACK_NEW through requester ports, and through the exchange port (R576). -/
  gotLocal : Nat
  gotRemote : Nat
  /-- set once the step ends by a held tile, an uncorrectable parcel or UPD_ABORT: Reason of Table UPD-12 and
  its Count. -/
  ending : Option (Nat × Nat)
deriving DecidableEq, Repr

/-- The record of an owned shard (06). -/
structure Shard where
  st : ShardSt
  step : Nat
  expected : Option Nat
  last : Option CloseRec
  prev : Option CloseRec
  aborted : Option (Nat × Nat)
  undo : Option Nat
  badUndo : List Nat
  upd : Option Upd
deriving DecidableEq, Repr

/-- A defined layout (04). `masks` are the live masks of the span at definition, which fix its placement
(R118, R119); `enc` is the XTS key slot of an encrypted layout (R506). -/
structure Layout where
  desc : Bytes
  kind : Nat
  stateLayout : Nat
  workFormat : Nat
  slots : Nat
  guarded : Bool
  arrivalDesc : Bool
  isOpen : Bool
  segs : List Segment
  span : BitVec 20
  length : Nat
  rowBase : Nat
  bandRows : Nat
  epoch : BitVec 16
  masks : List (Nat × BitVec 32)
  enc : Option Nat
  slotSt : List SlotSt
  shard : Shard
deriving DecidableEq, Repr

/-- A rule program held under a RuleId (R217, R227). -/
structure Rule where
  stateLayout : Nat
  prologue : List W32
  body : List W32
  auxStore : Nat
  mixMaster : Bool
deriving DecidableEq, Repr

/-- A Drizzle stream (R263). -/
structure Stream where
  seed : BitVec 64
  step : Nat
deriving DecidableEq, Repr

/-- Stash entry states (R314). -/
inductive StashSt where
  | filling | live | freeing
deriving DecidableEq, Repr

/-- An entry of the stash directory (R314). -/
structure Stash where
  layout : Nat
  offset : Nat
  fmt : Nat
  count : Nat
  st : StashSt
deriving DecidableEq, Repr

/-- A part of a micro-batch queue (Table STA-5). -/
structure QPart where
  count : Nat
  wire : Nat
  store : Nat
  residual : Bool
deriving DecidableEq, Repr

/-- A queue slot record (R328). -/
structure QSlot where
  occ : Option Nat
  full : Bool
  bits : List (Nat × Nat)
  highest : Option Nat
deriving DecidableEq, Repr

/-- A micro-batch queue (R321) with its registers (Table STA-9). -/
structure Queue where
  defined : Bool
  layout : Nat
  depth : Nat
  parts : List QPart
  reserve : Nat
  /-- the beat of the Define: the reserve is booked in every later one (Table STA-4). -/
  since : Nat
  slots : KV QSlot
  irqEn : Bool
deriving DecidableEq, Repr

/-- A parcel descriptor (R130): parcel number, state row, TensorId, global index of the first element, and the count of
real elements. -/
structure PDesc where
  num : Nat
  row : Nat
  tensor : Nat
  base : Nat
  realCount : Nat
deriving DecidableEq, Repr

/-- The modes of a relief engine (R168). -/
inductive EngMode where
  | rule | ew | fp64
deriving DecidableEq, Repr

/-- A stall or relief engine as it runs a pass (Table STL-1, R130, R134). -/
structure Stall where
  regs : KV Col
  latch : List (BitVec 16)
  rule : List W32
  nPro : Nat
  nBody : Nat
  /-- the 32 bytes of the last PASSD burst, whose layout the spec does not give. -/
  desc : Col
  stateLayout : Nat
  workFormat : Nat
  mixMaster : Bool
  /-- step, stream identifiers and seeds of the pass (PASSD, Table STK-4). -/
  step : Nat
  stream0 : Nat
  stream1 : Nat
  seed0 : BitVec 64
  seed1 : BitVec 64
  hyper : List W32
  /-- the pass: layout, 0 when no pass runs; and the parcel in work. -/
  layout : Nat
  parcel : Option Nat
  /-- the descriptor of the parcel in the latch (R130): parcel number, state row, TensorId, base and count. -/
  num : Nat
  row : Nat
  tensor : Nat
  base : Nat
  realCount : Nat
  /-- groups whose LDG has issued for that parcel, and the descriptor that came with group 0 of the next (R130). -/
  issued : List Nat
  next : Option PDesc
  mode : EngMode
  /-- passes entered in a beat: the beat and the layouts (R153). -/
  entered : Nat × List Nat
  group : Nat
  cursor : Nat
  commit : KV Col
  wcodes : List Nat
  wscales : List Byte
  /-- MX block in progress: value, random word, real, stochastic (R238). -/
  wpend : List (W32 × W32 × Bool × Bool)
  zeros : Nat
  sats : Nat
  nfStore : Nat
  nfGrad : Nat
  windowOpen : Bool
  paused : Bool
  fault : Bool
deriving DecidableEq, Repr

/-- A kind of hold of a channel (R391). -/
inductive HoldKind where
  | retrain | repair
deriving DecidableEq, Repr

/-- A channel of a site (12, 13). -/
structure Chan where
  spares : Nat
  hold : Option HoldKind
  holdStart : Nat
  /-- the retrain or repair has not begun to hold, a commit window being open (R391). -/
  waitWindow : Bool
  pendRetrain : Bool
  /-- lane repairs that wait for the end of the hold, in the order they were requested (R393). -/
  pendRepair : List (BitVec 8)
  lane : BitVec 8
  /-- the lane map: the lanes that run on spare lanes, the first spare first (R388, R392). -/
  laneMap : List (BitVec 8)
  fails : Nat
  parity : List Nat
  tempRef : Option Nat
  lasting : Nat
  tran : Nat
  lastOver : Bool
  tranOver : Bool
  clearTran : Bool
  corrected : W32
  uncorr : BitVec 16
  openReads : BitVec 16
  scrubPos : Nat
  scrubPasses : Nat
  /-- start of the scrub pass in progress (R418, R420). -/
  scrubFrom : Nat
deriving DecidableEq, Repr

/-- What the registers of an FCS-48 base die hold that the spec describes: the record of a command-parity failure
(R382), the run list of a SEAL and the CRC-32C values it returned (R414), and the flag ForceSeal (R415). -/
structure BaseDie where
  parity : W32
  runs : KV W32
  crcs : List W32
  forceSeal : Bool
deriving DecidableEq, Repr

/-- A stack site (Table STK-5, 14, 15). -/
structure Site where
  live : BitVec 32
  state : BitVec 2
  selfRefresh : Bool
  cke : Bool
  lastChannel : BitVec 5
  retrainCount : BitVec 8
  repairCount : BitVec 8
  temp : BitVec 11
  hotSensor : BitVec 5
  level : Nat
  trip : Bool
  lane : BitVec 32
  event : W32
  powerEn : Bool
  powerGood : Bool
  tested : Bool
  fenced : Bool
  shutdown : Bool
  reliefDown : Bool
  reliefRestarted : Bool
  reliefFaults : List Nat
  dispatched : Nat
  suspects : List (Nat × Nat)
  rippled : Bool
  /-- the sensor readings as last read (R398), and the level of STK_TRIP (R399). -/
  readings : List (BitVec 11)
  tripPin : Bool
  die : BaseDie
  /-- since when a channel of the site has been held (R394), work of a fenced stall has waited for its relief (R444),
  the relief engine has been restarting (R446). -/
  holdFrom : Option Nat
  stallFrom : Option Nat
  reliefFrom : Option Nat
  /-- the tick at which a stall of the site last ran a parcel, and the last start by stall groups: its tick and its first
  channel (R476). -/
  ranTs : Nat
  groups : Option (Nat × Nat)
deriving DecidableEq, Repr

/-- Completion statuses (Table MEM-2). -/
inductive Cpl where
  | unmapped | denied | lost | poison | ok
deriving DecidableEq, Repr

/-- Messages the block sends at its boundary, in the order it sends them (DESIGN CHOICE, log 2). -/
inductive Emit where
  | completion (o : Origin) (id : Nat) (c : Cpl) (data : Bytes)
  | tileAck (src : Origin) (ack : BitVec 256)
  | pieceAck (node : BitVec 24) (ack : BitVec 256)
  | xch (node : BitVec 24) (hdr : Order) (payload : Bytes)
  | control (node : BitVec 24) (msg : BitVec 256)
  | endpoint (path node addr : Nat) (data : Bytes)
  | stack (s : SiteId) (data : Col)
deriving DecidableEq, Repr

/-- A stream to a peer node (R454). -/
inductive XState where
  | up | down | closed | syncing
deriving DecidableEq, Repr

/-- A stream record (R454, R455). -/
structure XStream where
  epoch : BitVec 16
  st : XState
  /-- tick of the last traffic, or of coming Up. -/
  lastUse : Nat
  /-- an outbound message is not confirmed by the link layer (R455). -/
  unconfirmed : Bool
  /-- data deliveries sent that the link layer has not confirmed, oldest first (R459). -/
  unacked : List Emit
  /-- Reason of the last SYNC sent (Table FLT-7). -/
  reason : BitVec 8
deriving DecidableEq, Repr

/-- A spot check that waits (R249): the kept row, gradient, and what the commit stored. -/
structure Spot where
  site : Nat
  layout : Nat
  parcel : Nat
  step : Nat
  unit : UnitId
  row : List Col
  grad : List (BitVec 16)
  ctx : Stall
  committed : Bool
  sealedAt : Nat
deriving DecidableEq, Repr

/-- Functions of the atomics (Table MEM-7). -/
inductive AtomKind where
  | fadd | fmax | fmin | iadd | swap | cas
deriving DecidableEq, Repr

/-- An access to a layout that has been accepted and has yet to be performed: layout, area, offset. -/
inductive ReqOp where
  | read (id area off n : Nat)
  | write (id area off : Nat) (data : Bytes)
  | atomic (id area off n : Nat) (k : AtomKind) (cmp x : Nat)
deriving DecidableEq, Repr

/-- An accepted request: one that waits for the close of a commit window (R150), for its data or for its completion
(R339). A posted write is listed only while it waits for a close. -/
structure PendReq where
  id : Nat
  origin : Origin
  narrow : Bool
  posted : Bool
  cpl : Cpl
  data : Bytes
  granted : Bool
  /-- stack columns the access touches. -/
  cols : List Nat
  /-- what is still to be performed, once no window keeps it out. -/
  op : Option ReqOp
deriving DecidableEq, Repr

/-- A narrow access held at its ingress (R365). -/
structure HeldNarrow where
  origin : Origin
  crit : Bool
  addr : Nat
  size : Nat
  write : Option Bytes
deriving DecidableEq, Repr

/-- A waiting item of an arbitration point: class 0, 2 or 3 (Table MEM-3) and the request it stands for. -/
structure ArbItem where
  cls : Nat
  id : Nat
deriving DecidableEq, Repr

/-- An arbitration point in the current beat (R345). -/
structure Arb where
  beat : Nat
  used0 : Nat
  used3 : Nat
  waiting : List ArbItem
deriving DecidableEq, Repr

/-- A line of the Awning cache (R353): 256 bytes. -/
structure Line where
  dirty : Bool
  data : Bytes
deriving DecidableEq, Repr

/-- The resets of Table PWR-4 that hold the block. -/
inductive ResetKind where
  | powerOn | block | bus48
deriving DecidableEq, Repr

/-- Power, heat and start-up (Table PWR-9). -/
structure Power where
  phase : Nat
  inReset : Option ResetKind
  /-- a rail failed: only a new BLK_PORST_N cycle ends the reset (R567). -/
  needPorst : Bool
  warn : Bool
  rst48 : Bool
  squall : Bool
  squallStart : Nat
  /-- tick at which BUS48_WARN_N will have stayed deasserted for 50 µs, from a deassertion on (R472, R481, R493). -/
  clearAt : Option Nat
  limiter : Bool
  juncLevel : Nat
  irq : W32
  irqEn : W32
  est : BitVec 11
  peak : BitVec 11
  junc : BitVec 11
  juncSensor : BitVec 3
  squallCount : BitVec 16
  lastUs : BitVec 16
  resetCause : W32
  selfTest : W32
  /-- next site and stall group of the ripple start (R476, R477). -/
  ripple : Option (Nat × Nat)
  alertN : Bool
  /-- the parameter check of R555 has not failed, or its failure has been answered. -/
  paramOk : Bool
  /-- ports that failed their loopback (Table PWR-3). -/
  badPorts : BitVec 16
  /-- start of the part of a squall hold that has not been charged yet (R39). -/
  squallFrom : Nat
deriving DecidableEq, Repr

/-- The boot ROM and the Drielm image (R503). -/
structure Boot where
  desc : Option (Vector W32 5)
  digest : Option (Vector W32 12)
  checking : Bool
  answerSeq : BitVec 8
  verified : Bool
  major : BitVec 8
  minor : BitVec 8
deriving DecidableEq, Repr

/-- A key slot (R501, R505): use 0 empty, 1 XTS (data key, tweak key), 2 GMAC (key, 0). -/
structure Key where
  use : Nat
  k0 : BitVec 256
  k1 : BitVec 256
  /-- pending part of an XTS key: part number and bits. -/
  pend : Option (Nat × BitVec 256)
deriving DecidableEq, Repr

/-- A firewall entry (Table SEC-4). -/
structure FwEntry where
  range : W32
  ports : W32
  attr : W32
  denied : W32
deriving DecidableEq, Repr

/-- Security (16). -/
structure Sec where
  debugLock : Bool
  keys : Vector Key 16
  deny : W32
  fw : Vector FwEntry 64
deriving DecidableEq, Repr

/-- The Tally (17): counters and shadows by index, and by group the generation of its last latch. -/
structure Tally where
  ctr : KV Nat
  shadow : KV Nat
  groupGen : KV Nat
  gen : Nat
  latchBeat : Nat
  index : BitVec 13
deriving DecidableEq, Repr

/-- The Ledger (17): unread entries, oldest first; `head` is the Seq of the oldest. -/
structure Ledger where
  entries : List (BitVec 256)
  head : Nat
  lost : W32
  irq : W32
  irqEn : W32
  sel : BitVec 16
  lostNext : Bool
  dropped : Nat
deriving DecidableEq, Repr

/-- What waits for open windows to close (R12, R439): scope 0 a fence of a stall, 1 of a channel, 2 of a site, 3 a pause
of a stall, 4 the damage of the layout numbered `site` by a fence (R452), 5 a SEAL, 6 an RMAP, 7 a REFP, of bank pair
`pair`, with the operands of the command; and the FENCE order (ring, index, order) whose DONE receipt follows it. -/
structure Deferred where
  scope : Nat
  site : Nat
  ch : Nat
  pair : Nat
  args : List Nat
  ord : Option (Nat × Nat × Order)
deriving DecidableEq, Repr

/-- The TAP (R571): the instruction in effect, what its data register reads, the wrapper it reaches, and whether it
reaches the debug module. -/
structure Tap where
  ir : BitVec 8
  dr : W32
  wrap : Option SiteId
  dbg : Bool
deriving DecidableEq, Repr

/-- Integrity, fault and management registers that stand alone (Table ITY-8, Table FLT-10). -/
structure Regs where
  ordIrq : W32
  ordSirq : W32
  ready : Bool
  drielmMajor : BitVec 8
  drielmMinor : BitVec 8
  irqForce : W32
  queIrq : W32
  cirStatus : W32
  cirPeak : BitVec 21
  ityIrq : W32
  ityEn : W32
  itySel : W32
  ityFirst : W32
  fltIrq : W32
  fltEn : W32
  fltSel : W32
  faults : BitVec 16
  linkDowns : BitVec 16
  foldEpoch : BitVec 16
  /-- last response of the AXI5-Lite port: 0 OKAY, 2 SLVERR, and last read data. -/
  axiResp : BitVec 2
  axiData : W32
deriving DecidableEq, Repr

/-- The block. -/
structure State where
  pending : List Instr
  par : Params
  ts : Nat
  beat : BeatSt
  latNs : Latches
  latS : Latches
  cfg : Cfg
  rings : Vector RingSt 5
  turn : Nat
  awn : Mem
  stage : Mem
  inflight : List InFlight
  waiting : List Waiting
  seq : Nat
  charges : List (Inst × Nat × Nat)
  squallDebt : List (Inst × Nat × Nat)
  /-- stall time that interposed accesses and refresh took from a pair: the beat, and ns in it (R152). -/
  pairSpent : KV (Nat × Nat)
  regs : Regs
  mbxNsIn : Mbx
  mbxNsOut : Mbx
  mbxSIn : Mbx
  mbxSOut : Mbx
  ansNs : List Answer
  ansS : List Answer
  layouts : KV Layout
  rules : KV Rule
  streams : KV Stream
  stash : KV Stash
  queues : Vector Queue 16
  dram : Mem
  chk : KV (BitVec 36)
  remap : KV (Nat × Bool)
  cache : KV Line
  units : KV Stall
  fencedStalls : KV Bool
  refreshDebt : KV Int
  /-- the refresh pointer of a pair: the next of the 46,234 rows of its banks (R395, Table STK-4). -/
  refreshPtr : KV Nat
  sites : Vector Site 20
  chans : KV Chan
  spots : List Spot
  defer : List Deferred
  outst : List PendReq
  nextReq : Nat
  tracker : Nat
  heldNarrow : List HeldNarrow
  arb : KV Arb
  xstreams : KV XStream
  link : Nat
  /-- since when the exchange link has been down and within its grace period (R39). -/
  linkFrom : Option Nat
  /-- tick at which the exchange link last went down. -/
  linkAt : Nat
  /-- outbound messages held for want of a stream record (R455). -/
  xheld : List (Nat × Emit)
  power : Power
  boot : Boot
  sec : Sec
  tally : Tally
  led : Ledger
  tap : Tap
  bdregs : KV W32
  fatal : Bool
  /-- the receipts of one cycle gather, to be written in the sequence of R78 (DESIGN CHOICE, log 41): false between
  commands. -/
  batching : Bool
  out : List Emit
  fresh : Nat
deriving DecidableEq, Repr

/-- Default integration parameters (Table ITG-1). -/
def Params.default : Params where
  siteKind := Vector.replicate 20 .fcs48
  awnMib := 512
  reqNs := 0xFFFF
  regBase := 0
  winLayout := 0x0100_0000_0000_0000
  winRing := 0x0000_0040_0000_0000
  winStage := 0x0000_0040_0200_0000
  winTile := 0x0000_0040_0240_0000
  xchNode := 0
  graceUs := 100
  isoReqUp := false
  isoXchUp := false
  isoAxiReady := false
  isoSiteEn := false
  isoIrq := false

/-- Reset values of the ring registers (Table ORD-1): CFG 0x0000_0110, the rest zero. -/
def RingSt.reset : RingSt where
  depth := 16
  enable := true
  head := 0
  tail := 0
  rcpHead := 0
  rcpTail := 0
  status := 0
  irq := 0
  owed := 0
  held := []

/-- The live mask of a site by population (Table LAY-9). -/
def SiteKind.liveMask : SiteKind → BitVec 32
  | .none => 0
  | .fcs48 => 0xFFFFFFFF
  | .hbm4 => 0xFFFFFFFF
  | .hbm3e => 0x0000FFFF

/-- A site before its power-up: every register of Table STK-5 zero, live mask by population (Table LAY-9). -/
def Site.reset (k : SiteKind) : Site where
  live := k.liveMask
  state := 0
  selfRefresh := false
  cke := false
  lastChannel := 0
  retrainCount := 0
  repairCount := 0
  temp := 0
  hotSensor := 0
  level := 0
  trip := false
  lane := 0
  event := 0
  powerEn := false
  powerGood := false
  tested := false
  fenced := false
  shutdown := false
  reliefDown := false
  reliefRestarted := false
  reliefFaults := []
  dispatched := 0
  suspects := []
  rippled := false
  readings := []
  tripPin := false
  die := ⟨0, [], [], false⟩
  holdFrom := none
  stallFrom := none
  reliefFrom := none
  ranTs := 0
  groups := none

/-- The test logic after its reset: IEEE 1149.1 puts IDCODE in effect where there is an identification register
(PRESUMED, log 36). -/
def Tap.reset : Tap where
  ir := 0x01
  dr := 0xB0020C93
  wrap := none
  dbg := false

def Mbx.reset : Mbx where
  d := Vector.replicate 16 0
  full := false
  irqEn := false

def Latches.reset : Latches where
  beatHi := 0
  stepHi := 0
  talBeatHi := 0
  talDataHi := 0
  talGen := 0

def Queue.reset : Queue where
  defined := false
  layout := 0
  depth := 0
  parts := []
  reserve := 0
  since := 0
  slots := []
  irqEn := false

def Key.empty : Key where
  use := 0
  k0 := 0
  k1 := 0
  pend := none

def FwEntry.reset : FwEntry where
  range := 0
  ports := 0
  attr := 0
  denied := 0

/-- CONFIG defaults (Table ORD-4, Table ITY-4, Table PWR-8, R528, R496); the slot count is capacity / 128 KiB. -/
def Cfg.reset (awnMib : Nat) : Cfg where
  period := 0
  rho := 80
  budget := 1300
  spotLog := 20
  slots := awnMib * 8
  scrubS := 3600
  lastThr := 32
  lastLeak := 1000
  tranThr := 8
  tranLeak := 1000
  suspectS := 3600
  spareLow := 16
  cirPct := 25
  hyst := 3
  ledRec := 1
  fillLevel := 49152
  fwDefault := 0

/-- The block with parameters `p` right after a reset, in start-up phase 1 (Table PWR-2): registers at their
reset values; `cause` is what HT_PWR_RESET_CAUSE holds. -/
def State.resetWith (p : Params) (cause : W32) : State where
  pending := []
  par := p
  ts := 0
  beat := ⟨false, 0, 0, 0, 0, false, 0, 0⟩
  latNs := Latches.reset
  latS := Latches.reset
  cfg := Cfg.reset p.awnMib
  rings := Vector.replicate 5 RingSt.reset
  turn := 0
  awn := []
  stage := []
  inflight := []
  waiting := []
  seq := 0
  charges := []
  squallDebt := []
  pairSpent := []
  regs := ⟨0, 0, false, 0, 0, 0, 0, 0, 0, 0, 0, 0, 0, 0, 0, 0, 0, 0, 0, 0, 0⟩
  mbxNsIn := Mbx.reset
  mbxNsOut := Mbx.reset
  mbxSIn := Mbx.reset
  mbxSOut := Mbx.reset
  ansNs := []
  ansS := []
  layouts := []
  rules := []
  streams := []
  stash := []
  queues := Vector.replicate 16 Queue.reset
  dram := []
  chk := []
  remap := []
  cache := []
  units := []
  fencedStalls := []
  refreshDebt := []
  refreshPtr := []
  sites := p.siteKind.map Site.reset
  chans := []
  spots := []
  defer := []
  outst := []
  nextReq := 0
  tracker := 0
  heldNarrow := []
  arb := []
  xstreams := []
  link := 0
  linkFrom := none
  linkAt := 0
  xheld := []
  power :=
    { phase := 1, inReset := none, needPorst := false, warn := false, rst48 := false, squall := false,
      squallStart := 0, clearAt := none, limiter := false, juncLevel := 0, irq := 0, irqEn := 0,
      est := 0, peak := 0, junc := 0, juncSensor := 0, squallCount := 0, lastUs := 0,
      resetCause := cause, selfTest := 0, ripple := none, alertN := true, paramOk := true,
      badPorts := 0, squallFrom := 0 }
  boot := ⟨none, none, false, 0, false, 0, 0⟩
  sec := ⟨true, Vector.replicate 16 Key.empty, 0, Vector.replicate 64 FwEntry.reset⟩
  tally := ⟨[], [], [], 0, 0, 0⟩
  led := ⟨[], 0, 0, 0, 0, 0, false, 0⟩
  tap := Tap.reset
  bdregs := []
  fatal := false
  batching := false
  out := []
  fresh := 0

/-- The machine right after power-on reset, with the default integration parameters (Table PWR-4, R543). -/
def State.reset : State := State.resetWith Params.default 1

end Sys2Proof.Machine
end

