-- ==== Sys2Proof/Machine/Place.lean ====
section
/-! DEFINITION. Tensor layout and placement (04 LAY): shard index order, parcels, the interleave sequence, bands
and the position of every column. -/

namespace Sys2Proof.Machine

/-- Parcel size n of a state layout (section Parameter order, parcels and tiles). -/
def parcelSize (sl : Nat) : Nat := if sl = 1 then 160 else if sl = 2 then 240 else 248

/-- State columns u of a parcel (R112). -/
def stateCols (sl : Nat) : Nat := if sl = 3 then 62 else 60

/-- Bits of one short weight (Table LAY-3, R114). -/
def weightBits (wf : Nat) : Nat :=
  if wf ≤ 2 then 16 else if wf ≤ 6 then 8 else if wf ≤ 8 then 6 else 4

/-- Is the working format an MX format? -/
def isMx (wf : Nat) : Bool := decide (5 ≤ wf)

/-- Bytes of the short weights of one parcel, scales included (R113). -/
def footBytes (sl wf : Nat) : Nat :=
  parcelSize sl * weightBits wf / 8 + (if isMx wf then parcelSize sl / 32 else 0)

/-- Columns w per parcel per version slot (Table LAY-8). -/
def footprint (sl wf : Nat) : Nat := cdiv (footBytes sl wf) 32

/-- Is the site kind FCS-48? -/
def isFcs (s : State) (site : Nat) : Bool :=
  if h : site < 20 then decide (s.par.siteKind[site] = .fcs48) else false

/-- The kind of a site. -/
def kindOf (s : State) (site : Nat) : SiteKind :=
  if h : site < 20 then s.par.siteKind[site] else .none

/-- Sites of a span, ascending. -/
def spanSites (m : BitVec 20) : List Nat := (List.range 20).filter m.getLsbD

/-- Set bits of a live mask, ascending: entry l is phys(s, l) of R115. -/
def liveCh (m : BitVec 32) : List Nat := (List.range 32).filter m.getLsbD

/-- The live mask of a site now (HT_FOLD_SITEs). -/
def foldMask (s : State) (site : Nat) : BitVec 32 :=
  if h : site < 20 then s.sites[site].live else 0

/-- A placement unit: site, physical channel, pair (0 on a plain JEDEC site). -/
structure PUnit where
  site : Nat
  ch : Nat
  pair : Nat
deriving DecidableEq, Repr

/-- The interleave sequence E of a span (section The interleave and the fold table; R118, R126). -/
def interleave (g : Nat) (masks : List (Nat × BitVec 32)) : List PUnit :=
  let live := masks.map (fun x => (x.1, liveCh x.2))
  let cmax := live.foldl (fun a x => Nat.max a x.2.length) 0
  (List.range (g * cmax)).flatMap (fun q =>
    live.filterMap (fun x =>
      let c := x.2.length
      if q < g * c then some ⟨x.1, x.2.getD (q % c) 0, q / c⟩ else none))

/-- Is the layout on an FCS-48 span? -/
def Layout.fcs (s : State) (ly : Layout) : Bool := ly.masks.any (fun x => isFcs s x.1)

/-- Units per channel of the span: 8 pairs, or the channel itself. -/
def Layout.g (s : State) (ly : Layout) : Nat := if ly.fcs s then 8 else 1

/-- The interleave sequence of a layout, from the masks kept at its definition (R119). -/
def Layout.seqE (s : State) (ly : Layout) : List PUnit := interleave (ly.g s) ly.masks

/-- Padded elements of a segment list (R107). -/
def paddedCount (n : Nat) (segs : List Segment) : Nat :=
  segs.foldl (fun a g => a + n * cdiv g.count n) 0

/-- Geometry of a layout (R109, R122, R123, R124). -/
structure Geo where
  n : Nat
  u : Nat
  w : Nat
  p : Nat
  parcels : Nat
  tiles : Nat
  h : Nat
  qv : Nat
  rv : Nat
  ru : Nat
  chunks : Nat
  rows : Nat
deriving DecidableEq, Repr

/-- The geometry from a descriptor's fields and the length P of the interleave sequence. -/
def geoOf (kind sl wf slots length : Nat) (guarded : Bool) (segs : List Segment) (p : Nat) : Geo :=
  let n := parcelSize sl
  let u := stateCols sl
  let w := footprint sl wf
  let total := paddedCount n segs
  let parcels := total / n
  let tiles := cdiv total 8192
  if kind = 1 then
    let j := cdiv parcels p
    let h := cdiv j 2
    let qv := 64 / w
    let rv := cdiv h qv
    let ru := if guarded then cdiv (h * u) 64 else 0
    ⟨n, u, w, p, parcels, tiles, h, qv, rv, ru, parcels, h + slots * rv + ru⟩
  else if kind = 2 then
    let c := cdiv (parcels * 32 * w) 2048
    let h := cdiv (cdiv c p) 2
    ⟨n, u, w, p, parcels, tiles, h, 0, 0, 0, c, slots * h⟩
  else
    let c := cdiv length 2048
    ⟨0, 0, 0, p, 0, 0, 0, 0, 0, 0, c, cdiv (cdiv c p) 2⟩

/-- The geometry of a defined layout. -/
def Layout.geo (s : State) (ly : Layout) : Geo :=
  geoOf ly.kind ly.stateLayout ly.workFormat ly.slots ly.length ly.guarded ly.segs (ly.seqE s).length

/-- Key of a column of the stacks. On a plain JEDEC channel the bank is the half and the row the band row. -/
def colKey (site ch bank row col : Nat) : Nat :=
  (((site * 32 + ch) * 16 + bank) * 65536 + row) * 64 + col

def keySite (k : Nat) : Nat := k / 64 / 65536 / 16 / 32
def keyCh (k : Nat) : Nat := k / 64 / 65536 / 16 % 32
def keyBank (k : Nat) : Nat := k / 64 / 65536 % 16
def keyRow (k : Nat) : Nat := k / 64 % 65536
def keyCol (k : Nat) : Nat := k % 64

/-- Column `col` of chunk `c` of an area that starts `a` rows into the band; `other` picks the partner bank
(R120, R121). -/
def Layout.chunkCol (s : State) (ly : Layout) (a c col : Nat) : Nat :=
  let e := ly.seqE s
  let p := e.length
  let u := e.getD (c % p) ⟨0, 0, 0⟩
  colKey u.site u.ch (2 * u.pair + c / p % 2) (ly.rowBase + a + c / p / 2) col

/-- Column `j` of the row of parcel `q` (R120, Kind 0x01). -/
def Layout.parcelCol (s : State) (ly : Layout) (q j : Nat) : Nat := ly.chunkCol s 0 q j

/-- The placement unit of a parcel. -/
def Layout.parcelUnit (s : State) (ly : Layout) (q : Nat) : PUnit :=
  let e := ly.seqE s
  e.getD (q % e.length) ⟨0, 0, 0⟩

/-- Partner-bank key of a parcel's row and column (R121). -/
def Layout.partner (s : State) (ly : Layout) (q row col : Nat) : Nat :=
  let e := ly.seqE s
  let p := e.length
  let u := e.getD (q % p) ⟨0, 0, 0⟩
  colKey u.site u.ch (2 * u.pair + (1 - q / p % 2)) (ly.rowBase + row) col

/-- Column `j` of the short weights of parcel `q` in slot `v` (R122, R123). -/
def Layout.verCol (s : State) (ly : Layout) (v q j : Nat) : Nat :=
  let g := ly.geo s
  if ly.kind = 1 then
    let i := q / g.p / 2
    ly.partner s q (g.h + v * g.rv + i / g.qv) (i % g.qv * g.w + j)
  else
    let x := q * g.w + j
    ly.chunkCol s (v * g.h) (x / 64) (x % 64)

/-- Column `j` of the undo pre-image of parcel `q` (R122). -/
def Layout.undoCol (s : State) (ly : Layout) (q j : Nat) : Nat :=
  let g := ly.geo s
  let x := q / g.p / 2 * g.u + j
  ly.partner s q (g.h + ly.slots * g.rv + x / 64) (x % 64)

/-- The element of the shard at a shard index: tensor and global element index, none for padding (R107). -/
def elemAt (n : Nat) : List Segment → Nat → Option (Nat × Nat)
  | [], _ => none
  | g :: r, x =>
    let pad := n * cdiv g.count n
    if x < g.count then some (g.tensor, g.first + x)
    else if x < pad then none
    else elemAt n r (x - pad)

/-- Global element index of the first element of a parcel and how many of its elements are real. -/
def parcelBase (n : Nat) (segs : List Segment) (q : Nat) : Nat × Nat :=
  (((elemAt n segs (q * n)).map Prod.snd).getD 0,
   ((List.range n).filter (fun i => (elemAt n segs (q * n + i)).isSome)).length)

/-- Do two layouts share a bank? -/
def sharesUnit (a b : List (Nat × BitVec 32)) : Bool :=
  a.any (fun x => b.any (fun y => x.1 == y.1 && (x.2 &&& y.2 != 0)))

/-- Data rows a layout may use: rows 0 to 45,775 of an FCS-48 bank (Table STK-2), band rows 0 to 65,535 of a
plain JEDEC half (R384). -/
def rowLimit (fcs : Bool) : Nat := if fcs then 45776 else 65536

/-- Are rows `base .. base+rows-1` free of every band that shares a bank with the masks? -/
def bandFree (s : State) (masks : List (Nat × BitVec 32)) (base rows : Nat) : Bool :=
  s.layouts.all (fun e =>
    !sharesUnit masks e.2.masks || base + rows ≤ e.2.rowBase || e.2.rowBase + e.2.bandRows ≤ base)
  && s.inflight.all (fun f => match f.ctx with
    | .zeroFree rs => rs.all (fun r =>
        !(masks.any (fun m => m.1 == r.1 / 512 && m.2.getLsbD (r.1 / 16 % 32))) || base + rows ≤ r.2.1 || r.2.2 ≤ base)
    | _ => true)

/-- Ends of the row ranges a Scope 0 ZEROIZE holds. -/
def zeroEnds (s : State) : List Nat :=
  s.inflight.flatMap (fun f => match f.ctx with
    | .zeroFree rs => (rs.map (fun r => r.2.2)).dedup
    | _ => [])

/-- The lowest free row range of a band (R103): it starts at row 0, or at the end of a defined band or of
rows being zeroized (R513). -/
def allocBand (s : State) (masks : List (Nat × BitVec 32)) (fcs : Bool) (rows : Nat) : Option Nat :=
  leastOf ((0 :: s.layouts.map (fun e => e.2.rowBase + e.2.bandRows) ++ zeroEnds s).filter
    (fun b => decide (b + rows ≤ rowLimit fcs) && bandFree s masks b rows))

/-- Is the channel of a column key still live? -/
def keyLive (s : State) (k : Nat) : Bool := (foldMask s (keySite k)).getLsbD (keyCh k)

/-- Is the layout damaged: it has a chunk on a channel fenced since its definition (R119). -/
def Layout.damaged (s : State) (ly : Layout) : Bool :=
  ((ly.seqE s).take (ly.geo s).chunks).any (fun u => !(foldMask s u.site).getLsbD u.ch)

end Sys2Proof.Machine
end

