-- ==== Sys2Proof/Machine/Access.lean ====
section
/-! DEFINITION. The columns of the stacks with their check fields (13 ITY): the lattice code, open and sealed
writes, row remapping, and byte access through a map from bytes to columns. -/

namespace Sys2Proof.Machine

/-- The exclusive or of the bits of a byte. -/
def parity8 (b : Byte) : Bool := (List.range 8).foldl (fun a i => a != b.getLsbD i) false

/-- Even byte parity of a column: bit j is the exclusive or of the bits of byte j (R404). -/
def evenParity (c : Col) : BitVec 32 :=
  BitVec.ofNat 32 ((List.range 32).foldr
    (fun j acc => (if parity8 (c.extractLsb' (8 * j) 8) then 1 else 0) + 2 * acc) 0)

/-- Exclusive or of the 32 bytes of a column. -/
def xorBytes (c : Col) : Byte := (List.range 32).foldl (fun a j => a ^^^ c.extractLsb' (8 * j) 8) 0

/-- The column-parity byte Q of a block (R404). -/
def colParity (a b : Col) : Byte := xorBytes a ^^^ xorBytes b

/-- Check fields of the two columns of a sealed block (Table ITY-1). -/
def sealedChk (a b : Col) : BitVec 36 × BitVec 36 :=
  let q := colParity a b
  ((q.extractLsb' 0 4) ++ evenParity a, (q.extractLsb' 4 4) ++ evenParity b)

/-- The check field of a column written open: odd byte parity, lattice bits as they were (R406). -/
def openChk (old : BitVec 36) (c : Col) : BitVec 36 := (old.extractLsb' 32 4) ++ (~~~ (evenParity c))

/-- Kind of a column by its stored parity (R407). -/
inductive ColKind where
  | sealed
  | opened
  | bad
deriving DecidableEq, Repr

/-- Classify a column from e, the number of bytes with odd stored parity (R407). -/
def classify (c : Col) (chk : BitVec 36) : ColKind :=
  let e := popcount ((evenParity c ^^^ chk.extractLsb' 0 32).toNat) 32
  if e ≤ 2 then .sealed else if 30 ≤ e then .opened else .bad

/-- What a read of a block found. -/
inductive ReadRes where
  | clean
  | corrected
  | bad
deriving DecidableEq, Repr

/-- Lattice decoding of a sealed block (R405, Table ITY-2): the outcome, and the data as mended. -/
def latticeDecode (a b : Col) (ca cb : BitVec 36) : ReadRes × Col × Col :=
  let sa := evenParity a ^^^ ca.extractLsb' 0 32
  let sb := evenParity b ^^^ cb.extractLsb' 0 32
  let rows := sa.toNat + 2 ^ 32 * sb.toNat
  let q := colParity a b ^^^ ((cb.extractLsb' 32 4) ++ (ca.extractLsb' 32 4) : BitVec 8)
  let r := popcount rows 64
  let c := popcount q.toNat 8
  if r = 0 ∧ c = 0 then (.clean, a, b)
  else if r = 1 ∧ c = 1 then
    let x := Nat.log2 rows
    let k := Nat.log2 q.toNat
    if x < 32 then (.corrected, a ^^^ (1#256 <<< (8 * x + k)), b)
    else (.corrected, a, b ^^^ (1#256 <<< (8 * (x - 32) + k)))
  else if r + c = 1 then (.corrected, a, b)
  else (.bad, a, b)

/-- Key of a bank. -/
def bankKey (site ch bank : Nat) : Nat := (site * 32 + ch) * 16 + bank

/-- Remap entries of a bank: entry number, data row, valid (R434). -/
def remapEntries (s : State) (bank : Nat) : List (Nat × Nat × Bool) :=
  (s.remap.filter (fun e => e.1 / 512 == bank)).map (fun e => (e.1 % 512, e.2.1, e.2.2))

/-- The physical row of a data row: its spare when the remap table redirects it (R379, R434). -/
def physRow (s : State) (bank row : Nat) : Nat :=
  match (remapEntries s bank).find? (fun e => e.2.2 && e.2.1 == row) with
  | some e => 45776 + e.1
  | none => row

/-- Banks of a half of a JEDEC channel to which its septets are dealt (PRESUMED, log 45). -/
def halfBanks : Nat := 8

/-- The physical column of a column of a JEDEC half, named by half, band row and place in the row (R385): band row r is
data unit r mod 7 of septet r / 7, and the septets are dealt to the banks of the half in turn. The eight units of a
septet are eight rows of its bank. -/
def septetKey (k : Nat) : Nat :=
  let t := keyRow k / 7
  let bank := keyBank k % 2 + 2 * (t % halfBanks)
  ((k / 64 / 65536 / 16 * 16 + bank) * 65536 + t / halfBanks * 8 + keyRow k % 7) * 64 + keyCol k

/-- Byte address of the 9 check bytes of the block of a physical column of a JEDEC channel, in unit 7 of its septet: in
ascending order of data unit and then of block (R385). -/
def checkByte (p : Nat) : Nat :=
  let row := p / 64
  32 * ((row / 8 * 8 + 7) * 64) + 9 * (32 * (row % 8) + p % 64 / 2)

/-- The physical column of a data column. -/
def physKey (s : State) (k : Nat) : Nat :=
  if isFcs s (keySite k) then
    let row := keyRow k
    let bk := k / 64 / 65536
    (bk * 65536 + physRow s bk row) * 64 + keyCol k
  else septetKey k

/-- The stored bits of a physical column. -/
def rawCol (s : State) (p : Nat) : Col := colOf (memReadN s.dram (32 * p) 32)

/-- The check field of a JEDEC column, from the check bytes of its block (Table ITY-1): its row parity, and its half of
the column parity. -/
def jedecChk (s : State) (p : Nat) : BitVec 36 :=
  let a := checkByte p
  let half := p % 2
  let rows := leNat (memReadN s.dram (a + 4 * half) 4)
  let q := leNat (memReadN s.dram (a + 8) 1)
  BitVec.ofNat 36 (rows + 2 ^ 32 * (q / 16 ^ half % 16))

/-- Store the check field of a JEDEC column into the check bytes of its block. -/
def putJedecChk (m : Mem) (p : Nat) (chk : BitVec 36) : Mem :=
  let a := checkByte p
  let half := p % 2
  let q := leNat (memReadN m (a + 8) 1)
  let mine := chk.toNat / 2 ^ 32
  let q' := if half = 0 then q / 16 * 16 + mine else mine * 16 + q % 16
  memWriteN (memWriteN m (a + 4 * half) (leBytes 4 (chk.toNat % 2 ^ 32))) (a + 8) (leBytes 1 q')

/-- The stored check field of a physical column. -/
def rawChk (s : State) (p : Nat) : BitVec 36 := if isFcs s (keySite p) then kvGetD s.chk p 0 else jedecChk s p

/-- Store a physical column with its check field; a zero check field of an FCS-48 column is not listed. -/
def putRaw (s : State) (p : Nat) (c : Col) (chk : BitVec 36) : State :=
  let m := memWriteN s.dram (32 * p) (colBytes c)
  if isFcs s (keySite p) then
    { s with dram := m, chk := if chk = 0 then kvDel s.chk p else kvPut s.chk p chk }
  else { s with dram := putJedecChk m p chk }

/-- The bits of a column and their byte parity, as a stall reads them: with no use of lattice bits (R132, R133, R407).
-/
def stallCol (s : State) (k : Nat) : Col × Bool :=
  let p := physKey s k
  let c := rawCol s p
  let x := rawChk s p
  (c, match classify c x with
      | .sealed => x.extractLsb' 0 32 == evenParity c
      | .opened => x.extractLsb' 0 32 == ~~~ (evenParity c)
      | .bad => false)

/-- The even column of a block. -/
def blockBase (p : Nat) : Nat := p / 2 * 2

/-- Read the block of a physical column (R405, R407, R408): outcome, and both columns as returned. -/
def readBlock (s : State) (p : Nat) : ReadRes × Col × Col :=
  let b := blockBase p
  let c0 := rawCol s b
  let c1 := rawCol s (b + 1)
  let k0 := rawChk s b
  let k1 := rawChk s (b + 1)
  match classify c0 k0, classify c1 k1 with
  | .sealed, .sealed => latticeDecode c0 c1 k0 k1
  | x, y =>
    let ok (t : ColKind) (c : Col) (k : BitVec 36) : Bool :=
      match t with
      | .sealed => k.extractLsb' 0 32 == evenParity c
      | .opened => k.extractLsb' 0 32 == ~~~ (evenParity c)
      | .bad => false
    if ok x c0 k0 && ok y c1 k1 then (.clean, c0, c1) else (.bad, c0, c1)

/-- Is a column in a haze window or of an open region: either column of its block open (R407)? -/
def blockOpen (s : State) (p : Nat) : Bool :=
  let b := blockBase p
  classify (rawCol s b) (rawChk s b) == .opened || classify (rawCol s (b + 1)) (rawChk s (b + 1)) == .opened

/-- Read a data column: its bits, and whether they are good. -/
def readCol (s : State) (k : Nat) : Col × Bool :=
  let p := physKey s k
  let r := readBlock s p
  ((if p % 2 = 0 then r.2.1 else r.2.2), r.1 != .bad)

/-- Write a column open, as a stall does and as every writer of an open region does (R406). -/
def writeOpen (s : State) (k : Nat) (c : Col) : State :=
  let p := physKey s k
  putRaw s p c (openChk (rawChk s p) c)

/-- Write a column sealed (R406, R575): the partner decides the lattice bits. -/
def writeSealed (s : State) (k : Nat) (c : Col) : State :=
  let p := physKey s k
  let b := blockBase p
  let o := if p % 2 = 0 then b + 1 else b
  let oc := rawCol s o
  let ok := rawChk s o
  match classify oc ok with
  | .sealed =>
    -- the block as read decodes with its old column in place
    let r := readBlock s p
    if r.1 == .bad then
      -- an uncorrectable partner is left as it stands (R575)
      putRaw s p c (((rawChk s p).extractLsb' 32 4) ++ evenParity c)
    else
      let oc' := if p % 2 = 0 then r.2.2 else r.2.1
      let (x, y) := if p % 2 = 0 then (c, oc') else (oc', c)
      let (kx, ky) := sealedChk x y
      putRaw (putRaw s b x kx) (b + 1) y ky
  | _ => putRaw s p c (((rawChk s p).extractLsb' 32 4) ++ evenParity c)

/-- Write both columns of a block sealed, with no read (R575). -/
def writeBlockSealed (s : State) (k : Nat) (a b : Col) : State :=
  let p := blockBase (physKey s k)
  let ks := sealedChk a b
  putRaw (putRaw s p a ks.1) (p + 1) b ks.2

/-- Seal an open block in place: fresh even check field, data unchanged (R412). -/
def sealBlock (s : State) (p : Nat) : State :=
  let b := blockBase p
  let x := rawCol s b
  let y := rawCol s (b + 1)
  let ks := sealedChk x y
  putRaw (putRaw s b x ks.1) (b + 1) y ks.2

/-- Write a column as the region asks: open in a Kind 0x03 layout with Open = 1, sealed elsewhere (R406). -/
def writeColAs (open? : Bool) (s : State) (k : Nat) (c : Col) : State :=
  if open? then writeOpen s k c else writeSealed s k c

/-- Replace bytes of a column from byte `o` on. -/
def patchCol (c : Col) (o : Nat) (b : Bytes) : Col :=
  let l := colBytes c
  colOf (l.take o ++ b ++ l.drop (o + b.length))

/-- Read `n` bytes from byte `x` of an area whose column `j` has key `f j`. -/
def readArea (s : State) (f : Nat → Nat) (x n : Nat) : Bytes × Bool :=
  if n = 0 then ([], true) else
  let c0 := x / 32
  let cs := (List.range ((x + n - 1) / 32 + 1 - c0)).map (fun i => readCol s (f (c0 + i)))
  (((cs.flatMap (fun r => colBytes r.1)).drop (x % 32)).take n, cs.all (·.2))

/-- Write bytes from byte `x` of an area, column by column in ascending order. -/
def writeArea (open? : Bool) (f : Nat → Nat) : Nat → State → Nat → Bytes → State
  | 0, s, _, _ => s
  | _ + 1, s, _, [] => s
  | fuel + 1, s, x, b :: r =>
    let o := x % 32
    let k := f (x / 32)
    let part := (b :: r).take (32 - o)
    let rest := (b :: r).drop (32 - o)
    let s' := writeColAs open? s k (patchCol (readCol s k).1 o part)
    writeArea open? f fuel s' (x - o + 32) rest

/-- Write bytes, with fuel enough for every column. -/
def writeBytes (open? : Bool) (s : State) (f : Nat → Nat) (x : Nat) (b : Bytes) : State :=
  writeArea open? f (b.length / 32 + 2) s x b

end Sys2Proof.Machine
end

