-- ==== Sys2Proof/Machine/Ops.lean ====
section
/-! DEFINITION. The operations every chapter shares: counters, the Ledger, receipts with their room and
interrupts (03, 17), the choice of the next order, and the answers of an order. -/

namespace Sys2Proof.Machine

/-- Counter width of the Tally (R518). -/
def ctrMod : Nat := 281474976710656

/-- Add to a Tally counter, modulo 2^48 (R518). -/
def count (s : State) (i n : Nat) : State :=
  { s with tally := { s.tally with ctr := kvPut s.tally.ctr i ((kvGetD s.tally.ctr i 0 + n) % ctrMod) } }

/-- Raise a level counter (SlotsHigh, SeamHigh) to a value (R518; DEDUCED, log 132). -/
def countHigh (s : State) (i v : Nat) : State :=
  let c := kvPut s.tally.ctr i (Nat.max (kvGetD s.tally.ctr i 0) (Nat.min v (ctrMod - 1)))
  { s with tally := { s.tally with ctr := c } }

/-- WhereKind and Where of a Ledger entry (Table TEL-3). -/
structure Place where
  kind : Nat
  val : Nat
deriving DecidableEq, Repr

def Place.none : Place := ⟨0, 0⟩
def Place.site (s : Nat) : Place := ⟨1, s⟩
def Place.chan (s c : Nat) : Place := ⟨2, s + 32 * c⟩
def Place.pair (s c k : Nat) : Place := ⟨3, s + 32 * c + 1024 * k⟩
def Place.relief (s : Nat) : Place := ⟨4, s⟩
def Place.ring (r : Nat) : Place := ⟨5, r⟩
def Place.stream (n : Nat) : Place := ⟨6, n % 65536⟩

/-- A Ledger entry (Table TEL-3). -/
def ledEntry (stamp beat step code seq : Nat) (lost : Bool) (pl : Place) (layout arg : Nat) : BitVec 256 :=
  BitVec.ofNat 256 (stamp % 2 ^ 64 + 2 ^ 64 * (beat % 2 ^ 48) + 2 ^ 112 * (step % 2 ^ 40) + 2 ^ 152 * code
    + 2 ^ 160 * (seq % 65536) + 2 ^ 176 * (if lost then 1 else 0) + 2 ^ 180 * pl.kind + 2 ^ 184 * pl.val
    + 2 ^ 200 * (layout % 4096) + 2 ^ 212 * (arg % 2 ^ 44))

/-- Entries at the head that an incomplete LEDGER_DRAIN has still to copy (R527). -/
def drainPending (s : State) : Bool :=
  s.inflight.any (fun f => match f.ctx with
    | .drain n first _ => decide (n ≠ 0) && (s.led.head + 65536 - first) % 65536 < n
    | _ => false)

/-- Write a Ledger entry (R525-R528; DEDUCED, log 167). -/
def ledAdd (s : State) (code : Nat) (pl : Place) (layout arg : Nat) : State :=
  if s.cfg.ledRec = 0 ∧ (code = 0x10 ∨ code = 0x12) then s else
  let l := s.led
  let n := l.entries.length
  let lostUp := if l.lost = 0xFFFFFFFF then l.lost else l.lost + 1
  if n < 65536 then
    let e := ledEntry s.ts s.beat.now s.beat.step code (l.head + n) l.lostNext pl layout arg
    let irq := if s.cfg.fillLevel ≤ n + 1 then l.irq ||| 1 else l.irq
    { s with led := { l with entries := l.entries ++ [e], lostNext := false, irq := irq } }
  else if drainPending s then
    { s with led := { l with lostNext := true, lost := lostUp, irq := l.irq ||| 2, dropped := l.dropped + 1 } }
  else
    let e := ledEntry s.ts s.beat.now s.beat.step code (l.head + n) l.lostNext pl layout arg
    let rest := match l.entries.drop 1 ++ [e] with
      | [] => []
      | x :: r => (x ||| (1 <<< 176)) :: r
    { s with led := { l with entries := rest, head := (l.head + 1) % 65536, lostNext := false, lost := lostUp,
                             irq := l.irq ||| 3, dropped := l.dropped + 1 } }

/-- The next free byte of an undefined value, and `n` of them. -/
def freeBytes (s : State) (n : Nat) : Bytes × State :=
  ((List.range n).map (fun i => Config.freeByte (s.fresh + i)), { s with fresh := s.fresh + n })

/-- Add a message to the boundary log. -/
def send (s : State) (e : Emit) : State := { s with out := s.out ++ [e] }

/-! ### Rings and receipts -/

/-- Change one ring. -/
def modRing (s : State) (r : RingId) (f : RingSt → RingSt) : State := { s with rings := updV s.rings r f }

/-- Base of ring n in the ring window (R556): orders first, receipts 4 MiB on. -/
def orderAddr (r idx depth : Nat) : Nat := r * 0x800000 + 64 * (idx % 2 ^ depth)
def receiptAddr (r idx depth : Nat) : Nat := r * 0x800000 + 0x400000 + 32 * (idx % 2 ^ depth)

/-- Unread receipts of a ring. -/
def RingSt.unread (g : RingSt) : Nat := (g.rcpTail + 131072 - g.rcpHead) % 131072
/-- Free entries of a receipt ring. -/
def RingSt.freeRcp (g : RingSt) : Nat := 2 ^ g.depth - g.unread
/-- Orders waiting in a ring. -/
def RingSt.occupancy (g : RingSt) : Nat := (g.tail + 131072 - g.head) % 131072

/-- Set the ring's interrupt bit in HT_ORD_IRQ_STATUS or HT_ORD_SIRQ_STATUS (Table ORD-1). -/
def ringIrq (s : State) (r : RingId) : State :=
  if r.val = 4 then { s with regs := { s.regs with ordSirq := 1 } }
  else { s with regs := { s.regs with ordIrq := s.regs.ordIrq ||| (1 <<< r.val) } }

/-- Is a status a refusal (Table ORD-7)? -/
def isRefusal (st : Nat) : Bool := decide (0x10 ≤ st ∧ st ≤ 0x1A)

/-- Word 0 of a receipt with Phase 0 (Table ORD-5). -/
def word0 (status kind idx ring cause tag : Nat) : BitVec 64 :=
  let notice := status = 0x30 ∨ status = 0x31
  BitVec.ofNat 64 (status + 2 ^ 8 * kind + 2 ^ 16 * (idx % 65536) + 2 ^ 32 * ring
    + 2 ^ 35 * (if notice then 1 else 0) + 2 ^ 36 * cause + 2 ^ 40 * (tag % 65536))

/-- Write a receipt into its next slot (R66, R67): words, Phase, tail, counters and interrupts. -/
def putReceipt (s : State) (r : RingId) (w0 : BitVec 64) (body : BitVec 192) (irqDone : Bool) : State :=
  let g := s.rings[r]
  let phase : Nat := if g.rcpTail.testBit g.depth then 0 else 1
  let bits := w0.toNat + 2 ^ 63 * phase + 2 ^ 64 * body.toNat
  let st := w0.toNat % 256
  let s1 := { s with awn := memWriteN s.awn (receiptAddr r.val g.rcpTail g.depth) (leBytes 32 bits) }
  let s2 := modRing s1 r (fun g => { g with rcpTail := (g.rcpTail + 1) % 131072 })
  let s3 := count s2 26 1
  let notice := w0.getLsbD 35
  let cause := (w0 >>> 36).toNat % 16
  let s4 := if st = 0x30 then
      ledAdd (if 1 ≤ cause ∧ cause ≤ 7 then count s3 (17 + cause) 1 else s3) 0x50 (Place.ring r.val) 0
        (cause + 16 * ((w0 >>> 16).toNat % 65536))
    else if st = 0x31 then count s3 25 1
    else if isRefusal st then count s3 (7 + st - 0x10) 1 else s3
  let unread := (s4.rings[r]).unread
  let q := g.irq
  let hit := (irqDone && q.getLsbD 0) || (notice && q.getLsbD 1) || (isRefusal st && q.getLsbD 2)
    || (q.getLsbD 3 && decide (q.toNat / 32768 ≤ unread))
  if hit then ringIrq s4 r else s4

def Held.notice (h : Held) : Bool := h.cls == 2

/-- How many orders of its ring were taken since the order at an index was, itself included. -/
def orderAge (head idx : Nat) : Nat := (head + 131072 - idx) % 131072

/-- Is `h` written before `x` of the same ring (R78): by step, completions in index order, notices by due beat and then
in order of admission? -/
def heldBefore (head : Nat) (h x : Held) : Bool :=
  decide (h.cls < x.cls) || (h.cls == x.cls &&
    ((h.cls == 1 && decide (orderAge head x.idx < orderAge head h.idx)) ||
     (h.cls == 2 && (decide (h.due < x.due) || (h.due == x.due && decide (h.seq < x.seq))))))

/-- Insert a receipt in the sequence of R78. -/
def insertHeld (head : Nat) (h : Held) : List Held → List Held
  | [] => [h]
  | x :: r => if heldBefore head h x then h :: x :: r else x :: insertHeld head h r

/-- May the receipt be written: a notice into an entry that is not reserved (R81), any other into a free one (R579)? -/
def heldRoom (g : RingSt) (h : Held) : Bool := decide ((if h.notice then g.owed + 1 else 1) ≤ g.freeRcp)

/-- Write the first receipt that a ring holds; one that owes gives its reserved entry back (R80). -/
def writeFirst (s : State) (r : RingId) (h : Held) (rest : List Held) : State :=
  putReceipt (modRing s r (fun g => { g with held := rest, owed := if h.owes then g.owed - 1 else g.owed })) r h.word0
    h.body h.irqDone

/-- Write what a ring holds, in sequence, as long as there is room. -/
def drainRing : Nat → State → RingId → State
  | 0, s, _ => s
  | n + 1, s, r =>
    match (s.rings[r]).held with
    | [] => s
    | h :: rest => if heldRoom s.rings[r] h then drainRing n (writeFirst s r h rest) r else s

/-- A receipt falls due: it takes its place among those the ring holds, which are written while there is room (R579).
Nothing is written after a fatal fault (R442). -/
def dueReceipt (s : State) (r : RingId) (h : Held) : State :=
  if s.fatal then s
  else
    let s1 := modRing s r (fun g => { g with held := insertHeld g.head h g.held })
    if s.batching then s1 else drainRing (s1.rings[r]).held.length s1 r

/-- A receipt that is no notice and for which no entry is reserved falls due. -/
def emitReceipt (s : State) (r : RingId) (status kind idx tag : Nat) (body : BitVec 192) (irqDone : Bool) : State :=
  dueReceipt s r ⟨if status = 0 ∨ isRefusal status then 0 else 1, false, 0, 0, idx, word0 status kind idx r.val 0 tag, body,
    irqDone⟩

/-- Discard the notice that a ring holds for an order (R79, R82). -/
def dropNotice (s : State) (r : RingId) (idx : Nat) : State :=
  modRing s r (fun g => { g with held := g.held.filter (fun h => !(h.notice && h.idx == idx)) })

/-- A notice falls due; it replaces one held for the same order (R82). -/
def emitNotice (s : State) (r : RingId) (status kind idx cause tag due seq : Nat) (body : BitVec 192) : State :=
  dueReceipt (dropNotice s r idx) r ⟨2, false, due, seq, idx, word0 status kind idx r.val cause tag, body, false⟩

/-- Key of a due receipt among the rings (R78): completions of ring 4 first, notices by due beat and admission. -/
def heldKey (r : RingId) (h : Held) : Nat × Nat × Nat :=
  (h.cls, if h.cls = 2 then h.due else (r.val + 1) % 5, if h.cls = 2 then h.seq else 0)

def keyLt (a b : Nat × Nat × Nat) : Bool :=
  decide (a.1 < b.1) || (a.1 == b.1 && (decide (a.2.1 < b.2.1) || (a.2.1 == b.2.1 && decide (a.2.2 < b.2.2))))

/-- The ring whose first due receipt is written next. -/
def nextDue (s : State) : Option (RingId × Held × List Held) :=
  ((List.finRange 5).filterMap (fun r => match (s.rings[r]).held with
    | h :: rest => if heldRoom s.rings[r] h then some (r, h, rest) else none
    | [] => none)).foldl (fun best x => match best with
      | none => some x
      | some y => if keyLt (heldKey x.1 x.2.1) (heldKey y.1 y.2.1) then some x else best) none

/-- Write the due receipts of every ring in the sequence of R78. -/
def flushReceipts : Nat → State → State
  | 0, s => s
  | n + 1, s => match nextDue s with
    | some x => flushReceipts n (writeFirst s x.1 x.2.1 x.2.2)
    | none => s

/-- The cycle is over: the receipts that fell due in it are written while there is room, in the sequence of R78
(DEDUCED, log 162). -/
def endBatch (s : State) : State :=
  flushReceipts ((s.rings.toList.map (fun g => g.held.length)).sum) { s with batching := false }

/-- The happenings of one cycle: the receipts that fall due in it are written after them (R78; DESIGN CHOICE, log 41).
-/
def batch (s : State) (f : State → State) : State :=
  if s.batching then f s else endBatch (f { s with batching := true })

/-- Body of layout G (Table ORD-6). -/
def bodyG (beat detail : Nat) (result : Nat) : BitVec 192 :=
  BitVec.ofNat 192 (beat % 2 ^ 48 + 2 ^ 48 * (detail % 65536) + 2 ^ 64 * result)

/-- All ones of a beat field. -/
def beatOnes : Nat := 281474976710655

/-- Body of layout L (Table ORD-6). -/
def bodyL (due expected : Nat) : BitVec 192 := BitVec.ofNat 192 (due % 2 ^ 48 + 2 ^ 64 * (expected % 2 ^ 48))

/-- Body of layout T (Table ORD-6). -/
def bodyT (step torn : Nat) : BitVec 192 := BitVec.ofNat 192 (step % 2 ^ 40 + 2 ^ 48 * (torn % 2 ^ 32))

/-! ### Orders -/

/-- Fields of the order header (Table ORD-2). -/
def ordOp (o : Order) : Nat := fld o 0 1
def ordFence (o : Order) : Bool := o.getLsbD 16
def ordIrq (o : Order) : Bool := o.getLsbD 17
def ordTag (o : Order) : Nat := fld o 4 2
def ordDue (o : Order) : Nat := fld o 8 6

/-- Is an opcode timed (Table ORD-3)? -/
def isTimed (op : Nat) : Bool :=
  [0x12, 0x20, 0x21, 0x31, 0x32, 0x33, 0x34, 0x35, 0x36, 0x40, 0x41, 0x42, 0x43, 0x45, 0x46, 0x50, 0x51,
   0x60, 0x62, 0x63, 0x64].contains op

/-- The order in the slot at a ring index. -/
def orderAt (s : State) (r : RingId) (idx : Nat) : Order :=
  orderOf (memReadN s.awn (orderAddr r.val idx (s.rings[r]).depth) 64)

/-- Earlier orders of the ring that are incomplete: admitted ones, and an UPD_OPEN that waits (R75, R76). -/
def ringBusy (s : State) (r : Nat) : Bool :=
  s.inflight.any (fun f => f.ring == r) || s.waiting.any (fun w => w.ring == r)

/-- Can the order at the head of ring r be taken now (R56, R75, R76, R80, R81, R85, R442, R579)? -/
def takable (s : State) (r : RingId) : Bool :=
  let g := s.rings[r]
  let o := orderAt s r g.head
  let need := if isTimed (ordOp o) then 2 else 1
  s.regs.ready && !s.fatal && s.power.inReset.isNone && g.enable && decide (g.occupancy ≠ 0) && g.held.isEmpty
    && !(s.waiting.any (fun w => w.ring == r.val))
    && !(s.defer.any (fun d => (d.ord.map (fun x => x.1 == r.val)).getD false)) && decide (g.owed + need ≤ g.freeRcp)
    && !(ordFence o && ringBusy s r.val)

/-- The ring whose order the scheduler takes next (R73). -/
def nextRing (s : State) : Option RingId :=
  if takable s 4 then some 4
  else
    let t := s.turn
    ([t, t + 1, t + 2, t + 3].map (fun x => (⟨x % 4, by omega⟩ : RingId))).find? (fun r => takable s r)

/-- Take the head order off its ring: head, turn, Taken counter (R73, Table TEL-1). -/
def advanceHead (s : State) (r : RingId) : State :=
  let s1 := modRing s r (fun g => { g with head := (g.head + 1) % 131072 })
  let s2 := if r.val = 4 then s1 else { s1 with turn := (r.val + 1) % 4 }
  count s2 (2 + r.val) 1

/-- Refuse an order: one refusal receipt and no other effect (R36, R71). -/
def refuseOrder (s : State) (r : RingId) (idx : Nat) (o : Order) (status detail beat : Nat) : State :=
  emitReceipt s r status (ordOp o) idx (ordTag o) (bodyG beat detail 0) (ordIrq o)

/-- Complete an order that has no ACCEPTED receipt: DONE or DONE_REPEAT (R71). -/
def finishNow (s : State) (r : RingId) (idx : Nat) (o : Order) (status result : Nat) : State :=
  emitReceipt s r status (ordOp o) idx (ordTag o) (bodyG s.beat.now 0 result) (ordIrq o)

/-- Remove an admitted order from the table of incomplete ones. -/
def dropInflight (s : State) (ring idx : Nat) : State :=
  { s with inflight := s.inflight.filter (fun f => !(f.ring == ring && f.idx == idx)) }

/-- The admitted order of a ring and index. -/
def findInflight (s : State) (ring idx : Nat) : Option InFlight :=
  s.inflight.find? (fun f => f.ring == ring && f.idx == idx)

/-- Replace an admitted order's record. -/
def putInflight (s : State) (f : InFlight) : State :=
  { s with inflight := s.inflight.map (fun g => if g.ring == f.ring && g.idx == f.idx then f else g) }

/-- Ring number as a ring. -/
def ringOf (n : Nat) : RingId := ⟨n % 5, by omega⟩

/-- The completion receipt of an admitted order falls due (R71, R79, R80, R82): a notice held for the order is
discarded, its bookings end, and the receipt takes the entry reserved for it. -/
def completeWith (s : State) (f : InFlight) (status kind : Nat) (body : BitVec 192) : State :=
  let r := ringOf f.ring
  dueReceipt (dropNotice (dropInflight s f.ring f.idx) r f.idx) r
    ⟨1, true, 0, 0, f.idx, word0 status kind f.idx r.val 0 (ordTag f.order), body, ordIrq f.order⟩

/-- Opcodes whose orders are cut into lots (R288, R320, R373, and the sections on PUSH and REDUCE); one that fits in one
lot counts as cut into one (DEDUCED, log 42). -/
def cutOps : List Nat := [0x12, 0x31, 0x32, 0x33, 0x34, 0x35, 0x40, 0x42, 0x43, 0x45, 0x46, 0x51]

/-- Complete an admitted order with layout G (Table ORD-6): LotsDone and LotsTotal beside the result of a
failed order in lots (R68, R88). -/
def completeG (s : State) (f : InFlight) (status result : Nat) : State :=
  let lots := if (status = 0x20 ∨ status = 0x21) ∧ cutOps.contains (ordOp f.order) then f.lotsDone + 2 ^ 32 * f.lotsTotal
    else 0
  completeWith s f status (ordOp f.order) (bodyG s.beat.now 0 (result + lots))

/-! ### Layouts -/

def getLayout (s : State) (id : Nat) : Option Layout := kvGet s.layouts id
def putLayout (s : State) (id : Nat) (l : Layout) : State := { s with layouts := kvPut s.layouts id l }
def modLayout (s : State) (id : Nat) (f : Layout → Layout) : State :=
  match kvGet s.layouts id with
  | some l => putLayout s id (f l)
  | none => s
def modShard (s : State) (id : Nat) (f : Shard → Shard) : State := modLayout s id (fun l => { l with shard := f l.shard })

/-! ### Firewall -/

/-- The checks of R497 look at the world, the ports and the rights of an access. -/
structure Need where
  secure : Bool
  ports : Nat
  read : Bool
  write : Bool
  compute : Bool
deriving DecidableEq, Repr

/-- The matched entry of a layout (R496): its number, or 64 for the default of key 0x8000. -/
def fwMatch (s : State) (layout : Nat) : Nat :=
  ((List.range 64).find? (fun i =>
    if h : i < 64 then
      let e := s.sec.fw[i]
      e.attr.getLsbD 0 && decide ((e.range.extractLsb' 0 12).toNat ≤ layout)
        && decide (layout ≤ (e.range.extractLsb' 16 12).toNat)
    else false)).getD 64

/-- Does the firewall permit the access (R496, R497)? Ports are bits of HT_FW_PORTSi. -/
def fwOk (s : State) (layout : Nat) (n : Need) : Bool :=
  let i := fwMatch s layout
  if h : i < 64 then
    let e := s.sec.fw[i]
    (n.secure || !e.attr.getLsbD 1)
      && decide (n.ports &&& (e.ports.toNat % 131072) = n.ports)
      && (!n.read || e.attr.getLsbD 2) && (!n.write || e.attr.getLsbD 3) && (!n.compute || e.attr.getLsbD 4)
  else s.cfg.fwDefault == 0 || n.secure

/-- Count a denial: HT_FW_DENIEDi and HT_SEC_DENY (Table SEC-4). -/
def fwDeny (s : State) (layout : Nat) : State :=
  let i := fwMatch s layout
  let deny := if s.sec.deny.getLsbD 31 then s.sec.deny else BitVec.ofNat 32 (i + 2 ^ 31)
  let fw := if h : i < 64 then
      let d := (s.sec.fw[i]).denied
      s.sec.fw.set i { s.sec.fw[i] with denied := if d = 0xFFFFFFFF then d else d + 1 }
    else s.sec.fw
  { s with sec := { s.sec with deny := deny, fw := fw } }

end Sys2Proof.Machine
end

