-- ==== Sys2Proof/Machine/Program.lean ====
section
/-! DEFINITION. Rule programs as words (05 STL, 07 NUM): encoding, reserved encodings, the modulo schedule, the
conditions of Table NUM-9 and the built-in programs. -/

namespace Sys2Proof.Machine

/-! ### Encoding (Table STL-3) -/

/-- A Format V word. -/
def wordV (op : Nat) (f : FmtV) : W32 := (BitVec.ofNat 6 op) ++ f.d ++ f.a ++ f.b ++ f.c ++ f.m

/-- A Format M word. -/
def wordM (op : Nat) (f : FmtM) : W32 :=
  (BitVec.ofNat 6 op) ++ f.reg ++ f.col ++ (BitVec.ofBool f.g) ++ f.src ++ (0#9) ++ f.m

def wOp (w : W32) : Nat := (w.extractLsb' 26 6).toNat
/-- D or Reg. -/
def wD (w : W32) : Nat := (w.extractLsb' 20 6).toNat
/-- A or Col. -/
def wA (w : W32) : Nat := (w.extractLsb' 14 6).toNat
def wB (w : W32) : Nat := (w.extractLsb' 8 6).toNat
def wC (w : W32) : Nat := (w.extractLsb' 2 6).toNat
def wM (w : W32) : Nat := (w.extractLsb' 0 2).toNat
def wG (w : W32) : Bool := w.getLsbD 13
def wSrc (w : W32) : Nat := (w.extractLsb' 11 2).toNat

/-- Format M op codes: LD, LDG, STC, STW, BCST, DRAW. -/
def isFmtM (op : Nat) : Bool := decide (1 ≤ op ∧ op ≤ 6)
/-- Lane instructions. -/
def isLane (op : Nat) : Bool := decide (0x10 ≤ op ∧ op ≤ 0x1A)
/-- SFU instructions. -/
def isSfu (op : Nat) : Bool := decide (0x20 ≤ op ∧ op ≤ 0x23)

/-- CVT codes of Table STL-5. -/
def cvtCodes : List Nat := [0, 1, 2, 3, 8, 9, 0xA, 0xB, 0x10, 0x11]

/-- Is the word a reserved encoding (R141)? Src is judged where a program is checked. -/
def reservedWord (w : W32) : Bool :=
  let op := wOp w
  if op = 0 then w != 0
  else if isFmtM op then
    (w.extractLsb' 2 9 != 0) || wSrc w == 3 ||
    (match op with
      | 1 => wM w == 3
      | 2 => decide (2 ≤ wM w) || wA w != 0 || wG w
      | 3 => false
      | 4 => decide (2 ≤ wM w) || wA w != 0
      | 5 => wM w != 0 || decide (15 < wA w) || wG w
      | _ => decide (2 ≤ wM w) || decide (1 < wA w) || wG w)
  else if op = 0x18 then wC w != 0
  else if op = 0x1A then wM w == 3 || !(cvtCodes.contains (wC w)) || (decide (wM w < 2) && wB w != 0)
  else if isLane op || isSfu op then
    wM w != 0 ||
    (match op with
      | 0x10 => false
      | 0x15 => wB w != 0 || wC w != 0
      | 0x16 => wB w != 0 || wC w != 0
      | 0x17 => false
      | 0x19 => false
      | _ => wC w != 0)
  else true

/-! ### Registers an instruction names -/

/-- Elements per group (Table STL-2). -/
def groupElems (sl : Nat) : Nat := if sl = 2 then 16 else 8
/-- Groups per parcel. -/
def groupCount (sl : Nat) : Nat := if sl = 1 then 20 else if sl = 2 then 15 else 31
/-- Column stride S_g. -/
def groupStride (sl : Nat) : Nat := if sl = 1 then 3 else if sl = 2 then 4 else 2

/-- Does the instruction use the pair Reg, Reg + 1? -/
def isPair (sl : Nat) (w : W32) : Bool :=
  match wOp w with
  | 1 => wM w == 1
  | 2 => wM w == 1
  | 3 => wM w == 1 || wM w == 2
  | 4 => wM w == 1
  | 6 => sl == 2
  | _ => false

def regOrPair (sl : Nat) (w : W32) : List Nat := if isPair sl w then [wD w, wD w + 1] else [wD w]

/-- Registers written. -/
def writesOf (sl : Nat) (w : W32) : List Nat :=
  match wOp w with
  | 0 => []
  | 3 => []
  | 4 => []
  | _ => regOrPair sl w

/-- Registers read. A pair that begins at v63 has no second register: it breaks condition 7 (R231). -/
def readsOf (sl : Nat) (w : W32) : List Nat :=
  match wOp w with
  | 3 => (regOrPair sl w).filter (· < 64)
  | 4 => (regOrPair sl w).filter (· < 64)
  | 0x10 => [wA w, wB w, wC w]
  | 0x15 => [wA w]
  | 0x16 => [wA w]
  | 0x17 => [wA w, wB w, wC w]
  | 0x19 => [wA w, wB w, wC w]
  | 0x1A => if wM w = 2 then [wA w, wB w] else [wA w]
  | op => if isLane op || isSfu op then [wA w, wB w] else []

/-- Ordinals a body instruction takes (R219). -/
def ordinalsOf (w : W32) : Nat :=
  match wOp w with
  | 6 => 1
  | 3 => if wM w = 2 then 1 else 0
  | 4 => if wG w then 2 else 0
  | _ => 0

/-! ### The modulo schedule (R135-R137) -/

/-- Scheduling class: 0 port, 1 local, 2 lane, 3 sfu, 4 none. -/
def classOf (w : W32) : Nat :=
  let op := wOp w
  if op = 0 then 4 else if op = 1 then 0 else if isFmtM op then 1 else if isSfu op then 3 else 2

/-- Latency (Table STL-4). -/
def latOf (w : W32) : Nat :=
  match wOp w with
  | 0 => 1
  | 1 => 6
  | 2 => 2
  | 3 => 1
  | 4 => 1
  | 5 => 1
  | 6 => 3
  | 0x10 => 4
  | 0x11 => 4
  | 0x12 => 4
  | 0x1A => 3
  | op => if isSfu op then 8 else 2

def occOf (w : W32) : Nat := if classOf w = 3 then 2 else 1
def capOf (c : Nat) : Nat := if c = 2 then 2 else 1

def overlap (a b : List Nat) : Bool := a.any (fun x => b.contains x)

/-- Earliest offset an instruction may take after those placed (procedure of R136). -/
def readyAt (sl : Nat) (w : W32) (placed : List (W32 × Nat)) : Nat :=
  placed.foldl (fun t p =>
    let l := latOf p.1
    let t1 := if overlap (readsOf sl w) (writesOf sl p.1) then Nat.max t (p.2 + l) else t
    let t2 := if overlap (writesOf sl w) (readsOf sl p.1) then Nat.max t1 (p.2 + 1) else t1
    if overlap (writesOf sl w) (writesOf sl p.1) then
      Nat.max t2 (p.2 + Nat.max 1 (l + 1 - latOf w)) else t2) 0

/-- Number of placed instructions of a class in a slot. -/
def slotUse (ii c slot : Nat) (placed : List (W32 × Nat)) : Nat :=
  (placed.filter (fun p => classOf p.1 == c &&
    (p.2 % ii == slot || (occOf p.1 == 2 && (p.2 + 1) % ii == slot)))).length

/-- The first offset from `t` that has room, within `tries` attempts. -/
def findSlot (ii : Nat) (w : W32) (placed : List (W32 × Nat)) : Nat → Nat → Option Nat
  | 0, _ => none
  | n + 1, t =>
    let c := classOf w
    let full := decide (c ≠ 4) && (List.range (occOf w)).any (fun x => capOf c ≤ slotUse ii c ((t + x) % ii) placed)
    if full then findSlot ii w placed n (t + 1) else some t

/-- Place the body at one interval. -/
def placeAll (sl ii : Nat) : List W32 → List (W32 × Nat) → Option (List (W32 × Nat))
  | [], placed => some placed
  | w :: r, placed =>
    match findSlot ii w placed ii (readyAt sl w placed) with
    | some t => placeAll sl ii r (placed ++ [(w, t)])
    | none => none

/-- Raise ii until the body fits. -/
def scheduleFrom (sl : Nat) (body : List W32) : Nat → Nat → Nat × List (W32 × Nat)
  | 0, ii => (ii, [])
  | n + 1, ii =>
    match placeAll sl ii body [] with
    | some p => (ii, p)
    | none => scheduleFrom sl body n (ii + 1)

def countOp (p : W32 → Bool) (body : List W32) : Nat := (body.filter p).length

/-- Starting interval (R137). -/
def iiStart (body : List W32) (guarded : Bool) : Nat :=
  let nLd := countOp (fun w => wOp w == 1) body
  let nStc := countOp (fun w => wOp w == 3) body
  let nUndo := if guarded then nStc else 0
  let nLocal := countOp (fun w => classOf w == 1) body
  let nLane := countOp (fun w => classOf w == 2) body
  let nSfu := countOp (fun w => classOf w == 3) body
  Nat.max (Nat.max (nLd + nStc + nUndo) nLocal) (Nat.max (cdiv nLane 2) (Nat.max (2 * nSfu) 1))

/-- The schedule of a body: II and the offsets. -/
def schedule (sl : Nat) (body : List W32) (guarded : Bool) : Nat × List (W32 × Nat) :=
  scheduleFrom sl body 256 (iiStart body guarded)

/-- Highest iteration register named, less 15 (R135). -/
def regsR (sl : Nat) (body : List W32) : Nat :=
  (body.flatMap (fun w => readsOf sl w ++ writesOf sl w)).foldl (fun a r => Nat.max a (r - 15)) 0

/-- Iterations in flight (R137). -/
def flightK (sl : Nat) (body : List W32) (guarded : Bool) : Nat :=
  let s := schedule sl body guarded
  cdiv (s.2.foldl (fun a p => Nat.max a (p.2 + latOf p.1)) 0) s.1

/-- Initiation interval. -/
def iiOf (sl : Nat) (body : List W32) (guarded : Bool) : Nat := (schedule sl body guarded).1

/-- Cycles per parcel (R159). -/
def parcelCycles (sl : Nat) (body : List W32) (guarded : Bool) : Nat := iiOf sl body guarded * groupCount sl

/-- Commit-window bound (R156). -/
def windowBound (sl : Nat) (body : List W32) (aux : Nat) (guarded : Bool) : Nat :=
  let ii := iiOf sl body guarded
  let nLd := countOp (fun w => wOp w == 1) body
  let nStc := countOp (fun w => wOp w == 3) body
  let f := ii - nLd - (if guarded then nStc else 0)
  cdiv (stateCols sl + popcount aux 3) f * ii + 1

/-! ### The conditions of Table NUM-9 -/

/-- Auxiliary columns of a state layout: column 60 + i for AuxStore bit i, or column 62 (Table NUM-8). -/
def auxCols (sl aux : Nat) : List Nat :=
  if sl = 3 then (if aux.testBit 0 then [62] else [])
  else (List.range 3).filterMap (fun i => if aux.testBit i then some (60 + i) else none)

/-- Is column `c` auxiliary for the layout? -/
def isAuxCol (sl c : Nat) : Bool := if sl = 3 then c == 62 else decide (60 ≤ c ∧ c ≤ 62)

/-- Is group column `c` a master column? -/
def isMasterCol (sl c : Nat) : Bool := if sl = 2 then decide (c ≤ 1) else c == 0

/-- Is group column `c` held in BF16? -/
def isBfCol (sl c : Nat) : Bool := sl == 2 && decide (2 ≤ c)

/-- Index of the first word of a list, counted from `base`, that satisfies a test given the words before it. -/
def firstIdx (p : List W32 → W32 → Bool) : List W32 → List W32 → Nat → Option Nat
  | _, [], _ => none
  | seen, w :: r, i => if p seen w then some i else firstIdx p (seen ++ [w]) r (i + 1)

/-- The value of a register pair or register as the body leaves it before an instruction: index of its last
writer among the words seen. -/
def lastWriter (sl reg : Nat) (seen : List W32) : Option Nat :=
  ((List.range seen.length).filter (fun i => (writesOf sl (seen.getD i 0)).contains reg)).getLast?

/-- Words before position `i`. -/
def before (body : List W32) (i : Nat) : List W32 := body.take i

/-- Registers and their writers read by the master stores of the body, in column order. -/
def masterReads (sl : Nat) (body : List W32) : List (Nat × Option Nat) :=
  (List.range (if sl = 2 then 2 else 1)).flatMap (fun c =>
    match (List.range body.length).find? (fun i =>
      let w := body.getD i 0
      wOp w == 3 && wG w && wA w == c) with
    | some i =>
      let w := body.getD i 0
      [(wD w, lastWriter sl (wD w) (before body i))]
    | none => [])

/-- The condition of Table NUM-9 that a program breaks first, with the index of the first instruction that
breaks it or 0xFF (R231; DEDUCED, log 118). -/
def checkRule (sl p b aux : Nat) (words : List W32) : Option (Nat × Nat) :=
  let pro := words.take p
  let body := (words.drop p).take b
  let epg := groupElems sl
  let storable := (List.range (groupStride sl)).map (fun c => (true, c)) ++ (auxCols sl aux).map (fun c => (false, c))
  let storeOf (w : W32) : Bool × Nat := (wG w, wA w)
  let c2 := firstIdx (fun _ w => reservedWord w || (isFmtM (wOp w) && wSrc w != 0)) [] words 0
  let c3 := firstIdx (fun _ w => [1, 2, 3, 4, 6].contains (wOp w) || (writesOf sl w).any (fun r => decide (15 < r)))
    [] pro 0
  let c4 := firstIdx (fun _ w => wOp w == 5 || (writesOf sl w).any (fun r => decide (r < 16))) [] body p
  let c5 := firstIdx (fun seen w => (readsOf sl w).any (fun r => decide (16 ≤ r) && (lastWriter sl r seen).isNone))
    [] body p
  let c6 := firstIdx (fun _ w => (wOp w == 1 || wOp w == 3) &&
    ((wG w && decide (groupStride sl ≤ wA w)) || (!wG w && !isAuxCol sl (wA w)) || wA w == 63)) [] body p
  let c7 := firstIdx (fun _ w =>
    (wOp w == 3 && wG w && (if isBfCol sl (wA w) then !(wM w == 1 || wM w == 2) else wM w != 0))
    || (isPair sl w && wD w % 2 == 1)) [] words 0
  let stores := body.filter (fun w => wOp w == 3)
  let c8i := firstIdx (fun seen w => wOp w == 3 &&
    (!(storable.contains (storeOf w)) || seen.any (fun v => wOp v == 3 && storeOf v == storeOf w))) [] body p
  let c8 := match c8i with
    | some i => some i
    | none => if storable.all (fun x => stores.any (fun w => storeOf w == x)) then none else some 0xFF
  let m := if epg = 16 then 1 else 0
  let c9i := firstIdx (fun seen w => wOp w == 2 && (wM w != m || seen.any (fun v => wOp v == 2))) [] body p
  let c9 := match c9i with
    | some i => some i
    | none => if body.any (fun w => wOp w == 2) then none else some 0xFF
  let c10i := firstIdx (fun seen w => wOp w == 4 && (wM w != m || seen.any (fun v => wOp v == 4)
    || ((regOrPair sl w).map (fun r => (r, lastWriter sl r seen))) != masterReads sl body)) [] body p
  let c10 := match c10i with
    | some i => some i
    | none => if body.any (fun w => wOp w == 4) then none else some 0xFF
  if 64 < p + b ∨ (b = 0 ∧ p ≠ 0) then some (1, 0xFF)
  else match c2 with
  | some i => some (2, i)
  | none => match c3 with
  | some i => some (3, i)
  | none => match c4 with
  | some i => some (4, i)
  | none => match c5 with
  | some i => some (5, i)
  | none => match c6 with
  | some i => some (6, i)
  | none => match c7 with
  | some i => some (7, i)
  | none => match c8 with
  | some i => some (8, i)
  | none => match c9 with
  | some i => some (9, i)
  | none => match c10 with
  | some i => some (10, i)
  | none =>
    if 16 < (body.map ordinalsOf).sum then some (11, 0xFF)
    else if 48 < flightK sl body false * regsR sl body then some (12, 0xFF)
    else if 209 < windowBound sl body aux false then some (13, 0xFF)
    else if aux = 0 ∧ 209 < windowBound sl body aux true then some (13, 0xFF)
    else none

/-! ### Built-in programs (R223-R226) -/

def iM (op reg col : Nat) (g : Bool) (m : Nat) : W32 :=
  wordM op ⟨BitVec.ofNat 6 reg, BitVec.ofNat 6 col, g, 0, BitVec.ofNat 2 m⟩
def iV (op d a b c : Nat) : W32 :=
  wordV op ⟨BitVec.ofNat 6 d, BitVec.ofNat 6 a, BitVec.ofNat 6 b, BitVec.ofNat 6 c, 0⟩
def bcst (i : Nat) : W32 := iM 5 i i false 0

/-- Instructions 5 to 13 of Table NUM-4 over registers g, w, m, v. -/
def adamCore (g w m v : Nat) : List W32 :=
  [iV 0x12 m m 0 0, iV 0x10 m g 1 m, iV 0x12 g g g 0, iV 0x12 v v 2 0, iV 0x10 v g 5 v, iV 0x11 g v 6 0,
   iV 0x20 g g 7 0, iV 0x12 w w 8 0, iV 0x10 w m g w]

def ruleSgd : Rule where
  stateLayout := 3
  prologue := [0, 1, 2].map bcst
  body := [iM 2 16 0 false 0, iM 1 17 0 true 0, iM 1 18 1 true 0, iV 0x10 18 18 0 16, iV 0x12 19 17 1 0,
    iV 0x10 17 18 2 19, iM 3 18 1 true 0, iM 3 17 0 true 0, iM 4 17 0 true 0]
  auxStore := 0
  mixMaster := false

def ruleLion : Rule where
  stateLayout := 3
  prologue := [0, 1, 2, 3, 4, 5].map bcst
  body := [iM 2 16 0 false 0, iM 1 17 0 true 0, iM 1 18 1 true 0, iV 0x12 19 18 0 0, iV 0x10 19 16 1 19,
    iV 0x16 19 19 0 0, iV 0x12 17 17 4 0, iV 0x10 17 19 5 17, iV 0x12 18 18 2 0, iV 0x10 18 16 3 18,
    iM 3 17 0 true 0, iM 3 18 1 true 0, iM 4 17 0 true 0]
  auxStore := 0
  mixMaster := false

def ruleAdam : Rule where
  stateLayout := 1
  prologue := (List.range 9).map bcst
  body := [iM 2 16 0 false 0, iM 1 17 0 true 0, iM 1 18 1 true 0, iM 1 19 2 true 0, iV 0x19 16 16 3 4]
    ++ adamCore 16 17 18 19
    ++ [iM 3 17 0 true 0, iM 3 18 1 true 0, iM 3 19 2 true 0, iM 4 17 0 true 0]
  auxStore := 0
  mixMaster := false

def ruleCompact : Rule where
  stateLayout := 2
  prologue := [0, 1, 2, 5, 6, 7, 8].map bcst
  body := [iM 2 16 0 false 1, iM 1 18 0 true 0, iM 1 19 1 true 0, iM 1 20 2 true 1, iM 1 22 3 true 1]
    ++ adamCore 16 18 20 22 ++ adamCore 17 19 21 23
    ++ [iM 3 18 0 true 0, iM 3 19 1 true 0, iM 3 20 2 true 2, iM 3 22 3 true 2, iM 4 18 0 true 1]
  auxStore := 0
  mixMaster := false

/-- The program under a RuleId (Table NUM-3). -/
def ruleOf (s : State) (id : Nat) : Option Rule :=
  match id with
  | 0x01 => some ruleSgd
  | 0x02 => some ruleLion
  | 0x05 => some ruleAdam
  | 0x06 => some ruleCompact
  | _ => if 0x10 ≤ id then kvGet s.rules id else none

end Sys2Proof.Machine
end

