-- ==== Sys2Proof/Machine/Work.lean ====
section
/-! DEFINITION. Booked work (02, R577, Table UPD-3): how many ns an order takes on each resource instance. -/

namespace Sys2Proof.Machine

/-- ns of a number of bytes on one channel, 51.25 GB/s. -/
def chanNs (bytes : Nat) : Rat := (bytes : Rat) * 4 / 205
/-- ns of bytes on the Awning, 16 TB/s. -/
def awnNs (bytes : Nat) : Rat := (bytes : Rat) / 16000
/-- ns of bytes on a requester port direction, 2.048 TB/s. -/
def portNs (bytes : Nat) : Rat := (bytes : Rat) / 2048
/-- ns of bytes on the exchange port, 3.2 TB/s. -/
def xchNs (bytes : Nat) : Rat := (bytes : Rat) / 3200
/-- ns of accesses on the Cirrus path, 160 G accesses/s. -/
def cirNs (n : Nat) : Rat := (n : Rat) / 160
/-- ns of cycles at 940 MHz. -/
def cycNs (c : Nat) : Rat := (c : Rat) * 50 / 47
/-- ns of sealer time per row: FCS-48, plain JEDEC (R413, R416). -/
def sealNs (fcs : Bool) (rows : Nat) : Rat := if fcs then (rows : Rat) * 798 / 5 else (rows : Rat) * 228 / 5

/-- Add up amounts by key. -/
def kvAdd (m : KV Nat) (k n : Nat) : KV Nat := kvPut m k (kvGetD m k 0 + n)

/-- Largest amount of any channel of each site, from amounts keyed by site * 32 + channel. -/
def perSite (m : KV Nat) : List (Nat × Nat) :=
  (List.range 20).filterMap (fun s =>
    let v := (m.filter (fun e => e.1 / 32 == s)).foldl (fun a e => Nat.max a e.2) 0
    if v = 0 then none else some (s, v))

def siteOf (n : Nat) : SiteId := ⟨n % 20, by omega⟩
def portOf (n : Nat) : PortId := ⟨n % 16, by omega⟩

/-- Bytes each channel carries for bytes `x .. x+n-1` of an area whose chunk `c` lies at column key `f c`. -/
def rangeBytes (f : Nat → Nat) (x n : Nat) : KV Nat :=
  if n = 0 then [] else
  let c0 := x / 2048
  (List.range ((x + n - 1) / 2048 + 1 - c0)).foldl (fun m i =>
    let c := c0 + i
    let lo := Nat.max x (c * 2048)
    let hi := Nat.min (x + n) ((c + 1) * 2048)
    let k := f c
    kvAdd m (keySite k * 32 + keyCh k) (hi - lo)) []

/-- Channel time of each site for bytes per channel. Bytes of a channel fenced since are not booked: the order
that needs them ends with FAILED_LOST (R119). -/
def chanWork (s : State) (m : KV Nat) : List (Inst × Rat) :=
  (perSite (m.filter (fun e => (foldMask s (e.1 / 32)).getLsbD (e.1 % 32)))).map (fun e => (.channel (siteOf e.1), chanNs e.2))

/-- Merge work lists: one entry per instance. -/
def mergeWork (l : List (Inst × Rat)) : List (Inst × Rat) :=
  l.foldl (fun acc e =>
    if acc.any (fun a => a.1 == e.1) then acc.map (fun a => if a.1 == e.1 then (a.1, a.2 + e.2) else a)
    else acc ++ [e]) []

/-- Amounts of two maps together. -/
def kvSum (a b : KV Nat) : KV Nat := b.foldl (fun m e => kvAdd m e.1 e.2) a

/-- Key of a stall unit and of a relief engine. -/
def stallKey (site ch pair : Nat) : Nat := (site * 32 + ch) * 8 + pair
def reliefKey (site : Nat) : Nat := 5120 + site
def unitKey : UnitId → Nat
  | .stall st => stallKey st.site.val st.ch.val st.pair.val
  | .relief s => reliefKey s.val

/-- Is the stall fenced, or on a fenced channel or site? -/
def stallFenced (s : State) (site ch pair : Nat) : Bool := kvHas s.fencedStalls (stallKey site ch pair)

/-- Does the relief engine of its site serve the parcel: plain JEDEC, or its stall fenced (R194)? -/
def onRelief (s : State) (u : PUnit) : Bool := !isFcs s u.site || stallFenced s u.site u.ch u.pair

/-- Relief-engine cycles per parcel in rule mode, times 128 (section Relief engines). -/
def reliefCyc128 (sl : Nat) (body : List W32) : Nat :=
  parcelSize sl * Nat.max 1 (cdiv (countOp (fun w => isLane (wOp w) || isSfu (wOp w)) body) 32)

/-- Rows a parcel's commit writes: keys without the column number. -/
def parcelRows (s : State) (ly : Layout) (slot q : Nat) (guarded : Bool) : List Nat :=
  let g := ly.geo s
  let st := [ly.parcelCol s q 0 / 64]
  let vr := [ly.verCol s slot q 0 / 64]
  let un := if guarded then [ly.undoCol s q 0 / 64, ly.undoCol s q (g.u - 1) / 64] else []
  st ++ vr ++ un

/-- Distinct rows on each channel. -/
def rowsPerChan (rows : List Nat) : KV Nat :=
  rows.dedup.foldl (fun m r => kvAdd m (r / 65536 / 16) 1) []

/-- Sealer time of each site for a set of rows (R413, R416). -/
def sealWork (s : State) (rows : List Nat) : List (Inst × Rat) :=
  (perSite (rowsPerChan rows)).map (fun e => (.sealer (siteOf e.1), sealNs (isFcs s e.1) e.2))

/-- Stall, relief-engine and channel time of a set of parcels under a program (Table UPD-3). -/
def parcelWork (s : State) (ly : Layout) (body : List W32) (guarded : Bool) (ps : List Nat) : List (Inst × Rat) :=
  let g := ly.geo s
  let e := ly.seqE s
  let units := ps.map (fun q => e.getD (q % e.length) ⟨0, 0, 0⟩)
  let cp := parcelCycles ly.stateLayout body guarded
  let stalls : KV Nat := units.foldl (fun m u => if onRelief s u then m else kvAdd m (stallKey u.site u.ch u.pair) 1) []
  let relief : KV Nat := units.foldl (fun m u => if onRelief s u then kvAdd m u.site 1 else m) []
  let chans : KV Nat := units.foldl (fun m u =>
    let b := if isFcs s u.site then
        2 * g.n + (if onRelief s u then 2 * 2048 + 32 * g.w else 0)
      else 2 * (2048 + 288) + 32 * g.w + 128
    kvAdd m (u.site * 32 + u.ch) b) []
  let st := (List.range 20).filterMap (fun site =>
    let v := (stalls.filter (fun x => x.1 / 256 == site)).foldl (fun a x => Nat.max a x.2) 0
    if v = 0 then none else some (Inst.stall (siteOf site), cycNs (v * cp + 200)))
  let re := relief.map (fun x => (Inst.relief (siteOf x.1),
    (x.2 * reliefCyc128 ly.stateLayout body : Rat) * 50 / 47 / 128))
  st ++ re ++ chanWork s chans

/-- Parcels that a tile overlaps (R109). -/
def tileParcels (g : Geo) (t : Nat) : List Nat :=
  (span (t * 8192 / g.n) (((t + 1) * 8192 - 1) / g.n)).filter (fun q => decide (q < g.parcels))

/-- The last tile in the published order (R110). -/
def lastTile (ly : Layout) (g : Geo) : Nat := if ly.arrivalDesc then 0 else g.tiles - 1

/-- Work of an UPD_OPEN for parcels `ps` still to commit, contributions still to come and slots (Table UPD-3,
R576). -/
def updWork (s : State) (ly : Layout) (body : List W32) (guarded : Bool) (slot ports : Nat)
    (ps sealPs : List Nat) (localC remoteC allC share : Nat) : List (Inst × Rat) :=
  let rows := sealPs.flatMap (fun q => parcelRows s ly slot q guarded)
  let n := popcount ports 16
  let pw := ((List.range 16).filter (fun p => ports.testBit p)).map
    (fun p => (Inst.portIn (portOf p), portNs (localC * 16384) / n))
  mergeWork (parcelWork s ly body guarded ps ++ sealWork s rows ++ [(.awning, awnNs (allC * 65536))] ++ pw
    ++ [(.xchIn, xchNs (remoteC * 16384)), (.slots, (share : Rat))])

/-- Tail of an UPD_OPEN (Table UPD-3): the parcels that the last tile overlaps. -/
def updTail (s : State) (ly : Layout) (body : List W32) (guarded : Bool) (slot d : Nat) (ps : List Nat) :
    List (Inst × Rat) :=
  let rows := ps.flatMap (fun q => parcelRows s ly slot q guarded)
  let one := (parcelWork s ly body guarded ps).map (fun e => match e.1 with
    | .stall _ => (e.1, cycNs (parcelCycles ly.stateLayout body guarded + 200))
    | _ => e)
  mergeWork (one ++ sealWork s rows ++ [(.awning, awnNs (d * 65536))])

/-- Is every tile of the update ripe? -/
def allRipe (g : Geo) (u : Upd) : Bool := (List.range g.tiles).all (fun t => kvHas u.ripe t)

end Sys2Proof.Machine
end

