-- ==== Sys2Proof/Machine/Booked.lean ====
section
/-! DEFINITION. What an order books, of itself and of the part of it that is not yet performed (R576, R577): the areas,
rows and parcels that it touches, its lots (R86), and the remaining work of an admitted order. -/

namespace Sys2Proof.Machine

/-! ### Areas -/

/-- Bytes of one version slot's stream (R123): parcels times w columns. -/
def slotBytes (s : State) (ly : Layout) : Nat := let g := ly.geo s; g.parcels * 32 * g.w

/-- Length of an area, none when the layout has no such area (R338). -/
def areaLen (s : State) (ly : Layout) (area : Nat) : Option Nat :=
  if ly.kind = 3 then (if area = 0 then some ly.length else none)
  else if 1 ≤ area ∧ area ≤ ly.slots then some (slotBytes s ly)
  else none

/-- Key of column `j` of an area. -/
def areaCol (s : State) (ly : Layout) (area j : Nat) : Nat :=
  if ly.kind = 3 then ly.chunkCol s 0 (j / 64) (j % 64)
  else let w := (ly.geo s).w; ly.verCol s (area - 1) (j / w) (j % w)

/-- Key of the first column of chunk-sized pieces, for booking the bytes of a range: chunks for Kinds 0x02 and
0x03, parcels' footprints for Kind 0x01. -/
def areaBytes (s : State) (ly : Layout) (area x n : Nat) : KV Nat :=
  if ly.kind = 1 then
    let w := 32 * (ly.geo s).w
    if n = 0 then [] else
    let c0 := x / w
    (List.range ((x + n - 1) / w + 1 - c0)).foldl (fun m i =>
      let c := c0 + i
      let lo := Nat.max x (c * w)
      let hi := Nat.min (x + n) ((c + 1) * w)
      let k := areaCol s ly area (c * (ly.geo s).w)
      kvAdd m (keySite k * 32 + keyCh k) (hi - lo)) []
  else rangeBytes (fun c => areaCol s ly area (c * 64)) x n

/-! ### Fields and paths -/

/-- Endpoint fields at byte `b` (R285). -/
def epPath (o : Order) (b : Nat) : Nat := fld o b 1

def epNode (o : Order) (b : Nat) : Nat := fld o (b + 1) 3

def epAddr (o : Order) (b : Nat) : Nat := fld o (b + 4) 8

/-- Is the endpoint all zero? -/
def epZero (o : Order) (b : Nat) : Bool := fld o b 12 == 0

def isPort (p : Nat) : Bool := decide (p < 16)

/-- The instance that carries an endpoint's bytes into the block, or out of it. -/
def inInst (p : Nat) : Inst := if p = 0x40 then .xchIn else .portIn (portOf p)

def outInst (p : Nat) : Inst := if p = 0x40 then .xchOut else .portOut (portOf p)

/-- ns of bytes on that instance. -/
def pathNs (p bytes : Nat) : Rat := if p = 0x40 then xchNs bytes else portNs bytes

/-- Staging bytes of one lot (R86). -/
def lotBytes (s : State) : Nat := s.par.awnMib * 65536

/-- Elements per chunk of a stored format (Table STA-1); none for a reserved code. -/
def chunkElems (code : Nat) : Option Nat :=
  match code with
  | 0x01 => some 1024
  | 0x05 => some 1984
  | 0x06 => some 1984
  | 0x07 => some 2592
  | 0x08 => some 2592
  | 0x09 => some 3840
  | 0x10 => some 512
  | _ => none

/-- First index and length of a counter group: the indices from its first to the next group's first (Table TEL-1,
reserved indices included; DEDUCED, log 16). -/
def groupRange (g : Nat) : Nat × Nat :=
  match g with
  | 0 => (0, 64)
  | 1 => (64, 64)
  | 2 => (128, 128)
  | 3 => (256, 1280)
  | 4 => (1536, 512)
  | 5 => (2048, 2048)
  | _ => (4096, 4096)

/-- Indices of the named groups, ascending. -/
def groupIndices (groups : Nat) : List Nat :=
  ((List.range 7).filter (fun g => groups.testBit g)).flatMap (fun g =>
    let r := groupRange g
    span r.1 (r.1 + r.2 - 1))

/-- Row ranges of a layout's band, by bank. -/
def layoutRows (s : State) (ly : Layout) : List (Nat × Nat × Nat) :=
  (ly.seqE s).flatMap (fun u => [2 * u.pair, 2 * u.pair + 1].map (fun b =>
    (bankKey u.site u.ch b, ly.rowBase, ly.rowBase + ly.bandRows)))

/-- Channel time of writing rows, 2,048 bytes each (R513). -/
def rowsWork (s : State) (rows : List (Nat × Nat × Nat)) : List (Inst × Rat) :=
  chanWork s (rows.foldl (fun m r => kvAdd m (r.1 / 16) (2048 * (r.2.2 - r.2.1))) [])

/-- Bytes of a range multiplied by a factor. -/
def scaleBytes (m : KV Nat) (k : Nat) : KV Nat := m.map (fun e => (e.1, e.2 * k))

/-- Bytes each channel carries for one slot of a layout. -/
def slotTraffic (s : State) (ly : Layout) (v : Nat) : KV Nat := areaBytes s ly (v + 1) 0 (slotBytes s ly)

/-- Is the order a FETCH serve of a layout and Version? -/
def isServe (id v : Nat) (o : Order) : Bool :=
  ordOp o == 0x31 && fldBits o 16 0 1 == 1 && fld o 18 2 == id && fld o 20 5 == v

/-- The layouts an EXPORT names. -/
def exportIds (o : Order) : List Nat :=
  ((List.range 8).map (fun i => fld o (16 + 2 * i) 2)).filter (· != 0)

/-- Image length with `n` slots (Table VER-7). -/
def imageBytes (s : State) (ly : Layout) (n : Nat) : Nat :=
  64 + ly.desc.length + (ly.geo s).parcels * 2048 + n * slotBytes s ly + 64

/-- The bytes both orders book (R305). -/
def ctxBytes : Nat := 17068032

/-- Element width in bytes of a TREAD. -/
def treadW (o : Order) : Nat := if o.getLsbD 152 then 1 else 2

def treadRows (o : Order) : Nat := fld o 40 1 + 1

def treadCols (o : Order) : Nat := fld o 41 1 + 1

/-- Byte of source element (Row0 + i, Col0 + j). -/
def treadByte (o : Order) (i j : Nat) : Nat :=
  fld o 20 8 + ((fld o 32 4 + i) * fld o 28 4 + fld o 36 4 + j) * treadW o

/-- Chunks of `count` elements in a stored format. -/
def chunksFor (count fmt : Nat) : Nat := cdiv count ((chunkElems fmt).getD 1)

/-- Channel traffic of a stash entry's chunks. -/
def stashTraffic (s : State) (ly : Layout) (off chunks : Nat) : KV Nat := areaBytes s ly 0 off (2048 * chunks)

/-- Bytes of one access. -/
def gatherSize (o : Order) : Nat := 8 * 2 ^ (fldBits o 18 0 2)

/-- Bytes of an element of a format code. -/
def ewWidth (f : Nat) : Nat := if f = 1 then 4 else if f ≤ 3 then 2 else 1

def ewSrcF (o : Order) : Nat := fldBits o 17 0 4

def ewDstF (o : Order) : Nat := fldBits o 17 4 4

/-- Has the operation an operand B? -/
def ewHasB (op : Nat) : Bool := op == 1 || op == 2 || op == 3

/-- Operands of an EW: layout and area; the destination first. MASK has no operand A, and names one only where its
field is not 0 (DEDUCED, log 23). -/
def ewSources (o : Order) : List (Nat × Nat) :=
  (if fld o 16 1 = 0x0B ∧ fld o 20 2 = 0 then [] else [(fld o 20 2, fld o 25 1)])
    ++ (if ewHasB (fld o 16 1) then [(fld o 22 2, fld o 26 1)] else [])

/-- Cycles per destination column (Table STL-11). -/
def ewCost (op w : Nat) : Nat :=
  let pick (a b c : Nat) := if w = 4 then a else if w = 2 then b else c
  match op with
  | 1 => pick 3 3 4
  | 2 => pick 3 3 4
  | 3 => 4
  | 4 => pick 2 2 4
  | 5 => pick 2 2 4
  | 9 => pick 2 2 4
  | 0x0A => pick 2 4 8
  | 0x0B => pick 2 4 8
  | 6 => pick 5 10 20
  | 0x0D => pick 5 10 20
  | _ => pick 4 8 16

/-- Placement unit of byte `x` of an area. -/
def unitAt (s : State) (ly : Layout) (area x : Nat) : PUnit :=
  if ly.kind = 1 then ly.parcelUnit s (x / (32 * (ly.geo s).w))
  else
    let k := areaCol s ly area (x / 32)
    ⟨keySite k, keyCh k, keyBank k / 2⟩

/-- Columns of a byte range on each placement unit, keyed by stall. -/
def unitCols (s : State) (ly : Layout) (area x n : Nat) : KV Nat :=
  if n = 0 then [] else
  (List.range ((x + n - 1) / 32 + 1 - x / 32)).foldl (fun m i =>
    let u := unitAt s ly area (32 * (x / 32 + i))
    kvAdd m (stallKey u.site u.ch u.pair) 1) []

def redOp (o : Order) : Nat := fld o 16 1

def redFold (o : Order) : Bool := o.getLsbD 144

def redCount (o : Order) : Nat := fld o 56 6

def redSrcs (o : Order) : Nat := fld o 20 2

/-- Width of a source element, and of a result. -/
def redSrcW (o : Order) : Nat := if redOp o = 4 then 16 else if fldBits o 17 0 4 = 1 then 4 else 2

def redDstW (o : Order) : Nat := if redOp o = 4 then 16 else if fldBits o 17 4 4 = 1 then 4 else 2

/-- Bytes a REDUCE writes to its destination. -/
def redOutBytes (o : Order) : Nat := if redFold o then 16 else redCount o * redDstW o

/-- Fields of an UPD_OPEN (Table UPD-1). -/
def uoLayout (o : Order) : Nat := fld o 16 2

def uoRule (o : Order) : Nat := fld o 18 1

def uoSlot (o : Order) : Nat := fld o 19 1

def uoStep (o : Order) : Nat := fld o 20 5

def uoAttempt (o : Order) : Nat := fld o 25 1

def uoD (o : Order) : Nat := fld o 26 1

def uoLocal (o : Order) : Nat := fld o 27 1

def uoPorts (o : Order) : Nat := fld o 28 2

def uoGuarded (o : Order) : Bool := o.getLsbD 240

def uoHold (o : Order) : Bool := o.getLsbD 241

def uoClip (o : Order) : Bool := o.getLsbD 242

def uoStream (o : Order) (i : Nat) : Nat := fld o (32 + 2 * i) 2

def uoFactor (o : Order) : W32 := BitVec.ofNat 32 (fld o 36 4)

def uoShare (o : Order) : Nat := let v := fld o 40 2; if v = 0 then 64 else v

def uoHyper (o : Order) : Nat := fld o 48 8

/-- Work and tail of an UPD_OPEN (Table UPD-3). -/
def updOpenWork (s : State) (o : Order) : List (Inst × Rat) × List (Inst × Rat) :=
  match getLayout s (uoLayout o) with
  | none => ([], [])
  | some ly =>
    let g := ly.geo s
    let body := ((ruleOf s (uoRule o)).map Rule.body).getD []
    let ps := List.range g.parcels
    (updWork s ly body (uoGuarded o) (uoSlot o) (uoPorts o) ps ps (g.tiles * uoLocal o)
        (g.tiles * (uoD o - uoLocal o)) (g.tiles * uoD o) (uoShare o),
     updTail s ly body (uoGuarded o) (uoSlot o) (uoD o) (tileParcels g (lastTile ly g)))

/-- Ranges of 0 to n - 1 that a list of ranges leaves out; `cur` is where the search stands. -/
def missing (n : Nat) : Nat → List (Nat × Nat) → List (Nat × Nat)
  | cur, [] => if cur < n then [(cur, n)] else []
  | cur, (x, y) :: r => (if cur < x then [(cur, x)] else []) ++ missing n (Nat.max cur y) r

/-- Is the order a FETCH pull? -/
def isPull (o : Order) : Bool := ordOp o == 0x31 && fldBits o 16 0 1 == 0

/-! ### Lots (R86) -/

/-- How an order is cut: the units that it moves, the units of one lot, and the bytes that a unit stages. STASH_PUT and
STASH_GET are cut at chunk boundaries (R320), REDUCE by elements, GATHER and SCATTER as R373 gives, the others by bytes.
An order that is never cut stages nothing. -/
def cutOf (s : State) (o : Order) (ctx : OrderCtx) : Nat × Nat × Nat :=
  let lot := lotBytes s
  let bytes (n : Nat) : Nat × Nat × Nat := (n, lot, 1)
  let slot (id : Nat) : Nat := ((getLayout s id).map (slotBytes s)).getD 0
  let chunks (count fmt w : Nat) : Nat × Nat × Nat :=
    let c := (chunkElems fmt).getD 1 * w
    (chunksFor count fmt, Nat.max 1 (lot / c), c)
  match ordOp o with
  | 0x12 => bytes (((getLayout s (fld o 16 2)).map (fun l => 2 * imageBytes s l l.slots)).getD 0 + 65536 * fld o 20 1)
  | 0x31 => bytes (slot (fld o 18 2) * (if isPull o then 1 else fld o 26 1))
  | 0x32 => bytes (((getLayout s (fld o 16 2)).map (fun l => slotBytes s l + l.desc.length + 80)).getD 0)
  | 0x33 =>
    bytes (((List.range 8).map (fun i => ((getLayout s (fld o (16 + 2 * i) 2)).map (fun l =>
      imageBytes s l (match ctx with
        | .image ms => (ms.getD i []).length
        | _ => 0))).getD 0)).sum)
  | 0x34 => bytes (((getLayout s (fld o 16 2)).map (fun l => imageBytes s l l.slots)).getD 0)
  | 0x35 => bytes ctxBytes
  | 0x36 => bytes ctxBytes
  | 0x40 => bytes (fld o 28 4)
  | 0x42 => chunks (fld o 48 5) (fld o 20 1) (if fld o 21 1 = 1 then 4 else 2)
  | 0x43 => match ctx with
    | .entry _ _ fmt count => chunks count fmt 2
    | _ => (0, 1, 0)
  | 0x45 => (fld o 20 4, Nat.max 1 (lot / (8 + gatherSize o) / 4096 * 4096), 8 + gatherSize o)
  | 0x46 => (fld o 20 4, Nat.max 1 (lot / (8 + gatherSize o) / 4096 * 4096), 8 + gatherSize o)
  | 0x51 =>
    let e := redSrcs o * redSrcW o + (if redFold o then 0 else redDstW o)
    (redCount o, Nat.max 1 (lot / Nat.max 1 e), e)
  | _ => (0, 1, 0)

/-- Lots of an order. -/
def lotsOf (s : State) (o : Order) (ctx : OrderCtx) : Nat := let c := cutOf s o ctx; Nat.max 1 (cdiv c.1 c.2.1)

/-- Staging that each lot of an order holds while its data moves (R86, R352). -/
def stageOf (s : State) (o : Order) (ctx : OrderCtx) : Nat := let c := cutOf s o ctx; Nat.min c.1 c.2.1 * c.2.2

/-- Units of an order that its first lots moved. -/
def unitsDone (s : State) (o : Order) (ctx : OrderCtx) (done : Nat) : Nat :=
  let c := cutOf s o ctx
  Nat.min c.1 (done * c.2.1)

/-! ### The work of the part of an order that is not yet performed (R576, R577) -/

/-- Parts of a stream of bytes: length, traffic on the channels of a range of it, and rows that writing from a byte of
it on touches. -/
structure Part where
  len : Nat
  traffic : Nat → Nat → KV Nat
  rows : Nat → List Nat

/-- Bytes with no place in the stacks. -/
def Part.plain (n : Nat) : Part := ⟨n, fun _ _ => [], fun _ => []⟩

/-- The state rows of a layout, parcel after parcel. -/
def Part.states (s : State) (ly : Layout) : Part :=
  let n := (ly.geo s).parcels
  ⟨n * 2048, rangeBytes (fun q => ly.parcelCol s q 0),
    fun x => (span (x / 2048) (n - 1)).map (fun q => ly.parcelCol s q 0 / 64)⟩

/-- The short weights of slot `v` of a layout. -/
def Part.slot (s : State) (ly : Layout) (v : Nat) : Part :=
  let g := ly.geo s
  ⟨slotBytes s ly, areaBytes s ly (v + 1),
    fun x => (span (x / (32 * g.w)) (g.parcels - 1)).map (fun q => ly.verCol s v q 0 / 64)⟩

/-- The parts of an image with slots `vs` (Table VER-7). -/
def imageParts (s : State) (ly : Layout) (vs : List Nat) : List Part :=
  Part.plain (64 + ly.desc.length) :: Part.states s ly :: vs.map (Part.slot s ly) ++ [Part.plain 64]

/-- Traffic of a stream from byte `x` on. -/
def trafficFrom : List Part → Nat → KV Nat
  | [], _ => []
  | p :: r, x => kvSum (if x < p.len then p.traffic x (p.len - x) else []) (trafficFrom r (x - p.len))

/-- Rows of a stream from byte `x` on. -/
def rowsFrom : List Part → Nat → List Nat
  | [], _ => []
  | p :: r, x => (if x < p.len then p.rows x else []) ++ rowsFrom r (x - p.len)

/-- Channel and sealer time of filling a layout from byte `x` of its image on (R307). -/
def fillFromByte (s : State) (ly : Layout) (x : Nat) : List (Inst × Rat) :=
  let ps := imageParts s ly (List.range ly.slots)
  chanWork s (trafficFrom ps x) ++ sealWork s (rowsFrom ps x)

/-- Slots of a layout that are Readable. -/
def readableSlots (ly : Layout) : List Nat :=
  (List.range ly.slots).filter (fun v => match ly.slotSt.getD v .released with
    | .readable _ => true
    | _ => false)

/-- Work of an EW (R166, R167): stall time by the busiest stall of each site; columns of fenced stalls, and conversions
of width, on the relief engine, at its 128 elements per cycle, and on the channels. A conversion reads its source's
columns on the channels that hold them (DEDUCED, log 102). -/
def ewWork (s : State) (o : Order) : List (Inst × Rat) :=
  match getLayout s (fld o 18 2) with
  | none => []
  | some dst =>
    let op := fld o 16 1
    let wd := ewWidth (ewDstF o)
    let ws := ewWidth (ewSrcF o)
    let first := fld o 32 6
    let n := fld o 40 6
    let srcs := (ewSources o).filterMap (fun x => (getLayout s x.1).map (fun l => (x.2, l)))
    let (ly, a, w) := if op = 0x0D then
        (match srcs with
          | (ar, l) :: _ => (l, ar, ws)
          | [] => (dst, fld o 24 1, wd))
      else (dst, fld o 24 1, wd)
    let cols := unitCols s ly a (first * w) (n * w)
    let conv := op == 9 && ws != wd
    let onR (k : Nat) := conv || onRelief s ⟨k / 256, k / 8 % 32, k % 8⟩
    let st := (List.range 20).filterMap (fun x =>
      let v := (cols.filter (fun e => e.1 / 256 == x && !onR e.1)).foldl (fun m e => Nat.max m e.2) 0
      if v = 0 then none else some (Inst.stall (siteOf x), cycNs (v * ewCost op w)))
    let re := (List.range 20).filterMap (fun x =>
      let v := ((cols.filter (fun e => e.1 / 256 == x && onR e.1)).map (·.2)).sum
      if v = 0 then none else some (Inst.relief (siteOf x), (v * (32 / w) : Rat) * 50 / 47 / 128))
    let chans := if conv then
        srcs.foldl (fun m x => kvSum m (areaBytes s x.2 x.1 (first * ws) (n * ws))) (areaBytes s ly a (first * wd) (n * wd))
      else (cols.filter (fun e => onR e.1)).foldl (fun (m : KV Nat) e =>
        kvAdd m (e.1 / 8) (e.2 * 32 * (1 + (ewSources o).length))) []
    st ++ re ++ chanWork s chans

/-- Stall, relief and sealer time of rolling back parcels `ps` (R213). -/
def abortWork (s : State) (ly : Layout) (body : List W32) (ps : List Nat) : List (Inst × Rat) :=
  let e := ly.seqE s
  let units := ps.map (fun q => e.getD (q % e.length) ⟨0, 0, 0⟩)
  let cp := parcelCycles ly.stateLayout body false
  let stalls : KV Nat := units.foldl (fun m u => if onRelief s u then m else kvAdd m (stallKey u.site u.ch u.pair) 1) []
  let relief : KV Nat := units.foldl (fun m u => if onRelief s u then kvAdd m u.site 1 else m) []
  let st := (List.range 20).filterMap (fun site =>
    let v := (stalls.filter (fun x => x.1 / 256 == site)).foldl (fun a x => Nat.max a x.2) 0
    if v = 0 then none else some (Inst.stall (siteOf site), cycNs (v * cp)))
  let re := relief.map (fun x => (Inst.relief (siteOf x.1),
    (x.2 * reliefCyc128 ly.stateLayout body : Rat) * 50 / 47 / 128))
  mergeWork (st ++ re ++ sealWork s (ps.map (fun q => ly.parcelCol s q 0 / 64)))

/-- Work of an UPD_ABORT (R213): the parcels sealed by an open guarded step, or every parcel of a closed one, under the
rule of the step. -/
def updAbortWork (s : State) (o : Order) : List (Inst × Rat) :=
  match getLayout s (fld o 16 2) with
  | none => []
  | some ly =>
    if ly.shard.step = fld o 20 5 then abortWork s ly ((ly.shard.last.map CloseRec.rule).getD []) (List.range (ly.geo s).parcels)
    else
      match ly.shard.upd with
      | some u => if u.guarded then abortWork s ly (((ruleOf s u.ruleId).map Rule.body).getD []) (u.sealed.map (·.1)) else []
      | none => []

/-- Work of a GATHER or SCATTER for `n` of its indices (Table MEM-10). -/
def gatherWork (s : State) (o : Order) (n : Nat) : List (Inst × Rat) :=
  match getLayout s (fld o 16 2) with
  | none => []
  | some ly =>
    let gather := ordOp o == 0x45
    let sz := gatherSize o
    let b := if fld o 60 4 = 0 then n else Nat.min (fld o 60 4) n
    let p1 := epPath o 36
    let p2 := epPath o 48
    let chans := ((ly.masks.map (·.1)).filter (fun x => foldMask s x != 0)).map (fun x =>
      (Inst.channel (siteOf x), cycNs (b * (if gather then 4 else 8))))
    let awn := n * 2 * (8 + sz) + (if !gather && fld o 19 1 == 1 then n * sz else 0)
    let data : Inst × Rat := if gather then (outInst p2, pathNs p2 (n * sz)) else (inInst p2, pathNs p2 (n * sz))
    [(.cirrus, cirNs n)] ++ chans ++ [(.awning, awnNs awn), (inInst p1, pathNs p1 (n * 8)), data]

/-- Work of a REDUCE from element `x` on (R362). -/
def reduceWork (s : State) (o : Order) (srcs : List (Nat × Nat × Nat)) (x : Nat) : List (Inst × Rat) :=
  let n := redCount o - x
  let sb := n * redSrcW o
  let out := if redFold o then 16 else n * redDstW o
  let tr := srcs.foldl (fun m e => match getLayout s e.1 with
    | some l => kvSum m (areaBytes s l e.2.1 (e.2.2 + x * redSrcW o) sb)
    | none => m) []
  let dst : List (Inst × Rat) :=
    if !epZero o 32 then [(outInst (epPath o 32), pathNs (epPath o 32) out)]
    else match getLayout s (fld o 22 2) with
      | some l => chanWork s (areaBytes s l 0 (fld o 48 8 + (if redFold o then 0 else x * redDstW o)) out)
      | none => []
  chanWork s tr ++ [(.awning, awnNs (srcs.length * sb + out))] ++ dst

/-- Work of a TREAD (Table STA-4). -/
def treadWork (s : State) (o : Order) : List (Inst × Rat) :=
  match getLayout s (fld o 16 2) with
  | none => []
  | some ly =>
    let a := fld o 18 1
    let p := epPath o 44
    let w := treadW o
    let bytes := treadRows o * treadCols o * w
    let cols := ((List.range (treadRows o)).flatMap (fun i =>
      let x := treadByte o i 0
      (List.range ((x + treadCols o * w - 1) / 32 + 1 - x / 32)).map (fun k => areaCol s ly a (x / 32 + k)))).dedup
    let tr := cols.foldl (fun (m : KV Nat) k => kvAdd m (keySite k * 32 + keyCh k) 32) []
    let exec := keySite (areaCol s ly a (treadByte o 0 0 / 32))
    chanWork s tr ++ [(.channel (siteOf exec), (bytes : Rat) / 512), (outInst p, pathNs p bytes)]

/-- Work of a REPACK from byte `x` of what it moves on (Table VER-8, R577): reading the source's own chunks, where it is
a local layout, and writing the target's go on in proportion (DEDUCED, log 43). -/
def repackWork (s : State) (o : Order) (x : Nat) : List (Inst × Rat) :=
  match getLayout s (fld o 16 2) with
  | none => []
  | some ly =>
    let b := (cutOf s o .plain).1
    let left := b - x
    let p := epPath o 32
    let port : List (Inst × Rat) := if fld o 18 2 = 0 then [(inInst p, pathNs p left)] else
      match getLayout s (fld o 18 2) with
      | some src =>
        let vs := readableSlots src
        chanWork s (trafficFrom (imageParts s src vs) (imageBytes s src vs.length * x / Nat.max 1 b))
      | none => []
    port ++ [(.awning, awnNs left)] ++ fillFromByte s ly (imageBytes s ly ly.slots * x / Nat.max 1 b)

/-- Ranges of a slot that a serve has still to send: to pullers counted, what each has not been sent; to those that are
yet to come, all. -/
def serveLeft (fanout n : Nat) (counted : List (Nat × Nat)) (sent : List ((Nat × Nat) × List (Nat × Nat))) :
    List (Nat × Nat) :=
  (List.replicate (fanout - counted.length) (0, n)) ++
    counted.flatMap (fun c => missing n 0 (((sent.find? (fun e => e.1 == c)).map (·.2)).getD []))

/-- Work of the part of an order other than an UPD_OPEN that its first `done` lots leave (R576). -/
def partWork (s : State) (o : Order) (ctx : OrderCtx) (done : Nat) : List (Inst × Rat) :=
  let x := unitsDone s o ctx done
  let left := (cutOf s o ctx).1 - x
  let ranges (ly : Layout) (v : Nat) (rs : List (Nat × Nat)) : KV Nat :=
    rs.foldl (fun m r => kvSum m (areaBytes s ly (v + 1) r.1 (r.2 - r.1))) []
  let total (rs : List (Nat × Nat)) : Nat := (rs.map (fun r => r.2 - r.1)).sum
  mergeWork (match ordOp o, ctx with
    | 0x12, _ => repackWork s o x
    | 0x21, _ => updAbortWork s o
    | 0x31, .pull got .. =>
      (match getLayout s (fld o 18 2) with
       | some ly =>
         let rs := missing (slotBytes s ly) 0 got
         (.xchIn, xchNs (total rs)) :: chanWork s (ranges ly (fld o 17 1) rs)
       | none => [])
    | 0x31, .serve v counted sent =>
      (match getLayout s (fld o 18 2) with
       | some ly =>
         let rs := serveLeft (fld o 26 1) (slotBytes s ly) counted sent
         (.xchOut, xchNs (total rs)) :: chanWork s (ranges ly v rs)
       | none => [])
    | 0x32, .slot v =>
      (match getLayout s (fld o 16 2) with
       | some ly => (.xchOut, xchNs left) ::
           chanWork s (trafficFrom [Part.plain (64 + ly.desc.length), Part.slot s ly v] x)
       | none => [])
    | 0x33, .image ms =>
      let ps := (List.range 8).flatMap (fun i => match getLayout s (fld o (16 + 2 * i) 2) with
        | some l => imageParts s l (ms.getD i [])
        | none => [])
      (outInst (epPath o 36), pathNs (epPath o 36) left) :: chanWork s (trafficFrom ps x)
    | 0x34, _ =>
      (match getLayout s (fld o 16 2) with
       | some ly => (inInst (epPath o 32), pathNs (epPath o 32) left) :: fillFromByte s ly x
       | none => [])
    | 0x35, _ => [(outInst (epPath o 32), pathNs (epPath o 32) left)]
    | 0x36, _ => [(inInst (epPath o 32), pathNs (epPath o 32) left)]
    | 0x40, _ =>
      (match getLayout s (fld o 16 2) with
       | some ly => chanWork s (areaBytes s ly (fld o 18 1) (fld o 20 8 + x) left)
           ++ [(.awning, awnNs left), (outInst (epPath o 32), pathNs (epPath o 32) left)]
       | none => [])
    | 0x41, _ => treadWork s o
    | 0x42, _ =>
      (match getLayout s (fld o 18 2) with
       | some ly =>
         let n := fld o 48 5 - x * (chunkElems (fld o 20 1)).getD 1
         (inInst (epPath o 32), pathNs (epPath o 32) (n * (if fld o 21 1 = 1 then 4 else 2)))
           :: chanWork s (stashTraffic s ly (fld o 24 8 + 2048 * x) left)
       | none => [])
    | 0x43, .entry id off fmt count =>
      (match getLayout s id with
       | some ly => chanWork s (stashTraffic s ly (off + 2048 * x) left)
           ++ [(outInst (epPath o 32), pathNs (epPath o 32) (2 * (count - x * (chunkElems fmt).getD 1)))]
       | none => [])
    | 0x45, _ => gatherWork s o left
    | 0x46, _ => gatherWork s o left
    | 0x50, _ => ewWork s o
    | 0x51, .reduce srcs => reduceWork s o srcs x
    | 0x60, _ => if fld o 16 1 = 0 then [(.channel (siteOf (fld o 17 1)), chanNs 4096 + 200)] else []
    | 0x62, .zeroFree rows => rowsWork s rows
    | 0x62, _ =>
      (match getLayout s (fld o 18 2) with
       | some ly => rowsWork s (layoutRows s ly)
       | none => [])
    | 0x63, _ =>
      let n := if epZero o 32 then 0 else 8 * (groupIndices (fld o 16 2)).length
      if n = 0 then [] else [(outInst (epPath o 32), pathNs (epPath o 32) n)]
    | 0x64, _ =>
      let bytes := 32 * fld o 20 4
      [(outInst (epPath o 32), pathNs (epPath o 32) bytes), (.awning, awnNs bytes)]
    | _, _ => [])

/-- What is left of an open update (Table UPD-3, R576): contributions not yet answered ACK_NEW, parcels whose seals are
not written, the slots that it holds; its reseal follows the close, so all of that is left (DEDUCED, log 126). -/
def updLeft (s : State) (ly : Layout) (u : Upd) : List (Inst × Rat) × List (Inst × Rat) :=
  let g := ly.geo s
  let body := ((ruleOf s u.ruleId).map Rule.body).getD []
  let ps := (List.range g.parcels).filter (fun q => !(kvHas u.sealed q))
  let t := lastTile ly g
  let tp := (tileParcels g t).filter (fun q => !(kvHas u.sealed q))
  let loc := g.tiles * u.localN - u.gotLocal
  let rem := g.tiles * (u.d - u.localN) - u.gotRemote
  let got := ((kvGet u.tiles t).map (fun x => x.bits.length - x.adding.length)).getD 0
  let tailD := if kvHas u.ripe t then 0 else u.d - got
  (updWork s ly body u.guarded u.slot u.portMask.toNat ps (List.range g.parcels) loc rem (loc + rem) u.tiles.length,
    updTail s ly body u.guarded u.slot tailD tp)

/-- Remaining work and tail of an admitted order (R576), at the fences that stand now (R34). -/
def remaining (s : State) (f : InFlight) : List (Inst × Rat) × List (Inst × Rat) :=
  if ordOp f.order = 0x20 then
    match getLayout s (fld f.order 16 2) with
    | none => ([], [])
    | some ly =>
      match ly.shard.upd with
      | none => ([], [])
      | some u => updLeft s ly u
  else
    let w := partWork s f.order f.ctx f.lotsDone
    (w, if ordOp f.order = 0x63 then w else [])

/-- Does the order still wait for input that has not arrived (R46)? -/
def waitsInput (s : State) (f : InFlight) : Bool :=
  if ordOp f.order = 0x20 then
    match getLayout s (fld f.order 16 2) with
    | none => false
    | some ly =>
      match ly.shard.upd with
      | none => false
      | some u => !(allRipe (ly.geo s) u)
  else
    match f.ctx with
    | .pull got .. =>
      (match getLayout s (fld f.order 18 2) with
       | some ly => missing (slotBytes s ly) 0 got != []
       | none => false)
    | _ => false

end Sys2Proof.Machine
end

