-- ==== Sys2Proof/Machine/Admit.lean ====
section
/-! DEFINITION. Capacity, the admission procedure and late notices (02 BEA, 15 power booking). -/

namespace Sys2Proof.Machine

/-- Row of Table BEA-3 of an instance. -/
def instRow : Inst → Nat
  | .channel _ => 1
  | .stall _ => 2
  | .relief _ => 3
  | .sealer _ => 4
  | .awning => 5
  | .cirrus => 6
  | .portIn _ => 7
  | .portOut _ => 7
  | .xchIn => 8
  | .xchOut => 8
  | .slots => 9
  | .energy => 10

/-- Unfenced stalls of a site on live channels. -/
def liveStalls (s : State) (site : Nat) : Nat :=
  if isFcs s site then
    ((liveCh (foldMask s site)).map (fun c =>
      ((List.range 8).filter (fun k => !(stallFenced s site c k))).length)).sum
  else 0

/-- Count n of unfenced units of an instance (Table BEA-3, R34). -/
def unitsOf (s : State) : Inst → Nat
  | .channel x => popcount (foldMask s x.val).toNat 32
  | .stall x => liveStalls s x.val
  | .relief x => if foldMask s x.val = 0 then 0 else 1
  | .sealer x => if foldMask s x.val = 0 then 0 else 1
  | _ => 1

/-- Latency-critical share L (R344). -/
def lcShare : Inst → Rat
  | .channel _ => 1 / 8
  | .awning => 1 / 8
  | .portOut _ => 1 / 8
  | _ => 0

/-- Thermal rate factor (R31, R485, R488). -/
def theta (s : State) (i : Inst) : Rat :=
  let j : Rat := if s.power.juncLevel = 0 then 1 else if s.power.juncLevel = 1 then 4 / 5 else 1 / 2
  match i with
  | .stall x => let l := (s.sites[x]).level; if 3 ≤ l then 0 else if l = 2 then 3 / 5 else 1
  | .sealer x => if 3 ≤ (s.sites[x]).level then 0 else 1
  | .slots => 1
  | .energy => 1
  | _ => j

/-- Fault allowance F(T) of a beat, in ns (R30). -/
def allowance (t : Nat) : Rat := if 200000 ≤ t then 40000 else (t : Rat) / 5
/-- Span k in beats (R28). -/
def spanK (t : Nat) : Nat := cdiv 200000 t

/-- Bookable capacity of an instance in a beat (R30, R32, R33). -/
def capOfInst (s : State) (i : Inst) : Rat :=
  match i with
  | .slots => (s.cfg.slots : Rat)
  | .energy => 0
  | _ =>
    if unitsOf s i = 0 then 0
    else
      let rho : Rat := (s.cfg.rho : Rat) / 100
      Min.min rho (theta s i) * (1 - lcShare i) * ((s.cfg.period : Rat) - allowance s.cfg.period)

/-- Power coefficient in W per unit (Table PWR-5). -/
def coefOf : Inst → Rat
  | .channel _ => 65 / 100
  | .stall _ => 95 / 1000
  | .relief _ => 5 / 2
  | .sealer _ => 4 / 5
  | .awning => 60
  | .cirrus => 15
  | .portIn _ => 3
  | .portOut _ => 3
  | .xchIn => 12
  | .xchOut => 12
  | _ => 0

/-- Idle draw P_idle in W (R474). -/
def idleW (s : State) : Nat :=
  110 + ((List.finRange 20).map (fun i =>
    if (s.sites[i]).powerEn then
      (if isFcs s i.val then 6 else 4) + (if 1 ≤ (s.sites[i]).level then 1 else 0)
    else 0)).sum

/-- Floor draw P_F in W (R474). -/
def floorW (s : State) : Nat := idleW s + 150

/-- Energy capacity of a beat, in nJ (R33). -/
def energyCap (s : State) : Rat := ((s.cfg.budget : Rat) - (floorW s : Rat)) * (s.cfg.period : Rat)

/-- Energy in nJ of time booked on an instance (R33). -/
def energyOf (s : State) (i : Inst) (ns : Rat) : Rat := ns * (unitsOf s i : Rat) * coefOf i

/-- Sum of work. -/
def sumRat (l : List Rat) : Rat := l.foldl (· + ·) 0

/-- Pass-switch charge (R153): 320 cycles at 940 MHz on stall time. -/
def swOf : Inst → Rat
  | .stall _ => 16000 / 47
  | _ => 0

/-- Time booked on an instance in a beat. -/
def bookedOn (fs : List InFlight) (i : Inst) (b : Nat) : Rat :=
  sumRat (fs.map (fun f => sumRat ((f.booked.filter (fun k => k.inst == i && k.beat == b)).map (·.ns))))

/-- Energy booked in a beat. -/
def bookedEnergy (s : State) (fs : List InFlight) (b : Nat) : Rat :=
  sumRat (fs.map (fun f => sumRat ((f.booked.filter (fun k => k.beat == b)).map (fun k => energyOf s k.inst k.ns))))

/-- Interruptions charged to an instance in a beat. -/
def chargedOn (s : State) (i : Inst) (b : Nat) : Nat :=
  ((s.charges.filter (fun c => c.1 == i && c.2.1 == b)).map (fun c => c.2.2)).sum

/-- What remains of the current beat on an instance (R41): never more than its capacity less what interruptions took
beyond the fault allowance, nor than the time left of the beat (DESIGN CHOICE, log 13). -/
def capNow (s : State) (i : Inst) : Rat :=
  match i with
  | .slots => capOfInst s i
  | _ =>
    let gone := s.ts - s.beat.start
    let left : Rat := ((s.cfg.period - gone : Nat) : Rat)
    let lost : Rat := Max.max 0 ((chargedOn s i s.beat.now : Rat) - allowance s.cfg.period)
    Max.max 0 (Min.min (capOfInst s i - lost) left)

/-- Inbound exchange time reserved in a beat by the defined queues: from the beat after the Define on (R325, Table
STA-4). -/
def queueReserve (s : State) (b : Nat) : Nat :=
  (s.queues.toList.map (fun q => if q.defined ∧ q.since < b then q.reserve else 0)).sum

/-- free(i, b) for bookings of the orders `fs` (section The admission test). -/
def freeOn (s : State) (fs : List InFlight) (i : Inst) (b : Nat) : Rat :=
  (if b ≤ s.beat.now then capNow s i else capOfInst s i) - bookedOn fs i b
    - (if i = .xchIn then (queueReserve s b : Rat) else 0)

/-- Energy left in a beat for bookings of the orders `fs`, in nJ (R33) (DESIGN CHOICE, log 57). -/
def freeEnergy (s : State) (fs : List InFlight) (b : Nat) : Rat :=
  energyCap s - bookedEnergy s fs b - energyOf s .xchIn (queueReserve s b : Rat)

/-- The tail with its pass-switch charges. -/
def tailOf (tail : List (Inst × Rat)) : List (Inst × Rat) :=
  tail.map (fun e => (e.1, if 0 < e.2 then e.2 + swOf e.1 else e.2))

def workAt (l : List (Inst × Rat)) (i : Inst) : Rat := ((l.find? (fun e => e.1 == i)).map (·.2)).getD 0

/-- Place body work in one beat (the inner loop of the procedure): what is booked, and the body left. `t` is the
tail of this beat, empty except in the due beat. -/
def fillBeat (s : State) (fs : List InFlight) (b : Nat) (t body : List (Inst × Rat)) :
    List (Inst × Rat) × List (Inst × Rat) :=
  let parts := body.map (fun e =>
    let ti := workAt t e.1
    let room := freeOn s fs e.1 b - ti
    let c := if 0 < ti then 0 else swOf e.1
    (e.1, e.2, c, Min.min e.2 (Max.max 0 (room - c))))
  let head := freeEnergy s fs b - sumRat (t.map (fun e => energyOf s e.1 e.2))
  let ey := sumRat (parts.map (fun p => energyOf s p.1 p.2.2.2))
  let ec := sumRat (parts.map (fun p => if 0 < p.2.2.2 then energyOf s p.1 p.2.2.1 else 0))
  let k : Rat := if ey + ec ≤ head then 1 else if head ≤ ec ∨ ey = 0 then 0 else (head - ec) / ey
  (parts.filterMap (fun p => let y := p.2.2.2 * k; if 0 < y then some (p.1, y + p.2.2.1) else none),
   parts.map (fun p => (p.1, p.2.1 - p.2.2.2 * k)))

/-- Instances whose room the procedure can find wanting in a beat: those of the tail, and those on which something is
booked in that beat. -/
def testedInsts (fs : List InFlight) (b : Nat) (t : List (Inst × Rat)) : List Inst :=
  (t.map (·.1) ++ .xchIn :: fs.flatMap (fun f => (f.booked.filter (fun k => k.beat == b)).map (·.inst))).dedup

/-- Rows that lack room for the tail in a beat, the energy row last. The test is of every instance, so one that is
booked beyond its capacity refuses an order that does not use it. -/
def tailLacks (s : State) (fs : List InFlight) (b : Nat) (t : List (Inst × Rat)) : List Nat :=
  let rows := ((testedInsts fs b t).filter (fun i => decide (freeOn s fs i b < workAt t i))).map instRow
  if rows.isEmpty then
    (if freeEnergy s fs b < sumRat (t.map (fun e => energyOf s e.1 e.2)) then [10] else [])
  else rows

/-- The procedure at a due beat, given the body left for it: bookings of that beat, or the rows that lack
capacity. -/
def dueBeat (s : State) (fs : List InFlight) (b : Nat) (t body : List (Inst × Rat)) :
    Except (List Nat) (List (Inst × Rat)) :=
  let l := tailLacks s fs b t
  if !l.isEmpty then .error l
  else
    let r := fillBeat s fs b t body
    let rest := (r.2.filter (fun e => decide (0 < e.2))).map (fun e => instRow e.1)
    if rest.isEmpty then .ok (r.1 ++ t.filter (fun e => decide (0 < e.2))) else .error rest

/-- Bookings of one beat, slots included. -/
def bookings (b : Nat) (q : Rat) (x : List (Inst × Rat)) : List Booking :=
  x.map (fun e => ⟨e.1, b, e.2, []⟩) ++ (if 0 < q then [⟨.slots, b, q, []⟩] else [])

/-- Run the procedure from beat `b` on, and stop at the first due beat from `dmin` on that it accepts: the beat
and the bookings, or the rows that lacked capacity last. -/
def scan (s : State) (fs : List InFlight) (q : Rat) (t : List (Inst × Rat)) (dmin : Nat) :
    Nat → Nat → List (Inst × Rat) → List Booking → Except (List Nat) (Nat × List Booking)
  | 0, _, _, _ => .error []
  | n + 1, b, body, acc =>
    if 0 < q ∧ freeOn s fs .slots b < q then .error [9]
    else
      let here := if dmin ≤ b then dueBeat s fs b t body else .error []
      match here with
      | .ok x => .ok (b, acc ++ bookings b q x)
      | .error l =>
        let r := fillBeat s fs b [] body
        match n with
        | 0 => .error l
        | _ + 1 => scan s fs q t dmin n (b + 1) r.2 (acc ++ bookings b q r.1)

/-- Work without slots, less the tail. -/
def bodyOf (work tail : List (Inst × Rat)) : List (Inst × Rat) :=
  (work.filter (fun e => e.1 != .slots)).map (fun e => (e.1, e.2 - workAt tail e.1))

/-- Work that counts: the instances of a fenced site add nothing to any booking (Table FLT-5). -/
def bookable (s : State) (l : List (Inst × Rat)) : List (Inst × Rat) :=
  l.filter (fun e =>
    match e.1 with
    | .channel x => !(s.sites[x]).fenced
    | .stall x => !(s.sites[x]).fenced
    | .relief x => !(s.sites[x]).fenced
    | .sealer x => !(s.sites[x]).fenced
    | _ => true)

/-- Answers of the admission test (R35, R36). -/
inductive Admission where
  | accept (b : List Booking)
  | refuse (status detail beat : Nat)
deriving Repr

/-- Decide a timed order taken now (R28, R35, R36, Table BEA-4). -/
def admission (s : State) (due : Nat) (work tail : List (Inst × Rat)) : Admission :=
  let a := s.beat.now
  let t := s.cfg.period
  if due = 0 then .refuse 0x12 0 (if s.beat.valid = false ∨ t = 0 then beatOnes else a + spanK t)
  else if s.beat.valid = false ∨ t = 0 then .refuse 0x11 0 beatOnes
  else
    let k := spanK t
    if due < a + k then .refuse 0x12 0 (a + k)
    else if a + 65535 < due then .refuse 0x12 0 beatOnes
    else
      let q := workAt work .slots
      let tl := tailOf (bookable s tail)
      let body := bodyOf (bookable s work) (bookable s tail)
      match scan s s.inflight q tl due (due - a) (a + 1) body [] with
      | .ok r => .accept r.2
      | .error rows =>
        let early := match scan s s.inflight q tl (a + k) 65535 (a + 1) body [] with
          | .ok r => r.1
          | .error _ => beatOnes
        .refuse 0x13 ((leastOf rows).getD 0) early

/-- Bytes of the Staging area (Table MEM-5). -/
def stagingBytes (s : State) : Nat := s.par.awnMib * 131072

/-- Staging that the lots in flight hold (R352). -/
def stagingHeld (s : State) : Nat := (s.inflight.map (fun f => (f.lotsStarted - f.lotsDone) * f.stage)).sum

/-- Does an order wait for staging for a further lot? At most two of its lots are in flight (R86). -/
def wantsLot (f : InFlight) : Bool := decide (f.lotsStarted < f.lotsTotal) && decide (f.lotsStarted < f.lotsDone + 2)

/-- Is staging granted to an order for a lot now: there is room, and no order of an earlier due beat waits for any
(R352)? -/
def lotGranted (s : State) (f : InFlight) : Bool :=
  wantsLot f && decide (stagingHeld s + f.stage ≤ stagingBytes s) &&
    !(s.inflight.any (fun g => wantsLot g && g.seq != f.seq && (decide (g.due < f.due) || (g.due == f.due && decide (g.seq < f.seq)))))

/-- Entries of the Cirrus tracker (R364): all of them, and those that unbooked accesses may hold. -/
def trackerAll : Nat := 1048576
def trackerMax : Nat := 983040

/-- Entries that the lots of GATHER and SCATTER hold. -/
def lotEntries (s : State) : Nat := (s.inflight.map (fun f => f.entries.sum)).sum

/-- Tracker entries held (HT_CIR_OCC), and their largest number since it was last read. -/
def trackerHeld (s : State) : Nat := s.tracker + lotEntries s
def notePeak (s : State) : State :=
  { s with regs := { s.regs with
      cirPeak := if s.regs.cirPeak.toNat < trackerHeld s then BitVec.ofNat 21 (trackerHeld s) else s.regs.cirPeak } }

/-- The entries that a starting lot of a GATHER or SCATTER takes: one for each of its accesses, as many as are free.
Where they are fewer, the others wait and HT_CIR_STATUS.ReservedWait is set (R364, Table MEM-12; DEDUCED, log 44). -/
def takeLotEntries (s : State) (f : InFlight) : State × InFlight :=
  if ordOp f.order = 0x45 ∨ ordOp f.order = 0x46 then
    let c := cutOf s f.order f.ctx
    let want := Nat.min c.2.1 (c.1 - f.lotsStarted * c.2.1)
    let n := Nat.min want (trackerAll - trackerHeld s)
    (if n < want then { s with regs := { s.regs with cirStatus := s.regs.cirStatus ||| 2 } } else s,
      { f with entries := f.entries ++ [n] })
  else (s, f)

/-- Start a lot of an order where staging is granted for it. -/
def grantLot (s : State) (ring idx : Nat) : State :=
  match findInflight s ring idx with
  | some f =>
    if lotGranted s f then
      let x := takeLotEntries s f
      notePeak (putInflight x.1 { x.2 with lotsStarted := f.lotsStarted + 1 })
    else s
  | none => s

/-- Admit an order: bookings, room for its completion receipt, its first lots, and ACCEPTED (R71, R80, R86). -/
def admitOrder (s : State) (r : RingId) (idx : Nat) (o : Order) (bk : List Booking) (ctx : OrderCtx) : State :=
  let f : InFlight := ⟨r.val, idx, o, ordDue o, s.beat.now, s.seq, bk, none, 0, lotsOf s o ctx, 0, 0, stageOf s o ctx,
    [], none, ctx⟩
  let s0 := grantLot (grantLot { s with inflight := s.inflight ++ [f], seq := s.seq + 1 } r.val idx) r.val idx
  let s1 := modRing s0 r (fun g => { g with owed := g.owed + 1 })
  emitReceipt s1 r 0x00 (ordOp o) idx (ordTag o) (bodyG s.beat.now 0 0) false

/-- Beat in which the re-booked remaining work of an order ends, and its bookings (R41): the procedure from the
current beat on, stretched beyond the due beat where needed (DESIGN CHOICE, log 56). -/
def rebookOne (s : State) (done : List InFlight) (f : InFlight) : Nat × List Booking :=
  let rw := remaining s f
  match scan s done (workAt rw.1 .slots) (tailOf (bookable s rw.2)) (Nat.max f.due s.beat.now) 65536 s.beat.now
      (bodyOf (bookable s rw.1) (bookable s rw.2)) [] with
  | .ok r => r
  | .error _ => (beatOnes, [])

/-- Insert an order by original due beat, ties by admission. -/
def insertDue (f : InFlight) : List InFlight → List InFlight
  | [] => [f]
  | g :: r => if f.due < g.due ∨ (f.due = g.due ∧ f.seq ≤ g.seq) then f :: g :: r else g :: insertDue f r

/-- Withdraw and re-book every incomplete order in the order of R41; with each its expected completion beat. -/
def rebookAll (s : State) : List (InFlight × Nat) :=
  let sorted := s.inflight.foldr insertDue []
  (sorted.foldl (fun (acc : List InFlight × List (InFlight × Nat)) f =>
    let past := f.booked.filter (fun k => decide (k.beat < s.beat.now))
    let r := rebookOne s acc.1 f
    let f' := { f with booked := past ++ r.2 }
    (acc.1 ++ [f'], acc.2 ++ [(f', r.1)])) ([], [])).2

/-- Has the order work booked on the exchange port from the current beat on? -/
def usesXch (s : State) (f : InFlight) : Bool :=
  f.booked.any (fun k => decide (s.beat.now ≤ k.beat) && (k.inst == .xchIn || k.inst == .xchOut))

/-- Send a late notice for an order (R43, R45). -/
def sendLate (s : State) (f : InFlight) (expected cause : Nat) : State :=
  let s1 := putInflight s { f with late := some expected }
  emitNotice s1 (ringOf f.ring) 0x30 (ordOp f.order) f.idx cause (ordTag f.order) f.due f.seq (bodyL f.due expected)

/-- The late-notice check (R41-R45) for an event with a cause of Table BEA-5 (DESIGN CHOICE, log 59). -/
def lateCheck (s : State) (cause : Nat) : State :=
  if s.cfg.period = 0 ∨ s.inflight = [] then s
  else
    let rb := rebookAll s
    let s1 := { s with inflight := s.inflight.map (fun f =>
      match rb.find? (fun x => x.1.ring == f.ring && x.1.idx == f.idx) with
      | some x => { x.1 with lastEvent := cause }
      | none => f) }
    rb.foldl (fun st x =>
      let f := { x.1 with lastEvent := cause }
      let unknown := waitsInput s f || (s.link != 0 && usesXch s f)
      let e := if unknown then beatOnes else x.2
      if x.2 ≤ f.due ∧ !(s.link == 2 && usesXch s f) then st
      else
        match f.late with
        | none => sendLate st f e cause
        | some old =>
          if e = beatOnes then st
          else if old = beatOnes ∨ old < e then sendLate st f e cause
          else st) s1

/-- At the strobe that ends a due beat: orders past their due beat with no notice yet (R46; DESIGN CHOICE, log 58). -/
def lateAtStrobe (s : State) : State :=
  if s.cfg.period = 0 then s
  else
    let passed := s.inflight.filter (fun f => decide (f.due < s.beat.now) && f.late.isNone)
    if passed = [] then s
    else
      let rb := rebookAll s
      let s1 := { s with inflight := s.inflight.map (fun f =>
        match rb.find? (fun x => x.1.ring == f.ring && x.1.idx == f.idx) with
        | some x => x.1
        | none => f) }
      rb.foldl (fun st x =>
        let f := x.1
        if f.due < s.beat.now ∧ f.late = none then
          if waitsInput s f then sendLate st f beatOnes 7
          else sendLate st f x.2 f.lastEvent
        else st) s1

/-- Charge an interruption that began at tick `start` and ends now to an instance, divided at the beginning of
the current beat (R39). -/
def charge (s : State) (i : Inst) (start : Nat) : State :=
  let b := s.beat.now
  if start < s.beat.start then
    { s with charges := s.charges ++ [(i, b - 1, s.beat.start - start), (i, b, s.ts - s.beat.start)] }
  else { s with charges := s.charges ++ [(i, b, s.ts - start)] }

/-- Does some window of k consecutive beats hold more than 40 µs of interruptions of the instance (R39)? -/
def overAllowance (s : State) (i : Inst) : Bool :=
  s.cfg.period != 0 && s.charges.any (fun c => c.1 == i &&
    decide (40000 < ((s.charges.filter (fun d => d.1 == i && decide (c.2.1 ≤ d.2.1)
      && decide (d.2.1 < c.2.1 + spanK s.cfg.period))).map (fun d => d.2.2)).sum))

end Sys2Proof.Machine
end

