-- ==== Sys2Proof/Machine/Links.lean ====
section
/-! DEFINITION. Streams to peer nodes as they carry messages (R454-R456): coming into being, release, and outbound
messages that wait for a record. -/

namespace Sys2Proof.Machine

/-! ### Streams -/

/-- A stream control message (Table FLT-7). -/
def ctlMsg (kind : Nat) (epoch : BitVec 16) (reason : Nat) : BitVec 256 :=
  BitVec.ofNat 256 (kind + 2 ^ 8 + 2 ^ 16 * epoch.toNat + 2 ^ 32 * reason)

def putStream (s : State) (node : Nat) (x : XStream) : State := { s with xstreams := kvPut s.xstreams node x }

def nodeOf (n : Nat) : BitVec 24 := BitVec.ofNat 24 n

def sendCtl (s : State) (node kind : Nat) (epoch : BitVec 16) (reason : Nat) : State :=
  send s (.control (nodeOf node) (ctlMsg kind epoch reason))

/-- Most streams held at once (R455). -/
def maxStreams : Nat := 4096

/-- The stream to release for a new node: Up longest without traffic, with nothing unconfirmed (R455; DEDUCED, log 135).
-/
def releasable (s : State) : Option Nat :=
  (s.xstreams.foldl (fun (best : Option (Nat × Nat)) e =>
    if e.2.st == .up && !e.2.unconfirmed then
      match best with
      | some b => if e.2.lastUse < b.2 then some (e.1, e.2.lastUse) else best
      | none => some (e.1, e.2.lastUse)
    else best) none).map (·.1)

/-- A stream comes into being: Syncing at Epoch 0, SYNC with Reason 0x01 (R454, R455). -/
def newStream (s : State) (node : Nat) : State :=
  sendCtl (putStream s node ⟨0, .syncing, s.ts, false, [], 1⟩) node 0x92 0 1

/-- Have a stream for a node, releasing another where 4,096 are held; none when none can be released. -/
def ensureStream (s : State) (node : Nat) : Option State :=
  if kvHas s.xstreams node then some s
  else if s.xstreams.length < maxStreams then some (newStream s node)
  else
    match releasable s with
    | none => none
    | some n => some (newStream (ledAdd { s with xstreams := kvDel s.xstreams n } 0x2B (Place.stream n) 0 0) node)

/-- Deliveries that R459 resumes: FETCH data, and bytes written to an endpoint. -/
def resumable : Emit → Bool
  | .xch _ hdr _ => fld hdr 0 1 == 0xB2
  | .endpoint .. => true
  | _ => false

/-- Send a message on the stream of a node: it is unconfirmed until the link layer says otherwise (R455, R459; DEDUCED,
log 47). -/
def sendOn (s : State) (node : Nat) (e : Emit) : State :=
  match kvGet s.xstreams node with
  | some x =>
    send (putStream s node { x with lastUse := s.ts, unconfirmed := true,
                                    unacked := if resumable e then x.unacked ++ [e] else x.unacked }) e
  | none => send s e

/-- Inbound traffic on a stream. A message that arrives on an Up stream over a link that is up carries the link layer's
confirmation of what was sent before it (DEDUCED, log 47); a control message carries none. -/
def heardOn (s : State) (node : Nat) (data : Bool) : State :=
  match kvGet s.xstreams node with
  | some x =>
    let y := { x with lastUse := s.ts }
    putStream s node (if data && x.st == .up && s.link == 0 then { y with unconfirmed := false, unacked := [] } else y)
  | none => s

/-- Send a message to a node through its stream, or hold it at the exchange port (R455). -/
def sendX (s : State) (node : Nat) (e : Emit) : State :=
  match ensureStream s node with
  | some s1 => sendOn s1 node e
  | none => lateCheck { s with xheld := s.xheld ++ [(node, e)] } 3

/-- Messages that waited for a stream record go out, oldest first, while records are to be had. -/
def drainHeld (s : State) : State :=
  s.xheld.foldl (fun st h =>
    match ensureStream st h.1 with
    | some s1 => sendOn s1 h.1 h.2
    | none => { st with xheld := st.xheld ++ [h] }) { s with xheld := [] }

/-- A data message or acknowledgement from a node has arrived: its stream comes into being if it has none and there is
room. -/
def hearFrom (s : State) (node : Nat) : State :=
  match ensureStream s node with
  | some s1 => heardOn s1 node true
  | none => s

/-- A control message from a node has arrived. Where no stream can be had for a new node it is dropped (R455). -/
def hearCtl (s : State) (node : Nat) : State :=
  match ensureStream s node with
  | some s1 => heardOn s1 node false
  | none => s


end Sys2Proof.Machine
end

