-- ==== Sys2Proof/Machine/Drizzle.lean ====
section
/-! DEFINITION. Drizzle random bits (08 DRZ). -/

namespace Sys2Proof.Machine

/-- Round constants (Table DRZ-1). -/
def drzC : List (BitVec 16) := [0x9E37, 0x79B9, 0x7F4A, 0x7C15, 0xF39C, 0xC060]

/-- Word j of a 64-bit value. -/
def word16 (v : BitVec 64) (j : Nat) : BitVec 16 := v.extractLsb' (16 * j) 16

/-- The four words of the state of a draw. -/
structure DrzSt where
  x0 : BitVec 16
  x1 : BitVec 16
  x2 : BitVec 16
  x3 : BitVec 16
deriving DecidableEq, Repr

/-- One round of R257. -/
def drzRound (k : BitVec 64) (r : Nat) (s : DrzSt) : DrzSt :=
  let x0 := s.x0 + s.x1
  let x3 := (s.x3 ^^^ x0).rotateLeft 7
  let x2 := s.x2 + x3
  let x1 := (s.x1 ^^^ x2).rotateLeft 11
  let x0' := x0 ^^^ word16 k (r % 4) ^^^ drzC.getD r 0
  ⟨x1, x2, x3, x0'⟩

/-- The draw D of key K and counter X (R257). -/
def drizzle (k x : BitVec 64) : BitVec 64 :=
  let s0 : DrzSt := ⟨word16 x 0 ^^^ word16 k 0, word16 x 1 ^^^ word16 k 1, word16 x 2 ^^^ word16 k 2,
    word16 x 3 ^^^ word16 k 3⟩
  let s := (List.range 6).foldl (fun s r => drzRound k r s) s0
  s.x3 ++ s.x2 ++ s.x1 ++ s.x0

/-- The key of a draw (R258, Table DRZ-2). -/
def drzKey (seed : BitVec 64) (step stream ordinal : Nat) (w8 mix : Bool) : BitVec 64 :=
  seed ^^^ BitVec.ofNat 64 (step % 2 ^ 40 + 2 ^ 40 * (stream % 65536) + 2 ^ 56 * (ordinal % 16)
    + 2 ^ 60 * (if w8 then 1 else 0) + 2 ^ 61 * (if mix then 1 else 0))

/-- The 16 bits of element `i` (R259, R260). -/
def draw16 (seed : BitVec 64) (step stream ordinal : Nat) (mix : Bool) (i : Nat) : BitVec 16 :=
  let q := i / 4
  let d := drizzle (drzKey seed step stream ordinal false mix) (BitVec.ofNat 64 q)
  (d.rotateRight ((16 * (i % 4) + q % 16) % 64)).extractLsb' 0 16

/-- The 8 bits of element `i` (R259, R260). -/
def draw8 (seed : BitVec 64) (step stream ordinal : Nat) (mix : Bool) (i : Nat) : BitVec 8 :=
  let q := i / 8
  let d := drizzle (drzKey seed step stream ordinal true mix) (BitVec.ofNat 64 q)
  (d.rotateRight ((8 * (i % 8) + q % 8) % 64)).extractLsb' 0 8

/-- Mixing of a 16-bit draw with the low byte of the old master (R261). -/
def mix16 (m : Byte) : BitVec 16 := m ++ m

end Sys2Proof.Machine
end

