-- ==== Sys2Proof/Machine/Fp.lean ====
section
/-! DEFINITION. Number formats and arithmetic: FP32 under R142 with exact intermediate values, the target
formats of Table NUM-2, rounding (R234-R237, R573), CVT (Table STL-5), MX blocks (R238, R239), and the SFU
procedures of R143. -/

namespace Sys2Proof.Machine

/-- A decoded number: magnitude `m * 2^e`, `neg` its sign; or an infinity; or a NaN. -/
inductive Num where
  | nan
  | inf (neg : Bool)
  | fin (neg : Bool) (m : Nat) (e : Int)
deriving DecidableEq, Repr

/-- A binary format: fraction bits, exponent of the smallest normal, total exponent codes. -/
structure Fmt where
  p : Nat
  emin : Int
  /-- largest finite code without sign. -/
  maxCode : Nat
  /-- code of infinity without sign, if the format has one. -/
  infCode : Option Nat
  /-- canonical NaN written for any NaN (Table STL-5), if the format has one. -/
  nanCode : Option Nat
  width : Nat
deriving DecidableEq, Repr

def fp32 : Fmt := ⟨23, -126, 0x7F7FFFFF, some 0x7F800000, some 0x7FC00000, 32⟩
def fp64 : Fmt := ⟨52, -1022, 0x7FEFFFFFFFFFFFFF, some 0x7FF0000000000000, some 0x7FF8000000000000, 64⟩
def bf16 : Fmt := ⟨7, -126, 0x7F7F, some 0x7F80, some 0x7FC0, 16⟩
def fp16 : Fmt := ⟨10, -14, 0x7BFF, some 0x7C00, some 0x7E00, 16⟩
def e4m3 : Fmt := ⟨3, -6, 0x7E, none, some 0x7F, 8⟩
def e5m2 : Fmt := ⟨2, -14, 0x7B, some 0x7C, some 0x7F, 8⟩
def e2m3 : Fmt := ⟨3, 0, 0x1F, none, none, 6⟩
def e3m2 : Fmt := ⟨2, -2, 0x1F, none, none, 6⟩
def e2m1 : Fmt := ⟨1, 0, 0x7, none, none, 4⟩

/-- Decode an encoding of a format. -/
def unpack (f : Fmt) (x : Nat) : Num :=
  let c := x % 2 ^ (f.width - 1)
  let neg := x.testBit (f.width - 1)
  if some c = f.infCode then .inf neg
  else if f.maxCode < c then .nan
  else
    let ef := c / 2 ^ f.p
    let fr := c % 2 ^ f.p
    if ef = 0 then .fin neg fr (f.emin - f.p)
    else .fin neg (fr + 2 ^ f.p) (f.emin - f.p + (ef - 1 : Nat))

/-- `m * 2^e` with its exponent lowered to `t ≤ e` (exact), or the floor at `t > e` and the remainder's
numerator over `2^(t-e)`. -/
def shiftTo (m : Nat) (e t : Int) : Nat × Nat × Nat :=
  if t ≤ e then (m * 2 ^ (e - t).toNat, 0, 0)
  else
    let k := (t - e).toNat
    (m / 2 ^ k, m % 2 ^ k, k)

/-- Exponent of the last place of a format at magnitude `m * 2^e` (R235). -/
def lastPlace (f : Fmt) (m : Nat) (e : Int) : Int :=
  Max.max ((Nat.log2 m : Int) + e) f.emin - f.p

/-- How a conversion rounds (R573, R235). -/
inductive Rounding where
  | rne
  | zero
  | stoch (r : Nat)
deriving DecidableEq, Repr

/-- Does the truncated quotient `q` with remainder `rem` over `2^k` round up? The stochastic case is R235:
`c = min k 32` cut bits, `F + (r mod 2^c) ≥ 2^c`. -/
def roundsUp (rd : Rounding) (q rem k : Nat) : Bool :=
  match rd with
  | .rne => decide (2 ^ k < 2 * rem) || (decide (2 * rem = 2 ^ k) && decide (0 < k) && q.testBit 0)
  | .zero => false
  | .stoch r =>
    let c := Nat.min k 32
    decide (0 < k) && decide (2 ^ c ≤ rem * 2 ^ c / 2 ^ k + r % 2 ^ c)

/-- Quotient on the grid `2^t`. -/
def roundAt (rd : Rounding) (m : Nat) (e t : Int) : Nat :=
  let (q, rem, k) := shiftTo m e t
  if roundsUp rd q rem k then q + 1 else q

/-- Unsigned code of `q * 2^t` on the grid of a format, `t` its last place there; beyond the largest finite
code when the value is too large. -/
def codeAt (f : Fmt) (q : Nat) (t : Int) : Nat := q + (t - (f.emin - f.p)).toNat * 2 ^ f.p

/-- Unsigned code of a finite magnitude rounded to a format, not yet capped. -/
def roundCode (f : Fmt) (rd : Rounding) (m : Nat) (e : Int) : Nat :=
  if m = 0 then 0
  else
    let t := lastPlace f m e
    codeAt f (roundAt rd m e t) t

/-- Attach the sign bit. -/
def withSign (f : Fmt) (neg : Bool) (c : Nat) : Nat := if neg then c + 2 ^ (f.width - 1) else c

/-- IEEE rounding to nearest even: overflow goes to infinity (R142). -/
def packIeee (f : Fmt) (neg : Bool) (m : Nat) (e : Int) : Nat :=
  let c := roundCode f .rne m e
  withSign f neg (if f.maxCode < c then f.infCode.getD f.maxCode else c)

/-- Conversion of Table STL-5: finite values are capped at the largest finite magnitude; NaN becomes the
canonical NaN; an infinity stays one where the format has it. -/
def narrow (f : Fmt) (rd : Rounding) : Num → Nat
  | .nan => f.nanCode.getD 0
  | .inf neg =>
    match f.infCode with
    | some c => withSign f neg c
    | none => f.nanCode.getD 0
  | .fin neg m e => withSign f neg (Nat.min (roundCode f rd m e) f.maxCode)

/-- Conversion that overflows to infinity where the format has one, else to its largest finite (R161). -/
def narrowInf (f : Fmt) : Num → Nat
  | .fin neg m e => packIeee f neg m e
  | x => narrow f .rne x

/-- Does the magnitude exceed the largest finite one of the format (R145, R237)? -/
def beyondMax (f : Fmt) : Num → Bool
  | .fin _ m e =>
    match unpack f f.maxCode with
    | .fin _ mm me => decide (mm * 2 ^ (me - Min.min e me).toNat < m * 2 ^ (e - Min.min e me).toNat)
    | _ => false
  | _ => false

def num32 (x : W32) : Num := unpack fp32 x.toNat
def isNan32 (x : W32) : Bool := num32 x == .nan
def isFin32 (x : W32) : Bool := match num32 x with | .fin .. => true | _ => false
def isZero32 (x : W32) : Bool := x &&& 0x7FFFFFFF#32 == 0
def quiet32 (x : W32) : W32 := x ||| 0x00400000#32
def nanC : W32 := 0x7FC00000#32
def mk32 (neg : Bool) (m : Nat) (e : Int) : W32 := BitVec.ofNat 32 (packIeee fp32 neg m e)
def inf32 (neg : Bool) : W32 := if neg then 0xFF800000#32 else 0x7F800000#32
def zero32 (neg : Bool) : W32 := if neg then 0x80000000#32 else 0#32
def one32 : W32 := 0x3F800000#32
def neg32 (x : W32) : W32 := x ^^^ 0x80000000#32

/-- The NaN an operation delivers: the first NaN operand made quiet (R142). -/
def nanOf (xs : List W32) : Option W32 := (xs.find? isNan32).map quiet32

/-- Exact sum of two finite numbers, then one rounding; an exact zero is +0 unless both are negative. -/
def addFin (n1 : Bool) (m1 : Nat) (e1 : Int) (n2 : Bool) (m2 : Nat) (e2 : Int) : W32 :=
  let e := Min.min e1 e2
  let a : Int := (m1 * 2 ^ (e1 - e).toNat : Nat)
  let b : Int := (m2 * 2 ^ (e2 - e).toNat : Nat)
  let s := (if n1 then -a else a) + (if n2 then -b else b)
  if s = 0 then zero32 (n1 && n2) else mk32 (decide (s < 0)) s.natAbs e

/-- A + B (R142). -/
def fadd (a b : W32) : W32 :=
  match nanOf [a, b] with
  | some n => n
  | none =>
    match num32 a, num32 b with
    | .inf x, .inf y => if x = y then inf32 x else nanC
    | .inf x, _ => inf32 x
    | _, .inf y => inf32 y
    | .fin n1 m1 e1, .fin n2 m2 e2 => addFin n1 m1 e1 n2 m2 e2
    | _, _ => nanC

/-- A × B (R142). -/
def fmul (a b : W32) : W32 :=
  match nanOf [a, b] with
  | some n => n
  | none =>
    match num32 a, num32 b with
    | .inf x, .inf y => inf32 (x != y)
    | .inf x, .fin y m _ => if m = 0 then nanC else inf32 (x != y)
    | .fin x m _, .inf y => if m = 0 then nanC else inf32 (x != y)
    | .fin n1 m1 e1, .fin n2 m2 e2 => mk32 (n1 != n2) (m1 * m2) (e1 + e2)
    | _, _ => nanC

/-- A × B + C, rounded once (R142). -/
def ffma (a b c : W32) : W32 :=
  match nanOf [a, b, c] with
  | some n => n
  | none =>
    match num32 a, num32 b with
    | .fin n1 m1 e1, .fin n2 m2 e2 =>
      match num32 c with
      | .fin n3 m3 e3 => addFin (n1 != n2) (m1 * m2) (e1 + e2) n3 m3 e3
      | _ => c
    | _, _ =>
      let p := fmul a b
      if isNan32 p then nanC else fadd p c

/-- Signed comparison key of a finite or infinite FP32: -0 below +0. -/
def key32 (x : W32) : Int :=
  let m : Int := (x &&& 0x7FFFFFFF#32).toNat
  if x.getLsbD 31 then -m - 1 else m

/-- minimum, IEEE 754-2019 (Table STL-4, R142). -/
def fmin (a b : W32) : W32 :=
  match nanOf [a, b] with
  | some n => n
  | none => if key32 b < key32 a then b else a

/-- maximum, IEEE 754-2019. -/
def fmax (a b : W32) : W32 :=
  match nanOf [a, b] with
  | some n => n
  | none => if key32 a < key32 b then b else a

/-- CLAMP: minimum(maximum(A, B), C), with the NaN rule over A, B, C (R142). -/
def fclamp (a b c : W32) : W32 :=
  match nanOf [a, b, c] with
  | some n => n
  | none => fmin (fmax a b) c

def fabs (a : W32) : W32 := a &&& 0x7FFFFFFF#32

/-- SIGN (Table STL-4). -/
def fsign (a : W32) : W32 :=
  if isNan32 a then quiet32 a
  else if isZero32 a then 0#32
  else if a.getLsbD 31 then 0xBF800000#32 else one32

/-- Values compare as numbers: -0 equals +0. -/
def ordKey (x : W32) : Int := if isZero32 x then 0 else key32 x

def fcmpLt (a b : W32) : Bool := !(isNan32 a) && !(isNan32 b) && decide (ordKey a < ordKey b)
def fcmpLe (a b : W32) : Bool := !(isNan32 a) && !(isNan32 b) && decide (ordKey a ≤ ordKey b)
def fcmpEq (a b : W32) : Bool := !(isNan32 a) && !(isNan32 b) && decide (ordKey a = ordKey b)

/-- CMP by mode (Table STL-4): all ones where the relation holds. -/
def fcmp (m : BitVec 2) (a b : W32) : W32 :=
  let t := match m.toNat with
    | 0 => fcmpLt a b
    | 1 => fcmpLe a b
    | 2 => fcmpEq a b
    | _ => isNan32 a || isNan32 b
  if t then 0xFFFFFFFF#32 else 0#32

/-- Widen an encoding of a 16- or 8-bit format exactly; a NaN keeps its sign and its fraction, left-aligned
(codes 0x08 to 0x0B of Table STL-5; DEDUCED, log 11). -/
def widen (f : Fmt) (x : Nat) : W32 :=
  match unpack f x with
  | .fin n m e => mk32 n m e
  | .inf n => inf32 n
  | .nan =>
    let s : Nat := if x.testBit (f.width - 1) then 2 ^ 31 else 0
    BitVec.ofNat 32 (s + 0x7F800000 + x % 2 ^ f.p * 2 ^ (23 - f.p))

/-- Signed value of a 32-bit integer held to the signed range (code 0x10). -/
def sat32 (neg : Bool) (q : Nat) : W32 :=
  if neg then BitVec.ofInt 32 (-(Nat.min q (2 ^ 31) : Nat))
  else BitVec.ofNat 32 (Nat.min q (2 ^ 31 - 1))

/-- CVT by code (Table STL-5, R573). `none` for a reserved code. -/
def cvt (code : Nat) (rd : Rounding) (a : W32) : Option W32 :=
  let nar (f : Fmt) := some (BitVec.ofNat 32 (narrow f rd (num32 a)))
  match code with
  | 0x00 => nar bf16
  | 0x01 => nar fp16
  | 0x02 => nar e4m3
  | 0x03 => nar e5m2
  | 0x08 => some (widen bf16 (a.toNat % 2 ^ 16))
  | 0x09 => some (widen fp16 (a.toNat % 2 ^ 16))
  | 0x0A => some (widen e4m3 (a.toNat % 2 ^ 8))
  | 0x0B => some (widen e5m2 (a.toNat % 2 ^ 8))
  | 0x10 => some (match num32 a with
    | .nan => 0#32
    | .inf n => sat32 n (2 ^ 31)
    | .fin n m e => sat32 n (roundAt rd m e 0))
  | 0x11 =>
    let v := a.toInt
    if v = 0 then some 0#32
    else
      let c := roundCode fp32 rd v.natAbs 0
      some (BitVec.ofNat 32 (withSign fp32 (decide (v < 0)) c))
  | _ => none

/-! ### MX blocks (R238, R239, R310-R312) -/

/-- Element format of a work format or stored format code that is an MX one, with emax_elem (Table NUM-2). -/
def mxFmt : Nat → Option (Fmt × Int)
  | 0x05 => some (e4m3, 8)
  | 0x06 => some (e5m2, 15)
  | 0x07 => some (e2m3, 2)
  | 0x08 => some (e3m2, 4)
  | 0x09 => some (e2m1, 2)
  | _ => none

/-- Plain element format of a work format code (Table LAY-3). -/
def plainFmt : Nat → Option Fmt
  | 0x01 => some bf16
  | 0x02 => some fp16
  | 0x03 => some e4m3
  | 0x04 => some e5m2
  | _ => none

/-- Watch flags of a stored element (R145): zero, saturated, non-finite. -/
structure Flags3 where
  zero : Nat
  sat : Nat
  nf : Nat
deriving DecidableEq, Repr

def Flags3.add (a b : Flags3) : Flags3 := ⟨a.zero + b.zero, a.sat + b.sat, a.nf + b.nf⟩

/-- An input of a weight conversion: value, random word, real (not padding), stochastic. -/
abbrev WIn := W32 × W32 × Bool × Bool

def WIn.rd (x : WIn) : Rounding := if x.2.2.2 then .stoch x.2.1.toNat else .rne

/-- Convert one element to a plain format with its flags (R145). -/
def convPlain (f : Fmt) (x : WIn) : Nat × Flags3 :=
  let n := num32 x.1
  let c := narrow f (WIn.rd x) n
  if !x.2.2.1 then (0, ⟨0, 0, 0⟩)
  else
    match n with
    | .fin .. =>
      (c, ⟨if c % 2 ^ (f.width - 1) = 0 then 1 else 0, if beyondMax f n then 1 else 0, 0⟩)
    | _ => (c, ⟨0, 0, 1⟩)

/-- The scale exponent X of a block from its largest magnitude (R238). -/
def mxScale (emax : Int) (xs : List WIn) : Int :=
  let mags := xs.filterMap (fun x => match num32 x.1 with
    | .fin _ m e => if x.2.2.1 && m != 0 then some ((Nat.log2 m : Int) + e) else none
    | _ => none)
  match mags with
  | [] => -127
  | a :: r => Max.max (r.foldl Max.max a - emax) (-127)

/-- Encode one MX block: scale byte, element codes, flags (R238, R239). -/
def mxBlock (f : Fmt) (emax : Int) (xs : List WIn) : Byte × List Nat × Flags3 :=
  let bad := xs.filter (fun x => x.2.2.1 && !(isFin32 x.1))
  if bad.isEmpty then
    let sc := mxScale emax xs
    let one (x : WIn) : Nat × Flags3 :=
      match num32 x.1 with
      | .fin n m e =>
        let y := Num.fin n m (e - sc)
        let c := narrow f (WIn.rd x) y
        if !x.2.2.1 then (0, ⟨0, 0, 0⟩)
        else (c, ⟨if c % 2 ^ (f.width - 1) = 0 then 1 else 0, if beyondMax f y then 1 else 0, 0⟩)
      | _ => (0, ⟨0, 0, 0⟩)
    let r := xs.map one
    (BitVec.ofInt 8 (sc + 127), r.map (·.1), r.foldl (fun a x => a.add x.2) ⟨0, 0, 0⟩)
  else (0xFF, xs.map (fun _ => 0), ⟨0, 0, bad.length⟩)

/-- Pack element codes of a width into bytes, first element lowest (R113, R114). -/
def packCodes (w : Nat) (cs : List Nat) : Bytes :=
  leBytes (cdiv (cs.length * w) 8) (cs.foldr (fun c acc => c % 2 ^ w + 2 ^ w * acc) 0)

/-- Element `i` of packed codes. -/
def codeOf (w : Nat) (b : Bytes) (i : Nat) : Nat := bitsOf (leNat b) (i * w) w

/-- Decode an MX element to BF16: element × 2^X rounded once; a scale of 0xFF or an E4M3 NaN gives 0x7FC0,
an E5M2 infinity the BF16 infinity (R312). -/
def mxToBf16 (f : Fmt) (scale : Byte) (c : Nat) : BitVec 16 :=
  if scale = 0xFF then 0x7FC0
  else
    match unpack f c with
    | .fin n m e => BitVec.ofNat 16 (packIeee bf16 n m (e + scale.toNat - 127))
    | x => BitVec.ofNat 16 (narrow bf16 .rne x)

/-! ### SFU (R143) -/

/-- T2[j] = RNE_fp32(2^(j/64)) (R143). -/
def tabT20 : List W32 := [
  0x3F800000, 0x3F8164D2, 0x3F82CD87, 0x3F843A29, 0x3F85AAC3, 0x3F871F62, 0x3F88980F, 0x3F8A14D5,
  0x3F8B95C2, 0x3F8D1ADF, 0x3F8EA43A, 0x3F9031DC, 0x3F91C3D3, 0x3F935A2B, 0x3F94F4F0, 0x3F96942D,
  0x3F9837F0, 0x3F99E046, 0x3F9B8D3A, 0x3F9D3EDA, 0x3F9EF532, 0x3FA0B051, 0x3FA27043, 0x3FA43516,
  0x3FA5FED7, 0x3FA7CD94, 0x3FA9A15B, 0x3FAB7A3A, 0x3FAD583F, 0x3FAF3B79, 0x3FB123F6, 0x3FB311C4]

def tabT21 : List W32 := [
  0x3FB504F3, 0x3FB6FD92, 0x3FB8FBAF, 0x3FBAFF5B, 0x3FBD08A4, 0x3FBF179A, 0x3FC12C4D, 0x3FC346CD,
  0x3FC5672A, 0x3FC78D75, 0x3FC9B9BE, 0x3FCBEC15, 0x3FCE248C, 0x3FD06334, 0x3FD2A81E, 0x3FD4F35B,
  0x3FD744FD, 0x3FD99D16, 0x3FDBFBB8, 0x3FDE60F5, 0x3FE0CCDF, 0x3FE33F89, 0x3FE5B907, 0x3FE8396A,
  0x3FEAC0C7, 0x3FED4F30, 0x3FEFE4BA, 0x3FF28177, 0x3FF5257D, 0x3FF7D0DF, 0x3FFA83B3, 0x3FFD3E0C]

def tabT2 : List W32 := tabT20 ++ tabT21
/-- LC[j] = RNE_fp32(log2 (1 + j/64)) (R143). -/
def tabLC0 : List W32 := [
  0x00000000, 0x3CB73CB4, 0x3D35D69C, 0x3D8759C5, 0x3DB31FB8, 0x3DDE4212, 0x3E0462C4, 0x3E19574F,
  0x3E2E00D2, 0x3E42615F, 0x3E567AF1, 0x3E6A4F72, 0x3E7DE0B6, 0x3E88983F, 0x3E92203D, 0x3E9B8926,
  0x3EA4D3C2, 0x3EAE00D2, 0x3EB7110E, 0x3EC0052B, 0x3EC8DDD4, 0x3ED19BB0, 0x3EDA3F60, 0x3EE2C97D,
  0x3EEB3A9F, 0x3EF39355, 0x3EFBD42B, 0x3F01FED4, 0x3F060828, 0x3F0A0650, 0x3F0DF989, 0x3F11E20F]

def tabLC1 : List W32 := [
  0x3F15C01A, 0x3F1993E3, 0x3F1D5DA0, 0x3F211D84, 0x3F24D3C2, 0x3F28808C, 0x3F2C2411, 0x3F2FBE80,
  0x3F335004, 0x3F36D8CB, 0x3F3A58FF, 0x3F3DD0C8, 0x3F41404F, 0x3F44A7BA, 0x3F480731, 0x3F4B5ED7,
  0x3F4EAED0, 0x3F51F740, 0x3F553848, 0x3F587209, 0x3F5BA4A4, 0x3F5ED039, 0x3F61F4E5, 0x3F6512C7,
  0x3F6829FB, 0x3F6B3A9F, 0x3F6E44CD, 0x3F7148A1, 0x3F744636, 0x3F773DA4, 0x3F7A2F04, 0x3F7D1A71]

def tabLC : List W32 := tabLC0 ++ tabLC1
/-- RNE_fp32(1 / sqrt(1 + (2i+1)/64)), i from 0 to 95 (R143). -/
def tabRS0 : List W32 := [
  0x3F7E05EC, 0x3F7A33F9, 0x3F768CDC, 0x3F730D8A, 0x3F6FB345, 0x3F6C7B90, 0x3F69642A, 0x3F666B02,
  0x3F638E39, 0x3F60CC16, 0x3F5E2305, 0x3F5B9193, 0x3F59166B, 0x3F56B051, 0x3F545E22, 0x3F521ED0,
  0x3F4FF162, 0x3F4DD4ED, 0x3F4BC89B, 0x3F49CBA2, 0x3F47DD45, 0x3F45FCD6, 0x3F4429AF, 0x3F426337,
  0x3F40A8DE, 0x3F3EFA1C, 0x3F3D5671, 0x3F3BBD67, 0x3F3A2E8C, 0x3F38A975, 0x3F372DBF, 0x3F35BB09]

def tabRS1 : List W32 := [
  0x3F3450FC, 0x3F32EF41, 0x3F319589, 0x3F304387, 0x3F2EF8F2, 0x3F2DB587, 0x3F2C7904, 0x3F2B432A,
  0x3F2A13C0, 0x3F28EA8C, 0x3F27C759, 0x3F26A9F4, 0x3F25922C, 0x3F247FD3, 0x3F2372BD, 0x3F226ABE,
  0x3F2167AF, 0x3F206968, 0x3F1F6FC4, 0x3F1E7AA0, 0x3F1D89D9, 0x3F1C9D4E, 0x3F1BB4E1, 0x3F1AD073,
  0x3F19EFE6, 0x3F191320, 0x3F183A05, 0x3F17647C, 0x3F16926C, 0x3F15C3BC, 0x3F14F857, 0x3F143026]

def tabRS2 : List W32 := [
  0x3F136B13, 0x3F12A90B, 0x3F11E9F9, 0x3F112DCA, 0x3F10746D, 0x3F0FBDCE, 0x3F0F09DD, 0x3F0E5889,
  0x3F0DA9C2, 0x3F0CFD79, 0x3F0C539F, 0x3F0BAC25, 0x3F0B06FD, 0x3F0A641A, 0x3F09C36D, 0x3F0924EC,
  0x3F088889, 0x3F07EE37, 0x3F0755ED, 0x3F06BF9E, 0x3F062B40, 0x3F0598C7, 0x3F05082A, 0x3F04795F,
  0x3F03EC5C, 0x3F036117, 0x3F02D788, 0x3F024FA6, 0x3F01C967, 0x3F0144C4, 0x3F00C1B4, 0x3F004030]

def tabRS : List W32 := tabRS0 ++ tabRS1 ++ tabRS2

/-- `n / d` rounded to nearest FP32, for n, d positive (RNE_fp32 of R143; RNE with 64 guard bits and a
sticky bit is exact to the nearest). -/
def ratio32 (n d : Nat) : W32 :=
  let q := n * 2 ^ 64 / d
  mk32 false (2 * q + if q * d = n * 2 ^ 64 then 0 else 1) (-65)

/-- f(a) scaled by 2^k taken exactly, then adjusted: below 2^-126 to zero of its sign, from 2^128 to infinity
of its sign (R143). -/
def scaleAdj (x : W32) (k : Int) : W32 :=
  match num32 x with
  | .fin n m e =>
    if m = 0 then zero32 n
    else
      let lg := (Nat.log2 m : Int) + e + k
      if lg < -126 then zero32 n
      else if 128 ≤ lg then inf32 n
      else mk32 n m (e + k)
  | _ => x

/-- Subnormal inputs are flushed to zero of their sign (R143). -/
def flush (a : W32) : W32 := if a &&& 0x7F800000#32 == 0 then a &&& 0x80000000#32 else a

/-- Exponent and significand (as FP32 in [1, 2)) of a normal positive magnitude. -/
def expOf (a : W32) : Int := (a.extractLsb' 23 8).toNat - 127
def sigOf (a : W32) : W32 := (a &&& 0x007FFFFF#32) ||| one32

/-- rcp(a) for normal a > 0, as y × 2^(-e). -/
def rcpCore (a : W32) : W32 :=
  let i := (a.extractLsb' 16 7).toNat
  let m := sigOf a
  let it (y : W32) : W32 := ffma y (ffma (neg32 m) y one32) y
  scaleAdj (it (it (ratio32 256 (257 + 2 * i)))) (-(expOf a))

/-- rcp before the multiplication by B, special cases of Table STL-6. -/
def sfuRcp (a0 : W32) : W32 :=
  let a := flush a0
  match num32 a with
  | .nan => quiet32 a
  | .inf n => zero32 n
  | .fin n m _ => if m = 0 then inf32 n else if n then neg32 (rcpCore (fabs a)) else rcpCore a

/-- rsqrt before the multiplication by B. -/
def sfuRsqrt (a0 : W32) : W32 :=
  let a := flush a0
  match num32 a with
  | .nan => quiet32 a
  | .inf n => if n then nanC else 0#32
  | .fin n m _ =>
    if m = 0 then inf32 n
    else if n then nanC
    else
      let e := expOf a
      let odd := e % 2 == 1
      let f := if odd then (e - 1) / 2 else e / 2
      let s := sigOf a
      let x := if odd then s + 0x00800000#32 else s
      let i := match num32 x with
        | .fin _ xm xe => (xm * 2 ^ (xe + 40).toNat - 2 ^ 40) / 2 ^ 35
        | _ => 0
      let y0 := tabRS.getD i 0
      let it (y : W32) : W32 :=
        let h := fmul x y
        let r := ffma (neg32 h) y one32
        ffma (fmul 0x3F000000#32 y) r y
      scaleAdj (it (it y0)) (-f)

def cC1 : W32 := 0x3F317218#32
def cC2 : W32 := 0x3E75FDF0#32
def cC3 : W32 := 0x3D635847#32
def cK1 : W32 := 0x3FB8AA3B#32
def cK2 : W32 := 0x3F38AA3B#32
def cK3 : W32 := 0x3EF6384F#32
def cK4 : W32 := 0x3EB8AA3B#32

/-- x × r + c rounded once, with r an exact number m × 2^e and x, c finite. -/
def fmaExact (x : W32) (m : Nat) (e : Int) (c : W32) : W32 :=
  match num32 x, num32 c with
  | .fin n1 m1 e1, .fin n3 m3 e3 => addFin n1 (m1 * m) (e1 + e) n3 m3 e3
  | _, _ => nanC

/-- exp2 before the multiplication by B. n, f, j and r are exact (R143). -/
def sfuExp2 (a0 : W32) : W32 :=
  let a := flush a0
  match num32 a with
  | .nan => quiet32 a
  | .inf n => if n then 0#32 else inf32 false
  | .fin n m e =>
    if m = 0 then one32
    else if n && decide (2 ^ 150 * 126 < m * 2 ^ (e + 150).toNat) then 0#32
    else if !n && decide (2 ^ 150 * 128 ≤ m * 2 ^ (e + 150).toNat) then inf32 false
    else
      -- the value in units of 2^-150
      let v : Int := (m * 2 ^ (e + 150).toNat : Nat)
      let v := if n then -v else v
      let n6 := v / (2 ^ 144 : Int)
      let k := n6 / 64
      let j := (n6 % 64).toNat
      let r := (v - n6 * 2 ^ 144).toNat
      let p := fmaExact (fmaExact (fmaExact cC3 r (-150) cC2) r (-150) cC1) r (-150) one32
      scaleAdj (fmul (tabT2.getD j 0) p) k

/-- log2 before the multiplication by B. -/
def sfuLog2 (a0 : W32) : W32 :=
  let a := flush a0
  match num32 a with
  | .nan => quiet32 a
  | .inf n => if n then nanC else inf32 false
  | .fin n m _ =>
    if m = 0 then inf32 true
    else if n then nanC
    else
      let j := (a.extractLsb' 17 6).toNat
      -- m - c in units of 2^-23
      let d := (a.extractLsb' 0 17).toNat
      let t := fmul (mk32 false d (-23)) (ratio32 64 (64 + j))
      let q := ffma (ffma (ffma (neg32 cK4) t cK3) t (neg32 cK2)) t cK1
      let e := expOf a
      let ef := if e = 0 then 0#32 else mk32 (decide (e < 0)) e.natAbs 0
      scaleAdj (fadd (ffma q t (tabLC.getD j 0)) ef) 0

/-- SFU instruction: RNE(f(A) × B) (Table STL-4). -/
def sfu (op : Nat) (a b : W32) : W32 :=
  let f := match op with
    | 0x20 => sfuRsqrt a
    | 0x21 => sfuRcp a
    | 0x22 => sfuExp2 a
    | _ => sfuLog2 a
  fmul f b

end Sys2Proof.Machine
end

