-- ==== Sys2Proof/Machine/StallExec.lean ====
section
/-! DEFINITION. What a stall instruction does to a unit (05 STL, R140-R146, R574): one word on the registers,
latch and buffers of the unit, given the columns its loads see. -/

namespace Sys2Proof.Machine

/-- A unit with every register at zero and no pass (Table STL-1, R135). -/
def Stall.empty : Stall where
  regs := []
  latch := []
  rule := []
  nPro := 0
  nBody := 0
  desc := 0
  stateLayout := 1
  workFormat := 1
  mixMaster := false
  step := 0
  stream0 := 0
  stream1 := 0
  seed0 := 0
  seed1 := 0
  hyper := []
  layout := 0
  parcel := none
  num := 0
  row := 0
  tensor := 0
  base := 0
  realCount := 0
  issued := []
  next := none
  mode := .rule
  entered := (0, [])
  group := 0
  cursor := 0
  commit := []
  wcodes := []
  wscales := []
  wpend := []
  zeros := 0
  sats := 0
  nfStore := 0
  nfGrad := 0
  windowOpen := false
  paused := false
  fault := false

/-- Body of the program in the rule store. -/
def Stall.body (u : Stall) : List W32 := (u.rule.drop u.nPro).take u.nBody

def Stall.reg (u : Stall) (r : Nat) : Col := kvGetD u.regs (r % 64) 0
def Stall.setReg (u : Stall) (r : Nat) (c : Col) : Stall := { u with regs := kvPut u.regs (r % 64) c }

/-- The columns a load sees: source field and column number. -/
abbrev Loads := Nat → Nat → Col

/-- Old master of element `e` of the parcel, as its row holds it before the step. -/
def oldMaster (sl : Nat) (ld : Loads) (e : Nat) : W32 :=
  let g := e / groupElems sl
  let k := e % groupElems sl
  lane (ld 0 (g * groupStride sl + k / 8)) (k % 8)

/-- First ordinal of the instruction at the cursor (R219). -/
def Stall.ordinal (u : Stall) : Nat := ((u.body.take u.cursor).map ordinalsOf).sum

/-- The 16 bits that element `e` of the parcel takes under an ordinal (R220, R221, R261). -/
def bits16 (u : Stall) (ld : Loads) (sel ord e : Nat) : BitVec 16 :=
  let (stream, seed) := if sel = 0 then (u.stream0, u.seed0) else (u.stream1, u.seed1)
  if stream = 0 then 0
  else
    let d := draw16 seed u.step stream ord u.mixMaster (u.base + e)
    if u.mixMaster then d ^^^ mix16 ((oldMaster u.stateLayout ld e).extractLsb' 0 8) else d

/-- The 8 bits of a DRAW in mode 01. -/
def bits8 (u : Stall) (ld : Loads) (sel ord e : Nat) : BitVec 8 :=
  let (stream, seed) := if sel = 0 then (u.stream0, u.seed0) else (u.stream1, u.seed1)
  if stream = 0 then 0
  else
    let d := draw8 seed u.step stream ord u.mixMaster (u.base + e)
    if u.mixMaster then d ^^^ ((oldMaster u.stateLayout ld e).extractLsb' 0 8) else d

/-- Value j of a register pair. -/
def pairLane (u : Stall) (r j : Nat) : W32 := lane (u.reg (r + j / 8)) (j % 8)

/-- LD (Table STL-4). -/
def doLd (u : Stall) (ld : Loads) (w : W32) : Stall :=
  let c := ld (wSrc w) (wA w + if wG w then groupStride u.stateLayout * u.group else 0)
  if wM w = 1 then
    let v (k : Nat) := ofLanes (fun j => widen bf16 (half c (8 * k + j)).toNat)
    (u.setReg (wD w) (v 0)).setReg (wD w + 1) (v 1)
  else u.setReg (wD w) c

/-- Gradient element `e` as LDG delivers it: +0 for padding and for a non-finite element (R131, R243). -/
def gradElem (u : Stall) (e : Nat) : W32 × Nat :=
  if u.realCount ≤ e then (0, 0)
  else
    let x := widen bf16 (u.latch.getD e 0).toNat
    if isFin32 x then (x, 0) else (0, 1)

/-- LDG (Table STL-4, R145). -/
def doLdg (u : Stall) (w : W32) : Stall :=
  let n := if wM w = 1 then 16 else 8
  let e0 := u.group * groupElems u.stateLayout
  let v (k : Nat) := ofLanes (fun j => (gradElem u (e0 + 8 * k + j)).1)
  let nf := ((List.range n).map (fun j => (gradElem u (e0 + j)).2)).sum
  let u1 := u.setReg (wD w) (v 0)
  let u2 := if wM w = 1 then u1.setReg (wD w + 1) (v 1) else u1
  { u2 with nfGrad := u.nfGrad + nf, issued := u.group :: u.issued.erase u.group }

/-- STC into the commit buffer (Table STL-4, R131, R574). -/
def doStc (u : Stall) (ld : Loads) (w : W32) : Stall :=
  let sl := u.stateLayout
  let epg := groupElems sl
  let col := wA w + if wG w then groupStride sl * u.group else 0
  let aux := !wG w && isAuxCol sl (wA w)
  let e0 := u.group * epg
  let off := if sl = 2 ∧ wG w ∧ wA w = 1 then 8 else 0
  let keep (e : Nat) := aux || decide (e < u.realCount)
  let ord := u.ordinal
  let v : Col :=
    match wM w with
    | 0 => ofLanes (fun j => if keep (e0 + off + j) then lane (u.reg (wD w)) j else 0)
    | 3 => if aux then u.reg (wD w)
           else if isBfCol sl (wA w) then ofHalves (fun j => if keep (e0 + j) then half (u.reg (wD w)) j else 0)
           else ofLanes (fun j => if keep (e0 + off + j) then lane (u.reg (wD w)) j else 0)
    | m => ofHalves (fun j =>
        if keep (e0 + j) then
          let r := if aux then
              (if u.stream0 = 0 then 0 else draw16 u.seed0 u.step u.stream0 ord false (u.base + e0 + j))
            else bits16 u ld 0 ord (e0 + j)
          BitVec.ofNat 16 (narrow bf16 (if m = 2 then .stoch r.toNat else .rne) (num32 (pairLane u (wD w) j)))
        else 0)
  { u with commit := kvPut u.commit (col % 64) v }

/-- Append one converted element to the weight buffer (R145, R238, R239). -/
def pushWeight (u : Stall) (x : WIn) : Stall :=
  let flags (u : Stall) (f : Flags3) : Stall :=
    { u with zeros := u.zeros + f.zero, sats := u.sats + f.sat, nfStore := u.nfStore + f.nf }
  match mxFmt u.workFormat with
  | some (f, emax) =>
    let p := u.wpend ++ [x]
    if p.length < 32 then { u with wpend := p }
    else
      let (sc, cs, fl) := mxBlock f emax p
      flags { u with wpend := [], wcodes := u.wcodes ++ cs, wscales := u.wscales ++ [sc] } fl
  | none =>
    match plainFmt u.workFormat with
    | some f =>
      let (c, fl) := convPlain f x
      flags { u with wcodes := u.wcodes ++ [c] } fl
    | none => u

/-- STW (Table STL-4). -/
def doStw (u : Stall) (ld : Loads) (w : W32) : Stall :=
  let n := if wM w = 1 then 16 else 8
  let e0 := u.group * groupElems u.stateLayout
  let ord := u.ordinal
  (List.range n).foldl (fun a j =>
    let e := e0 + j
    let r : W32 := if wG w then bits16 u ld 0 (ord + 1) e ++ bits16 u ld 0 ord e else 0
    pushWeight a (pairLane u (wD w) j, r, decide (e < u.realCount), wG w)) u

/-- DRAW (Table STL-4). -/
def doDraw (u : Stall) (ld : Loads) (w : W32) : Stall :=
  let e0 := u.group * groupElems u.stateLayout
  let ord := u.ordinal
  let one (e : Nat) : W32 :=
    if wM w = 1 then (bits8 u ld (wA w) ord e).zeroExtend 32 else (bits16 u ld (wA w) ord e).zeroExtend 32
  let v (k : Nat) := ofLanes (fun j => one (e0 + 8 * k + j))
  let u1 := u.setReg (wD w) (v 0)
  if u.stateLayout = 2 then u1.setReg (wD w + 1) (v 1) else u1

/-- A lane, SFU or CVT instruction on one lane (Table STL-4). -/
def laneOp (w : W32) (a b c : W32) : W32 :=
  match wOp w with
  | 0x10 => ffma a b c
  | 0x11 => fadd a b
  | 0x12 => fmul a b
  | 0x13 => fmin a b
  | 0x14 => fmax a b
  | 0x15 => fabs a
  | 0x16 => fsign a
  | 0x17 => if c != 0 then a else b
  | 0x18 => fcmp (w.extractLsb' 0 2) a b
  | 0x19 => fclamp a b c
  | 0x1A => (cvt (wC w) (match wM w with | 0 => .rne | 1 => .zero | _ => .stoch b.toNat) a).getD 0
  | op => sfu op a b

/-- A Format V instruction over the eight lanes. -/
def doLane (u : Stall) (w : W32) : Stall :=
  let a := u.reg (wA w)
  let b := u.reg (wB w)
  let c := u.reg (wC w)
  u.setReg (wD w) (ofLanes (fun j => laneOp w (lane a j) (lane b j) (lane c j)))

/-- One instruction on a unit. -/
def doWord (u : Stall) (ld : Loads) (w : W32) : Stall :=
  match wOp w with
  | 0x00 => u
  | 0x01 => doLd u ld w
  | 0x02 => doLdg u w
  | 0x03 => doStc u ld w
  | 0x04 => doStw u ld w
  | 0x05 => u.setReg (wD w) (ofLanes (fun _ => u.hyper.getD (wA w) 0))
  | 0x06 => doDraw u ld w
  | _ => doLane u w

/-- Run the prologue at the start of a pass: every register reads zero first (R134, R135). -/
def runPrologue (u : Stall) (ld : Loads) : Stall :=
  (u.rule.take u.nPro).foldl (fun a w => doWord a ld w) { u with regs := [] }

/-- Move the cursor past the instruction just run; at the end of the body the next group begins. -/
def Stall.advance (u : Stall) : Stall :=
  if u.cursor + 1 < u.nBody then { u with cursor := u.cursor + 1 }
  else { u with cursor := 0, group := u.group + 1 }

/-- Run the next instructions of the body, at most `n` of them, to the end of the parcel's last group. -/
def runBody : Nat → Stall → Loads → Stall
  | 0, u, _ => u
  | n + 1, u, ld =>
    if groupCount u.stateLayout ≤ u.group then u
    else runBody n (doWord u ld (u.body.getD u.cursor 0)).advance ld

/-- Run every instruction of the parcel that has not run. -/
def runParcel (u : Stall) (ld : Loads) : Stall := runBody (groupCount u.stateLayout * (u.nBody + 1)) u ld

/-- The packed short weights of the parcel as whole columns (R113, R114). -/
def weightCols (u : Stall) : List Col :=
  let w := footprint u.stateLayout u.workFormat
  let b := padTo (32 * w) (packCodes (weightBits u.workFormat) u.wcodes ++ u.wscales)
  (List.range w).map (fun j => colOf (b.drop (32 * j)))

end Sys2Proof.Machine
end

