-- ==== Sys2Proof/Machine/Fence.lean ====
section
/-! DEFINITION. Fences (14 FLT, Table FLT-5), the end of an update before its close (R207, R208), and the windows
that a fence waits for (R12). -/

namespace Sys2Proof.Machine

def chanKey (site ch : Nat) : Nat := site * 32 + ch

def Chan.reset : Chan where
  spares := 0
  hold := none
  holdStart := 0
  waitWindow := false
  pendRetrain := false
  pendRepair := []
  lane := 0
  laneMap := []
  fails := 0
  parity := []
  tempRef := none
  lasting := 0
  tran := 0
  lastOver := false
  tranOver := false
  clearTran := false
  corrected := 0
  uncorr := 0
  openReads := 0
  scrubPos := 0
  scrubPasses := 0
  scrubFrom := 0

def getChan (s : State) (site ch : Nat) : Chan := kvGetD s.chans (chanKey site ch) Chan.reset
def modChan (s : State) (site ch : Nat) (f : Chan → Chan) : State :=
  { s with chans := kvPut s.chans (chanKey site ch) (f (getChan s site ch)) }
def modSite (s : State) (site : SiteId) (f : Site → Site) : State := { s with sites := updV s.sites site f }
def getUnit (s : State) (k : Nat) : Stall := kvGetD s.units k Stall.empty
def putUnit (s : State) (k : Nat) (u : Stall) : State := { s with units := kvPut s.units k u }

/-! ### Stall time that interposed accesses and refresh take (R152) -/

/-- Share of an instance that admission leaves unbooked in a beat, in ns: (1 - ρ) × (T - F(T)) (R482). -/
def unbookedShare (s : State) : Nat :=
  ((1 - (s.cfg.rho : Rat) / 100) * ((s.cfg.period : Rat) - allowance s.cfg.period)).floor.toNat

/-- Stall time that interposed accesses and refresh have taken from a pair in the current beat (R152). -/
def spentOn (s : State) (k : Nat) : Nat :=
  match kvGet s.pairSpent k with
  | some (b, ns) => if b = s.beat.now then ns else 0
  | none => 0

/-- Does the stall of a pair run a pass? -/
def hasPass (s : State) (k : Nat) : Bool := (getUnit s k).layout != 0

/-- Has the unbooked share of a pair with a pass been spent in this beat: only latency-critical reads still enter it
(R152)? -/
def shareSpent (s : State) (k : Nat) : Bool := hasPass s k && decide (unbookedShare s ≤ spentOn s k)

/-- An interposed access or a refresh takes stall time from a pair: it is drawn from the unbooked share, and what goes
beyond it is an interruption of the stall time of the site (R152). A pair without a pass loses nothing. -/
def drawPair (s : State) (x : SiteId) (k ns : Nat) : State :=
  if hasPass s k then
    let b := s.beat.now
    let old := spentOn s k
    let share := unbookedShare s
    let rem := (old + ns - share) - (old - share)
    { s with pairSpent := kvPut s.pairSpent k (b, old + ns),
             charges := if 0 < rem then s.charges ++ [(.stall x, b, rem)] else s.charges }
  else s

/-- Set bits of HT_FLT_IRQ_STATUS and HT_ITY_IRQ_STATUS. -/
def fltIrq (s : State) (bit : Nat) : State := { s with regs := { s.regs with fltIrq := s.regs.fltIrq ||| (1 <<< bit) } }
def ityIrq (s : State) (bit : Nat) : State := { s with regs := { s.regs with ityIrq := s.regs.ityIrq ||| (1 <<< bit) } }

/-- Is a channel held by a retrain or lane repair (R391)? -/
def Chan.held (c : Chan) : Bool := c.hold.isSome && !c.waitWindow

/-- Is some channel of a site held? -/
def siteHeld (s : State) (site : Nat) : Bool := s.chans.any (fun e => e.1 / 32 == site && e.2.held)

/-- Keep the start of the union of the holds of a site; the union's end is charged to its channel time (R394). -/
def syncHold (s : State) (site : SiteId) : State :=
  match siteHeld s site.val, (s.sites[site]).holdFrom with
  | true, none => modSite s site (fun x => { x with holdFrom := some s.ts })
  | false, some t => modSite (charge s (.channel site) t) site (fun x => { x with holdFrom := none })
  | _, _ => s

/-- A channel's holds and waiting requests are dropped. -/
def Chan.release (c : Chan) : Chan :=
  { c with hold := none, waitWindow := false, pendRetrain := false, pendRepair := [], clearTran := false }

/-- Is a commit window open on a stall of a scope (R12)? The scope of a damage is every stall that works on the layout.
-/
def windowIn (s : State) (scope site ch pair : Nat) : Bool :=
  s.units.any (fun e => e.2.windowOpen && decide (e.1 < 5120) &&
    (if scope = 1 then e.1 / 8 == site * 32 + ch
     else if scope = 2 then e.1 / 256 == site
     else if scope = 4 then e.2.layout == site
     else e.1 == stallKey site ch pair))

/-- The pass of a unit ends; its rule store and registers stay. -/
def Stall.idle (u : Stall) : Stall :=
  { u with layout := 0, parcel := none, windowOpen := false, paused := false, commit := [], wcodes := [],
           wscales := [], wpend := [] }

/-- Group 6 counters of a step that ends (R519). -/
def addShardCounts (s : State) (id : Nat) (u : Upd) : State :=
  if 1 ≤ id ∧ id ≤ 1023 then
    let b := 4096 + 4 * id
    count (count (count (count s b u.zeros) (b + 1) u.sats) (b + 2) u.nfGrad) (b + 3) u.nfStore
  else s

/-- A step that ends with FAILED_DATA or ABORTED adds its counts, one that ends with FAILED_LOST does not (R519). -/
def endCounts (s : State) (status id : Nat) (u : Upd) : State := if status = 0x21 then s else addShardCounts s id u

/-- A count saturates at 2^36 - 1 (Table ORD-6). -/
def sat36 (n : Nat) : Nat := Nat.min n (2 ^ 36 - 1)

/-- Result of an update that ends without a close (Table UPD-12). -/
def failResult (reason cnt nf : Nat) : Nat := reason + 2 ^ 32 * (cnt % 2 ^ 32) + 2 ^ 64 * sat36 nf

/-- NonFinite of a step (R246). -/
def nonFinite (u : Upd) : Nat := u.nfGrad + u.nfStore

/-- Change the state of one version slot. -/
def setSlot (l : Layout) (v : Nat) (x : SlotSt) : Layout := { l with slotSt := l.slotSt.set v x }

/-- Acknowledgement codes (Table UPD-7). -/
def ackNew : Nat := 0x00
def ackDup : Nat := 0x01

/-- Answer a tile packet (R182, Table UPD-6): the echoed fields are bytes 2 to 19 of its header. -/
def sendTileAck (s : State) (src : Origin) (code : Nat) (hdr : Order) : State :=
  let i := if code = ackNew then 162 else if code = ackDup then 163 else 164
  let e := Emit.tileAck src (BitVec.ofNat 256 (0xA2 + 2 ^ 8 * code + 2 ^ 16 * fld hdr 2 18))
  match src with
  | .port .. => send (count s i 1) e
  | .node n => sendX (count s i 1) n.toNat e

/-- Acknowledge a contribution that has been added, and the copies that waited for it (R184). -/
def ackAdded (s : State) (a : Adding) : State :=
  a.dups.foldl (fun st d => sendTileAck st d.1 ackDup d.2) (sendTileAck s a.src ackNew a.hdr)

/-- The slots of an update that ends are freed; additions in progress end first and are acknowledged (R182; DESIGN
CHOICE, log 17). -/
def flushTiles (s : State) (u : Upd) : State :=
  u.tiles.foldl (fun st t => t.2.adding.foldl ackAdded st) s

/-- Drop the spot checks of a layout that satisfy a test. One whose parcel is sealed has not run, and counts as skipped
(R254); a parcel that never sealed had nothing to check (DEDUCED, log 94). -/
def dropSpots (s : State) (p : Spot → Bool) : State :=
  s.spots.foldl (fun st z => if p z && z.committed then count st (1544 + 16 * z.site) 1 else st)
    { s with spots := s.spots.filter (fun z => !p z) }

/-- End the update of a shard before its close: the UPD_OPEN's receipt of kind 0x23 with Table UPD-12, the
shard's counters, the units that still ran its parcels, and the target slot Released. A unit with an open window goes on
to its close (R12). What was kept to check a parcel that is not sealed is given up (R249; DEDUCED, log 133). -/
def endUpdate (s : State) (id : Nat) (status reason cnt : Nat) (st : ShardSt) : State :=
  match getLayout s id with
  | none => s
  | some ly =>
    match ly.shard.upd with
    | none => modShard s id (fun h => { h with st := st })
    | some u =>
      let s0 := dropSpots (flushTiles s u) (fun z => z.layout == id && !z.committed)
      let s1 := { s0 with units := s0.units.map (fun e =>
        if e.2.layout = id ∧ e.2.windowOpen = false then (e.1, e.2.idle) else e) }
      let s2 := modLayout s1 id (fun l =>
        let l1 := match l.slotSt[u.slot]? with
          | some .filling => setSlot l u.slot .released
          | _ => l
        { l1 with shard := { l1.shard with st := st, upd := none, aborted := some (u.step, u.attempt) } })
      let s3 := endCounts s2 status id u
      match findInflight s3 u.ring u.idx with
      | some f => completeWith s3 f status 0x23 (bodyG s3.beat.now 0 (failResult reason cnt (nonFinite u)))
      | none => s3

/-- Has the layout a chunk on a placement unit that satisfies a test? -/
def hasChunkOn (s : State) (ly : Layout) (p : PUnit → Bool) : Bool := ((ly.seqE s).take (ly.geo s).chunks).any p

/-- A shard is damaged: an update in progress ends with FAILED_LOST and Reason 6 (R207). -/
def damageShard (s : State) (id : Nat) : State :=
  match (getLayout s id).bind (fun l => l.shard.upd) with
  | some u =>
    if (findInflight s u.ring u.idx).isSome then endUpdate s id 0x21 6 0 .damaged
    else modShard s id (fun h => { h with st := .damaged, upd := none })
  | none => modShard s id (fun h => { h with st := .damaged })

/-- Is the layout the target of an incomplete IMPORT or REPACK? It keeps the state it held before the order, which ends
with FAILED_LOST (R304, Table VER-9). -/
def fillTarget (s : State) (id : Nat) : Bool :=
  s.inflight.any (fun f => (ordOp f.order == 0x12 || ordOp f.order == 0x34) && fld f.order 16 2 == id)

/-- Effects on the layouts with a chunk on the units of a channel or site fence (R119, R207, R452): a Kind 0x01 shard
passes to Damaged once no window on it is open (DEDUCED, log 124). -/
def damageLayouts (s : State) (p : PUnit → Bool) : State :=
  s.layouts.foldl (fun st e =>
    if hasChunkOn s e.2 p then
      let st1 := fltIrq (ledAdd st 0x25 Place.none e.1 0) 6
      if e.2.kind ≠ 1 ∨ fillTarget s e.1 = true then st1
      else if windowIn st1 4 e.1 0 0 then { st1 with defer := st1.defer ++ [⟨4, e.1, 0, 0, [], none⟩] }
      else damageShard st1 e.1
    else st) s

/-- Requests outstanding on a channel that is fenced complete with LOST (Table FLT-5; DEDUCED, log 125). -/
def loseRequests (s : State) (p : Nat → Bool) : State :=
  { s with outst := s.outst.map (fun r =>
      if r.cols.any (fun k => p (keySite k * 32 + keyCh k)) then { r with cpl := .lost, data := [], op := none, granted := true }
      else r) }

/-- Parcels of a fenced stall pass to the relief engine of its site (R206): those not yet sealed. -/
def reliefTakeover (s : State) (site ch pair : Nat) : State :=
  let k := stallKey site ch pair
  let s1 := { s with layouts := s.layouts.map (fun e =>
    match e.2.shard.upd with
    | none => e
    | some u =>
      let disp := u.disp.map (fun d => if unitKey d.2.unit = k then (d.1, { d.2 with unit := .relief (siteOf site) }) else d)
      (e.1, { e.2 with shard := { e.2.shard with upd := some { u with disp := disp } } })) }
  putUnit s1 k (getUnit s1 k).idle

/-- Fence a stall now (Table FLT-5): SFNC, Ledger 0x21, takeover, re-booking (DEDUCED, log 116). -/
def fenceStallNow (s : State) (site ch pair : Nat) : State :=
  if stallFenced s site ch pair then s
  else batch s fun s =>
    let s1 := { s with fencedStalls := kvPut s.fencedStalls (stallKey site ch pair) true }
    let s2 := fltIrq (ledAdd s1 0x21 (Place.pair site ch pair) 0 0) 0
    lateCheck (reliefTakeover s2 site ch pair) 5

/-- Change a live mask and count the change (R116). -/
def setLive (s : State) (site : SiteId) (m : BitVec 32) : State :=
  if (s.sites[site]).live = m then s
  else
    let s1 := modSite s site (fun x => { x with live := m })
    { s1 with regs := { s1.regs with foldEpoch := s1.regs.foldEpoch + 1 } }

/-- Drop the passes of the units of a fenced channel or site. -/
def idleUnits (s : State) (p : Nat → Bool) : State :=
  { s with units := s.units.map (fun e => if p e.1 then (e.1, e.2.idle) else e) }

/-- Fence a channel now (Table FLT-5). -/
def fenceChanNow (s : State) (site : SiteId) (ch : Nat) : State :=
  if !(s.sites[site]).live.getLsbD ch then s
  else batch s fun s =>
    let s0 := syncHold (modChan s site.val ch Chan.release) site
    let s1 := setLive s0 site ((s0.sites[site]).live &&& ~~~ (1#32 <<< ch))
    let s2 := fltIrq (ledAdd s1 0x23 (Place.chan site.val ch) 0 0) 1
    let s3 := loseRequests (idleUnits s2 (fun k => decide (k < 5120) && k / 8 == site.val * 32 + ch))
      (fun c => c == site.val * 32 + ch)
    lateCheck (damageLayouts s3 (fun u => u.site == site.val && u.ch == ch)) 5

/-- Fence a site now (Table FLT-5): self-refresh where the stack responds; one without power cannot. -/
def fenceSiteNow (s : State) (site : SiteId) (responds : Bool) : State :=
  if (s.sites[site]).fenced then s
  else batch s fun s =>
    let old := (s.sites[site]).live
    let s0 := syncHold { s with chans := s.chans.map (fun e =>
      if e.1 / 32 = site.val then (e.1, e.2.release) else e) } site
    let s1 := modSite (setLive s0 site 0) site (fun x =>
      { x with fenced := true, state := 3, selfRefresh := responds && x.powerGood, cke := x.cke && !responds })
    let s2 := fltIrq (ledAdd s1 0x24 (Place.site site.val) 0 0) 2
    let s3 := loseRequests
      (idleUnits s2 (fun k => (decide (k < 5120) && k / 256 == site.val) || k == reliefKey site.val))
      (fun c => c / 32 == site.val)
    lateCheck (damageLayouts s3 (fun u => u.site == site.val && old.getLsbD u.ch)) 5

/-- Is what a FENCE names out of service already (Table FLT-4)? -/
def fenceGone (s : State) (scope site ch pair : Nat) : Bool :=
  (s.sites[siteOf site]).fenced || (decide (scope < 2) && !(foldMask s site).getLsbD ch)
    || (scope == 0 && stallFenced s site ch pair)

/-- A fence, pause or damage takes effect, and the FENCE order that asked for it is done; one whose unit another fence
or a hard fault has taken meanwhile answers DONE_REPEAT (Table FLT-12). -/
def applyDeferred (s : State) (d : Deferred) : State := batch s fun s =>
  let st := if fenceGone s d.scope d.site d.ch d.pair then 0x02 else 0x01
  let s1 :=
    match d.scope with
    | 0 => fenceStallNow s d.site d.ch d.pair
    | 1 => fenceChanNow s (siteOf d.site) d.ch
    | 2 => fenceSiteNow s (siteOf d.site) true
    | 4 => damageShard s d.site
    | _ => putUnit s (stallKey d.site d.ch d.pair) { getUnit s (stallKey d.site d.ch d.pair) with paused := true }
  match d.ord with
  | some (r, idx, o) => finishNow s1 (ringOf r) idx o st 0
  | none => s1

/-- Ask for a fence or pause: at once, or when the open windows of its scope have closed (R12). -/
def requestDeferred (s : State) (d : Deferred) : State :=
  if windowIn s d.scope d.site d.ch d.pair then { s with defer := s.defer ++ [d] } else applyDeferred s d

end Sys2Proof.Machine
end

