-- ==== Sys2Proof/Machine/Region.lean ====
section
/-! DEFINITION. Areas of layouts as byte ranges (R338): plaintext reads and writes through encryption (R506-R509)
and the Awning cache (R353-R355). -/

namespace Sys2Proof.Machine

/-- An undefined byte: a free value indexed by the counter `fresh` and a place (DESIGN CHOICE, log 6). -/
def undefByte (s : State) (a : Nat) : Byte := Config.freeByte (s.fresh * 2 ^ 64 + a)

/-- Advance the counter of free values. -/
def bump (s : State) : State := { s with fresh := s.fresh + 1 }

/-- Are writes of the layout made open (R406)? -/
def opensWrites (ly : Layout) : Bool := ly.kind == 3 && ly.isOpen

/-- Stored bytes of an area (ciphertext where encrypted). -/
def storedRead (s : State) (ly : Layout) (area x n : Nat) : Bytes × Bool := readArea s (areaCol s ly area) x n

/-- Data unit sequence number (R508). -/
def xtsSeq (id area unit : Nat) : Nat := id * 2 ^ 52 + area * 2 ^ 48 + unit

/-- The XTS key of a slot, when it still holds one. -/
def xtsKey (s : State) (k : Nat) : Option (BitVec 256 × BitVec 256) :=
  if h : k < 16 then
    let e := s.sec.keys[k]
    if e.use = 1 then some (e.k0, e.k1) else none
  else none

/-- Is a layout encrypted under a key that is gone: orders that write it are refused until it is freed (R515, Table
SEC-5; DEDUCED, log 168)? -/
def keyLost (s : State) (ly : Layout) : Bool := ly.enc.any (fun k => (xtsKey s k).isNone)

/-- Plaintext of one 64-byte data unit of an encrypted area. -/
def unitPlain (s : State) (id : Nat) (ly : Layout) (k : BitVec 256 × BitVec 256) (area unit : Nat) : Bytes × Bool :=
  let r := storedRead s ly area (64 * unit) 64
  (xtsUnit false k.1 k.2 (xtsSeq id area unit) r.1, r.2)

/-- Read bytes of an area from the stacks, decrypted (R508, R509). Undefined bytes where the key is gone
(R516). -/
def stackRead (s : State) (id : Nat) (ly : Layout) (area x n : Nat) : Bytes × Bool :=
  match ly.enc with
  | none => storedRead s ly area x n
  | some ks =>
    match xtsKey s ks with
    | none => ((List.range n).map (fun i => undefByte s (x + i)), true)
    | some k =>
      if n = 0 then ([], true) else
      let u0 := x / 64
      let us := (List.range ((x + n - 1) / 64 + 1 - u0)).map (fun i => unitPlain s id ly k area (u0 + i))
      (((us.flatMap (·.1)).drop (x % 64)).take n, us.all (·.2))

/-- Write the data units of an encrypted area one by one. -/
def cipherWrite (id : Nat) (ly : Layout) (k : BitVec 256 × BitVec 256) (area : Nat) : Nat → State → Nat → Bytes → State
  | 0, s, _, _ => s
  | _ + 1, s, _, [] => s
  | n + 1, s, x, b :: r =>
    let o := x % 64
    let u := x / 64
    let part := (b :: r).take (64 - o)
    let old := (unitPlain s id ly k area u).1
    let new := old.take o ++ part ++ old.drop (o + part.length)
    let s' := writeBytes false s (areaCol s ly area) (64 * u) (xtsUnit true k.1 k.2 (xtsSeq id area u) new)
    cipherWrite id ly k area n s' (64 * (u + 1)) ((b :: r).drop (64 - o))

/-- Write bytes of an area to the stacks, encrypted where the layout is (R509). -/
def stackWrite (s : State) (id : Nat) (ly : Layout) (area x : Nat) (b : Bytes) : State :=
  match ly.enc with
  | none => writeBytes (opensWrites ly) s (areaCol s ly area) x b
  | some ks =>
    match xtsKey s ks with
    | none => s
    | some k => cipherWrite id ly k area (b.length / 64 + 2) s x b

/-! ### The Awning cache -/

/-- Bytes of the cache area (Table MEM-5). -/
def cacheBytes (s : State) : Nat :=
  s.par.awnMib * 1048576 - 67108864 - s.cfg.slots * 32768 - s.par.awnMib * 1048576 / 8

def cacheCap (s : State) : Nat := cacheBytes s / 256

/-- Key of the line that holds byte x of an area. -/
def lineKey (id area x : Nat) : Nat := (id * 16 + area) * 2 ^ 32 + x / 256

/-- May lines of the area be held (R353)? -/
def cacheable (ly : Layout) (area : Nat) : Bool :=
  if ly.kind = 3 then area == 0 && !ly.isOpen
  else match ly.slotSt.getD (area - 1) .released with
    | .readable _ => true
    | _ => false

/-- Layout, area and first byte of a line. -/
def lineId (k : Nat) : Nat := k / 2 ^ 32 / 16
def lineArea (k : Nat) : Nat := k / 2 ^ 32 % 16
def lineBase (k : Nat) : Nat := k % 2 ^ 32 * 256

/-- Write a dirty line back and drop it (R354). -/
def evict (s : State) (k : Nat) : State :=
  match kvGet s.cache k with
  | none => s
  | some l =>
    let s1 := { s with cache := kvDel s.cache k }
    if l.dirty then
      match getLayout s1 (lineId k) with
      | some ly => stackWrite s1 (lineId k) ly (lineArea k) (lineBase k) l.data
      | none => s1
    else s1

/-- Discard every line of a layout, or of one of its areas, without writing back (R355). -/
def discardLines (s : State) (id : Nat) (area : Option Nat) : State :=
  { s with cache := s.cache.filter (fun e => !(lineId e.1 == id && (area.map (lineArea e.1 == ·)).getD true)) }

/-- Does an open commit window keep a column's pair from every other access (R150, R158)? -/
def windowOn (s : State) (k : Nat) : Bool := windowIn s 0 (keySite k) (keyCh k) (keyBank k / 2)

/-- Columns of the whole line that holds byte x of an area. -/
def lineCols (s : State) (ly : Layout) (area x : Nat) : List Nat :=
  let base := x / 256 * 256
  let n := Nat.min 256 ((areaLen s ly area).getD 0 - base)
  (List.range (cdiv n 32)).map (fun i => areaCol s ly area (base / 32 + i))

/-- Write a dirty line back and keep it (R354). -/
def cleanLine (s : State) (k : Nat) : State :=
  match kvGet s.cache k, getLayout s (lineId k) with
  | some l, some ly =>
    stackWrite { s with cache := kvPut s.cache k { l with dirty := false } } (lineId k) ly (lineArea k) (lineBase k) l.data
  | _, _ => s

/-- Write back the dirty lines that have a column in a row of a bank, before a channel read of the row (R354). -/
def cleanRow (s : State) (x c bank row : Nat) : State :=
  let inRow (k : Nat) : Bool := k / 64 == colKey x c bank row 0 / 64
  (s.cache.filter (fun e => e.2.dirty && (match getLayout s (lineId e.1) with
    | some ly => (lineCols s ly (lineArea e.1) (lineBase e.1)).any inRow
    | none => false))).foldl (fun st e => cleanLine st e.1) s

/-- Would writing a line back meet an open window? -/
def lineKept (s : State) (k : Nat) (l : Line) : Bool :=
  l.dirty && (match getLayout s (lineId k) with
    | some ly => (lineCols s ly (lineArea k) (lineBase k)).any (windowOn s)
    | none => false)

/-- Lines that may make room now: none that an open window keeps from being written back. -/
def victims (s : State) : List Nat := (s.cache.filter (fun e => !lineKept s e.1 e.2)).map (·.1)

/-- Is there room for one more line, now or by dropping one? -/
def roomFor (s : State) : Bool := decide (s.cache.length < cacheCap s) || (decide (0 < cacheCap s) && victims s != [])

/-- Make room for one more line: the victim is a free value (R353 names no rule; DESIGN CHOICE, log 7). -/
def makeRoom (s : State) : State :=
  if s.cache.length < cacheCap s then s
  else
    let vs := victims s
    match vs[Config.cacheVictim s.fresh % vs.length]? with
    | some k => bump (evict s k)
    | none => s

/-- The line of a byte: found, or filled from the stacks. None when the fill met bad data. -/
def getLine (s : State) (id : Nat) (ly : Layout) (area x : Nat) : Option (State × Line) :=
  let k := lineKey id area x
  match kvGet s.cache k with
  | some l => some (count s 64 1, l)
  | none =>
    let base := x / 256 * 256
    let n := Nat.min 256 ((areaLen s ly area).getD 0 - base)
    let r := stackRead s id ly area base n
    let s1 := count s 65 1
    if r.2 then
      let room := roomFor s1
      let s2 := makeRoom s1
      let l : Line := ⟨false, r.1⟩
      some ({ s2 with cache := if room then kvPut s2.cache k l else s2.cache }, l)
    else none

/-- Pieces of a byte range cut at 256-byte lines: start and length. -/
def pieces (x n : Nat) : List (Nat × Nat) :=
  if n = 0 then [] else
  (List.range ((x + n - 1) / 256 + 1 - x / 256)).map (fun i =>
    let lo := Nat.max x ((x / 256 + i) * 256)
    let hi := Nat.min (x + n) ((x / 256 + i + 1) * 256)
    (lo, hi - lo))

/-- Read bytes of an area as a requester or narrow access does: through the cache where it may hold the line. -/
def reqRead (s : State) (id : Nat) (ly : Layout) (area x n : Nat) : State × Bytes × Bool :=
  if cacheable ly area then
    (pieces x n).foldl (fun (acc : State × Bytes × Bool) p =>
      match getLine acc.1 id ly area p.1 with
      | some (s', l) => (s', acc.2.1 ++ (l.data.drop (p.1 % 256)).take p.2, acc.2.2)
      | none =>
        let r := stackRead acc.1 id ly area p.1 p.2
        (acc.1, acc.2.1 ++ r.1, acc.2.2 && r.2)) (s, [], true)
  else
    let r := stackRead s id ly area x n
    (s, r.1, r.2)

/-- Write bytes of an area as a requester does: write-back and write-allocate where cacheable (R353). -/
def reqWrite (s : State) (id : Nat) (ly : Layout) (area x : Nat) (b : Bytes) : State :=
  if cacheable ly area && 0 < cacheCap s then
    (pieces x b.length).foldl (fun st p =>
      let part := (b.drop (p.1 - x)).take p.2
      match getLine st id ly area p.1 with
      | some (s', l) =>
        let o := p.1 % 256
        let d := l.data.take o ++ part ++ l.data.drop (o + part.length)
        if kvHas s'.cache (lineKey id area p.1) then { s' with cache := kvPut s'.cache (lineKey id area p.1) ⟨true, d⟩ }
        else stackWrite s' id ly area p.1 part
      | none => stackWrite st id ly area p.1 part) s
  else stackWrite s id ly area x b

/-- Read bytes of an area as an order does: the stacks, with cached lines in place of what they cover (R354). -/
def areaRead (s : State) (id : Nat) (ly : Layout) (area x n : Nat) : Bytes × Bool :=
  (pieces x n).foldl (fun (acc : Bytes × Bool) p =>
    match kvGet s.cache (lineKey id area p.1) with
    | some l => (acc.1 ++ (l.data.drop (p.1 % 256)).take p.2, acc.2)
    | none =>
      let r := stackRead s id ly area p.1 p.2
      (acc.1 ++ r.1, acc.2 && r.2)) ([], true)

/-- Write bytes of an area as an order does: the stacks, and the cached lines that hold any of them. -/
def areaWrite (s : State) (id : Nat) (ly : Layout) (area x : Nat) (b : Bytes) : State :=
  let s1 := stackWrite s id ly area x b
  (pieces x b.length).foldl (fun st p =>
    let k := lineKey id area p.1
    match kvGet st.cache k with
    | some l =>
      let o := p.1 % 256
      let part := (b.drop (p.1 - x)).take p.2
      { st with cache := kvPut st.cache k { l with data := l.data.take o ++ part ++ l.data.drop (o + part.length) } }
    | none => st) s1

/-- Does a byte of a range lie in a chunk on a channel fenced since the definition (R119)? -/
def rangeLost (s : State) (ly : Layout) (area x n : Nat) : Bool :=
  (areaBytes s ly area x n).any (fun e => !((foldMask s (e.1 / 32)).getLsbD (e.1 % 32)))

/-- Columns of a range. -/
def rangeCols (s : State) (ly : Layout) (area x n : Nat) : List Nat :=
  if n = 0 then [] else
  (List.range ((x + n - 1) / 32 + 1 - x / 32)).map (fun i => areaCol s ly area (x / 32 + i))

/-- Columns that an access to a range fetches: none of lines that the cache holds; of a line that it may hold, the whole
line, which a miss of a wide access fills (`fill`). -/
def missCols (s : State) (id : Nat) (ly : Layout) (fill : Bool) (area off n : Nat) : List Nat :=
  (pieces off n).flatMap (fun p =>
    if cacheable ly area && kvHas s.cache (lineKey id area p.1) then []
    else if fill && cacheable ly area then lineCols s ly area p.1
    else rangeCols s ly area p.1 p.2)

/-- Count controller reads of open blocks (R409, Table ITY-8). -/
def noteOpenReads (s : State) (cols : List Nat) : State :=
  ((cols.map (fun k => k / 2 * 2)).dedup.filter (fun k => blockOpen s (physKey s k))).foldl (fun st k =>
    modChan st (keySite k) (keyCh k) (fun c =>
      { c with openReads := if c.openReads = 0xFFFF then 0xFFFF else c.openReads + 1 })) s

end Sys2Proof.Machine
end

