-- ==== Sys2Proof/Machine/Operands.lean ====
section
/-! DEFINITION. Operand forms of orders: endpoints (R285), reserved bytes, what an order names, and staged data
(R557). -/

namespace Sys2Proof.Machine

/-- Bytes of the listed positions that are not zero. -/
def nonZero (o : Order) (ps : List Nat) : List Nat := ps.filter (fun b => fld o b 1 != 0)

/-- Offending byte `b` when a condition holds. -/
def badIf (c : Bool) (b : Nat) : List Nat := if c then [b] else []

/-- Bits of byte `b` from bit `lo` up are reserved. -/
def highBits (o : Order) (b lo : Nat) : List Nat := badIf (decide (2 ^ lo ≤ fld o b 1)) b

/-- Header bytes that make an order malformed (R8, R57, R58). -/
def headerMal (o : Order) : List Nat :=
  badIf (fld o 1 1 != 1) 1 ++ highBits o 2 2 ++ nonZero o [3, 6, 7, 14, 15]
    ++ (if isTimed (ordOp o) then [] else nonZero o (span 8 13))

/-- Offending bytes of an endpoint: a reserved Path, a Node beside a port, an Address not a multiple of 64 (DEDUCED, log
119). -/
def epMal (o : Order) (b : Nat) : List Nat :=
  badIf (!(isPort (epPath o b) || epPath o b == 0x40)) b
    ++ badIf (isPort (epPath o b) && epNode o b != 0) b
    ++ badIf (epAddr o b % 64 != 0) (b + 4)

/-- The firewall port bit of an endpoint's Path. -/
def pathBit (p : Nat) : Nat := if p = 0x40 then 65536 else if p < 16 then 2 ^ p else 0

/-- Length of the descriptor staging area (Table MEM-6). -/
def stageLen : Nat := 4194304

/-- Staged bytes (R557). -/
def staged (s : State) (off n : Nat) : Bytes := memReadN s.stage off n

/-- Offending byte of a staged range: the lower of the offset's field and the length's field, when the data would
pass the end of the staging area (R68, R557). -/
def stageMal (off n offByte lenByte : Nat) : List Nat := badIf (decide (stageLen < off + n)) (Nat.min offByte lenByte)

/-- Layouts an order names, for R106, R511 and R505. -/
def orderLayouts (s : State) (o : Order) (ctx : OrderCtx) : List Nat :=
  let f (b : Nat) := fld o b 2
  match ordOp o with
  | 0x12 => [f 16, f 18]
  | 0x20 => [f 16]
  | 0x21 => [f 16]
  | 0x31 => [f 18]
  | 0x32 => [f 16]
  | 0x33 => (List.range 8).map (fun i => f (16 + 2 * i))
  | 0x34 => [f 16]
  | 0x40 => [f 16]
  | 0x41 => [f 16]
  | 0x42 => [f 18]
  | 0x43 => (match ctx with
    | .entry l .. => [l]
    | _ => (kvGet s.stash (f 16)).toList.map Stash.layout)
  | 0x45 => [f 16]
  | 0x46 => [f 16]
  | 0x50 => [f 18, f 20, f 22]
  | 0x51 => f 22 :: (match ctx with
    | .reduce l => l.map (·.1)
    | _ => [])
  | 0x62 => [f 18]
  | _ => []

/-- Does an incomplete order name the layout? A waiting UPD_OPEN is incomplete. -/
def layoutNamed (s : State) (id : Nat) : Bool :=
  s.inflight.any (fun f => (orderLayouts s f.order f.ctx).contains id)
    || s.waiting.any (fun w => (orderLayouts s w.order .plain).contains id)

/-- Drizzle streams an order names (R264). -/
def orderStreams (o : Order) : List Nat :=
  match ordOp o with
  | 0x20 => [fld o 32 2, fld o 34 2]
  | 0x50 => [fld o 28 2]
  | _ => []

/-- Slot of a layout that is Readable with version v (R275). -/
def readableSlot (ly : Layout) (v : Nat) : Option Nat :=
  (List.range ly.slots).find? (fun i => ly.slotSt.getD i .released == .readable v)

def isReadable (ly : Layout) (v : Nat) : Bool :=
  match ly.slotSt.getD v .released with
  | .readable _ => decide (v < ly.slots)
  | _ => false

/-- Is an incomplete order a reader of slot `v` of layout `id` (R276)? -/
def isReader (id v : Nat) (f : InFlight) : Bool :=
  let o := f.order
  let g (b : Nat) := fld o b 2
  match ordOp o with
  | 0x40 => g 16 == id && fld o 18 1 == v + 1
  | 0x41 => g 16 == id && fld o 18 1 == v + 1
  | 0x50 => (g 18 == id && fld o 24 1 == v + 1) || (g 20 == id && fld o 25 1 == v + 1)
      || (g 22 == id && fld o 26 1 == v + 1)
  | 0x31 => (match f.ctx with
    | .serve x .. => g 18 == id && x == v
    | _ => false)
  | 0x32 => (match f.ctx with
    | .slot x => g 16 == id && x == v
    | _ => false)
  | 0x33 => match f.ctx with
    | .image ms => (List.range 8).any (fun i => g (16 + 2 * i) == id && (ms.getD i []).contains v)
    | _ => false
  | _ => false

/-- Has the slot incomplete readers? -/
def hasReaders (s : State) (id v : Nat) : Bool := s.inflight.any (isReader id v)

/-- Pass a slot to Released and drop its cached lines (R355). -/
def releaseSlot (s : State) (id v : Nat) : State :=
  discardLines (modLayout s id (fun l => setSlot l v .released)) id (some (v + 1))

/-- A slot whose version is given up: Draining while it has incomplete readers, Released otherwise (R274, R278). -/
def giveUpSlot (s : State) (id v ver : Nat) : State :=
  if hasReaders s id v then modLayout s id (fun l => setSlot l v (.draining ver)) else releaseSlot s id v

/-- Draining slots whose last reader has completed pass to Released (Table VER-1). -/
def settleSlots (s : State) : State :=
  s.layouts.foldl (fun st e =>
    (List.range e.2.slots).foldl (fun st v =>
      match e.2.slotSt.getD v .released with
      | .draining _ => if hasReaders st e.1 v then st else releaseSlot st e.1 v
      | _ => st) st) s

end Sys2Proof.Machine
end

