-- ==== Sys2Proof/Machine/Streams.lean ====
section
/-! DEFINITION. The exchange port: streams to peer nodes (R454-R459), and the requests of a fetch pull
(R290-R293). -/

namespace Sys2Proof.Machine

/-! ### Ranges of a pull -/

/-- Add a range of bytes to a rising list of disjoint ranges (low end, end after the last byte). -/
def addRange : List (Nat × Nat) → Nat → Nat → List (Nat × Nat)
  | [], a, b => [(a, b)]
  | (x, y) :: r, a, b =>
    if b < x then (a, b) :: (x, y) :: r
    else if y < a then (x, y) :: addRange r a b
    else addRange r (Nat.min x a) (Nat.max y b)

/-- Bytes of a fetch message header (Table VER-5). -/
def fetchHdr (kind owner version code puller slot off len crc slotBytes : Nat) : Order :=
  BitVec.ofNat 512 (kind + 2 ^ 8 + 2 ^ 16 * owner + 2 ^ 32 * version + 2 ^ 72 * code + 2 ^ 80 * puller
    + 2 ^ 96 * slot + 2 ^ 128 * off + 2 ^ 192 * (len % 2 ^ 32) + 2 ^ 224 * crc + 2 ^ 256 * slotBytes)

/-- DescCrc: CRC-32C over bytes 2 and 3 of a descriptor and its segment entries (R290). -/
def descCrc (ly : Layout) : Nat :=
  (crc32c ((ly.desc.drop 2).take 2 ++ (ly.desc.drop 64).take (32 * ly.segs.length))).toNat

/-! ### Requests of a pull -/

/-- SlotBytes of a layout as a fetch states it. -/
def pullBytes (s : State) (ly : Layout) : Nat := slotBytes s ly

/-- A request names its length in 32 bits; a longer range is asked for in parts of 2 GiB (DEDUCED, log 19). -/
def partsOfRange (lo hi : Nat) : List (Nat × Nat) :=
  (List.range (cdiv (hi - lo) 2147483648)).map (fun i =>
    (lo + i * 2147483648, Nat.min 2147483648 (hi - lo - i * 2147483648)))

/-- Send requests for ranges of a pull (Table VER-5). -/
def requestRanges (s : State) (o : Order) (rs : List (Nat × Nat)) : State :=
  match getLayout s (fld o 18 2) with
  | none => s
  | some ly =>
    (rs.flatMap (fun r => partsOfRange r.1 r.2)).foldl (fun st p =>
      sendX st (epNode o 32) (.xch (nodeOf (epNode o 32))
        (fetchHdr 0xB1 (fld o 28 2) (fld o 20 5) 0 (fld o 18 2) (fld o 17 1) p.1 p.2 (descCrc ly) (pullBytes s ly)) []))
      s

/-- Ranges a pull has not received. -/
def pullMissing (s : State) (f : InFlight) : List (Nat × Nat) :=
  match f.ctx, getLayout s (fld f.order 18 2) with
  | .pull got .., some ly => missing (pullBytes s ly) 0 got
  | _, _ => []

/-- Request again every missing range of the pulls from a node (R459). -/
def rerequest (s : State) (node : Nat) : State :=
  (s.inflight.filter (fun f => isPull f.order && epNode f.order 32 == node)).foldl (fun st f =>
    requestRanges st f.order (pullMissing st f)) s

/-! ### Stream events (Table FLT-8) -/

/-- Deliveries to a node resume from the last byte that the link layer confirmed: what it had not confirmed goes out
again (R459). -/
def resumeDeliveries (s : State) (node : Nat) (es : List Emit) : State := es.foldl (fun st e => sendOn st node e) s

/-- Enter Up: Ledger 0x28; from Syncing, deliveries resume and missing ranges are asked for again; held messages may go
(R459). -/
def enterUp (s : State) (node : Nat) (x : XStream) (epoch : BitVec 16) : State :=
  let s1 := putStream s node { x with epoch := epoch, st := .up, lastUse := s.ts, unconfirmed := false, unacked := [] }
  let s2 := ledAdd s1 0x28 (Place.stream node) 0 0
  drainHeld (if x.st == .syncing then rerequest (resumeDeliveries s2 node x.unacked) node else s2)

/-- Is epoch x later than e (R454)? -/
def laterEpoch (x e : BitVec 16) : Bool := decide (1 ≤ (x - e).toNat ∧ (x - e).toNat ≤ 32767)

def onClose (s : State) (node : Nat) (epoch : BitVec 16) : State :=
  match kvGet s.xstreams node with
  | some x =>
    if x.st == .up && x.epoch == epoch then
      sendCtl (putStream s node { x with epoch := epoch + 1, st := .syncing, unconfirmed := false, reason := 0 }) node
        0x92 (epoch + 1) 0
    else s
  | none => s

def onSync (s : State) (node : Nat) (epoch : BitVec 16) (reason : BitVec 8) : State :=
  match kvGet s.xstreams node with
  | some x =>
    if reason == 1 then enterUp (sendCtl s node 0x93 epoch 0) node x epoch
    else if x.st == .up && x.epoch == epoch then sendCtl s node 0x93 epoch 0
    else if x.st == .syncing && (x.epoch == epoch || laterEpoch epoch x.epoch) then
      enterUp (sendCtl s node 0x93 epoch 0) node x epoch
    else s
  | none => s

def onSyncAck (s : State) (node : Nat) (epoch : BitVec 16) : State :=
  match kvGet s.xstreams node with
  | some x => if x.st == .syncing && x.epoch == epoch then enterUp s node x epoch else s
  | none => s

/-- CLOSE received. -/
def execClose (node : BitVec 24) (epoch : BitVec 16) (_reason : BitVec 8) (s : State) :
    Host.Outcome State Fault Refusal := .next (if s.power.inReset.isNone then onClose (hearCtl s node.toNat) node.toNat epoch else s)
/-- SYNC received. -/
def execSync (node : BitVec 24) (epoch : BitVec 16) (reason : BitVec 8) (s : State) :
    Host.Outcome State Fault Refusal := .next (if s.power.inReset.isNone then onSync (hearCtl s node.toNat) node.toNat epoch reason else s)
/-- SYNC_ACK received. -/
def execSyncAck (node : BitVec 24) (epoch : BitVec 16) (_reason : BitVec 8) (s : State) :
    Host.Outcome State Fault Refusal := .next (if s.power.inReset.isNone then onSyncAck (hearCtl s node.toNat) node.toNat epoch else s)

/-- One grace period in Syncing without an answer: SYNC again. -/
def execSyncResend (node : BitVec 24) (s : State) : Host.Outcome State Fault Refusal :=
  .next (match kvGet s.xstreams node.toNat with
    | some x => if x.st == .syncing then sendCtl s node.toNat 0x92 x.epoch x.reason.toNat else s
    | none => s)

/-- The time since the link went down is charged to both directions of the exchange port (R39, Table FLT-1). -/
def chargeLink (s : State) : State :=
  match s.linkFrom with
  | some t => { charge (charge s .xchIn t) .xchOut t with linkFrom := none }
  | none => s

/-- XCH_LINK_UP falls: every Up stream is Down, with Ledger 0x26. -/
def linkDown (s : State) : State :=
  if s.link ≠ 0 then s
  else
    let n := s.regs.linkDowns
    let s1 := { s with link := 1, linkFrom := some s.ts, linkAt := s.ts, regs := { s.regs with linkDowns := if n = 0xFFFF then n else n + 1 } }
    s1.xstreams.foldl (fun st e =>
      if e.2.st == .up then ledAdd (putStream st e.1 { e.2 with st := .down }) 0x26 (Place.stream e.1) 0 0 else st) s1

/-- The grace period ends: Down streams close, Ledger 0x27 and LinkLate, and orders are re-booked (R41). -/
def graceEnd (s : State) : State :=
  if s.link ≠ 1 then s
  else
    let s1 := { chargeLink s with link := 2 }
    let s2 := s1.xstreams.foldl (fun st e =>
      if e.2.st == .down then
        fltIrq (ledAdd (putStream st e.1 { e.2 with st := .closed }) 0x27 (Place.stream e.1) 0 0) 4
      else st) s1
    lateCheck s2 3

/-- XCH_LINK_UP rises: Down streams resume, Closed ones send CLOSE and SYNC at the next Epoch. After a grace period that
has ended, the expected beats of exchange work become known again (R45, DEDUCED, log 39). -/
def linkRise (s : State) : State :=
  if s.link = 0 then s
  else
    let known (st : State) : State := if s.link = 2 then lateCheck st 3 else st
    let s1 := { chargeLink s with link := 0 }
    known (drainHeld (s1.xstreams.foldl (fun st e =>
      match e.2.st with
      | .down => putStream st e.1 { e.2 with st := .up, lastUse := s.ts }
      | .closed =>
        let n := e.2.epoch + 1
        sendCtl (sendCtl (putStream st e.1 { e.2 with epoch := n, st := .syncing, unconfirmed := false, reason := 0 })
          e.1 0x91 e.2.epoch 2) e.1 0x92 n 0
      | _ => st) s1))

/-- XCH_LINK_UP rises; a grace period that ends at this tick ends first (R458). -/
def linkUp (s : State) : State := batch s fun s =>
  linkRise (if s.link = 1 ∧ s.linkAt + s.par.graceUs * 1000 ≤ s.ts then graceEnd s else s)

/-- LINK_DOWN. -/
def execLinkDown (s : State) : Host.Outcome State Fault Refusal := .next (linkDown s)
/-- LINK_UP. -/
def execLinkUp (s : State) : Host.Outcome State Fault Refusal := .next (linkUp s)
/-- GRACE_END. -/
def execGraceEnd (s : State) : Host.Outcome State Fault Refusal := .next (graceEnd s)

end Sys2Proof.Machine
end

