-- ==== Sys2Proof/Machine/Take.lean ====
section
/-! DEFINITION. Taking an order: the one path from the ring head to its receipts, shared by every opcode. -/

namespace Sys2Proof.Machine

/-- What an opcode's chapter answers once the order is well formed. -/
inductive Verdict where
  /-- a refusal with its status and Detail; Beat is the current beat. -/
  | refuse (status detail : Nat)
  /-- a refusal that carries a Result (RULE_LOAD), or an earliest beat. -/
  | refuseWith (status detail beat result : Nat)
  /-- REFUSED_FIREWALL for a layout. -/
  | deny (layout : Nat)
  /-- DONE or DONE_REPEAT with its Result, in the state given. -/
  | finish (status result : Nat) (s : State)
  /-- a whole body of its own: DONE_REPEAT of an UPD_OPEN. -/
  | finishBody (status kind : Nat) (body : BitVec 192)
  /-- goes to admission; the function is the effect of admission itself. -/
  | book (work tail : List (Inst × Rat)) (ctx : OrderCtx) (eff : State → State)
  /-- no receipt yet: the order waits, in the state given. -/
  | wait (s : State)

/-- To admission with the whole work of the order and no tail. -/
def Verdict.whole (s : State) (o : Order) (ctx : OrderCtx) (eff : State → State) : Verdict := .book (partWork s o ctx 0) [] ctx eff

/-- Give an order its answer. -/
def answer (s : State) (r : RingId) (idx : Nat) (o : Order) : Verdict → State
  | .refuse st d => refuseOrder s r idx o st d s.beat.now
  | .refuseWith st d b res => emitReceipt s r st (ordOp o) idx (ordTag o) (bodyG b d res) (ordIrq o)
  | .deny l => refuseOrder (fwDeny s l) r idx o 0x15 (fwMatch s l) s.beat.now
  | .finish st res s' => finishNow s' r idx o st res
  | .finishBody st k b => emitReceipt s r st k idx (ordTag o) b (ordIrq o)
  | .wait s' => s'
  | .book work tail ctx eff =>
    match admission s (ordDue o) work tail with
    | .accept bk => eff (admitOrder s r idx o bk ctx)
    | .refuse st d b => refuseOrder s r idx o st d b

/-- Rights an order needs on a layout, from its ring's world (Table SEC-2). -/
def needOf (r : RingId) (ports : Nat) (rd wr cp : Bool) : Need := ⟨r.val == 4, ports, rd, wr, cp⟩

/-- An order that names a layout and needs no right of Table SEC-2 is still held to its world (R496, R497; DEDUCED, log
20): an answer that is no refusal becomes REFUSED_FIREWALL where the matched entry is closed to the order. -/
def fwGuard (s : State) (id : Nat) (n : Need) : Verdict → Verdict
  | .refuse st d => .refuse st d
  | .refuseWith st d b res => .refuseWith st d b res
  | .deny l => .deny l
  | v => if fwOk s id n then v else .deny id

/-- No right, no port: the world alone. -/
def worldOnly (r : RingId) : Need := needOf r 0 false false false

/-- Orders marked Secure in Table ORD-3, and a CONFIG that names a secure key (R61). -/
def secureOnly (o : Order) : Bool :=
  ordOp o == 0x60 || ordOp o == 0x61 ||
    (ordOp o == 0x01 && [16, 28, 40, 52].any (fun b => decide (0x8000 ≤ fld o b 2 ∧ fld o b 2 ≤ 0x80FF)))

/-- What an opcode's chapter says: which orders it is, the offending bytes of a malformed one, and its checks. -/
structure Opcode where
  is : Order → Bool
  mal : State → Order → List Nat
  chk : State → RingId → Nat → Order → Verdict

/-- The order at the head of ring r is the scheduler's next, and is this opcode's. -/
def nextIs (s : State) (r : RingId) (is : Order → Bool) : Bool :=
  nextRing s == some r && is (orderAt s r (s.rings[r]).head)

/-- Answer of a taken order: malformed first, then its world, then its chapter's checks (R58, R61; DESIGN CHOICE, log
60). -/
def judge (c : Opcode) (s : State) (r : RingId) (idx : Nat) (o : Order) : State :=
  match leastOf (headerMal o ++ c.mal s o) with
  | some b => refuseOrder s r idx o 0x10 b s.beat.now
  | none =>
    if secureOnly o ∧ r.val ≠ 4 then refuseOrder s r idx o 0x14 0 s.beat.now
    else answer s r idx o (c.chk s r idx o)

/-- Take the order at the head of ring r (R73). Where it is not the scheduler's next, or is another opcode's, the
command names nothing that happens and the state stays (DESIGN CHOICE, log 14). -/
def takeOrder (c : Opcode) (s : State) (r : RingId) : State :=
  if nextIs s r c.is then
    batch s fun s =>
      let idx := (s.rings[r]).head
      judge c (advanceHead s r) r idx (orderAt s r idx)
  else s

end Sys2Proof.Machine
end

