-- ==== Sys2Proof/Machine/OrdBasic.lean ====
section
/-! DEFINITION. Orders of the general families: NOP, CONFIG, layouts, rules, version releases, Drizzle streams
(03 ORD, 04 LAY, 07 NUM, 08 DRZ, 09 VER). -/

namespace Sys2Proof.Machine

/-- Offending bytes of the parameter area outside the listed fields (R8). -/
def resv (o : Order) (listed : List Nat) : List Nat := nonZero o ((span 16 63).filter (fun b => !listed.contains b))

/-- An opcode with no split. -/
def isOp (op : Nat) (o : Order) : Bool := ordOp o == op

/-! ### NOP (R75) -/

def opNop : Opcode where
  is := isOp 0x00
  mal := fun _ o => resv o []
  chk := fun s _ _ _ => .finish 0x01 0 s

/-- NOP: DONE and no other effect. -/
def execNop (r : RingId) (s : State) : Host.Outcome State Fault Refusal := .next (takeOrder opNop s r)

/-! ### CONFIG (R63-R65) -/

/-- Byte offsets of the four pairs. -/
def cfgPairs : List Nat := [16, 28, 40, 52]

/-- Range of a CONFIG key (Table ORD-4, Table ITY-4, Table PWR-8, R528, R496). -/
def cfgRange (awnMib key : Nat) : Option (Nat × Nat) :=
  match key with
  | 0x0000 => some (0, 0)
  | 0x0001 => some (20000, 100000000)
  | 0x0002 => some (60, 90)
  | 0x0003 => some (600, 1300)
  | 0x0004 => some (10, 24)
  | 0x0005 => some (256, awnMib * 16)
  | 0x0100 => some (60, 86400)
  | 0x0101 => some (1, 65535)
  | 0x0102 => some (1, 60000)
  | 0x0103 => some (1, 255)
  | 0x0104 => some (10, 1000000)
  | 0x0105 => some (1, 86400)
  | 0x0106 => some (0, 458)
  | 0x0200 => some (10, 50)
  | 0x0201 => some (2, 8)
  | 0x0300 => some (0, 1)
  | 0x0301 => some (1024, 65535)
  | 0x8000 => some (0, 1)
  | _ => none

/-- Apply one pair. -/
def cfgSet (c : Cfg) (key v : Nat) : Cfg :=
  match key with
  | 0x0001 => { c with period := v }
  | 0x0002 => { c with rho := v }
  | 0x0003 => { c with budget := v }
  | 0x0004 => { c with spotLog := v }
  | 0x0005 => { c with slots := v }
  | 0x0100 => { c with scrubS := v }
  | 0x0101 => { c with lastThr := v }
  | 0x0102 => { c with lastLeak := v }
  | 0x0103 => { c with tranThr := v }
  | 0x0104 => { c with tranLeak := v }
  | 0x0105 => { c with suspectS := v }
  | 0x0106 => { c with spareLow := v }
  | 0x0200 => { c with cirPct := v }
  | 0x0201 => { c with hyst := v }
  | 0x0300 => { c with ledRec := v }
  | 0x0301 => { c with fillLevel := v }
  | 0x8000 => { c with fwDefault := v }
  | _ => c

/-- Offending bytes of one pair: an undefined key, a reserved byte, a value outside the key's range (DEDUCED, log 121).
-/
def cfgPairMal (s : State) (o : Order) (b : Nat) : List Nat :=
  nonZero o [b + 2, b + 3] ++
    (match cfgRange s.par.awnMib (fld o b 2) with
     | none => [b]
     | some (lo, hi) => badIf (decide (fld o (b + 4) 8 < lo) || decide (hi < fld o (b + 4) 8)) (b + 4))

/-- Is any reduction slot booked (R65)? -/
def slotsBooked (s : State) : Bool :=
  s.inflight.any (fun f => f.booked.any (fun k => k.inst == .slots && decide (s.beat.now ≤ k.beat)))

/-- Does a pair change a setting in a state that forbids it (R22, R65)? -/
def cfgForbidden (s : State) (o : Order) (b : Nat) : Bool :=
  let v := fld o (b + 4) 8
  match fld o b 2 with
  | 0x0001 => v != s.cfg.period && !s.inflight.isEmpty
  | 0x0005 => decide (v < s.cfg.slots) && slotsBooked s
  | _ => false

/-- The cache gives back the lines that no longer fit its area (Table MEM-5). -/
def trimCache (s : State) : State :=
  (List.range s.cache.length).foldl (fun st _ =>
    if cacheCap st < st.cache.length then
      match st.cache[Config.cacheVictim st.fresh % st.cache.length]? with
      | some e => bump (evict st e.1)
      | none => st
    else st) s

/-- Every pair is applied; a later pair of the same key wins (R63). -/
def cfgApply (s : State) (o : Order) : State :=
  trimCache { s with cfg := cfgPairs.foldl (fun c b => cfgSet c (fld o b 2) (fld o (b + 4) 8)) s.cfg }

def opConfig : Opcode where
  is := isOp 0x01
  mal := fun s o => cfgPairs.flatMap (cfgPairMal s o)
  chk := fun s _ _ o =>
    if cfgPairs.any (cfgForbidden s o) then .refuse 0x16 0 else .finish 0x01 0 (cfgApply s o)

/-- CONFIG: all pairs or none. -/
def execConfig (r : RingId) (s : State) : Host.Outcome State Fault Refusal := .next (takeOrder opConfig s r)

/-! ### LAYOUT_DEF (R99-R104) -/

/-- `n` bytes at offset `o` of a byte string, as a number. -/
def bytesAt (b : Bytes) (o n : Nat) : Nat := leNat ((b.drop o).take n)

/-- A descriptor's fields (Table LAY-3, Table LAY-4). -/
structure Desc where
  kind : Nat
  stateLayout : Nat
  workFormat : Nat
  slots : Nat
  guarded : Bool
  arrivalDesc : Bool
  isOpen : Bool
  segCount : Nat
  span : BitVec 20
  length : Nat
  segs : List Segment
deriving DecidableEq, Repr

/-- Length of a descriptor with a number of segments (Table LAY-2). -/
def descLen (segCount : Nat) : Nat := cdiv (64 + 32 * segCount) 64 * 64

def parseSeg (b : Bytes) (i : Nat) : Segment :=
  let o := 64 + 32 * i
  ⟨bytesAt b o 4, bytesAt b (o + 4) 6, bytesAt b (o + 16) 5⟩

def parseDesc (b : Bytes) : Desc :=
  let f := bytesAt b 4 1
  let n := bytesAt b 5 1
  { kind := bytesAt b 0 1, stateLayout := bytesAt b 2 1, workFormat := bytesAt b 3 1, slots := f % 16,
    guarded := f.testBit 4, arrivalDesc := f.testBit 5, isOpen := f.testBit 6, segCount := n,
    span := BitVec.ofNat 20 (bytesAt b 8 4), length := bytesAt b 16 6,
    segs := (List.range n).map (parseSeg b) }

/-- Positions of non-zero bytes among `ps`. -/
def nonZeroAt (b : Bytes) (ps : List Nat) : List Nat := ps.filter (fun i => bytesAt b i 1 != 0)

/-- Offending bytes of a segment entry. -/
def segMal (b : Bytes) (i : Nat) : List Nat :=
  let o := 64 + 32 * i
  let g := parseSeg b i
  badIf (g.tensor == 0) o ++ badIf (decide (2 ^ 48 < g.first + g.count)) (o + 4) ++ badIf (g.count == 0) (o + 16)
    ++ nonZeroAt b (span (o + 10) (o + 15) ++ span (o + 21) (o + 31))

/-- Offending bytes of a descriptor, as offsets in it (first row of Table LAY-5). A Length that is not zero for a
Kind that has none is a reserved field; Length 0 for Kind 0x03 relates Kind and Length (R68; DEDUCED, log 15). -/
def descMal (b : Bytes) : List Nat :=
  let d := parseDesc b
  let k12 := d.kind == 1 || d.kind == 2
  badIf (!(k12 || d.kind == 3)) 0 ++ badIf (bytesAt b 1 1 != 1) 1
    ++ badIf (k12 && !(decide (1 ≤ d.stateLayout ∧ d.stateLayout ≤ 3)) || d.kind == 3 && d.stateLayout != 0) 2
    ++ badIf (k12 && !(decide (1 ≤ d.workFormat ∧ d.workFormat ≤ 9)) || d.kind == 3 && d.workFormat != 0) 3
    ++ badIf (decide (128 ≤ bytesAt b 4 1) || k12 && !(decide (2 ≤ d.slots ∧ d.slots ≤ 8))
        || d.kind == 3 && d.slots != 0) 4
    ++ badIf (k12 && !(decide (1 ≤ d.segCount ∧ d.segCount ≤ 126)) || d.kind == 3 && d.segCount != 0) 5
    ++ badIf (d.span == 0) 8 ++ badIf (decide (16 ≤ bytesAt b 10 1)) 10
    ++ badIf (d.kind == 3 && d.length == 0) 0 ++ (if k12 then nonZeroAt b (span 16 21) else [])
    ++ nonZeroAt b ([6, 7, 11] ++ span 12 15 ++ span 22 63)
    ++ (if k12 && decide (d.segCount ≤ 126) then (List.range d.segCount).flatMap (segMal b) else [])

/-- Fourth row of Table LAY-5. -/
def descPolicy (s : State) (d : Desc) : Bool :=
  let kinds := (spanSites d.span).map (kindOf s)
  let mixed := kinds.any (fun k => kinds.any (fun j => k != j))
  let jedec := kinds.any (fun k => k != .fcs48)
  mixed || (isMx d.workFormat && (d.stateLayout != 1 || d.segs.any (fun g => g.first % 32 != 0)))
    || (d.kind != 1 && (d.guarded || d.arrivalDesc)) || (d.isOpen && (d.kind != 3 || jedec))

/-- XTS key slot of a layout being defined (R506). -/
def encSlot (s : State) (id : Nat) (d : Desc) : Option Nat :=
  if d.kind = 2 ∨ (d.kind = 3 ∧ !d.isOpen) then
    let i := fwMatch s id
    if h : i < 64 then
      let a := (s.sec.fw[i]).attr
      if a.getLsbD 5 then some (a.extractLsb' 8 4).toNat else none
    else none
  else none

/-- A shard that nothing has filled (Table UPD-4). -/
def Shard.unfilled : Shard where
  st := .unfilled
  step := 0
  expected := none
  last := none
  prev := none
  aborted := none
  undo := none
  badUndo := []
  upd := none

/-- The layout of a descriptor, its band not yet placed; every slot is Released (Table VER-1). -/
def newLayout (s : State) (id : Nat) (d : Desc) (desc : Bytes) : Layout :=
  { desc := desc, kind := d.kind, stateLayout := d.stateLayout, workFormat := d.workFormat, slots := d.slots,
    guarded := d.guarded, arrivalDesc := d.arrivalDesc, isOpen := d.isOpen, segs := d.segs, span := d.span,
    length := d.length, rowBase := 0, bandRows := 0, epoch := s.regs.foldEpoch,
    masks := (spanSites d.span).map (fun i => (i, foldMask s i)), enc := encSlot s id d,
    slotSt := List.replicate d.slots .released, shard := Shard.unfilled }

/-- Allocate the band of a new layout (R103); none when no row range serves. -/
def placeLayout (s : State) (ly : Layout) : Option Layout :=
  let rows := (ly.geo s).rows
  if 65535 < rows then none
  else (allocBand s ly.masks (ly.fcs s) rows).map (fun b => { ly with rowBase := b, bandRows := rows })

/-- Result of LAYOUT_DEF (Table LAY-6). -/
def layoutResult (s : State) (ly : Layout) : Nat :=
  let g := ly.geo s
  let chunks := if ly.kind = 3 then g.chunks else g.parcels
  let tiles := if ly.kind = 1 then g.tiles else 0
  ly.rowBase + 2 ^ 16 * ly.bandRows + 2 ^ 32 * (chunks % 2 ^ 32) + 2 ^ 64 * (tiles % 2 ^ 32) + 2 ^ 96 * ly.epoch.toNat

def layoutIdBad (v : Nat) : Bool := v == 0 || decide (4095 < v)

def opLayoutDef : Opcode where
  is := isOp 0x10
  mal := fun s o =>
    let len := fld o 20 4
    let off := fld o 24 8
    let fits := decide (off + len ≤ stageLen)
    let desc := staged s off len
    resv o ([16, 17] ++ span 20 31) ++ badIf (layoutIdBad (fld o 16 2)) 16 ++ badIf (off % 64 != 0) 24
      ++ stageMal off len 24 20
      ++ badIf (fits && len != descLen (bytesAt desc 5 1)) 20
      ++ (if fits then (descMal desc).map (64 + ·) else [])
  chk := fun s r _ o =>
    let id := fld o 16 2
    let desc := staged s (fld o 24 8) (fld o 20 4)
    let d := parseDesc desc
    if (getLayout s id).isSome then .refuse 0x16 0
    else if (spanSites d.span).any (fun i => foldMask s i == 0) then .refuse 0x17 0
    else if descPolicy s d then .refuse 0x1A 0
    else
      match placeLayout s (newLayout s id d desc) with
      | none => .refuse 0x18 0
      | some ly => fwGuard s id (worldOnly r) (.finish 0x01 (layoutResult s ly) (putLayout s id ly))

/-- LAYOUT_DEF: a band for the layout, or the first refusal of Table LAY-5. -/
def execLayoutDef (r : RingId) (s : State) : Host.Outcome State Fault Refusal := .next (takeOrder opLayoutDef s r)

/-! ### LAYOUT_FREE (R106, R336, R355) -/

/-- Does a region hold a defined queue or a stash directory entry (Table STA-11)? -/
def regionHeld (s : State) (id : Nat) : Bool :=
  s.queues.toList.any (fun q => q.defined && q.layout == id) || s.stash.any (fun e => e.2.layout == id)

/-- Undefine a layout: its record, its cached lines and its pending spot checks go; the band's content stays. -/
def freeLayout (s : State) (id : Nat) : State :=
  let s1 := discardLines s id none
  dropSpots { s1 with layouts := kvDel s1.layouts id } (fun p => p.layout == id)

def opLayoutFree : Opcode where
  is := isOp 0x11
  mal := fun _ o => resv o [16, 17] ++ badIf (layoutIdBad (fld o 16 2)) 16
  chk := fun s r _ o =>
    let id := fld o 16 2
    match getLayout s id with
    | none => .finish 0x02 0 s
    | some ly =>
      if layoutNamed s id || ly.shard.upd.isSome || regionHeld s id then .refuse 0x16 0
      else fwGuard s id (worldOnly r) (.finish 0x01 0 (freeLayout s id))

/-- LAYOUT_FREE: the LayoutId becomes undefined. -/
def execLayoutFree (r : RingId) (s : State) : Host.Outcome State Fault Refusal := .next (takeOrder opLayoutFree s r)

/-! ### RULE_LOAD (R227-R232) -/

/-- Is the RuleId in use (R230)? -/
def ruleInUse (s : State) (id : Nat) : Bool :=
  s.layouts.any (fun e => (e.2.shard.upd.map (fun u => u.ruleId == id)).getD false)
    || s.waiting.any (fun w => fld w.order 18 1 == id)

/-- The words of a staged program. -/
def stagedWords (s : State) (off n : Nat) : List W32 :=
  (List.range n).map (fun i => BitVec.ofNat 32 (leNat (staged s (off + 4 * i) 4)))

/-- Result of a RULE_LOAD's DONE (R232). -/
def ruleResult (sl : Nat) (body : List W32) : Nat :=
  iiOf sl body false + 2 ^ 8 * iiOf sl body true + 2 ^ 16 * flightK sl body false + 2 ^ 24 * (regsR sl body % 64)
    + 2 ^ 32 * (parcelCycles sl body false % 65536) + 2 ^ 48 * (parcelCycles sl body true % 65536)

def opRuleLoad : Opcode where
  is := isOp 0x22
  mal := fun _ o =>
    let sl := fld o 17 1
    let p := fld o 18 1
    let b := fld o 19 1
    let off := fld o 24 8
    resv o ([16, 17, 18, 19, 20] ++ span 24 31) ++ badIf (decide (fld o 16 1 < 0x10)) 16
      ++ badIf (!(decide (1 ≤ sl ∧ sl ≤ 3))) 17 ++ badIf (decide (64 < p)) 18 ++ badIf (decide (64 < b)) 19
      ++ badIf (decide (16 ≤ fld o 20 1) || sl == 3 && fldBits o 20 1 2 != 0) 20 ++ badIf (off % 64 != 0) 24
      ++ (if p + b = 0 then [] else stageMal off (4 * (p + b)) 24 18)
  chk := fun s _ _ o =>
    let id := fld o 16 1
    let sl := fld o 17 1
    let p := fld o 18 1
    let b := fld o 19 1
    if p + b = 0 then
      if (kvGet s.rules id).isNone then .finish 0x02 0 s
      else if ruleInUse s id then .refuse 0x16 0
      else .finish 0x01 0 { s with rules := kvDel s.rules id }
    else
      let ws := stagedWords s (fld o 24 8) (p + b)
      let aux := fldBits o 20 0 3
      match checkRule sl p b aux ws with
      | some (c, i) => .refuseWith 0x19 0 s.beat.now (c + 2 ^ 8 * i)
      | none =>
        if ruleInUse s id then .refuse 0x16 0
        else
          let rule : Rule := { stateLayout := sl, prologue := ws.take p, body := ws.drop p, auxStore := aux,
                               mixMaster := o.getLsbD 163 }
          .finish 0x01 (ruleResult sl rule.body) { s with rules := kvPut s.rules id rule }

/-- RULE_LOAD: define, replace or delete a user rule. -/
def execRuleLoad (r : RingId) (s : State) : Host.Outcome State Fault Refusal := .next (takeOrder opRuleLoad s r)

/-! ### VER_RELEASE (R279) -/

/-- Table VER-2. -/
def verRelease (s : State) (id slot v : Nat) : Verdict :=
  match getLayout s id with
  | none => .refuse 0x17 0
  | some ly =>
    if ly.kind = 3 ∨ ly.slots ≤ slot then .refuse 0x17 0
    else
      match ly.slotSt.getD slot .released with
      | .filling => .refuse 0x16 0
      | .released => .finish 0x02 0 s
      | .draining x => if v ≤ x then .finish 0x02 0 s else .refuse 0x16 0
      | .readable x =>
        if v < x then .finish 0x02 0 s
        else if x < v then .refuse 0x16 0
        else .finish 0x01 0 (giveUpSlot s id slot v)

def opVerRelease : Opcode where
  is := isOp 0x30
  mal := fun _ o => resv o ([16, 17, 18] ++ span 20 24) ++ highBits o 18 3
  chk := fun s r _ o => fwGuard s (fld o 16 2) (worldOnly r) (verRelease s (fld o 16 2) (fld o 18 1) (fld o 20 5))

/-- VER_RELEASE: a Readable slot is released, or drains. -/
def execVerRelease (r : RingId) (s : State) : Host.Outcome State Fault Refusal := .next (takeOrder opVerRelease s r)

/-! ### DRZ_SEED (R263, R264) -/

/-- Is the stream named by an incomplete order, an update in progress or a waiting UPD_OPEN? -/
def streamNamed (s : State) (id : Nat) : Bool :=
  s.inflight.any (fun f => (orderStreams f.order).contains id)
    || s.waiting.any (fun w => (orderStreams w.order).contains id)
    || s.layouts.any (fun e => (e.2.shard.upd.map (fun u => u.stream0 == id || u.stream1 == id)).getD false)

def drzMal (o : Order) : List Nat :=
  resv o ([16, 17, 18] ++ span 24 36) ++ badIf (fld o 16 2 == 0) 16 ++ highBits o 18 1
    ++ badIf (o.getLsbD 144 && (fld o 24 8 != 0 || fld o 32 5 != 0)) 18

def opDrzSeed : Opcode where
  is := fun o => isOp 0x65 o && !o.getLsbD 144
  mal := fun _ o => drzMal o
  chk := fun s _ _ o =>
    let id := fld o 16 2
    if streamNamed s id then .refuse 0x16 0
    else if (kvGet s.streams id).isNone ∧ 1024 ≤ s.streams.length then .refuse 0x18 0
    else .finish 0x01 0 { s with streams := kvPut s.streams id ⟨BitVec.ofNat 64 (fld o 24 8), fld o 32 5⟩ }

def opDrzDelete : Opcode where
  is := fun o => isOp 0x65 o && o.getLsbD 144
  mal := fun _ o => drzMal o
  chk := fun s _ _ o =>
    let id := fld o 16 2
    if (kvGet s.streams id).isNone then .finish 0x02 0 s
    else if streamNamed s id then .refuse 0x16 0
    else .finish 0x01 0 { s with streams := kvDel s.streams id }

/-- DRZ_SEED without Delete: define the stream or replace its seed and step (Table DRZ-4). -/
def execDrzSeed (r : RingId) (s : State) : Host.Outcome State Fault Refusal := .next (takeOrder opDrzSeed s r)
/-- DRZ_SEED with Delete: delete the stream (Table DRZ-4). -/
def execDrzSeedDelete (r : RingId) (s : State) : Host.Outcome State Fault Refusal := .next (takeOrder opDrzDelete s r)

end Sys2Proof.Machine
end

