-- ==== Sys2Proof/Machine/OrdSystem.lean ====
section
/-! DEFINITION. Orders of the system families: queues, retirement, fences, ZEROIZE, TALLY and LEDGER_DRAIN
(10 STA, 13 ITY, 14 FLT, 16 SEC, 17 TEL). -/

namespace Sys2Proof.Machine

/-! ### QUEUE_DEF (R321-R324, R331) -/

/-- Stored bytes of a part: whole chunks (R322). -/
def partBytes (count code : Nat) : Nat := 2048 * cdiv count ((chunkElems code).getD 1)

def entryBytes (ps : List QPart) : Nat := (ps.map (fun p => partBytes p.count p.store)).sum

/-- PieceElems (Table STA-6): wire 1 is FP32, 2 is BF16. -/
def pieceElems (store wire : Nat) : Nat :=
  let w := wire == 1
  match store with
  | 0x10 => 4096
  | 0x01 => if w then 4096 else 8192
  | 0x05 => if w then 3968 else 7936
  | 0x06 => if w then 3968 else 7936
  | 0x07 => if w then 2592 else 7776
  | 0x08 => if w then 2592 else 7776
  | _ => if w then 3840 else 7680

def partPieces (p : QPart) : Nat := cdiv p.count (pieceElems p.store p.wire)

/-- The part descriptor j of a Define. -/
def partOf (o : Order) (j : Nat) : QPart :=
  ⟨fld o (32 + 8 * j) 4, fld o (36 + 8 * j) 1, fld o (37 + 8 * j) 1, o.getLsbD (8 * (38 + 8 * j))⟩

def partsOf (o : Order) : List QPart := (List.range (fld o 21 1)).map (partOf o)

/-- Does byte `x` of a region lie in a slot of a queue that is not Full (R330)? -/
def queueUndef (s : State) (id x : Nat) : Bool :=
  s.queues.toList.any (fun q =>
    let n := entryBytes q.parts
    q.defined && q.layout == id && decide (x < q.depth * n) && !(((kvGet q.slots (x / n)).map QSlot.full).getD false))

/-- Bytes read of an area from byte `off` on: undefined in a queue slot that is not Full (R9, R330). -/
def maskQueue (s : State) (id area off : Nat) (b : Bytes) : Bytes :=
  if area = 0 ∧ s.queues.toList.any (fun q => q.defined && q.layout == id) then
    b.zipIdx.map (fun e => if queueUndef s id (off + e.2) then undefByte s (off + e.2) else e.1)
  else b

/-- Offending bytes of part descriptor j (DEDUCED, log 109). -/
def partMal (o : Order) (n j : Nat) : List Nat :=
  let b := 32 + 8 * j
  if n ≤ j then nonZero o (span b (b + 7))
  else
    let p := partOf o j
    let mx := (chunkElems p.store).isNone
    badIf (p.count == 0) b ++ badIf (!(p.wire == 1 || p.wire == 2)) (b + 4) ++ badIf mx (b + 5)
      ++ highBits o (b + 6) 1 ++ nonZero o [b + 7]
      ++ badIf (p.residual && (p.wire != 1 || p.store != 0x10)) (b + 4)
      ++ badIf (p.store == 0x10 && p.wire == 2) (b + 4)

def queueAction (o : Order) : Nat := fldBits o 17 0 2

def queueMal (o : Order) : List Nat :=
  highBits o 16 4 ++ highBits o 17 2 ++
  (match queueAction o with
   | 0 =>
     let n := fld o 21 1
     resv o ([16, 17, 18, 19, 20, 21] ++ span 24 27 ++ span 32 63)
       ++ badIf (!(decide (1 ≤ fld o 20 1 ∧ fld o 20 1 ≤ 64))) 20 ++ badIf (!(decide (1 ≤ n ∧ n ≤ 4))) 21
       ++ (if n ≤ 4 then (List.range 4).flatMap (partMal o n) else [])
       ++ badIf (decide (n ≤ 4) && decide (4096 < ((partsOf o).map partPieces).sum)) 32
   | 1 => resv o [16, 17]
   | _ => resv o ([16, 17] ++ span 24 28))

/-- Beats from a + 1 on in which bookings stand, and one with none. -/
def bookedBeats (s : State) : List Nat :=
  (s.beat.now + 65536) :: ((s.inflight.flatMap (fun f => f.booked.map (·.beat))).filter
    (fun b => decide (s.beat.now < b))).dedup

/-- Row of Table BEA-3 that lacks room for a reserve in some beat (R324, R325): 8 the exchange port, 10 energy. -/
def reserveLacks (s : State) (ns : Nat) : Option Nat :=
  if ns = 0 then none
  else if (bookedBeats s).any (fun b => decide (freeOn s s.inflight .xchIn b < (ns : Rat))) then some 8
  else if (bookedBeats s).any (fun b => decide (freeEnergy s s.inflight b < energyOf s .xchIn (ns : Rat))) then some 10
  else none

def queueId (o : Order) : Fin 16 := ⟨fld o 16 1 % 16, by omega⟩

def setQueue (s : State) (q : Fin 16) (f : Queue → Queue) : State := { s with queues := updV s.queues q f }

def opQueueDefine : Opcode where
  is := fun o => isOp 0x44 o && queueAction o == 0
  mal := fun _ o => queueMal o
  chk := fun s r _ o =>
    let q := queueId o
    let depth := fld o 20 1
    match getLayout s (fld o 18 2) with
    | none => .refuse 0x17 0
    | some ly =>
      if ly.kind ≠ 3 ∨ ly.isOpen then .refuse 0x1A 0
      else if (s.queues[q]).defined then .refuse 0x16 0
      else if ly.length < depth * entryBytes (partsOf o) then .refuse 0x18 0
      else
        match reserveLacks s (fld o 24 4) with
        | some row => .refuseWith 0x13 row beatOnes 0
        | none =>
          fwGuard s (fld o 18 2) (worldOnly r) (.finish 0x01 0 (setQueue s q (fun x =>
            { defined := true, layout := fld o 18 2, depth := depth, parts := partsOf o, reserve := fld o 24 4, since := s.beat.now,
              slots := [], irqEn := x.irqEn })))

def opQueueDelete : Opcode where
  is := fun o => isOp 0x44 o && queueAction o == 1
  mal := fun _ o => queueMal o
  chk := fun s _ _ o =>
    let q := queueId o
    if (s.queues[q]).defined then .finish 0x01 0 (setQueue s q (fun x => { Queue.reset with irqEn := x.irqEn }))
    else .refuse 0x17 0

/-- An empty slot record. -/
def QSlot.empty : QSlot := ⟨none, false, [], none⟩

def opQueueRelease : Opcode where
  is := fun o => isOp 0x44 o && queueAction o == 2
  mal := fun _ o => queueMal o
  chk := fun s _ _ o =>
    let q := queueId o
    let m := fld o 24 5
    let x := s.queues[q]
    if !x.defined then .refuse 0x17 0
    else
      let i := m % x.depth
      let e := kvGetD x.slots i QSlot.empty
      if e.occ = some m then
        .finish 0x01 0 (setQueue s q (fun x => { x with slots := kvPut x.slots i ⟨none, false, [], some m⟩ }))
      else if e.occ = none ∧ (e.highest.map (fun h => decide (m ≤ h))).getD false then .finish 0x02 0 s
      else .refuse 0x16 0

/-- QUEUE_DEF Define (R324). -/
def execQueueDefDefine (r : RingId) (s : State) : Host.Outcome State Fault Refusal := .next (takeOrder opQueueDefine s r)
/-- QUEUE_DEF Delete (R331). -/
def execQueueDefDelete (r : RingId) (s : State) : Host.Outcome State Fault Refusal := .next (takeOrder opQueueDelete s r)
/-- QUEUE_DEF Release (Table STA-7). -/
def execQueueDefRelease (r : RingId) (s : State) : Host.Outcome State Fault Refusal := .next (takeOrder opQueueRelease s r)

/-! ### RETIRE (R432-R438) -/

def retireMal (o : Order) : List Nat :=
  resv o [16, 17, 18, 19, 20, 21] ++ badIf (decide (20 ≤ fld o 17 1)) 17 ++ badIf (decide (32 ≤ fld o 18 1)) 18
    ++ (if fld o 16 1 = 0 then badIf (decide (16 ≤ fld o 19 1)) 19 ++ badIf (decide (45776 ≤ fld o 20 2)) 20
        else badIf (decide (8 ≤ fld o 19 1)) 19 ++ nonZero o [20, 21])

/-- The site of an order's byte 17. -/
def ordSite (o : Order) : SiteId := siteOf (fld o 17 1)

/-- Entries of a bank's remap table never used: not listed, and not promised to an admitted RETIRE (R435; DEDUCED, log
117). -/
def unusedEntries (s : State) (bank : Nat) : List Nat :=
  let used := (remapEntries s bank).map (·.1)
  let held := s.inflight.filterMap (fun f => match f.ctx with
    | .retire e => if bankKey (fld f.order 17 1) (fld f.order 18 1) (fld f.order 19 1) = bank then some e else none
    | _ => none)
  (List.range 458).filter (fun e => !(used.contains e) && !(held.contains e))

/-- First rows of Table ITY-6. -/
def retireWhere (s : State) (o : Order) : Option Nat :=
  let x := fld o 17 1
  if kindOf s x = .none ∨ !(foldMask s x).getLsbD (fld o 18 1) then some 0x17
  else if isFcs s x then none
  else some 0x1A

def opRetireRow : Opcode where
  is := fun o => isOp 0x60 o && fld o 16 1 == 0
  mal := fun _ o => retireMal o
  chk := fun s _ _ o =>
    match retireWhere s o with
    | some st => .refuse st 0
    | none =>
      match unusedEntries s (bankKey (fld o 17 1) (fld o 18 1) (fld o 19 1)) with
      | [] => .refuse 0x18 0
      | e :: _ => .whole s o (.retire e) id

def opRetirePair : Opcode where
  is := fun o => isOp 0x60 o && fld o 16 1 == 1
  mal := fun _ o => retireMal o
  chk := fun s _ _ o =>
    match retireWhere s o with
    | some st => .refuse st 0
    | none =>
      if stallFenced s (fld o 17 1) (fld o 18 1) (fld o 19 1) then .finish 0x02 0 s
      else .whole s o .plain id

/-- RETIRE of a row: admitted with its spare entry; the copy is made at completion (R435). -/
def execRetireRow (r : RingId) (s : State) : Host.Outcome State Fault Refusal := .next (takeOrder opRetireRow s r)
/-- RETIRE of a bank pair: admitted; its stall is fenced at completion (R438). -/
def execRetireBankPair (r : RingId) (s : State) : Host.Outcome State Fault Refusal := .next (takeOrder opRetirePair s r)

/-! ### FENCE (R449-R451) -/

def fenceMal (o : Order) : List Nat :=
  let sc := fld o 16 1
  resv o [16, 17, 18, 19] ++ highBits o 16 2 ++ badIf (decide (20 ≤ fld o 17 1)) 17
    ++ badIf (decide (32 ≤ fld o 18 1)) 18 ++ badIf (decide (8 ≤ fld o 19 1)) 19
    ++ (if sc = 2 then nonZero o [18] else []) ++ (if sc = 1 ∨ sc = 2 then nonZero o [19] else [])

/-- Table FLT-4 for one scope (DEDUCED, log 122). -/
def fenceChk (scope : Nat) (s : State) (r : RingId) (idx : Nat) (o : Order) : Verdict :=
  let x := fld o 17 1
  let c := fld o 18 1
  let k := fld o 19 1
  if kindOf s x = .none then .refuse 0x17 0
  else if scope = 0 ∧ !isFcs s x then .refuse 0x1A 0
  else if fenceGone s scope x c k then .finish 0x02 0 s
  else .wait (requestDeferred s ⟨scope, x, c, k, [], some (r.val, idx, o)⟩)

def opFence (scope : Nat) : Opcode where
  is := fun o => isOp 0x61 o && fldBits o 16 0 2 == scope
  mal := fun _ o => fenceMal o
  chk := fenceChk scope

/-- FENCE of a stall (Table FLT-5). -/
def execFenceStall (r : RingId) (s : State) : Host.Outcome State Fault Refusal := .next (takeOrder (opFence 0) s r)
/-- FENCE of a channel (Table FLT-5). -/
def execFenceChannel (r : RingId) (s : State) : Host.Outcome State Fault Refusal := .next (takeOrder (opFence 1) s r)
/-- FENCE of a site (Table FLT-5). -/
def execFenceSite (r : RingId) (s : State) : Host.Outcome State Fault Refusal := .next (takeOrder (opFence 2) s r)

/-! ### ZEROIZE (R511-R513) -/

/-- Row ranges between bands: `cur` is the first row not covered, bands by rising base. -/
def gaps (limit : Nat) : Nat → KV Nat → List (Nat × Nat)
  | cur, [] => if cur < limit then [(cur, limit)] else []
  | cur, (b, n) :: r => (if cur < b then [(cur, b)] else []) ++ gaps limit (Nat.max cur (b + n)) r

/-- Free row ranges of a channel's banks. -/
def freeRows (s : State) (site ch : Nat) : List (Nat × Nat) :=
  let bands := s.layouts.foldl (fun (m : KV Nat) e =>
    if e.2.masks.any (fun x => x.1 == site && x.2.getLsbD ch) then kvPut m e.2.rowBase e.2.bandRows else m) []
  gaps (rowLimit (isFcs s site)) 0 bands

/-- Banks of a channel: 16, or the two halves of a plain JEDEC channel. -/
def banksOf (s : State) (site : Nat) : Nat := if isFcs s site then 16 else 2

/-- Every free row of the block, by bank (DEDUCED, log 115). -/
def allFreeRows (s : State) : List (Nat × Nat × Nat) :=
  (List.range 20).flatMap (fun x => (liveCh (foldMask s x)).flatMap (fun c =>
    let g := freeRows s x c
    (List.range (banksOf s x)).flatMap (fun b => g.map (fun r => (bankKey x c b, r.1, r.2)))))

def zeroMal (o : Order) : List Nat :=
  resv o [16, 18, 19] ++ (if fld o 16 1 = 0 then badIf (fld o 18 2 != 0) 18 else [])

def opZeroFree : Opcode where
  is := fun o => isOp 0x62 o && fld o 16 1 == 0
  mal := fun _ o => zeroMal o
  chk := fun s _ _ o =>
    .whole s o (.zeroFree (allFreeRows s)) id

def opZeroLayout : Opcode where
  is := fun o => isOp 0x62 o && fld o 16 1 == 1
  mal := fun _ o => zeroMal o
  chk := fun s r _ o =>
    let id := fld o 18 2
    match getLayout s id with
    | none => .refuse 0x17 0
    | some ly =>
      if keyLost s ly then .refuse 0x1A 0
      else if layoutNamed s id then .refuse 0x16 0
      else if !fwOk s id (needOf r 0 false true false) then .deny id
      else .whole s o .plain (fun x => x)

/-- ZEROIZE of every free row: the rows are fixed at admission (R513). -/
def execZeroizeFreeRows (r : RingId) (s : State) : Host.Outcome State Fault Refusal := .next (takeOrder opZeroFree s r)
/-- ZEROIZE of one layout (R511). -/
def execZeroizeLayout (r : RingId) (s : State) : Host.Outcome State Fault Refusal := .next (takeOrder opZeroLayout s r)

/-! ### TALLY (R520-R524) -/

/-- Endpoint faults of TALLY: its reserved Paths are a matter of policy (R521). -/
def tallyEpMal (o : Order) : List Nat :=
  if epZero o 32 then []
  else badIf (epPath o 32 != 0x40 && epNode o 32 != 0) 32 ++ badIf (epAddr o 32 % 64 != 0) 36

/-- A number above every LayoutId: no entry of the firewall holds it, and key 0x8000 decides (R496). -/
def noLayout : Nat := 4096

/-- TALLY. It names no layout, so the firewall denies its port only by the default of key 0x8000 (R521, R496; DEDUCED,
log 120). -/
def opTally : Opcode where
  is := isOp 0x63
  mal := fun _ o =>
    resv o ([16, 17] ++ span 32 43) ++ badIf (fld o 16 2 == 0) 16 ++ badIf (o.getLsbD 135) 16 ++ nonZero o [17]
      ++ tallyEpMal o
  chk := fun s r _ o =>
    let p := epPath o 32
    if !epZero o 32 ∧ !(isPort p || p == 0x40) then .refuse 0x1A 0
    else if !epZero o 32 ∧ !fwOk s noLayout (worldOnly r) then .deny noLayout
    else
      let w := partWork s o (.tally none) 0
      .book w w (.tally none) id

/-- TALLY: admitted to latch its groups at the strobe that begins its due beat (R522). -/
def execTally (r : RingId) (s : State) : Host.Outcome State Fault Refusal := .next (takeOrder opTally s r)

/-! ### LEDGER_DRAIN (R529-R531) -/

def isDrain (f : InFlight) : Bool := match f.ctx with
  | .drain .. => true
  | _ => false

/-- LEDGER_DRAIN. R529 lists no refusal by the firewall for it (DEDUCED, log 120). -/
def opLedgerDrain : Opcode where
  is := isOp 0x64
  mal := fun _ o =>
    resv o ([16] ++ span 20 23 ++ span 32 43) ++ highBits o 16 1
      ++ badIf (!(decide (1 ≤ fld o 20 4 ∧ fld o 20 4 ≤ 65536))) 20 ++ epMal o 32
  chk := fun s _ _ o =>
    if s.inflight.any isDrain then .refuse 0x16 0
    else
      .whole s o
        (.drain (Nat.min (fld o 20 4) s.led.entries.length) s.led.head s.led.dropped)
        (fun x => { x with led := { x.led with dropped := 0 } })

/-- LEDGER_DRAIN: admitted with the entries it will copy (R530). -/
def execLedgerDrain (r : RingId) (s : State) : Host.Outcome State Fault Refusal := .next (takeOrder opLedgerDrain s r)

end Sys2Proof.Machine
end

