-- ==== Sys2Proof/Machine/OrdUpdate.lean ====
section
/-! DEFINITION. UPD_OPEN and UPD_ABORT (06 UPD, R280). -/

namespace Sys2Proof.Machine

/-- RuleIds that are reserved encodings (R217). -/
def reservedRule (id : Nat) : Bool := decide (id < 0x10) && !([0x01, 0x02, 0x05, 0x06].contains id)

/-- Is an FP32 encoding finite and positive? -/
def finitePos (x : W32) : Bool := isFin32 x && !isZero32 x && !x.getLsbD 31

/-- First row of Table UPD-2, and R217 (DEDUCED, log 123). -/
def updOpenMal (o : Order) : List Nat :=
  resv o (span 16 41 ++ span 48 55) ++ highBits o 19 3 ++ highBits o 30 3 ++ nonZero o [31]
    ++ badIf (reservedRule (uoRule o)) 18
    ++ badIf (uoD o == 0 || decide (64 < uoD o)) 26 ++ badIf (decide (uoD o < uoLocal o)) 26
    ++ badIf ((uoPorts o == 0) != (uoLocal o == 0)) 27
    ++ badIf (fld o 40 2 == 1 || decide (4096 < fld o 40 2)) 40
    ++ badIf (uoHyper o % 64 != 0 || decide (stageLen < uoHyper o + 64)) 48
    ++ badIf (if uoClip o then !finitePos (uoFactor o) else uoFactor o != 0) 30

/-- Second row: something named is not defined. -/
def updOpenUnknown (s : State) (o : Order) : Bool :=
  (match getLayout s (uoLayout o) with
   | some ly => ly.kind != 1 || decide (ly.slots ≤ uoSlot o)
   | none => true)
  || (ruleOf s (uoRule o)).isNone
  || [0, 1].any (fun i => uoStream o i != 0 && !kvHas s.streams (uoStream o i))

/-- Third row: the close that the order repeats. -/
def updOpenRepeat (o : Order) (h : Shard) : Option (BitVec 192) :=
  match h.last with
  | some c => if uoStep o = h.step ∧ uoAttempt o = c.attempt ∧ c.hasBody then some c.body else none
  | none => none

/-- Fourth row. -/
def updOpenPolicy (o : Order) (ly : Layout) (rule : Rule) : Bool :=
  (uoGuarded o && !ly.guarded) || (uoHold o && !uoGuarded o) || (uoGuarded o && rule.auxStore != 0)
    || rule.stateLayout != ly.stateLayout

/-- Sixth row. -/
def updOpenState (o : Order) (h : Shard) : Bool :=
  h.st != .idle || uoStep o != h.step + 1 || h.aborted == some (uoStep o, uoAttempt o)

/-- Is the target slot Released, with no incomplete EXPORT of the shard (R280)? -/
def slotReady (s : State) (o : Order) : Bool :=
  (match getLayout s (uoLayout o) with
   | some ly => ly.slotSt.getD (uoSlot o) .released == .released
   | none => false)
  && !(s.inflight.any (fun f => ordOp f.order == 0x33 && (orderLayouts s f.order f.ctx).contains (uoLayout o)))

def seedOf (s : State) (id : Nat) : BitVec 64 := ((kvGet s.streams id).map Stream.seed).getD 0

/-- The update that an admission opens. -/
def newUpd (s : State) (w : Waiting) : Upd :=
  let o := w.order
  { ring := w.ring, idx := w.idx, tag := ordTag o, seq := s.seq, due := ordDue o, ruleId := uoRule o, slot := uoSlot o,
    step := uoStep o, attempt := uoAttempt o, d := uoD o, localN := uoLocal o,
    portMask := BitVec.ofNat 16 (uoPorts o), guarded := uoGuarded o, holdTile := uoHold o, clip := uoClip o,
    clipFactor := uoFactor o, stream0 := uoStream o 0, stream1 := uoStream o 1, seed0 := seedOf s (uoStream o 0),
    seed1 := seedOf s (uoStream o 1), share := uoShare o, hyper := w.hyper, tiles := [], ripe := [], seam := [],
    ready := [], disp := [], sealed := [], cut := [], zeros := 0, sats := 0, nfGrad := 0, nfStore := 0, sumSq := 0,
    heldTiles := 0, gotLocal := 0, gotRemote := 0, ending := none }

/-- The effect of admission: the slot is Filling, the shard Open, the undo area given up (R179, R209, Table
VER-1). -/
def openUpdate (w : Waiting) (u : Upd) (s : State) : State :=
  modLayout s (uoLayout w.order) (fun l =>
    let l1 := setSlot l (uoSlot w.order) .filling
    { l1 with shard := { l1.shard with st := .isOpen, undo := none, badUndo := [], upd := some u } })

/-- Admission of an UPD_OPEN whose slot is ready. -/
def bookOpen (s : State) (w : Waiting) : Verdict :=
  let x := updOpenWork s w.order
  .book x.1 x.2 .plain (openUpdate w (newUpd s w))

/-- The hyperparameter block h0 to h15 (R172). -/
def hyperWords (s : State) (o : Order) : List W32 := stagedWords s (uoHyper o) 16

/-- Table UPD-2 after its first row, then the wait of R280 or admission. -/
def updOpenChk (s : State) (r : RingId) (idx : Nat) (o : Order) : Verdict :=
  if updOpenUnknown s o then .refuse 0x17 0
  else
    match getLayout s (uoLayout o), ruleOf s (uoRule o) with
    | some ly, some rule =>
      match updOpenRepeat o ly.shard with
      | some b => .finishBody 0x02 0x23 b
      | none =>
        if updOpenPolicy o ly rule then .refuse 0x1A 0
        else if !fwOk s (uoLayout o) (needOf r (uoPorts o) false false true) then .deny (uoLayout o)
        else if updOpenState o ly.shard then .refuse 0x16 0
        else
          let w : Waiting := ⟨r.val, idx, o, hyperWords s o⟩
          if slotReady s o then bookOpen s w else .wait { s with waiting := s.waiting ++ [w] }
    | _, _ => .refuse 0x17 0

def opUpdOpen : Opcode where
  is := isOp 0x20
  mal := fun _ o => updOpenMal o
  chk := updOpenChk

/-- UPD_OPEN: answered by Table UPD-2, waiting for its slot, or admitted. -/
def execUpdOpen (r : RingId) (s : State) : Host.Outcome State Fault Refusal := .next (takeOrder opUpdOpen s r)

/-- The UPD_OPEN that waits on ring r goes to admission once its slot is Released and no EXPORT of its shard is
incomplete (R280). The shard's state is checked again, since another UPD_OPEN may have been admitted meanwhile
(R177; DEDUCED, log 18). -/
def openAfterWait (s : State) (r : RingId) : State :=
  match s.waiting.find? (fun w => w.ring == r.val) with
  | none => s
  | some w =>
    if !slotReady s w.order then s
    else
      let s1 := { s with waiting := s.waiting.filter (fun v => v.ring != r.val) }
      match getLayout s1 (uoLayout w.order) with
      | none => answer s1 r w.idx w.order (.refuse 0x17 0)
      | some ly =>
        if updOpenState w.order ly.shard then answer s1 r w.idx w.order (.refuse 0x16 0)
        else answer s1 r w.idx w.order (bookOpen s1 w)

/-- UPD_OPEN_ADMIT_AFTER_WAIT. -/
def execUpdOpenAdmitAfterWait (r : RingId) (s : State) : Host.Outcome State Fault Refusal := .next (openAfterWait s r)

/-! ### UPD_ABORT (R209, R213) -/

/-- An open step stops before its close, with the Reason and Count of Table UPD-12: no more tiles or dispatch, slots and
seam entries freed; a unit with an open window goes on to its close (Table UPD-13, R205, R212). -/
def stopUpdate (id reason cnt : Nat) (s : State) : State :=
  match (getLayout s id).bind (fun l => l.shard.upd) with
  | none => s
  | some u =>
    let s0 := flushTiles s u
    let s1 := { s0 with units := s0.units.map (fun e =>
      if e.2.layout = id ∧ e.2.windowOpen = false then (e.1, e.2.idle) else e) }
    modShard s1 id (fun h =>
      { h with st := .rolling, aborted := some (u.step, u.attempt),
               upd := some { u with tiles := [], seam := [], ready := [], ending := some (reason, cnt) } })

/-- An abort of an open step begins (Table UPD-13). -/
def abortOpen (id : Nat) (s : State) : State := stopUpdate id 4 0 s

/-- An abort of a closed step begins (Table UPD-13, third row). -/
def abortClosed (id att : Nat) (s : State) : State :=
  modShard s id (fun h => { h with st := .rolling, aborted := some (h.step, att) })

/-- Does a step end by the rows "last close s" of Table UPD-13: the shard closed s last, and is Resealing, Torn
or Idle? -/
def closedAt (h : Shard) (v : Nat) : Bool :=
  (h.st == .resealing || h.st == .torn || h.st == .idle) && h.step == v && h.last.isSome

/-- Table UPD-13. -/
def updAbortChk (s : State) (_ : RingId) (_ : Nat) (o : Order) : Verdict :=
  let id := fld o 16 2
  let v := fld o 20 5
  let att := fld o 25 1
  match getLayout s id with
  | none => .refuse 0x17 0
  | some ly =>
    let h := ly.shard
    if ly.kind ≠ 1 then .refuse 0x17 0
    else
      let openHere := h.st == .isOpen && ((h.upd.map (fun u => u.step == v && u.attempt == att)).getD false)
      if openHere then
        .whole s o .plain (abortOpen id)
      else
        let attOk := (h.last.map (fun c => c.attempt == att)).getD false
        let grd := (h.last.map CloseRec.guarded).getD false
        if closedAt h v && attOk && grd && h.undo == some v then
          .whole s o .plain (abortClosed id att)
        else if h.st == .idle && h.step == v && h.undo != some v then .refuse 0x1A 0
        else if closedAt h v && !grd then .refuse 0x1A 0
        else if h.st == .idle && h.step + 1 == v && h.aborted == some (v, att) then .finish 0x02 0 s
        else .refuse 0x16 0

def opUpdAbort : Opcode where
  is := isOp 0x21
  mal := fun _ o => resv o ([16, 17] ++ span 20 25)
  chk := fun s r idx o => fwGuard s (fld o 16 2) (worldOnly r) (updAbortChk s r idx o)

/-- UPD_ABORT: answered by Table UPD-13; an admitted one begins the rollback. -/
def execUpdAbort (r : RingId) (s : State) : Host.Outcome State Fault Refusal := .next (takeOrder opUpdAbort s r)

end Sys2Proof.Machine
end

