-- ==== Sys2Proof/Machine/OrdMove.lean ====
section
/-! DEFINITION. Orders that move versions, images and contexts (09 VER): the checks and the admission of FETCH,
SNAPSHOT, EXPORT, IMPORT, REPACK, CTX_SAVE and CTX_RESTORE. The order of checks is UNKNOWN, POLICY, STATE,
FIREWALL (DEDUCED, log 21). -/

namespace Sys2Proof.Machine

/-! ### FETCH (R284-R295) -/

def pullMal (o : Order) : List Nat :=
  resv o ([16, 17, 18, 19] ++ span 20 24 ++ [28, 29] ++ span 32 43) ++ highBits o 16 1 ++ highBits o 17 3 ++ epMal o 32
    ++ badIf (epAddr o 32 != 0) 36

def opFetchPull : Opcode where
  is := fun o => isOp 0x31 o && fldBits o 16 0 1 == 0
  mal := fun _ o => pullMal o
  chk := fun s r _ o =>
    let id := fld o 18 2
    let v := fld o 17 1
    match getLayout s id with
    | none => .refuse 0x17 0
    | some ly =>
      if ly.kind ≠ 2 ∨ ly.slots ≤ v then .refuse 0x17 0
      else if epPath o 32 ≠ 0x40 ∨ keyLost s ly then .refuse 0x1A 0
      else if ly.slotSt.getD v .released ≠ .released then .refuse 0x16 0
      else if !fwOk s id (needOf r 65536 false true false) then .deny id
      else
        .whole s o (.pull [] s.ts false 0 0)
          (fun x => requestRanges (modLayout x id (fun l => setSlot l v .filling)) o [(0, slotBytes s ly)])

/-- FETCH in pull role: the target slot is Filling and the owner is asked (R292). -/
def execFetchPull (r : RingId) (s : State) : Host.Outcome State Fault Refusal := .next (takeOrder opFetchPull s r)

def serveMal (o : Order) : List Nat :=
  resv o ([16, 18, 19] ++ span 20 24 ++ [26]) ++ highBits o 16 1
    ++ badIf (!(decide (1 ≤ fld o 26 1 ∧ fld o 26 1 ≤ 63))) 26

def opFetchServe : Opcode where
  is := fun o => isOp 0x31 o && fldBits o 16 0 1 == 1
  mal := fun _ o => serveMal o
  chk := fun s r _ o =>
    let id := fld o 18 2
    let ver := fld o 20 5
    match getLayout s id with
    | none => .refuse 0x17 0
    | some ly =>
      if ly.kind ≠ 1 then .refuse 0x17 0
      else
        match readableSlot ly ver with
        | none => .refuse 0x17 0
        | some v =>
          if s.inflight.any (fun f => isServe id ver f.order) then .refuse 0x16 0
          else if !fwOk s id (needOf r 65536 true false false) then .deny id
          else .whole s o (.serve v [] []) (fun x => x)

/-- FETCH in serve role: a reader of the version for its pullers (R294). -/
def execFetchServe (r : RingId) (s : State) : Host.Outcome State Fault Refusal := .next (takeOrder opFetchServe s r)

/-! ### SNAPSHOT (R296, R510) -/

/-- Use of a key slot: 0 for a slot that does not exist. -/
def keyUse (s : State) (k : Nat) : Nat := if h : k < 16 then (s.sec.keys[k]).use else 0

def opSnapshot : Opcode where
  is := isOp 0x32
  mal := fun _ o => resv o ([16, 17, 18] ++ span 20 24 ++ span 28 51) ++ epMal o 28
  chk := fun s r _ o =>
    let id := fld o 16 2
    match getLayout s id with
    | none => .refuse 0x17 0
    | some ly =>
      match (if ly.kind = 3 then none else readableSlot ly (fld o 20 5)) with
      | none => .refuse 0x17 0
      | some v =>
        if epPath o 28 ≠ 0x40 ∨ keyUse s (fld o 18 1) ≠ 2 then .refuse 0x1A 0
        else if !fwOk s id (needOf r 65536 true false false) then .deny id
        else .whole s o (.slot v) (fun x => x)

/-- SNAPSHOT: admitted as a reader of the version. -/
def execSnapshot (r : RingId) (s : State) : Host.Outcome State Fault Refusal := .next (takeOrder opSnapshot s r)

/-! ### EXPORT (R298) -/

/-- Slots an EXPORT exports, one list for each of its eight entries. -/
def exportMasks (s : State) (o : Order) : List (List Nat) :=
  (List.range 8).map (fun i =>
    if fldBits o 32 0 1 = 0 then []
    else ((getLayout s (fld o (16 + 2 * i) 2)).map readableSlots).getD [])

def opExport : Opcode where
  is := isOp 0x33
  mal := fun _ o =>
    resv o (span 16 32 ++ span 36 47) ++ badIf (fld o 16 2 == 0) 16 ++ highBits o 32 1 ++ epMal o 36
  chk := fun s r _ o =>
    let ids := exportIds o
    let ls := ids.filterMap (getLayout s)
    let need := needOf r (pathBit (epPath o 36)) true false false
    if ls.length ≠ ids.length then .refuse 0x17 0
    else if ls.any (fun l => l.kind != 1) then .refuse 0x1A 0
    else if ls.any (fun l => l.shard.st != .idle) then .refuse 0x16 0
    else
      match ids.find? (fun i => !fwOk s i need) with
      | some i => .deny i
      | none => .whole s o (.image (exportMasks s o)) id

/-- EXPORT: admitted; its images are written at completion. -/
def execExportImage (r : RingId) (s : State) : Host.Outcome State Fault Refusal := .next (takeOrder opExport s r)

/-! ### IMPORT and REPACK (R299-R304) -/

/-- States an IMPORT or REPACK fills (R287). -/
def fillable (h : Shard) : Bool := h.st == .unfilled || h.st == .torn || h.st == .damaged

def opImport : Opcode where
  is := isOp 0x34
  mal := fun _ o => resv o ([16, 17] ++ span 32 43) ++ epMal o 32
  chk := fun s r _ o =>
    let id := fld o 16 2
    match getLayout s id with
    | none => .refuse 0x17 0
    | some ly =>
      if ly.kind ≠ 1 then .refuse 0x1A 0
      else if !fillable ly.shard then .refuse 0x16 0
      else if !fwOk s id (needOf r (pathBit (epPath o 32)) false true false) then .deny id
      else .whole s o .plain (fun x => x)

/-- IMPORT: admitted; the target is filled at completion. -/
def execImportImage (r : RingId) (s : State) : Host.Outcome State Fault Refusal := .next (takeOrder opImport s r)

def repackMal (o : Order) : List Nat :=
  let n := fld o 20 1
  resv o ([16, 17, 18, 19, 20] ++ span 32 43)
    ++ (if fld o 18 2 = 0 then badIf (!(decide (1 ≤ n ∧ n ≤ 64))) 20 ++ epMal o 32
        else badIf (n != 0) 20 ++ nonZero o (span 32 43))

def opRepack : Opcode where
  is := isOp 0x12
  mal := fun _ o => repackMal o
  chk := fun s r _ o =>
    let id := fld o 16 2
    let src := fld o 18 2
    match getLayout s id with
    | none => .refuse 0x17 0
    | some ly =>
      let from? := getLayout s src
      if src ≠ 0 ∧ from?.isNone then .refuse 0x17 0
      else if ly.kind ≠ 1 ∨ src = id ∨ (from?.map (fun l => l.kind != 1)).getD false then .refuse 0x1A 0
      else if !fillable ly.shard ∨ (from?.map (fun l => l.shard.st != .idle)).getD false then .refuse 0x16 0
      else
        let ports := if src = 0 then pathBit (epPath o 32) else 0
        if !fwOk s id (needOf r ports false true false) then .deny id
        else
          let v : Verdict := .whole s o .plain (fun x => x)
          if src = 0 then v else fwGuard s src (worldOnly r) v

/-- REPACK: admitted; the target is filled at completion. -/
def execRepack (r : RingId) (s : State) : Host.Outcome State Fault Refusal := .next (takeOrder opRepack s r)

/-! ### CTX_SAVE and CTX_RESTORE (R305, R306) -/

/-- Has a shard an update in progress? -/
def anyUpdate (s : State) : Bool := s.layouts.any (fun e => e.2.shard.upd.isSome || e.2.shard.st == .rolling)

def opCtxSave : Opcode where
  is := isOp 0x35
  mal := fun _ o => resv o (span 32 43) ++ epMal o 32
  chk := fun s _ _ o =>
    if anyUpdate s then .refuse 0x16 0
    else .whole s o .plain id

/-- CTX_SAVE: admitted; the context is written at completion. -/
def execCtxSave (r : RingId) (s : State) : Host.Outcome State Fault Refusal := .next (takeOrder opCtxSave s r)

def opCtxRestore : Opcode where
  is := isOp 0x36
  mal := fun _ o => resv o (span 16 19 ++ span 32 43) ++ highBits o 18 4 ++ nonZero o [19] ++ epMal o 32
  chk := fun s _ _ o => .whole s o .plain id

/-- CTX_RESTORE: admitted; it defines everything of the context at completion, or nothing. -/
def execCtxRestore (r : RingId) (s : State) : Host.Outcome State Fault Refusal := .next (takeOrder opCtxRestore s r)

end Sys2Proof.Machine
end

