-- ==== Sys2Proof/Machine/OrdData.lean ====
section
/-! DEFINITION. Orders that move or combine data of regions: PUSH, TREAD, STASH_PUT, STASH_GET, GATHER, SCATTER, EW
and REDUCE: their checks and admission (05 STL, 10 STA, 11 MEM). -/

namespace Sys2Proof.Machine

/-- Offending bytes of an endpoint whose reserved Paths are a matter of policy (R371). -/
def epMalSoft (o : Order) (b : Nat) : List Nat :=
  badIf (epPath o b != 0x40 && epNode o b != 0) b ++ badIf (epAddr o b % 64 != 0) (b + 4)

/-- Does an Area suit the kind of a layout (R338) (DESIGN CHOICE, log 52)? -/
def areaSuits (ly : Layout) (a : Nat) : Bool := if ly.kind = 3 then a == 0 else decide (1 ≤ a ∧ a ≤ 8)

/-- Is the area there to be read by an order: a region, or a Readable slot (R275)? -/
def areaReadable (ly : Layout) (a : Nat) : Bool :=
  if ly.kind = 3 then a == 0 else decide (1 ≤ a) && isReadable ly (a - 1)

/-- Is a byte range inside an area? -/
def areaFits (s : State) (ly : Layout) (a x n : Nat) : Bool :=
  match areaLen s ly a with
  | some l => decide (x + n ≤ l)
  | none => false

/-! ### PUSH (R346-R350) -/

/-- PUSH. A LayoutId that Table LAY-2 does not give names nothing defined, here and in the other orders but LAYOUT_DEF and
LAYOUT_FREE (DESIGN CHOICE, log 51). -/
def opPush : Opcode where
  is := isOp 0x40
  mal := fun _ o =>
    resv o ([16, 17, 18] ++ span 20 43) ++ badIf (fld o 20 8 % 64 != 0) 20
      ++ badIf (fld o 28 4 == 0 || fld o 28 4 % 64 != 0) 28 ++ epMal o 32
  chk := fun s r _ o =>
    let id := fld o 16 2
    let a := fld o 18 1
    let off := fld o 20 8
    let n := fld o 28 4
    let p := epPath o 32
    let ly? := getLayout s id
    if !isPort p ∨ (ly?.map (fun l => !areaSuits l a)).getD false then .refuse 0x1A 0
    else
      match ly? with
      | none => .refuse 0x17 0
      | some ly =>
        if !areaReadable ly a then .refuse 0x17 0
        else if !areaFits s ly a off n then .refuse 0x18 0
        else if !fwOk s id (needOf r (pathBit p) true false false) then .deny id
        else .whole s o .plain (fun x => x)

/-- PUSH: admitted; its bytes reach the destination by its completion. -/
def execPush (r : RingId) (s : State) : Host.Outcome State Fault Refusal := .next (takeOrder opPush s r)

/-! ### TREAD (R332-R335) -/

/-- TREAD. An Area that Table STA-10 does not give is one that is not readable (DESIGN CHOICE, log 52); a tile beyond its
area, or out of alignment for its Width, names the lowest field that takes part (DEDUCED, log 110). -/
def opTread : Opcode where
  is := isOp 0x41
  mal := fun s o =>
    let w := treadW o
    let beyond := match getLayout s (fld o 16 2) with
      | some ly =>
        match areaLen s ly (fld o 18 1) with
        | some l => decide (l < treadByte o (treadRows o - 1) (treadCols o - 1) + w)
        | none => false
      | none => false
    resv o (span 16 41 ++ span 44 55) ++ highBits o 19 1 ++ badIf (fld o 20 8 % 32 != 0) 20
      ++ badIf (fld o 28 4 * w % 32 != 0) 19 ++ badIf (fld o 36 4 * w % 32 != 0) 19 ++ epMal o 44
      ++ badIf beyond 16
  chk := fun s r _ o =>
    let id := fld o 16 2
    let a := fld o 18 1
    let p := epPath o 44
    match getLayout s id with
    | none => .refuse 0x17 0
    | some ly =>
      let wfBits := weightBits ly.workFormat
      if !isPort p ∨ (ly.kind ≠ 3 ∧ (isMx ly.workFormat || wfBits != 8 * treadW o)) then .refuse 0x1A 0
      else if !areaReadable ly a then .refuse 0x17 0
      else if !fwOk s id (needOf r (pathBit p) true false false) then .deny id
      else .whole s o .plain (fun x => x)

/-- TREAD: admitted; the tile is delivered transposed at completion. -/
def execTread (r : RingId) (s : State) : Host.Outcome State Fault Refusal := .next (takeOrder opTread s r)

/-! ### STASH_PUT and STASH_GET (R313-R320) -/

/-- Most entries of the stash directory (R314). -/
def maxStash : Nat := 16384

def stashFmtOk (f : Nat) : Bool := (chunkElems f).isSome && f != 0x10

def opStashPut : Opcode where
  is := isOp 0x42
  mal := fun _ o =>
    resv o (span 16 21 ++ span 24 43 ++ span 48 52) ++ badIf (fld o 16 2 == 0) 16
      ++ badIf (!stashFmtOk (fld o 20 1)) 20 ++ badIf (!(fld o 21 1 == 1 || fld o 21 1 == 2)) 21
      ++ badIf (fld o 24 8 % 2048 != 0) 24 ++ epMal o 32 ++ badIf (fld o 48 5 == 0) 48
  chk := fun s r _ o =>
    let id := fld o 18 2
    let p := epPath o 32
    let n := fld o 48 5
    let ch := chunksFor n (fld o 20 1)
    let off := fld o 24 8
    let ly? := getLayout s id
    if !isPort p ∨ (ly?.map (fun l => l.kind != 3 || l.isOpen || keyLost s l)).getD false then .refuse 0x1A 0
    else
      match ly? with
      | none => .refuse 0x17 0
      | some ly =>
        if kvHas s.stash (fld o 16 2) then .refuse 0x16 0
        else if !fwOk s id (needOf r (pathBit p) false true false) then .deny id
        else if ly.length < off + 2048 * ch ∨ maxStash ≤ s.stash.length then .refuse 0x18 0
        else
          .whole s o .plain (fun x => { x with stash := kvPut x.stash (fld o 16 2) ⟨id, off, fld o 20 1, n, .filling⟩ })

/-- STASH_PUT: a Filling entry at admission (R316). -/
def execStashPut (r : RingId) (s : State) : Host.Outcome State Fault Refusal := .next (takeOrder opStashPut s r)

def opStashGet : Opcode where
  is := isOp 0x43
  mal := fun _ o =>
    resv o ([16, 17, 18] ++ span 32 43) ++ badIf (fld o 16 2 == 0) 16 ++ highBits o 18 1 ++ epMal o 32
  chk := fun s r _ o =>
    let p := epPath o 32
    if !isPort p then .refuse 0x1A 0
    else
      match kvGet s.stash (fld o 16 2) with
      | none => .refuse 0x17 0
      | some e =>
        match e.st, getLayout s e.layout with
        | .freeing, _ => .refuse 0x17 0
        | _, none => .refuse 0x17 0
        | .filling, _ => .refuse 0x16 0
        | .live, some _ =>
          if !fwOk s e.layout (needOf r (pathBit p) true false false) then .deny e.layout
          else
            .whole s o (.entry e.layout e.offset e.fmt e.count)
              (fun x => if o.getLsbD 144 then { x with stash := kvPut x.stash (fld o 16 2) { e with st := .freeing } }
                        else x)

/-- STASH_GET: with Free the entry is Freeing from admission (R316). -/
def execStashGet (r : RingId) (s : State) : Host.Outcome State Fault Refusal := .next (takeOrder opStashGet s r)

/-! ### GATHER and SCATTER (R367-R373) -/

def gatherMal (gather : Bool) (o : Order) : List Nat :=
  let sz := gatherSize o
  resv o (span 16 33 ++ span 36 63) ++ highBits o 18 2 ++ badIf (fldBits o 18 0 2 == 3) 18
    ++ (if gather then nonZero o [19] else []) ++ badIf (fld o 20 4 == 0) 20 ++ badIf (fld o 24 4 == 0) 24
    ++ badIf (fld o 24 4 % sz != 0 || fld o 28 6 % sz != 0) 18 ++ epMalSoft o 36 ++ epMalSoft o 48

/-- Checks and booking (R371, R372). -/
def gatherChk (gather : Bool) (s : State) (r : RingId) (o : Order) : Verdict :=
  let id := fld o 16 2
  let p1 := epPath o 36
  let p2 := epPath o 48
  let okPath (p : Nat) := isPort p || p == 0x40
  let ly? := getLayout s id
  if !okPath p1 ∨ !okPath p2 ∨ (ly?.map (fun l => l.kind != 3 || (!gather && keyLost s l))).getD false then .refuse 0x1A 0
  else
    match ly? with
    | none => .refuse 0x17 0
    | some _ =>
      if !fwOk s id (needOf r (pathBit p1 ||| pathBit p2) gather (!gather) false) then .deny id
      else .whole s o .plain (fun x => x)

def opGather : Opcode where
  is := isOp 0x45
  mal := fun _ o => gatherMal true o
  chk := fun s r _ o => gatherChk true s r o

def opScatter (op : Nat) : Opcode where
  is := fun o => isOp 0x46 o && fld o 19 1 == op
  mal := fun _ o => gatherMal false o
  chk := fun s r _ o => gatherChk false s r o

/-- GATHER: admitted; performed by its completion. -/
def execGather (r : RingId) (s : State) : Host.Outcome State Fault Refusal := .next (takeOrder opGather s r)
/-- SCATTER of writes. -/
def execScatter (r : RingId) (s : State) : Host.Outcome State Fault Refusal := .next (takeOrder (opScatter 0) s r)
/-- SCATTER of FP32 adds. -/
def execScatterAdd (r : RingId) (s : State) : Host.Outcome State Fault Refusal := .next (takeOrder (opScatter 1) s r)

/-! ### EW (R160-R167) -/

/-- Format of a Formats code (Table STL-9). -/
def ewFmt : Nat → Option Fmt
  | 1 => some fp32
  | 2 => some bf16
  | 3 => some fp16
  | 4 => some e4m3
  | 5 => some e5m2
  | _ => none

/-- Does the operation draw? -/
def ewDraws (op : Nat) : Bool := decide (0x0A ≤ op ∧ op ≤ 0x0D)

def ewDst (o : Order) : Nat × Nat := (fld o 18 2, fld o 24 1)

/-- Format code of Formats for a non-MX WorkFormat. -/
def ewOfWork (wf : Nat) : Nat := if wf ≤ 4 then wf + 1 else 0

def ewMal (o : Order) : List Nat :=
  let op := fld o 16 1
  resv o (span 16 26 ++ span 28 37 ++ span 40 45 ++ span 48 63)
    ++ nonZero o [30, 31] ++ badIf ((ewFmt (ewSrcF o)).isNone || (ewFmt (ewDstF o)).isNone) 17
    ++ badIf (!ewHasB op && fld o 22 2 != 0) 22 ++ badIf (!ewDraws op && fld o 28 2 != 0) 28
    ++ badIf (fld o 40 6 == 0) 40

/-- Conditions of R164 and R165 on operands that are defined (DEDUCED, log 103). -/
def ewPolicy (s : State) (o : Order) (dst : Layout) (srcs : List Layout) : Bool :=
  let op := fld o 16 1
  let all := dst :: srcs
  let areas := fld o 24 1 :: (ewSources o).map (·.2)
  let k3 := all.filter (fun l => l.kind == 3)
  let okPlace (l : Layout) := if l.kind = 3 then l.isOpen && l.fcs s else l.kind == 1
  let wd := ewWidth (ewDstF o)
  let ws := ewWidth (ewSrcF o)
  let sameW := op == 9 || ws == wd
  let dstVer := dst.kind == 1
  !(all.all okPlace)
    || (dstVer && ((ewSources o).any (fun x => x.1 != fld o 18 2) || ewOfWork dst.workFormat == 0
          || ewSrcF o != ewOfWork dst.workFormat || ewDstF o != ewOfWork dst.workFormat))
    || k3.any (fun a => all.any (fun b => a.span != b.span))
    || (!(op == 9 && ws != wd) && k3.any (fun a => k3.any (fun b => a.epoch != b.epoch)))
    || !sameW || fld o 32 6 * wd % 32 != 0 || fld o 32 6 * ws % 32 != 0
    || (all.zip areas).any (fun x => !areaSuits x.1 x.2)
    || (op == 0x0D && (dst.kind != 3 || fld o 17 1 != 0x11))
    || (ewDraws op && fld o 28 2 == 0)

/-- Bytes an EW writes: its elements, or the records of GUMBEL_MAX. -/
def ewDstBytes (s : State) (o : Order) (dst : Layout) : Nat × Nat :=
  if fld o 16 1 = 0x0D then (16 * fld o 32 6, 16 * (dst.seqE s).length)
  else (fld o 32 6 * ewWidth (ewDstF o), fld o 40 6 * ewWidth (ewDstF o))

def ewChk (s : State) (r : RingId) (o : Order) : Verdict :=
  let op := fld o 16 1
  let ss := ewSources o
  let srcs := ss.filterMap (fun x => getLayout s x.1)
  let sid := fld o 28 2
  match getLayout s (fld o 18 2) with
  | none => .refuse 0x17 0
  | some dst =>
    if srcs.length ≠ ss.length then .refuse 0x17 0
    else if ewPolicy s o dst srcs then .refuse 0x1A 0
    else if (ewDraws op && !kvHas s.streams sid) || !areaReadable dst (fld o 24 1)
        || (srcs.zip ss).any (fun x => !areaReadable x.1 x.2.2) then .refuse 0x17 0
    else
      let db := ewDstBytes s o dst
      let st := (kvGet s.streams sid).getD ⟨0, 0⟩
      if !areaFits s dst (fld o 24 1) db.1 db.2
          || (srcs.zip ss).any (fun x => !areaFits s x.1 x.2.2 (fld o 32 6 * ewWidth (ewSrcF o))
              (fld o 40 6 * ewWidth (ewSrcF o))) then .refuse 0x18 0
      else if ewDraws op ∧ st.step = 2 ^ 40 - 1 then .refuse 0x16 0
      else
        match ss.find? (fun x => !fwOk s x.1 (needOf r 0 true false true)) with
        | some x => .deny x.1
        | none =>
          if !fwOk s (fld o 18 2) (needOf r 0 false true true) then .deny (fld o 18 2)
          else
            .whole s o (.ew st.seed.toNat st.step)
              (fun x => if ewDraws op then { x with streams := kvPut x.streams sid { st with step := st.step + 1 } } else x)

def opEw (op : Nat) : Opcode where
  is := fun o => isOp 0x50 o && fld o 16 1 == op
  mal := fun _ o => ewMal o
  chk := fun s r _ o => ewChk s r o

/-- EW ADD: admitted; its elements are computed at completion, as are those of every EW. -/
def execEwAdd (r : RingId) (s : State) : Host.Outcome State Fault Refusal := .next (takeOrder (opEw 0x01) s r)
/-- EW MUL. -/
def execEwMul (r : RingId) (s : State) : Host.Outcome State Fault Refusal := .next (takeOrder (opEw 0x02) s r)
/-- EW FMA. -/
def execEwFma (r : RingId) (s : State) : Host.Outcome State Fault Refusal := .next (takeOrder (opEw 0x03) s r)
/-- EW SCALE. -/
def execEwScale (r : RingId) (s : State) : Host.Outcome State Fault Refusal := .next (takeOrder (opEw 0x04) s r)
/-- EW RELU. -/
def execEwRelu (r : RingId) (s : State) : Host.Outcome State Fault Refusal := .next (takeOrder (opEw 0x05) s r)
/-- EW GELU. -/
def execEwGelu (r : RingId) (s : State) : Host.Outcome State Fault Refusal := .next (takeOrder (opEw 0x06) s r)
/-- EW SILU. -/
def execEwSilu (r : RingId) (s : State) : Host.Outcome State Fault Refusal := .next (takeOrder (opEw 0x07) s r)
/-- EW TANH. -/
def execEwTanh (r : RingId) (s : State) : Host.Outcome State Fault Refusal := .next (takeOrder (opEw 0x08) s r)
/-- EW CONVERT. -/
def execEwConvert (r : RingId) (s : State) : Host.Outcome State Fault Refusal := .next (takeOrder (opEw 0x09) s r)
/-- EW KEEP. -/
def execEwKeep (r : RingId) (s : State) : Host.Outcome State Fault Refusal := .next (takeOrder (opEw 0x0A) s r)
/-- EW MASK. -/
def execEwMask (r : RingId) (s : State) : Host.Outcome State Fault Refusal := .next (takeOrder (opEw 0x0B) s r)
/-- EW GUMBEL_ADD. -/
def execEwGumbelAdd (r : RingId) (s : State) : Host.Outcome State Fault Refusal := .next (takeOrder (opEw 0x0C) s r)
/-- EW GUMBEL_MAX. -/
def execEwGumbelMax (r : RingId) (s : State) : Host.Outcome State Fault Refusal := .next (takeOrder (opEw 0x0D) s r)

/-! ### REDUCE (R358-R362) -/

/-- Entry i of the source list: layout, area, offset. -/
def redEntry (s : State) (o : Order) (i : Nat) : Nat × Nat × Nat :=
  let b := staged s (fld o 24 8 + 16 * i) 16
  (bytesAt b 0 2, bytesAt b 2 1, bytesAt b 8 8)

def redList (s : State) (o : Order) : List (Nat × Nat × Nat) := (List.range (redSrcs o)).map (redEntry s o)

/-- Offending bytes of the source list, counted after the order's 64 bytes as in R102 (DEDUCED, log 24). -/
def redListMal (s : State) (o : Order) : List Nat :=
  (List.range (redSrcs o)).flatMap (fun i =>
    let b := staged s (fld o 24 8 + 16 * i) 16
    ((nonZeroAt b ([3] ++ span 4 7)) ++ badIf (bytesAt b 8 8 % redSrcW o != 0) 8).map (fun x => 64 + 16 * i + x))

def redMal (s : State) (o : Order) : List Nat :=
  let f := fld o 17 1
  let n := redSrcs o
  let bad16 (v : Nat) := !(v == 1 || v == 2)
  let fits := decide (fld o 24 8 + 16 * n ≤ stageLen)
  resv o ([16, 17, 18] ++ span 20 43 ++ span 48 61) ++ badIf (bad16 (f % 16) || bad16 (f / 16)) 17 ++ highBits o 18 1
    ++ badIf (!(decide (1 ≤ n ∧ n ≤ 4096))) 20 ++ badIf (fld o 24 8 % 64 != 0) 24 ++ stageMal (fld o 24 8) (16 * n) 24 20
    ++ (if epZero o 32 then [] else epMal o 32) ++ badIf (fld o 48 8 % 64 != 0) 48 ++ badIf (redCount o == 0) 56
    ++ (if fits && decide (n ≤ 4096) then redListMal s o else [])

def redChk (s : State) (r : RingId) (o : Order) : Verdict :=
  let dl := fld o 22 2
  let ep := !epZero o 32
  let dst? := getLayout s dl
  let srcs := redList s o
  let lys := srcs.filterMap (fun x => (getLayout s x.1).map (fun l => (l, x.2)))
  let sb := redCount o * redSrcW o
  if (dl != 0 && ep) || (dl == 0 && !ep && !redFold o) || (dl != 0 && (dst?.map (fun l => l.kind != 3 || keyLost s l)).getD false)
      || (redOp o == 4 && fld o 17 1 != 0x11) then .refuse 0x1A 0
  else if (dl != 0 && dst?.isNone) || lys.length != srcs.length || lys.any (fun x => !areaReadable x.1 x.2.1) then
    .refuse 0x17 0
  else if lys.any (fun x => !areaFits s x.1 x.2.1 x.2.2 sb)
      || (dst?.map (fun l => !areaFits s l 0 (fld o 48 8) (redOutBytes o))).getD false then .refuse 0x18 0
  else
    let ports := if ep then pathBit (epPath o 32) else 0
    match srcs.find? (fun x => !fwOk s x.1 (needOf r ports true false false)) with
    | some x => .deny x.1
    | none =>
      let v : Verdict := .whole s o (.reduce srcs) (fun x => x)
      if dl = 0 then v else fwGuard s dl (worldOnly r) v

def opReduce (op : Nat) : Opcode where
  is := fun o => isOp 0x51 o && redOp o == op
  mal := redMal
  chk := fun s r _ o => redChk s r o

/-- REDUCE SUM: admitted; combined by its completion, as is every REDUCE. -/
def execReduceSum (r : RingId) (s : State) : Host.Outcome State Fault Refusal := .next (takeOrder (opReduce 1) s r)
/-- REDUCE MAX. -/
def execReduceMax (r : RingId) (s : State) : Host.Outcome State Fault Refusal := .next (takeOrder (opReduce 2) s r)
/-- REDUCE MIN. -/
def execReduceMin (r : RingId) (s : State) : Host.Outcome State Fault Refusal := .next (takeOrder (opReduce 3) s r)
/-- REDUCE NOISYMAX. -/
def execReduceNoisymax (r : RingId) (s : State) : Host.Outcome State Fault Refusal := .next (takeOrder (opReduce 4) s r)

/-! ### Orders with a reserved encoding (R60) -/

/-- Opcodes of Table ORD-3 that an order may carry. -/
def knownOps : List Nat :=
  [0x00, 0x01, 0x10, 0x11, 0x12, 0x20, 0x21, 0x22, 0x30, 0x31, 0x32, 0x33, 0x34, 0x35, 0x36, 0x40, 0x41, 0x42, 0x43,
   0x44, 0x45, 0x46, 0x50, 0x51, 0x60, 0x61, 0x62, 0x63, 0x64, 0x65]

/-- The byte of a reserved Opcode, Action, Scope or Op. -/
def reservedByte (o : Order) : Option Nat :=
  let op := ordOp o
  let v := fld o 16 1
  if !knownOps.contains op then some 0
  else if op = 0x44 ∧ queueAction o = 3 then some 17
  else if op = 0x46 ∧ 2 ≤ fld o 19 1 then some 19
  else if op = 0x50 ∧ !(decide (1 ≤ v ∧ v ≤ 0x0D)) then some 16
  else if op = 0x51 ∧ !(decide (1 ≤ v ∧ v ≤ 4)) then some 16
  else if (op = 0x60 ∨ op = 0x62) ∧ 2 ≤ v then some 16
  else if op = 0x61 ∧ fldBits o 16 0 2 = 3 then some 16
  else none

/-- An order whose Opcode, Action, Scope or Op is reserved is malformed at that byte or at a lower one (R8, R60). -/
def opReserved : Opcode where
  is := fun o => (reservedByte o).isSome
  mal := fun _ o => match reservedByte o with
    | some b => [b]
    | none => []
  chk := fun _ _ _ _ => .refuse 0x10 0

/-- RESERVED_ENCODING_ORDER: refused with REFUSED_MALFORMED. -/
def execReservedEncodingOrder (r : RingId) (s : State) : Host.Outcome State Fault Refusal :=
  .next (takeOrder opReserved s r)

end Sys2Proof.Machine
end

