-- ==== Sys2Proof/Machine/Seal.lean ====
section
/-! DEFINITION. The seal column of a parcel (R196, Table UPD-8) and the columns its CRCs cover. -/

namespace Sys2Proof.Machine

/-- Fields of a seal column. -/
structure Seal where
  step : Nat
  ruleId : Nat
  slot : Nat
  guarded : Bool
  stateLayout : Nat
  parcel : Nat
  attempt : Nat
  auxMask : Nat
  stateCrc : Nat
  versionCrc : Nat
  undoCrc : Nat
deriving DecidableEq, Repr

/-- Seal bytes 0 to 15. -/
def sealHead (x : Seal) : Nat :=
  x.step % 2 ^ 40 + 2 ^ 40 * (x.ruleId % 256) + 2 ^ 48 * (x.slot % 8) + 2 ^ 51 * (if x.guarded then 1 else 0)
    + 2 ^ 52 * (x.stateLayout % 16) + 2 ^ 56 + 2 ^ 64 * (x.parcel % 2 ^ 32) + 2 ^ 96 * (x.attempt % 256)
    + 2 ^ 104 * (x.auxMask % 8)

/-- The column of a seal. -/
def sealCol (x : Seal) : Col :=
  BitVec.ofNat 256 (sealHead x + 2 ^ 128 * (x.stateCrc % 2 ^ 32) + 2 ^ 160 * (x.versionCrc % 2 ^ 32)
    + 2 ^ 192 * (x.undoCrc % 2 ^ 32))

/-- The seal that a column holds. -/
def parseSeal (c : Col) : Seal :=
  let f (lo n : Nat) := bitsOf c.toNat lo n
  { step := f 0 40, ruleId := f 40 8, slot := f 48 3, guarded := c.getLsbD 51, stateLayout := f 52 4, parcel := f 64 32,
    attempt := f 96 8, auxMask := f 104 3, stateCrc := f 128 32, versionCrc := f 160 32, undoCrc := f 192 32 }

/-- StateCrc over a row of columns and seal bytes 0 to 15. -/
def stateCrcOf (sl mask : Nat) (row : Nat → Col) (head : Bytes) : Nat :=
  (crc32c ((List.range (stateCols sl) ++ auxCols sl mask).flatMap (fun j => colBytes (row j)) ++ head)).toNat

/-- CRC of a list of columns. -/
def colsCrc (cs : List Col) : Nat := (crc32c (cs.flatMap colBytes)).toNat

/-- Does the StateCrc of a row hold (R202)? -/
def stateCrcOk (sl : Nat) (row : Nat → Col) : Bool :=
  let c := row 63
  let x := parseSeal c
  stateCrcOf sl x.auxMask row ((colBytes c).take 16) == x.stateCrc

/-- A seal with its StateCrc computed over its row. -/
def Seal.withCrc (x : Seal) (row : Nat → Col) : Seal :=
  { x with stateCrc := stateCrcOf x.stateLayout x.auxMask row (leBytes 16 (sealHead x)) }

/-- The columns of parcel `q` as read: its row, its short weights in slot `v`, its pre-image. -/
def rowCol (s : State) (ly : Layout) (q j : Nat) : Col := (readCol s (ly.parcelCol s q j)).1
def verCols (s : State) (ly : Layout) (v q : Nat) : List Col :=
  (List.range (ly.geo s).w).map (fun j => (readCol s (ly.verCol s v q j)).1)
def undoCols (s : State) (ly : Layout) (q : Nat) : List Col :=
  (List.range (ly.geo s).u).map (fun j => (readCol s (ly.undoCol s q j)).1)

/-- Write a list of columns by one key function, sealed. -/
def writeCols (s : State) (key : Nat → Nat) (cs : List Col) : State :=
  (cs.zipIdx).foldl (fun st c => writeSealed st (key c.2) c.1) s

end Sys2Proof.Machine
end

