-- ==== Sys2Proof/Machine/Formats.lean ====
section
/-! DEFINITION. What the completion of an order is made of: endpoint traffic, cutting into lots, stored formats
(10 STA), images and contexts as bytes (09 VER). -/

namespace Sys2Proof.Machine

/-! ### Endpoint traffic (R285, Table TEL-1 group 2) -/

/-- Send bytes to an endpoint: out of a requester port, or over the exchange port. -/
def sendEnd (s : State) (path node addr : Nat) (b : Bytes) : State :=
  if path = 0x40 then sendX (count s 161 b.length) node (.endpoint path node addr b)
  else send (count s (144 + path % 16) b.length) (.endpoint path node addr b)

/-- Send bytes to the endpoint at byte `e` of an order, `off` bytes from its Address. -/
def sendTo (s : State) (o : Order) (e off : Nat) (b : Bytes) : State :=
  if b = [] then s else sendEnd s (epPath o e) (epNode o e) (epAddr o e + off) b

/-- Count bytes read from an endpoint. -/
def countIn (s : State) (path n : Nat) : State := if path = 0x40 then count s 160 n else count s (128 + path % 16) n

/-! ### How an order's work ends -/

/-- Outcome of the work of an order. -/
inductive Perf where
  /-- DONE with its Result. -/
  | done (result : Nat) (s : State)
  /-- FAILED_DATA (0x20) or FAILED_LOST (0x21): Result bits beside the lots, and the lots whose effect is in
  place (R88). -/
  | fail (status result lots : Nat) (s : State)
  /-- the work has not ended. -/
  | notYet

/-- Reason and Where of R289, as bits of Result. -/
def failWhere (reason wher : Nat) : Nat := 2 ^ 64 * (reason % 256) + 2 ^ 72 * (wher % 2 ^ 56)

/-- FAILED_LOST has no Reason in Table VER-4: the field is a free value (DESIGN CHOICE, log 26). -/
def freeReason (s : State) : Nat := (undefByte s 289).toNat

/-- Result of a failure of an order of the versions chapter met in the block's own memory. -/
def memFail (s : State) (status wher : Nat) : Nat := failWhere (if status = 0x20 then 0x0C else freeReason s) wher

/-- A piece of a byte stream that an order sends: its bytes, or the status that its read ends with. -/
structure Piece where
  status : Nat
  wher : Nat
  data : Bytes
deriving DecidableEq, Repr

/-- Bytes before the first failing piece, and that piece's status and Where. -/
def untilFail : List Piece → Bytes × Nat × Nat
  | [] => ([], 0, 0)
  | p :: r => if p.status = 0 then let t := untilFail r; (p.data ++ t.1, t.2) else ([], p.status, p.wher)

/-- Send a stream of pieces to the endpoint at byte `e`, in lots of `lot` bytes: all of it, or the whole lots before
a failure. `ver` says that a failure carries Reason and Where (R289). -/
def sendStream (s : State) (f : InFlight) (e lot result : Nat) (ver : Bool) (ps : List Piece) : Perf :=
  let r := untilFail ps
  let res (st w : Nat) := if ver then memFail s st w else 0
  let part (n : Nat) : State := sendTo s f.order e 0 (r.1.take (n * lot))
  match f.bad with
  | some w => .fail 0x20 (res 0x20 w) f.lotsDone (part f.lotsDone)
  | none =>
    if r.2.1 = 0 then .done result (sendTo s f.order e 0 r.1)
    else
      let n := if f.lotsTotal ≤ 1 then 0 else Nat.min (r.1.length / Nat.max 1 lot) (f.lotsTotal - 1)
      .fail r.2.1 (res r.2.1 r.2.2) n (bump (part n))

/-- The range x .. x+n-1 cut at multiples of m. -/
def cutRange (m x n : Nat) : List (Nat × Nat) :=
  if n = 0 then [] else
  (List.range ((x + n - 1) / m + 1 - x / m)).map (fun i =>
    let lo := Nat.max x ((x / m + i) * m)
    let hi := Nat.min (x + n) ((x / m + i + 1) * m)
    (lo, hi - lo))

/-- Read a range of an area as a piece; a queue slot that is not Full reads undefined bytes (R330). -/
def areaPiece (s : State) (id : Nat) (ly : Layout) (a x n wher : Nat) : Piece :=
  if rangeLost s ly a x n then ⟨0x21, wher, []⟩
  else
    let r := areaRead s id ly a x n
    if r.2 then ⟨0, wher, maskQueue s id a x r.1⟩ else ⟨0x20, wher, []⟩

/-- A range of an area in pieces of a chunk; Where is the offset from `base`. -/
def areaPieces (s : State) (id : Nat) (ly : Layout) (a x n base : Nat) : List Piece :=
  (cutRange 2048 x n).map (fun p => areaPiece s id ly a p.1 p.2 (base + p.1))

/-- Status of a range that an order reads or writes: 0, or how it fails. -/
def rangeStatus (s : State) (id : Nat) (ly : Layout) (a x n : Nat) : Nat := (areaPiece s id ly a x n 0).status

/-! ### Stored formats (R309-R312) -/

/-- Blocks of 32 elements; the last is padded with elements that are not real. -/
def blocks32 : Nat → List W32 → List (List WIn)
  | 0, _ => []
  | n + 1, xs =>
    let b := (xs.take 32).map (fun x => ((x, 0, true, false) : WIn))
    (b ++ List.replicate (32 - b.length) ((0, 0, false, false) : WIn)) :: blocks32 n (xs.drop 32)

/-- Elements stored in BF16: converted from FP32 (R312), or the same bits where they came as BF16. -/
def storeBf16 (src : Nat) (x : W32) : Bytes :=
  leBytes 2 (if src = 2 then (x.extractLsb' 16 16).toNat else narrow bf16 .rne (num32 x))

/-- Encode the elements of one chunk (R310, R311), given in FP32 and come as format `src` (1 FP32, 2 BF16): 2,048 bytes,
and the flags of an MX format (DEDUCED, log 107). -/
def encodeChunk (src fmt : Nat) (xs : List W32) : Bytes × Flags3 :=
  match mxFmt fmt with
  | some (f, emax) =>
    let bs := (blocks32 (cdiv xs.length 32) xs).map (mxBlock f emax)
    (padTo 2048 (packCodes (weightBits fmt) (bs.flatMap (fun b => b.2.1)) ++ bs.map (·.1)),
      bs.foldl (fun a b => a.add b.2.2) ⟨0, 0, 0⟩)
  | none =>
    if fmt = 0x10 then (padTo 2048 (xs.flatMap (fun x => leBytes 4 x.toNat)), ⟨0, 0, 0⟩)
    else (padTo 2048 (xs.flatMap (storeBf16 src)), ⟨0, 0, 0⟩)

/-- The first `n` elements of a stored chunk in BF16 (R312). -/
def decodeChunk (fmt n : Nat) (b : Bytes) : List (BitVec 16) :=
  match mxFmt fmt with
  | some (f, _) =>
    let w := weightBits fmt
    let eb := cdiv n 32 * 32 * w / 8
    (List.range n).map (fun i => mxToBf16 f ((b.drop (eb + i / 32)).headD 0) (codeOf w (b.take eb) i))
  | none => (List.range n).map (fun i => BitVec.ofNat 16 (bytesAt b (2 * i) 2))

/-- Elements of source format 1 (FP32) or 2 (BF16) from bytes, in FP32. -/
def elems32 (fmt n : Nat) (b : Bytes) : List W32 :=
  (List.range n).map (fun i =>
    if fmt = 1 then BitVec.ofNat 32 (bytesAt b (4 * i) 4) else widen bf16 (bytesAt b (2 * i) 2))

/-! ### Images (Table VER-7) -/

/-- The eight version fields of an image or context entry. -/
def versionBytes (ly : Layout) (mask : List Nat) : Bytes :=
  (List.range 8).flatMap (fun i =>
    leBytes 5 (if mask.contains i then
      (match ly.slotSt.getD i .released with
       | .readable v => v
       | .draining v => v
       | _ => 0) else 0))

def maskOf (mask : List Nat) : Nat := (mask.map (2 ^ ·)).sum

/-- Pieces of the image of a layout with slots `mask`: header, descriptor, parcels, versions (Where: the parcel, or
the image offset). The trailer is added once they are whole. -/
def imagePieces (s : State) (id : Nat) (ly : Layout) (mask : List Nat) : List Piece :=
  let g := ly.geo s
  let dl := ly.desc.length
  let head := [0xE1, 0x01] ++ leBytes 2 id ++ leBytes 5 ly.shard.step ++ leBytes 1 ly.slots ++ leBytes 1 (maskOf mask)
    ++ leBytes 1 ((ly.shard.last.map CloseRec.slot).getD 0) ++ leBytes 4 dl ++ leBytes 8 g.parcels ++ versionBytes ly mask
  let rows := (List.range g.parcels).map (fun q =>
    if !keyLive s (ly.parcelCol s q 0) then (⟨0x21, q, []⟩ : Piece)
    else
      let cs := (List.range 64).map (fun j => readCol s (ly.parcelCol s q j))
      if cs.all (·.2) then ⟨0, q, cs.flatMap (fun c => colBytes c.1)⟩ else ⟨0x20, q, []⟩)
  let base (i : Nat) := 64 + dl + g.parcels * 2048 + i * slotBytes s ly
  let vers := (mask.zipIdx).flatMap (fun v => areaPieces s id ly (v.1 + 1) 0 (slotBytes s ly) (base v.2))
  [⟨0, 0, head ++ ly.desc⟩] ++ rows ++ vers

/-- The trailer over the bytes before it. -/
def trailer (b : Bytes) : Bytes := padTo 64 ([0xE2, 0, 0, 0] ++ leBytes 4 (crc32c b).toNat)

/-- The pieces of an image with its trailer. -/
def imageStream (s : State) (id : Nat) (ly : Layout) (mask : List Nat) : List Piece :=
  let ps := imagePieces s id ly mask
  ps ++ [⟨0, 0, trailer (untilFail ps).1⟩]

/-- An image as parsed from bytes. -/
structure Image where
  desc : Desc
  step : Nat
  mask : List Nat
  closeSlot : Nat
  versions : List Nat
  parcels : Nat
  slotLen : Nat
  rowAt : Nat
  verAt : Nat
  total : Nat
  data : Bytes
deriving DecidableEq, Repr

/-- Bytes of one slot stream for a descriptor. -/
def descSlotBytes (d : Desc) : Nat :=
  paddedCount (parcelSize d.stateLayout) d.segs / parcelSize d.stateLayout * 32 * footprint d.stateLayout d.workFormat

/-- Parse an image (Table VER-7), checking its form and its ImageCrc: Reason and Where of a failure; none where the
bytes end before the image does. -/
def parseImage (b : Bytes) : Option (Except (Nat × Nat) Image) :=
  let f (o n : Nat) := bytesAt b o n
  if b.length < 64 then none
  else if f 0 1 ≠ 0xE1 then some (.error (1, 0))
  else if f 1 1 ≠ 0x01 then some (.error (1, 1))
  else
    let dl := f 12 4
    let pc := f 16 8
    let db := (b.drop 64).take dl
    let d := parseDesc db
    if b.length < 64 + Nat.min dl 4096 then none
    else if dl ≠ descLen d.segCount ∨ d.kind ≠ 1 ∨ descMal db ≠ [] then some (.error (1, 64))
    else
      let n := parcelSize d.stateLayout
      let mask := (List.range 8).filter (fun i => (f 10 1).testBit i)
      let sb := descSlotBytes d
      let va := 64 + dl + pc * 2048
      let total := va + mask.length * sb + 64
      if pc ≠ paddedCount n d.segs / n then some (.error (1, 16))
      else if f 9 1 ≠ d.slots then some (.error (1, 9))
      else if b.length < total then none
      else
        let t := (b.drop (total - 64)).take 64
        if bytesAt t 0 1 ≠ 0xE2 ∨ nonZeroAt t ([1, 2, 3] ++ span 8 63) ≠ [] then some (.error (1, total - 64))
        else if bytesAt t 4 4 ≠ (crc32c (b.take (total - 64))).toNat then some (.error (2, total - 60))
        else
          let v := (List.range 8).map (fun i => f (24 + 5 * i) 5)
          some (.ok ⟨d, f 4 5, mask, f 11 1, v, pc, sb, 64 + dl, va, total, b.take total⟩)

/-- Column `j` of parcel `q` of an image. -/
def Image.row (m : Image) (q j : Nat) : Col := colOf ((m.data.drop (m.rowAt + q * 2048 + 32 * j)).take 32)

/-- Bytes of the short weights of parcel `q` in slot `v`. -/
def Image.foot (m : Image) (v q : Nat) : Bytes :=
  let w := 32 * footprint m.desc.stateLayout m.desc.workFormat
  let i := (m.mask.takeWhile (· != v)).length
  (m.data.drop (m.verAt + i * m.slotLen + q * w)).take w

/-- First parcel whose seal fails (R301). -/
def Image.badSeal (m : Image) : Option Nat :=
  (List.range m.parcels).find? (fun q =>
    let x := parseSeal (m.row q 63)
    x.step != m.step || x.parcel != q || !stateCrcOk m.desc.stateLayout (m.row q))

/-! ### Undefined content -/

/-- The rows of a band hold undefined data (R304): every column a free value (DESIGN CHOICE, log 6). -/
def scramble (s : State) (ly : Layout) : State :=
  let col (k : Nat) : Col := colOf ((List.range 32).map (fun i => undefByte s (32 * k + i)))
  bump ((layoutRows s ly).foldl (fun st r =>
    (List.range (r.2.2 - r.2.1)).foldl (fun st i =>
      (List.range 32).foldl (fun st j =>
        let k := (r.1 * 65536 + r.2.1 + i) * 64 + 2 * j
        writeBlockSealed st k (col k) (col (k + 1))) st) st) s)

/-- An IMPORT or REPACK that fails: the slots are Released, the band's content undefined (R304). -/
def spoilTarget (s : State) (id : Nat) : State :=
  match getLayout s id with
  | none => s
  | some ly =>
    modLayout (discardLines (scramble s ly) id none) id (fun l =>
      { l with slotSt := List.replicate l.slots .released })

end Sys2Proof.Machine
end

