-- ==== Sys2Proof/Machine/Compute.lean ====
section
/-! DEFINITION. What EW, REDUCE, GATHER, SCATTER, TREAD and the stash orders compute and write by their completion
(05 STL, 10 STA, 11 MEM). -/

namespace Sys2Proof.Machine

/-! ### EW (Table STL-10) -/

/-- RNE_fp32 of log2 e, of 2 log2 e and of ln 2 with its sign changed. -/
def cLam : W32 := 0x3FB8AA3B#32
def cLam2 : W32 := 0x4038AA3B#32
def cNegL : W32 := 0xBF317218#32
/-- The constants of GELU, 0.5, 0.797884561 and 0.044715, in FP32. -/
def cHalf : W32 := 0x3F000000#32
def cGelu1 : W32 := 0x3F4C422A#32
def cGelu2 : W32 := 0x3D372713#32

/-- a − b: a NaN operand comes out quiet, with its own sign (R142). -/
def fsub (a b : W32) : W32 := (nanOf [a, b]).getD (fadd a (neg32 b))

/-- tanh of Table STL-10. -/
def ewTanh (y : W32) : W32 :=
  if fcmpLt 0x41100000#32 (fabs y) then (if y.getLsbD 31 then neg32 one32 else one32)
  else
    let e := sfu 0x22 (fmul cLam2 y) one32
    fsub one32 (fmul 0x40000000#32 (sfu 0x21 (fadd e one32) one32))

/-- G of R162 from the element's 16 bits. -/
def gumbel (u16 : BitVec 16) : W32 :=
  sfu 0x23 (sfu 0x23 (mk32 false (2 * u16.toNat + 1) (-17)) cNegL) cNegL

/-- One element of an EW in FP32 (Table STL-10): operands a, b, the destination's old value d, the scalars, and
the element's draw with its threshold. FMA and SCALE are one fused operation (DEDUCED, log 27). -/
def ewElem (op : Nat) (a b d sa sb : W32) (u16 : BitVec 16) (keep : Nat) : W32 :=
  match op with
  | 0x01 => fadd a b
  | 0x02 => fmul a b
  | 0x03 => ffma a b d
  | 0x04 => ffma a sa sb
  | 0x05 => fmax a 0
  | 0x06 =>
    let t := fmul (fmul (fmul cGelu2 a) a) a
    fmul (fmul cHalf a) (fadd one32 (ewTanh (fmul cGelu1 (fadd a t))))
  | 0x07 => fmul a (sfu 0x21 (fadd one32 (sfu 0x22 (fmul (neg32 cLam) a) one32)) one32)
  | 0x08 => ewTanh a
  | 0x09 => a
  | 0x0A => if u16.toNat < keep then fmul a sa else 0
  | 0x0B => if u16.toNat < keep then one32 else 0
  | _ => fadd a (fmul sa (gumbel u16))

/-- Round an FP32 result to a format code (R161). -/
def ewRound (f : Nat) (x : W32) : Nat :=
  match f with
  | 2 => narrowInf bf16 (num32 x)
  | 3 => narrowInf fp16 (num32 x)
  | 4 => narrow e4m3 .rne (num32 x)
  | 5 => narrow e5m2 .rne (num32 x)
  | _ => x.toNat

/-- Element i of bytes in a format code, widened. -/
def ewElemAt (f : Nat) (b : Bytes) (i : Nat) : W32 :=
  let w := ewWidth f
  let x := bytesAt b (w * i) w
  match ewFmt f with
  | some g => if f = 1 then BitVec.ofNat 32 x else widen g x
  | none => 0

/-- The results of an EW but GUMBEL_MAX, from the bytes of its operands and of its destination. -/
def ewResults (o : Order) (seed : BitVec 64) (step : Nat) (ba bb bd : Bytes) : Bytes :=
  let op := fld o 16 1
  let sa := BitVec.ofNat 32 (fld o 48 4)
  let sb := BitVec.ofNat 32 (fld o 52 4)
  (List.range (fld o 40 6)).flatMap (fun i =>
    let u := if ewDraws op then draw16 seed step (fld o 28 2) 0 false (fld o 56 6 + i) else 0
    let r := ewElem op (ewElemAt (ewSrcF o) ba i) (ewElemAt (ewSrcF o) bb i) (ewElemAt (ewDstF o) bd i) sa sb u
      (fld o 62 2)
    leBytes (ewWidth (ewDstF o)) (ewRound (ewDstF o) r))

/-- A record of R165. -/
def gumRecord (best : Option (W32 × Nat)) : Bytes :=
  match best with
  | some (v, i) => padTo 16 (leBytes 4 v.toNat ++ leBytes 6 i)
  | none => padTo 16 (leBytes 4 nanC.toNat ++ leBytes 6 (2 ^ 48 - 1))

/-- The larger of two records; among equal values the lower index; NaN never wins (R165). -/
def gumBetter (best : Option (W32 × Nat)) (v : W32) (i : Nat) : Option (W32 × Nat) :=
  if isNan32 v then best
  else
    match best with
    | none => some (v, i)
    | some (w, j) => if fcmpLt w v || (fcmpEq w v && decide (i < j)) then some (v, i) else best

/-- The records of GUMBEL_MAX, one for each entry of E (R165). -/
def gumResults (s : State) (o : Order) (dst : Layout) (a : Layout) (area : Nat) (seed : BitVec 64) (step : Nat)
    (ba : Bytes) : Bytes :=
  let first := fld o 32 6
  let sa := BitVec.ofNat 32 (fld o 48 4)
  let best : KV (W32 × Nat) := (List.range (fld o 40 6)).foldl (fun m i =>
    let u := unitAt s a area (4 * (first + i))
    let k := stallKey u.site u.ch u.pair
    let idx := fld o 56 6 + i
    let v := ewElem 0x0C (ewElemAt 1 ba i) 0 0 sa 0 (draw16 seed step (fld o 28 2) 0 false idx) 0
    match gumBetter (kvGet m k) v idx with
    | some r => kvPut m k r
    | none => m) []
  (dst.seqE s).flatMap (fun u => gumRecord (kvGet best (stallKey u.site u.ch u.pair)))

/-- The relief engines that an EW runs on: on plain JEDEC spans, for a conversion, and for fenced stalls (R166, R168).
-/
def ewEngines (s : State) (o : Order) : List SiteId :=
  (ewWork s o).filterMap (fun w => match w.1 with
    | .relief x => some x
    | _ => none)

/-- They leave their passes for EW mode (R168). -/
def toEw (s : State) (xs : List SiteId) : State :=
  xs.foldl (fun st x => putUnit st (reliefKey x.val) { (getUnit st (reliefKey x.val)).idle with mode := .ew }) s

/-- An EW's work: read every operand, then write the destination; a relief engine that it needs runs it between passes
(DEDUCED, log 101; DEDUCED, log 104). -/
def ewPerf (s : State) (f : InFlight) : Perf :=
  let o := f.order
  let op := fld o 16 1
  let ss := ewSources o
  let first := fld o 32 6
  let n := fld o 40 6
  let ws := ewWidth (ewSrcF o)
  let wd := ewWidth (ewDstF o)
  match f.ctx, getLayout s (fld o 18 2) with
  | .ew seed step, some dst =>
    let rd := ss.map (fun x => match getLayout s x.1 with
      | some ly => areaPiece s x.1 ly x.2 (first * ws) (n * ws) 0
      | none => ⟨0x21, 0, []⟩)
    let da := fld o 24 1
    let old := areaPiece s (fld o 18 2) dst da (first * wd) (n * wd) 0
    let db := ewDstBytes s o dst
    let need := if op = 0x03 then rd ++ [old] else rd
    let lost := rangeLost s dst da db.1 db.2
    match need.find? (fun p => p.status != 0) with
    | some p => .fail p.status 0 0 s
    | none =>
      if lost then .fail 0x21 0 0 s
      else if f.bad.isSome then .fail 0x20 0 0 s
      else if (ewEngines s o).any (fun x => (getUnit s (reliefKey x.val)).parcel.isSome) then .notYet
      else
        let ba := ((rd[0]?).map Piece.data).getD []
        let bb := ((rd[1]?).map Piece.data).getD []
        let sd := BitVec.ofNat 64 seed
        let out :=
          if op = 0x0D then
            (match getLayout s (fld o 20 2) with
             | some a => gumResults s o dst a (fld o 25 1) sd step ba
             | none => [])
          else ewResults o sd step ba bb old.data
        .done 0 (toEw (areaWrite s (fld o 18 2) dst da db.1 out) (ewEngines s o))
  | _, _ => .notYet

/-! ### REDUCE (R360, R361) -/

/-- One element or record of a source: value and index. -/
abbrev RedVal := W32 × Nat

def redElem (o : Order) (b : Bytes) (i : Nat) : RedVal :=
  if redOp o = 4 then (BitVec.ofNat 32 (bytesAt b (16 * i) 4), bytesAt b (16 * i + 4) 6)
  else if fldBits o 17 0 4 = 1 then (BitVec.ofNat 32 (bytesAt b (4 * i) 4), 0)
  else (widen bf16 (bytesAt b (2 * i) 2), 0)

/-- The operation of a REDUCE on two values. -/
def redComb (op : Nat) (r x : RedVal) : RedVal :=
  match op with
  | 1 => (fadd r.1 x.1, 0)
  | 2 => (fmax r.1 x.1, 0)
  | 3 => (fmin r.1 x.1, 0)
  | _ =>
    if isNan32 x.1 then r
    else if isNan32 r.1 then x
    else if fcmpLt r.1 x.1 || (fcmpEq r.1 x.1 && decide (x.2 < r.2)) then x else r

/-- A result rounded to the result format: FP32 as it is, BF16 to nearest (DEDUCED, log 28). -/
def redRound (o : Order) (x : W32) : Nat :=
  if fldBits o 17 4 4 = 2 then narrowInf bf16 (num32 x) else x.toNat

/-- Bytes of one element-wise result. -/
def redBytes (o : Order) (r : RedVal) : Bytes :=
  if redOp o = 4 then padTo 16 (leBytes 4 r.1.toNat ++ leBytes 6 r.2) else leBytes (redDstW o) (redRound o r.1)

/-- The single result of a folded REDUCE, its value as FP32 (R361; DEDUCED, log 28). -/
def redFolded (o : Order) (r : RedVal) : RedVal :=
  (if redOp o ≠ 4 ∧ fldBits o 17 4 4 = 2 then widen bf16 (redRound o r.1) else r.1, r.2)

/-- Results of elements `lo .. lo+n-1`, element-wise over the sources' bytes. -/
def redRange (o : Order) (n : Nat) (src : List Bytes) : Bytes :=
  (List.range n).flatMap (fun i =>
    match src with
    | [] => []
    | b :: r => redBytes o (r.foldl (fun a x => redComb (redOp o) a (redElem o x i)) (redElem o b i)))

/-- Write results to the destination of a REDUCE, `off` bytes into it. -/
def redWrite (s : State) (o : Order) (off : Nat) (b : Bytes) : State :=
  if fld o 22 2 ≠ 0 then
    match getLayout s (fld o 22 2) with
    | some ly => areaWrite s (fld o 22 2) ly 0 (fld o 48 8 + off) b
    | none => s
  else if epZero o 32 then s
  else sendTo s o 32 off b

/-- Read elements lo .. lo+n-1 of every source. -/
def redRead (s : State) (o : Order) (srcs : List (Nat × Nat × Nat)) (lo n : Nat) : List Piece :=
  srcs.map (fun x => match getLayout s x.1 with
    | some ly => areaPiece s x.1 ly x.2.1 (x.2.2 + lo * redSrcW o) (n * redSrcW o) 0
    | none => ⟨0x21, 0, []⟩)

/-- Lots of an element-wise REDUCE: lots of `per` elements, one after another, to the first that fails or to the
last, from lot `k` with `n` to go. -/
def redLots (s0 : State) (o : Order) (srcs : List (Nat × Nat × Nat)) (per limit : Nat) (bad : Bool) :
    Nat → Nat → State → State × Nat × Nat
  | 0, k, s => (s, k, 0)
  | n + 1, k, s =>
    let lo := k * per
    let cnt := Nat.min per (redCount o - lo)
    let ps := redRead s0 o srcs lo cnt
    if bad && decide (limit ≤ k) then (s, k, 0x20)
    else
      match ps.find? (fun p => p.status != 0) with
      | some p => (s, k, p.status)
      | none =>
        let lost := match getLayout s (fld o 22 2) with
          | some ly => rangeLost s ly 0 (fld o 48 8 + lo * redDstW o) (cnt * redDstW o)
          | none => false
        if lost then (s, k, 0x21)
        else
          let s1 := count (redWrite s o (lo * redDstW o) (redRange o cnt (ps.map Piece.data))) 67 (srcs.length * cnt)
          redLots s0 o srcs per limit bad n (k + 1) s1

def reducePerf (s : State) (f : InFlight) : Perf :=
  let o := f.order
  match f.ctx with
  | .reduce srcs =>
    if redFold o then
      let ps := redRead s o srcs 0 (redCount o)
      match ps.find? (fun p => p.status != 0) with
      | some p => .fail p.status 0 0 s
      | none =>
        let lost := match getLayout s (fld o 22 2) with
          | some ly => rangeLost s ly 0 (fld o 48 8) 16
          | none => false
        if lost then .fail 0x21 0 0 s
        else if f.bad.isSome then .fail 0x20 0 0 s
        else
          let all := ps.flatMap (fun p => (List.range (redCount o)).map (redElem o p.data))
          match all with
          | [] => .notYet
          | x :: r =>
            let v := redFolded o (r.foldl (redComb (redOp o)) x)
            let b := padTo 16 (leBytes 4 v.1.toNat ++ leBytes 6 v.2)
            .done (v.1.toNat + 2 ^ 32 * v.2) (count (redWrite s o 0 b) 67 (srcs.length * redCount o))
    else
      let per := (cutOf s o f.ctx).2.1
      let r := redLots s o srcs per f.lotsDone f.bad.isSome (cdiv (redCount o) per) 0 s
      if r.2.2 = 0 then .done 0 r.1 else .fail r.2.2 0 (Nat.min r.2.1 (f.lotsTotal - 1)) r.1
  | _ => .notYet

/-! ### GATHER and SCATTER (R367-R370) -/

/-- What becomes of an access of the list. -/
inductive Access where
  | skipped | outOfRange | excess
  | at (x : Nat)
deriving DecidableEq, Repr

/-- Classify the accesses in list order (R367); `m` counts performed accesses by channel (DEDUCED, log 105). -/
def classifyAccesses (s : State) (o : Order) (ly : Layout) (bound : Nat) : KV Nat → List Nat → List Access
  | _, [] => []
  | m, e :: r =>
    let sz := gatherSize o
    let x := fld o 28 6 + e % 2 ^ 48 * fld o 24 4
    if e.testBit 63 then .skipped :: classifyAccesses s o ly bound m r
    else if ly.length < x + sz then .outOfRange :: classifyAccesses s o ly bound m r
    else
      let k := areaCol s ly 0 (x / 32)
      let c := keySite k * 32 + keyCh k
      if bound ≤ kvGetD m c 0 then .excess :: classifyAccesses s o ly bound m r
      else .at x :: classifyAccesses s o ly bound (kvAdd m c 1) r

/-- Count a narrow access's look at the cache, its read of an open block, and its retirement (R366, R409, Table TEL-1).
-/
def noteNarrow (s : State) (id : Nat) (ly : Layout) (x n : Nat) : State :=
  let s1 := noteOpenReads s (missCols s id ly false 0 x n)
  count (if kvHas s.cache (lineKey id 0 x) then count s1 64 1 else count s1 65 1) 73 1

/-- Result of GATHER and SCATTER (R370). -/
def gatherResult (as : List Access) : Nat :=
  let n (a : Access) := (as.filter (· == a)).length % 2 ^ 32
  n .outOfRange + 2 ^ 32 * n .excess + 2 ^ 64 * n .skipped

/-- Add FP32 lanes one by one (R369). -/
def addLanes (old new : Bytes) : Bytes :=
  (List.range (new.length / 4)).flatMap (fun i =>
    leBytes 4 (fadd (BitVec.ofNat 32 (bytesAt old (4 * i) 4)) (BitVec.ofNat 32 (bytesAt new (4 * i) 4))).toNat)

/-- Perform the accesses of a SCATTER in list order. -/
def scatterAll (o : Order) (id : Nat) (ly : Layout) (adds : Bool) : List (Access × Bytes) → State → State
  | [], s => s
  | (.at x, d) :: r, s =>
    let new := if adds then addLanes (areaRead s id ly 0 x (gatherSize o)).1 d else d
    scatterAll o id ly adds r (areaWrite (noteNarrow s id ly x (gatherSize o)) id ly 0 x new)
  | _ :: r, s => scatterAll o id ly adds r s

/-- GATHER (`adds` none) or SCATTER; the input holds the index list, then a SCATTER's data. -/
def gatherPerf (s : State) (f : InFlight) (inp : EndpointInput) (adds : Option Bool) : Perf :=
  let o := f.order
  let id := fld o 16 2
  let n := fld o 20 4
  let sz := gatherSize o
  if inp.first.length < 8 * n ∨ (adds.isSome ∧ inp.second.length < sz * n) then .notYet
  else
    match getLayout s id with
    | none => .notYet
    | some ly =>
      let bound := if fld o 60 4 = 0 then n else fld o 60 4
      let as := classifyAccesses s o ly bound [] ((List.range n).map (fun i => bytesAt inp.first (8 * i) 8))
      let status (a : Access) : Nat := match a with
        | .at x => rangeStatus s id ly 0 x sz
        | _ => 0
      let per := (cutOf s o f.ctx).2.1
      let limit := if f.bad.isSome then f.lotsDone * per else n
      let i := Nat.min limit ((as.takeWhile (fun a => status a == 0)).length)
      let st := if i = n then 0 else if limit ≤ i then 0x20 else status (as.getD i .skipped)
      let lots := if f.lotsTotal ≤ 1 then 0 else i / Nat.max 1 per
      let m := if st = 0 then n else if f.lotsTotal ≤ 1 then 0 else lots * per
      let done := as.take m
      let s1 := countIn s (epPath o 36) (8 * n)
      let s2 := match adds with
        | none =>
          let out := done.flatMap (fun a => match a with
            | .at x => (areaRead s id ly 0 x sz).1
            | _ => List.replicate sz 0)
          let sc := done.foldl (fun t a => match a with
            | .at x => noteNarrow t id ly x sz
            | _ => t) s1
          sendTo sc o 48 0 out
        | some ad =>
          scatterAll o id ly ad (done.zipIdx.map (fun p => (p.1, (inp.second.drop (sz * p.2)).take sz)))
            (countIn s1 (epPath o 48) (sz * n))
      if st = 0 then .done (gatherResult as) s2 else .fail st 0 lots s2

/-! ### TREAD (R334) -/

/-- The site that executes a TREAD: that of its first source byte (R335). -/
def treadSite (s : State) (o : Order) : Option Nat :=
  (getLayout s (fld o 16 2)).map (fun ly => keySite (areaCol s ly (fld o 18 1) (treadByte o 0 0 / 32)))

/-- Does a TREAD of an earlier due beat, or of the same one and admitted before, still use the transposer of the site
(R335)? -/
def treadWaits (s : State) (f : InFlight) : Bool :=
  s.inflight.any (fun g => ordOp g.order == 0x41 && treadSite s g.order == treadSite s f.order
    && (decide (g.due < f.due) || (g.due == f.due && decide (g.seq < f.seq))))

def treadPerf (s : State) (f : InFlight) : Perf :=
  let o := f.order
  let id := fld o 16 2
  let w := treadW o
  let rows := treadRows o
  let cols := treadCols o
  match getLayout s id with
  | none => .notYet
  | some ly =>
    let src := (List.range rows).map (fun i => areaPiece s id ly (fld o 18 1) (treadByte o i 0) (cols * w) 0)
    match src.find? (fun p => p.status != 0) with
    | some p => .fail p.status 0 0 s
    | none =>
      if f.bad.isSome then .fail 0x20 0 0 s
      else if treadWaits s f then .notYet
      else
        let pitch := cdiv (rows * w) 64 * 64
        .done 0 ((List.range cols).foldl (fun st j =>
          sendTo st o 44 (j * pitch) (src.flatMap (fun p => (p.data.drop (j * w)).take w))) s)

/-! ### The stash (R311-R319) -/

/-- Remove an entry of the stash directory. -/
def dropStash (s : State) (id : Nat) : State := { s with stash := kvDel s.stash id }

/-- Write `n` chunks from chunk `k` on: the state, and the flags of their elements. -/
def putChunks (id : Nat) (ly : Layout) (src fmt per base : Nat) :
    Nat → Nat → List W32 → Flags3 → State → State × Flags3
  | 0, _, _, fl, s => (s, fl)
  | n + 1, k, xs, fl, s =>
    let c := encodeChunk src fmt (xs.take per)
    putChunks id ly src fmt per base n (k + 1) (xs.drop per) (fl.add c.2) (areaWrite s id ly 0 (base + 2048 * k) c.1)

/-- STASH_PUT (R317): every chunk, or the whole lots before a chunk that is lost or bad data (R88). -/
def stashPutPerf (s : State) (f : InFlight) (inp : EndpointInput) : Perf :=
  let o := f.order
  let id := fld o 18 2
  let n := fld o 48 5
  let fmt := fld o 20 1
  let w := if fld o 21 1 = 1 then 4 else 2
  if inp.first.length < n * w then .notYet
  else
    match getLayout s id with
    | none => .notYet
    | some ly =>
      let ch := chunksFor n fmt
      let perLot := (cutOf s o f.ctx).2.1
      let s0 := countIn s (epPath o 32) (n * w)
      let good := ((List.range ch).takeWhile (fun k => !rangeLost s ly 0 (fld o 24 8 + 2048 * k) 2048)).length
      let lim := if f.bad.isSome then Nat.min good (f.lotsDone * perLot) else good
      let lots := lim / perLot
      let todo := if lim = ch then ch else lots * perLot
      let r := putChunks id ly (fld o 21 1) fmt ((chunkElems fmt).getD 1) (fld o 24 8) todo 0
        (elems32 (fld o 21 1) n inp.first) ⟨0, 0, 0⟩ s0
      if good < ch then .fail 0x21 0 lots (dropStash r.1 (fld o 16 2))
      else if f.bad.isSome then .fail 0x20 0 lots (dropStash r.1 (fld o 16 2))
      else
        let s1 := { r.1 with stash := match kvGet r.1.stash (fld o 16 2) with
          | some e => kvPut r.1.stash (fld o 16 2) { e with st := .live }
          | none => r.1.stash }
        .done (ch % 2 ^ 32 + 2 ^ 32 * sat36 r.2.sat + 2 ^ 68 * sat36 r.2.nf) s1

def stashGetPerf (s : State) (f : InFlight) : Perf :=
  let o := f.order
  match f.ctx with
  | .entry id off fmt count =>
    match getLayout s id with
    | none => .notYet
    | some ly =>
      let per := (chunkElems fmt).getD 1
      let ps := (List.range (chunksFor count fmt)).map (fun k =>
        let p := areaPiece s id ly 0 (off + 2048 * k) 2048 0
        { p with data := (decodeChunk fmt (Nat.min per (count - k * per)) p.data).flatMap (fun x => leBytes 2 x.toNat) })
      let lot := (cutOf s o f.ctx).2.1 * per * 2
      let clean (t : State) : State := if o.getLsbD 144 then dropStash t (fld o 16 2) else t
      match sendStream s f 32 lot 0 false ps with
      | .done r t => .done r (clean t)
      | .fail st r l t => .fail st r l (clean t)
      | .notYet => .notYet
  | _ => .notYet

end Sys2Proof.Machine
end

