-- ==== Sys2Proof/Machine/Complete.lean ====
section
/-! DEFINITION. Completion of admitted timed orders (R26, R71): versions, images and contexts (09 VER), PUSH (11 MEM),
RETIRE (13 ITY), ZEROIZE (16 SEC), TALLY and LEDGER_DRAIN (17 TEL); the start of lots; held receipts. -/

namespace Sys2Proof.Machine

/-! ### PUSH, FETCH, SNAPSHOT, EXPORT -/

def pushPerf (s : State) (f : InFlight) : Perf :=
  let o := f.order
  let id := fld o 16 2
  match getLayout s id with
  | none => .notYet
  | some ly => sendStream s f 32 (lotBytes s) 0 false (areaPieces s id ly (fld o 18 1) (fld o 20 8) (fld o 28 4) 0)

/-- The first parcel of a slot with a column on a channel fenced since the definition (R119, R289). -/
def lostParcel (s : State) (ly : Layout) (area : Nat) : Option Nat :=
  let w := 32 * (ly.geo s).w
  (List.range (ly.geo s).parcels).find? (fun q => rangeLost s ly area (q * w) w)

/-- The first parcel of a shard with its row or the short weights of a slot on such a channel. -/
def lostRow (s : State) (ly : Layout) : Option Nat :=
  (List.range (ly.geo s).parcels).find? (fun q =>
    !keyLive s (ly.parcelCol s q 0) || (List.range ly.slots).any (fun v => !keyLive s (ly.verCol s v q 0)))

/-- The target slot of a pull ends Released unless the pull ends with DONE (Table VER-1). -/
def releaseTarget (s : State) (o : Order) : State := releaseSlot s (fld o 18 2) (fld o 17 1)

def pullPerf (s : State) (f : InFlight) : Perf :=
  let o := f.order
  let id := fld o 18 2
  let v := fld o 17 1
  match getLayout s id with
  | none => .notYet
  | some ly =>
    match lostParcel s ly (v + 1) with
    | some q => .fail 0x21 (memFail s 0x21 q) 0 (bump (releaseTarget s o))
    | none =>
    if f.bad.isSome then .fail 0x20 (memFail s 0x20 (f.bad.getD 0)) 0 (releaseTarget s o)
    else if pullMissing s f ≠ [] then .notYet
    else .done 0 (modLayout s id (fun l => setSlot l v (.readable (fld o 20 5))))

/-- A serve ends once it has counted its pullers, or when its due beat has `ended` (R294). -/
def servePerf (s : State) (f : InFlight) (ended : Bool) : Perf :=
  let o := f.order
  match f.ctx, getLayout s (fld o 18 2) with
  | .serve v counted sent, some ly =>
    let lots := ((sent.map (fun e => (e.2.map (fun r => r.2 - r.1)).sum)).sum) / lotBytes s
    match lostParcel s ly (v + 1) with
    | some q => .fail 0x21 (memFail s 0x21 q) lots (bump s)
    | none =>
      if f.bad.isSome then .fail 0x20 (memFail s 0x20 (f.bad.getD 0)) lots s
      else if fld o 26 1 ≤ counted.length ∨ ended = true then .done (counted.length % 256) s
      else .notYet
  | _, _ => .notYet

/-- Header of a snapshot image (R296). -/
def snapHeader (s : State) (o : Order) (id : Nat) (ly : Layout) : Bytes :=
  padTo 64 ([0xD1, 0x01] ++ leBytes 2 id ++ leBytes 5 (fld o 20 5) ++ leBytes 1 ly.workFormat ++ leBytes 1 (fld o 18 1)
    ++ [0] ++ leBytes 4 ly.desc.length ++ leBytes 8 (slotBytes s ly) ++ leBytes 12 (fld o 40 12))

def snapshotPerf (s : State) (f : InFlight) : Perf :=
  let o := f.order
  let id := fld o 16 2
  match getLayout s id with
  | none => .notYet
  | some ly =>
    match f.ctx with
    | .slot v =>
      let ps := ⟨0, 0, snapHeader s o id ly ++ ly.desc⟩
        :: areaPieces s id ly (v + 1) 0 (slotBytes s ly) (64 + ly.desc.length)
      let key := if h : fld o 18 1 < 16 then (s.sec.keys[fld o 18 1]).k0 else 0
      let tag := gmac key (leBytes 12 (fld o 40 12)) (untilFail ps).1
      sendStream s f 28 (lotBytes s) 0 true (ps ++ [⟨0, 0, tag⟩])
    | _ => .notYet

def exportPerf (s : State) (f : InFlight) : Perf :=
  let o := f.order
  match f.ctx with
  | .image masks =>
    let ps := (List.range 8).flatMap (fun i =>
      match getLayout s (fld o (16 + 2 * i) 2) with
      | some ly => imageStream s (fld o (16 + 2 * i) 2) ly (masks.getD i [])
      | none => [])
    sendStream s f 36 (lotBytes s) 0 true ps
  | _ => .notYet

/-! ### IMPORT (R299-R304) -/

/-- A failure of an IMPORT or REPACK: nothing of the order is in place (R88, R304; DEDUCED, log 111). -/
def fillFail (s : State) (id status result : Nat) : Perf := .fail status result 0 (spoilTarget s id)

/-- The shard after an IMPORT or REPACK (R303; DEDUCED, log 112; DEDUCED, log 113). -/
def filledShard (h : Shard) (step closeSlot ruleId attempt : Nat) : Shard :=
  { h with st := .idle, step := step, expected := none, last := some ⟨0, false, attempt, ruleId, [], closeSlot, false⟩,
           prev := none, undo := none, badUndo := [], upd := none }

/-- Slots after an IMPORT or REPACK: those filled are Readable at their versions (R303). -/
def filledSlots (n : Nat) (vs : List (Nat × Nat)) : List SlotSt :=
  (List.range n).map (fun i => match vs.find? (fun v => v.1 == i) with
    | some v => .readable v.2
    | none => .released)

/-- Write the row of a parcel, sealed. -/
def writeRow (s : State) (ly : Layout) (q : Nat) (row : Nat → Col) : State :=
  (List.range 64).foldl (fun st j => writeSealed st (ly.parcelCol s q j) (row j)) s

/-- Write the short weights of a parcel in a slot, sealed. -/
def writeFoot (s : State) (ly : Layout) (v q : Nat) (b : Bytes) : State :=
  (List.range (ly.geo s).w).foldl (fun st j => writeSealed st (ly.verCol s v q j) (colOf ((b.drop (32 * j)).take 32))) s

/-- A row with its seal as IMPORT writes it: Guarded and UndoCrc zero, StateCrc afresh (R302). -/
def importRow (m : Image) (q j : Nat) : Col :=
  if j = 63 then
    let x := { parseSeal (m.row q 63) with guarded := false, undoCrc := 0 }
    sealCol (x.withCrc (m.row q))
  else m.row q j

/-- Fill a target with an image under its own placement (R299, R302). -/
def fillFrom (s : State) (ly : Layout) (m : Image) : State :=
  (List.range m.parcels).foldl (fun st q =>
    m.mask.foldl (fun t v => writeFoot t ly v q (m.foot v q)) (writeRow st ly q (importRow m q))) s

/-- What keeps an image from being imported (Table VER-4). -/
def importFault (ly : Layout) (m : Image) : Option (Nat × Nat) :=
  if m.desc.stateLayout ≠ ly.stateLayout ∨ m.desc.workFormat ≠ ly.workFormat ∨ m.desc.segs ≠ ly.segs then some (3, 64)
  else if m.mask.any (fun v => decide (ly.slots ≤ v)) then some (4, 10)
  else
    match m.badSeal with
    | some q => some (5, q)
    | none => if (ly.shard.expected.map (fun e => e != m.step)).getD false then some (6, 4) else none

def finishFill (s : State) (id step closeSlot ruleId attempt : Nat) (vs : List (Nat × Nat)) : State :=
  modLayout (discardLines s id none) id (fun l =>
    { l with slotSt := filledSlots l.slots vs, shard := filledShard l.shard step closeSlot ruleId attempt })

def importPerf (s : State) (f : InFlight) (inp : EndpointInput) : Perf :=
  let o := f.order
  let id := fld o 16 2
  match getLayout s id with
  | none => .notYet
  | some ly =>
    if ly.damaged s then fillFail s id 0x21 (memFail s 0x21 ((lostRow s ly).getD 0))
    else if f.bad.isSome then fillFail s id 0x20 (memFail s 0x20 (f.bad.getD 0))
    else
      match parseImage inp.first with
      | none => .notYet
      | some (.error e) => fillFail s id 0x20 (failWhere e.1 e.2)
      | some (.ok m) =>
        match importFault ly m with
        | some e => fillFail s id 0x20 (failWhere e.1 e.2)
        | none =>
          let x := parseSeal (m.row 0 63)
          let s1 := fillFrom (countIn s (epPath o 32) m.total) ly m
          .done m.step (finishFill s1 id m.step m.closeSlot x.ruleId x.attempt
            (m.mask.map (fun v => (v, m.versions.getD v 0))))

/-! ### REPACK (R300-R302) -/

/-- State of element `i` of a parcel, by row (Table LAY-7): its master, then its moments. -/
def elemState (sl : Nat) (row : Nat → Col) (i : Nat) : List W32 :=
  let e := groupElems sl
  let c := groupStride sl * (i / e)
  let k := i % e
  if sl = 2 then
    [lane (row (c + k / 8)) (k % 8), (half (row (c + 2)) k).zeroExtend 32, (half (row (c + 3)) k).zeroExtend 32]
  else (List.range (groupStride sl)).map (fun x => lane (row (c + x)) k)

/-- The columns of a parcel from the states of its elements. -/
def stateRow (sl : Nat) (st : Nat → List W32) (j : Nat) : Col :=
  let e := groupElems sl
  let g := j / groupStride sl
  let x := j % groupStride sl
  if stateCols sl ≤ j then 0
  else if sl = 2 then
    if x < 2 then ofLanes (fun k => (st (e * g + 8 * x + k)).getD 0 0)
    else ofHalves (fun k => ((st (e * g + k)).getD (x - 1) 0).extractLsb' 0 16)
  else ofLanes (fun k => (st (e * g + k)).getD x 0)

/-- Shard index of an element named by tensor and global index (R107). -/
def findElem (n : Nat) : List Segment → Nat → Nat → Nat → Option Nat
  | [], _, _, _ => none
  | g :: r, base, t, i =>
    if g.tensor = t ∧ g.first ≤ i ∧ i < g.first + g.count then some (base + (i - g.first))
    else findElem n r (base + n * cdiv g.count n) t i

/-- The first image that holds an element, and where (R300). -/
def sourceOf (n : Nat) (ms : List Image) (t i : Nat) : Option (Image × Nat) :=
  ms.findSome? (fun m => (findElem n m.desc.segs 0 t i).map (fun x => (m, x)))

/-- Bytes of the short weights of a target parcel in slot `v` (R113): codes of its elements, then scales. -/
def repackFoot (sl wf v : Nat) (src : Nat → Option (Image × Nat)) : Bytes :=
  let n := parcelSize sl
  let wb := weightBits wf
  let code (i : Nat) : Nat := match src i with
    | some (m, x) => codeOf wb (m.foot v (x / n)) (x % n)
    | none => 0
  let scale (b : Nat) : Byte := match src (32 * b) with
    | some (m, x) => ((m.foot v (x / n)).drop (n * wb / 8 + x % n / 32)).headD 0
    | none => 0
  let body := packCodes wb ((List.range n).map code)
  padTo (32 * footprint sl wf) (body ++ (if isMx wf then (List.range (n / 32)).map scale else []))

/-- Images one after another at a source. -/
def parseImages : Nat → Bytes → Option (Except (Nat × Nat) (List Image))
  | 0, _ => some (.ok [])
  | n + 1, b =>
    match parseImage b with
    | none => none
    | some (.error e) => some (.error e)
    | some (.ok m) =>
      match parseImages n (b.drop m.total) with
      | some (.ok r) => some (.ok (m :: r))
      | x => x

/-- Slots exported by all the images with the same version (R300). -/
def commonSlots (ms : List Image) : List (Nat × Nat) :=
  match ms with
  | [] => []
  | m :: r => (m.mask.filter (fun v =>
      r.all (fun x => x.mask.contains v && x.versions.getD v 0 == m.versions.getD v 0))).map
        (fun v => (v, m.versions.getD v 0))

/-- First segment whose Count is no multiple of 32, as an image offset of its Count. -/
def oddSegment (segs : List Segment) : Option Nat :=
  ((List.range segs.length).find? (fun i => ((segs[i]?).map (fun g => g.count % 32 != 0)).getD false)).map
    (fun i => 64 + 64 + 32 * i + 16)

/-- What keeps images from being repacked (Table VER-4). -/
def repackFault (s : State) (ly : Layout) (ms : List Image) : Option (Nat × Nat) :=
  let n := parcelSize ly.stateLayout
  let g := ly.geo s
  let m0 := ms.head?
  if ms.any (fun m => m.desc.stateLayout != ly.stateLayout || m.desc.workFormat != ly.workFormat) then some (3, 64)
  else if ms.any (fun m => m.mask.any (fun v => decide (ly.slots ≤ v))) then some (4, 10)
  else
    match ms.findSome? Image.badSeal with
    | some q => some (5, q)
    | none =>
      let step := (m0.map Image.step).getD 0
      if ms.any (fun m => m.step != step) || (ly.shard.expected.map (fun e => e != step)).getD false then some (6, 4)
      else
        let odd := if isMx ly.workFormat then (ly.segs :: ms.map (fun m => m.desc.segs)).findSome? oddSegment else none
        let gap := (List.range (g.parcels * n)).find? (fun x =>
          match elemAt n ly.segs x with
          | some (t, i) => (sourceOf n ms t i).isNone
          | none => false)
        match gap, odd with
        | some x, _ => some (7, x / n)
        | none, some w => some (8, w)
        | none, none => none

/-- Write target parcel `q` of a REPACK. -/
def repackParcel (s : State) (ly : Layout) (ms : List Image) (vs : List (Nat × Nat)) (q : Nat) : State :=
  let sl := ly.stateLayout
  let n := parcelSize sl
  let src (i : Nat) : Option (Image × Nat) := match elemAt n ly.segs (q * n + i) with
    | some (t, e) => sourceOf n ms t e
    | none => none
  let st (i : Nat) : List W32 := match src i with
    | some (m, x) => elemState sl (m.row (x / n)) (x % n)
    | none => []
  let from? := (List.range n).findSome? src
  let s1 := vs.foldl (fun t v => writeFoot t ly v.1 q (repackFoot sl ly.workFormat v.1 src)) s
  match from? with
  | none => s1
  | some (m, x) =>
    let old := parseSeal (m.row (x / n) 63)
    let row := stateRow sl st
    let y : Seal := ⟨m.step, old.ruleId, m.closeSlot, false, sl, q, old.attempt, 0, 0,
      colsCrc (verCols s1 ly m.closeSlot q), 0⟩
    writeRow s1 ly q (fun j => if j = 63 then sealCol (y.withCrc row) else row j)

/-- The images of a REPACK: those of the endpoint, or the local layout's with Versions set. -/
def repackSources (s : State) (o : Order) (inp : EndpointInput) : Option (Except (Nat × Nat) (List Image)) :=
  let src := fld o 18 2
  if src = 0 then parseImages (fld o 20 1) inp.first
  else
    match getLayout s src with
    | none => none
    | some ly =>
      let r := untilFail (imageStream s src ly (readableSlots ly))
      if r.2.1 = 0 then parseImages 1 r.1 else some (.error (if r.2.1 = 0x20 then 0x0C else 0x100, r.2.2))

def repackPerf (s : State) (f : InFlight) (inp : EndpointInput) : Perf :=
  let o := f.order
  let id := fld o 16 2
  match getLayout s id with
  | none => .notYet
  | some ly =>
    if ly.damaged s then fillFail s id 0x21 (memFail s 0x21 ((lostRow s ly).getD 0))
    else if f.bad.isSome then fillFail s id 0x20 (memFail s 0x20 (f.bad.getD 0))
    else
      match repackSources s o inp with
      | none => .notYet
      | some (.error e) =>
        if e.1 = 0x100 then fillFail s id 0x21 (memFail s 0x21 e.2) else fillFail s id 0x20 (failWhere e.1 e.2)
      | some (.ok ms) =>
        match repackFault s ly ms, ms with
        | some e, _ => fillFail s id 0x20 (failWhere e.1 e.2)
        | none, [] => .notYet
        | none, m :: r =>
          let vs := commonSlots (m :: r)
          let bytes := ((m :: r).map Image.total).sum
          let s0 := if fld o 18 2 = 0 then countIn s (epPath o 32) bytes else s
          let s1 := (List.range (ly.geo s).parcels).foldl (fun st q => repackParcel st ly (m :: r) vs q) s0
          let x := parseSeal (m.row 0 63)
          .done m.step (finishFill s1 id m.step m.closeSlot x.ruleId x.attempt vs)

/-! ### Contexts (R305, R306) -/

/-- Has the shard been filled: a Kind 0x01 layout with a close on record, the filling among them, that is not Unfilled?
-/
def isFilled (ly : Layout) : Bool := ly.kind == 1 && ly.shard.st != .unfilled && ly.shard.last.isSome

/-- A layout entry of a context. -/
def ctxLayout (id : Nat) (ly : Layout) : Bytes :=
  let mask := if ly.kind = 3 then [] else readableSlots ly
  [0x01, if isFilled ly then 1 else 0] ++ leBytes 2 id ++ leBytes 5 ly.shard.step ++ leBytes 1 (maskOf mask) ++ [0, 0]
    ++ leBytes 4 ly.desc.length ++ List.replicate 8 0 ++ versionBytes ly mask ++ ly.desc

/-- A stream entry of a context. -/
def ctxStream (id : Nat) (x : Stream) : Bytes :=
  [0x02, 0x00] ++ leBytes 2 id ++ leBytes 5 x.step ++ List.replicate 7 0 ++ leBytes 8 x.seed.toNat ++ List.replicate 8 0

/-- Populated sites. -/
def sitesPopulated (s : State) : Nat := ((List.range 20).filter (fun i => kindOf s i != .none)).length

/-- The context (R305). -/
def contextBytes (s : State) : Bytes :=
  let body := s.layouts.flatMap (fun e => ctxLayout e.1 e.2) ++ s.streams.flatMap (fun e => ctxStream e.1 e.2)
  let rest := List.replicate 32 (0 : Byte) ++ body
  [0xC1, 0x01] ++ leBytes 2 s.layouts.length ++ leBytes 2 s.streams.length ++ [0, 0] ++ leBytes 8 (64 + body.length)
    ++ leBytes 6 s.beat.now ++ [0, 0] ++ leBytes 1 (sitesPopulated s) ++ [0, 0, 0] ++ leBytes 4 (crc32c rest).toNat ++ rest

def ctxSavePerf (s : State) (f : InFlight) : Perf :=
  sendStream s f 32 (lotBytes s) 0 false [⟨0, 0, contextBytes s⟩]

/-- A descriptor with its SpanMask replaced (R306). -/
def overrideSpan (d : Bytes) (span : Nat) : Bytes :=
  if span = 0 then d else d.take 8 ++ leBytes 4 span ++ d.drop 12

/-- Define the layouts of a context one after another from byte `x`; Reason and Where of the first that cannot be
(DEDUCED, log 114). -/
def restoreLayouts (b : Bytes) (span : Nat) : Nat → State → Nat → Except (Nat × Nat) (State × Nat)
  | 0, s, x => .ok (s, x)
  | n + 1, s, x =>
    let f (o k : Nat) := bytesAt b (x + o) k
    let dl := f 12 4
    let db := overrideSpan ((b.drop (x + 64)).take dl) span
    let d := parseDesc db
    if b.length < x + 64 + dl ∨ f 0 1 ≠ 0x01 ∨ 2 ≤ f 1 1 ∨ f 10 2 ≠ 0 ∨ f 16 8 ≠ 0 ∨ layoutIdBad (f 2 2)
        ∨ dl ≠ descLen d.segCount ∨ descMal db ≠ [] then .error (1, x)
    else if (getLayout s (f 2 2)).isSome then .error (9, x)
    else
      let sites := spanSites d.span
      if sites.any (fun i => foldMask s i == 0) || sites.any (fun i => sites.any (fun j => kindOf s i != kindOf s j)) then
        .error (0x0B, x)
      else if descPolicy s d then .error (0x0A, x)
      else
        match placeLayout s (newLayout s (f 2 2) d db) with
        | none => .error (0x0A, x)
        | some ly =>
          let h := { ly.shard with expected := if d.kind = 1 ∧ f 1 1 = 1 then some (f 4 5) else none }
          restoreLayouts b span n (putLayout s (f 2 2) { ly with shard := h }) (x + 64 + dl)

/-- Define the streams of a context. -/
def restoreStreams (b : Bytes) : Nat → State → Nat → Except (Nat × Nat) (State × Nat)
  | 0, s, x => .ok (s, x)
  | n + 1, s, x =>
    let f (o k : Nat) := bytesAt b (x + o) k
    if b.length < x + 32 ∨ f 0 1 ≠ 0x02 ∨ f 1 1 ≠ 0 ∨ f 9 7 ≠ 0 ∨ f 24 8 ≠ 0 ∨ f 2 2 = 0 then .error (1, x)
    else if kvHas s.streams (f 2 2) then .error (9, x)
    else if 1024 ≤ s.streams.length then .error (0x0A, x)
    else restoreStreams b n { s with streams := kvPut s.streams (f 2 2) ⟨BitVec.ofNat 64 (f 16 8), f 4 5⟩ } (x + 32)

def ctxRestorePerf (s : State) (f : InFlight) (inp : EndpointInput) : Perf :=
  let o := f.order
  let b0 := inp.first
  let g (x k : Nat) := bytesAt b0 x k
  let bad (r w : Nat) : Perf := .fail 0x20 (failWhere r w) 0 s
  if b0.length < 64 then .notYet
  else if g 0 1 ≠ 0xC1 ∨ g 1 1 ≠ 0x01 ∨ nonZeroAt b0 ([6, 7, 22, 23, 25, 26, 27] ++ span 32 63) ≠ []
      ∨ g 8 8 < 64 ∨ ctxBytes < g 8 8 then bad 1 0
  else if b0.length < g 8 8 then .notYet
  else
    let b := b0.take (g 8 8)
    if (crc32c (b.drop 32)).toNat ≠ g 28 4 then bad 2 28
    else
      match restoreLayouts b (fldBits o 16 0 20) (g 2 2) s 64 with
      | .error e => bad e.1 e.2
      | .ok (s1, x) =>
        match restoreStreams b (g 4 2) s1 x with
        | .error e => bad e.1 e.2
        | .ok (s2, y) => if y = b.length then .done 0 (countIn s2 (epPath o 32) b.length) else bad 1 y

/-! ### RETIRE (R434-R438) -/

/-- Copy a block of a row to its spare (R435): sealed blocks decoded and written sealed, others as they stand. Says
whether it was uncorrectable. -/
def copyBlock (s : State) (src dst : Nat) : State × Bool :=
  let r := readBlock s src
  if blockOpen s src || r.1 == .bad then
    let b := blockBase src
    (putRaw (putRaw s dst (rawCol s b) (rawChk s b)) (dst + 1) (rawCol s (b + 1)) (rawChk s (b + 1)), r.1 == .bad)
  else
    let ks := sealedChk r.2.1 r.2.2
    (putRaw (putRaw s dst r.2.1 ks.1) (dst + 1) r.2.2 ks.2, false)

/-- Write a remap entry (RMAP, R434). An entry that has never been valid and is written invalid stays unused (R435;
DEDUCED, log 72). -/
def putRemap (s : State) (bank entry row : Nat) (valid : Bool) : State :=
  if valid || kvHas s.remap (bank * 512 + entry) then
    { s with remap := kvPut s.remap (bank * 512 + entry) (row, valid) }
  else s

/-- Entries of a bank's remap table that have been valid since stack reset. -/
def sparesUsed (s : State) (bank : Nat) : Nat := (remapEntries s bank).length

/-- A row retirement (R435). Its copy is made at a parcel boundary, for which the controller pauses the stall of the
pair: the stall loses the time of the copy (R152). -/
def retireRowPerf (s0 : State) (f : InFlight) : Perf :=
  let o := f.order
  let x := fld o 17 1
  let c := fld o 18 1
  let bank := bankKey x c (fld o 19 1)
  let row := fld o 20 2
  match f.ctx with
  | .retire e =>
    if windowIn s0 0 x c (fld o 19 1 / 2) then .notYet
    else if !(foldMask s0 x).getLsbD c then .fail 0x21 0 0 s0
    else
      let s := drawPair (cleanRow s0 x c (fld o 19 1) row) (siteOf x) (stallKey x c (fld o 19 1 / 2)) (chanNs 4096).ceil.toNat
      let src := (bank * 65536 + physRow s bank row) * 64
      let dst := (bank * 65536 + 45776 + e) * 64
      let r := (List.range 32).foldl (fun (a : State × Nat) j =>
        let y := copyBlock a.1 (src + 2 * j) (dst + 2 * j)
        (y.1, if y.2 then a.2 + 1 else a.2)) (s, 0)
      let s1 := (remapEntries s bank).foldl (fun st y =>
        if y.2.2 && y.2.1 == row then putRemap st bank y.1 row false else st) r.1
      let s2 := ledAdd (putRemap s1 bank e row true) 0x1B (Place.chan x c) 0 0
      let left := 458 - sparesUsed s2 bank
      let s3 := if left = s2.cfg.spareLow then ityIrq (ledAdd s2 0x1D (Place.chan x c) 0 0) 4 else s2
      .done (e + 2 ^ 16 * left + 2 ^ 32 * r.2) s3
  | _ => .notYet

def retirePairPerf (s : State) (f : InFlight) : Perf :=
  let o := f.order
  let x := fld o 17 1
  let c := fld o 18 1
  let k := fld o 19 1
  if windowIn s 0 x c k then .notYet
  else .done 0 (ledAdd (fenceStallNow s x c k) 0x1C (Place.pair x c k) 0 0)

/-! ### ZEROIZE (R512, R513) -/

/-- Write a block as zeros: sealed (R512), but open in the band of an open layout, where every write is open, whoever
makes it (R406, R411; DESIGN CHOICE, log 48). -/
def zeroBlock (open? : Bool) (s : State) (k : Nat) : State :=
  if open? then writeOpen (writeOpen s k 0) (k + 1) 0 else writeBlockSealed s k 0 0

/-- Write rows of a bank as zeros. -/
def zeroRows (open? : Bool) (s : State) (rows : List (Nat × Nat × Nat)) : State :=
  rows.foldl (fun st r =>
    if !(foldMask st (r.1 / 512)).getLsbD (r.1 / 16 % 32) then st
    else (List.range (r.2.2 - r.2.1)).foldl (fun st i =>
      (List.range 32).foldl (fun st j =>
        zeroBlock open? st ((r.1 * 65536 + r.2.1 + i) * 64 + 2 * j)) st) st) s

def zeroFreePerf (s : State) (f : InFlight) : Perf :=
  match f.ctx with
  | .zeroFree rows => .done 0 (zeroRows false s rows)
  | _ => .notYet

def zeroLayoutPerf (s : State) (f : InFlight) : Perf :=
  let id := fld f.order 18 2
  match getLayout s id with
  | none => .notYet
  | some ly =>
    if ly.damaged s then .fail 0x21 0 0 s
    else .done 0 (discardLines (zeroRows (opensWrites ly) s (layoutRows s ly)) id none)

/-! ### TALLY and LEDGER_DRAIN (R523, R530) -/

def tallyPerf (s : State) (f : InFlight) : Perf :=
  let o := f.order
  match f.ctx with
  | .tally (some (beat, gen)) =>
    let rec8 (i : Nat) : Bytes := leBytes 8 (kvGetD s.tally.shadow i 0 % ctrMod + ctrMod * (gen % 65536))
    let out := if epZero o 32 then [] else (groupIndices (fld o 16 2)).flatMap rec8
    .done (beat % ctrMod + ctrMod * (gen % 65536)) (sendTo s o 32 0 out)
  | _ => .notYet

def drainPerf (s : State) (f : InFlight) : Perf :=
  let o := f.order
  match f.ctx with
  | .drain n first lost =>
    let es := s.led.entries.take n
    let s1 := sendTo s o 32 0 (es.flatMap (fun e => leBytes 32 e.toNat))
    let s2 := if o.getLsbD 128 then s1
      else { s1 with led := { s1.led with entries := s1.led.entries.drop n, head := (s1.led.head + n) % 65536 } }
    .done (es.length + 2 ^ 32 * (first % 65536) + 2 ^ 48 * (lost % 2 ^ 32)) s2
  | _ => .notYet

/-! ### The commands -/

/-- The work of an admitted order, by opcode. UPD_OPEN completes by its last parcel's seal and UPD_ABORT by its
rollback, not here. -/
def perform (s : State) (f : InFlight) (inp : EndpointInput) : Perf :=
  let o := f.order
  match ordOp o with
  | 0x12 => repackPerf s f inp
  | 0x31 => if isPull o then pullPerf s f else servePerf s f (decide (f.due < s.beat.now))
  | 0x32 => snapshotPerf s f
  | 0x33 => exportPerf s f
  | 0x34 => importPerf s f inp
  | 0x35 => ctxSavePerf s f
  | 0x36 => ctxRestorePerf s f inp
  | 0x40 => pushPerf s f
  | 0x41 => treadPerf s f
  | 0x42 => stashPutPerf s f inp
  | 0x43 => stashGetPerf s f
  | 0x45 => gatherPerf s f inp none
  | 0x46 => gatherPerf s f inp (some (fld o 19 1 == 1))
  | 0x50 => ewPerf s f
  | 0x51 => reducePerf s f
  | 0x60 => if fld o 16 1 = 0 then retireRowPerf s f else retirePairPerf s f
  | 0x62 => if fld o 16 1 = 0 then zeroFreePerf s f else zeroLayoutPerf s f
  | 0x63 => tallyPerf s f
  | 0x64 => drainPerf s f
  | _ => .notYet

/-- End an order as its work came out: its completion receipt, then slots whose last reader this was (R71, R88,
Table VER-1). -/
def endOrder (s : State) (f : InFlight) : Perf → State
  | .done r t => settleSlots (completeG t f 0x01 r)
  | .fail st r n t => settleSlots (completeG t { f with lotsDone := n } st r)
  | .notYet => s

/-- Areas an order reads through the site controllers: layout, area, offset, bytes. -/
def ordReads (s : State) (f : InFlight) : List (Nat × Nat × Nat × Nat) :=
  let o := f.order
  let len (id : Nat) : Nat := ((getLayout s id).map (slotBytes s)).getD 0
  match ordOp o, f.ctx with
  | 0x40, _ => [(fld o 16 2, fld o 18 1, fld o 20 8, fld o 28 4)]
  | 0x41, _ => (List.range (treadRows o)).map (fun i => (fld o 16 2, fld o 18 1, treadByte o i 0, treadCols o * treadW o))
  | 0x32, .slot v => [(fld o 16 2, v + 1, 0, len (fld o 16 2))]
  | 0x33, .image masks =>
    (List.range 8).flatMap (fun i => (masks.getD i []).map (fun v => (fld o (16 + 2 * i) 2, v + 1, 0, len (fld o (16 + 2 * i) 2))))
  | 0x43, .entry id off fmt count => [(id, 0, off, 2048 * chunksFor count fmt)]
  | 0x51, .reduce srcs => srcs.map (fun x => (x.1, x.2.1, x.2.2, redCount o * redSrcW o))
  | _, _ => []

/-- Count the open blocks among the controller reads of an order, parcels of an EXPORT included (R409; DEDUCED, log
106). -/
def noteOrderReads (s : State) (f : InFlight) : State :=
  let s1 := (ordReads s f).foldl (fun st x =>
    match getLayout st x.1 with
    | some ly => noteOpenReads st (missCols st x.1 ly false x.2.1 x.2.2.1 x.2.2.2)
    | none => st) s
  match f.ctx with
  | .image _ => (List.range 8).foldl (fun st i =>
      match getLayout st (fld f.order (16 + 2 * i) 2) with
      | some ly => noteOpenReads st ((List.range (ly.geo st).parcels).flatMap (fun q =>
          (List.range 64).map (fun j => ly.parcelCol st q j)))
      | none => st) s1
  | _ => s1

/-- Byte ranges that an order writes: layout, area, offset, bytes. -/
def ordWrites (s : State) (f : InFlight) : List (Nat × Nat × Nat × Nat) :=
  let o := f.order
  match ordOp o with
  | 0x42 => [(fld o 18 2, 0, fld o 24 8, 2048 * chunksFor (fld o 48 5) (fld o 20 1))]
  | 0x51 => if fld o 22 2 = 0 then [] else [(fld o 22 2, 0, fld o 48 8, redOutBytes o)]
  | 0x50 =>
    (match getLayout s (fld o 18 2) with
     | some ly => let b := ewDstBytes s o ly; [(fld o 18 2, fld o 24 1, b.1, b.2)]
     | none => []) ++ (ewSources o).map (fun x => (x.1, x.2, fld o 32 6 * ewWidth (ewSrcF o), fld o 40 6 * ewWidth (ewSrcF o)))
  | _ => []

/-- Layouts whose whole band an order reads or writes. -/
def ordBands (f : InFlight) : List Nat :=
  let o := f.order
  match ordOp o with
  | 0x12 => [fld o 16 2, fld o 18 2]
  | 0x33 => exportIds o
  | 0x34 => [fld o 16 2]
  | 0x45 => [fld o 16 2]
  | 0x46 => [fld o 16 2]
  | 0x62 => [fld o 18 2]
  | _ => []

/-- Bank pairs that an order reads or writes, by the key of their stall. -/
def ordPairs (s : State) (f : InFlight) : List Nat :=
  let pairOf (k : Nat) : Nat := stallKey (keySite k) (keyCh k) (keyBank k / 2)
  ((ordReads s f ++ ordWrites s f).flatMap (fun x => match getLayout s x.1 with
      | some ly => (rangeCols s ly x.2.1 x.2.2.1 x.2.2.2).map pairOf
      | none => [])
    ++ (ordBands f).flatMap (fun id => match getLayout s id with
      | some ly => (ly.seqE s).map (fun u => stallKey u.site u.ch u.pair)
      | none => [])
    ++ (match f.ctx with
      | .zeroFree rows => rows.map (fun r => stallKey (r.1 / 512) (r.1 / 16 % 32) (r.1 % 16 / 2))
      | .retire _ => [stallKey (fld f.order 17 1) (fld f.order 18 1) (fld f.order 19 1 / 2)]
      | _ => [])).dedup

/-- Is a pair closed to the traffic of orders: a commit window is open on it (R150), or its channel is held (R391)? -/
def pairClosed (s : State) (k : Nat) : Bool :=
  (getUnit s k).windowOpen || (getChan s (k / 256) (k / 8 % 32)).held

/-- Is an EW kept from its column runs: in a squall hold, at the thermal stop of a site whose stalls it uses, or while a
relief engine that it uses restarts (R480, Table PWR-6, R446)? -/
def ewStopped (s : State) (f : InFlight) : Bool :=
  match f.ctx with
  | .ew .. => s.power.squall || (ewWork s f.order).any (fun w => match w.1 with
      | .stall x => decide (3 ≤ (s.sites[x]).level)
      | .relief x => (s.sites[x]).reliefDown
      | _ => false)
  | _ => false

/-- Does an order still wait: for a pair that is closed to it (DEDUCED, log 69), or for its column runs? -/
def orderHeld (s : State) (f : InFlight) : Bool :=
  ewStopped s f || (s.units.any (fun e => e.2.windowOpen) || s.chans.any (fun e => e.2.held)) && (ordPairs s f).any (pairClosed s)

/-- The work of the admitted order of ring `r` and index `idx` ends. An order whose last lot has not started can fail,
but not complete; where the order is not admitted, or its work has not ended, nothing happens (DESIGN CHOICE, log 14).
-/
def completeOrder (s : State) (r : RingId) (idx : Nat) (inp : EndpointInput) : State :=
  match findInflight s r.val idx with
  | none => s
  | some f => if orderHeld s f then s else batch s fun s =>
    match perform (noteOrderReads s f) f inp with
    | .done res t => if f.lotsStarted < f.lotsTotal then s else endOrder s f (.done res t)
    | p => endOrder s f p

/-- TIMED_ORDER_COMPLETE. -/
def execTimedOrderComplete (r : RingId) (idx : Nat) (inp : EndpointInput) (s : State) :
    Host.Outcome State Fault Refusal := .next (completeOrder s r idx inp)

/-- A further lot starts: at once where staging is granted for it, else after the oldest lot of the order in flight has
ended and freed its own (R86, R352; DEDUCED, log 127). -/
def startLot (s : State) (r : RingId) (idx : Nat) : State :=
  match findInflight s r.val idx with
  | none => s
  | some f =>
    if f.lotsTotal ≤ f.lotsStarted then s
    else if lotGranted s f then grantLot s r.val idx
    else if f.lotsDone < f.lotsStarted then
      grantLot (putInflight s { f with lotsDone := f.lotsDone + 1, entries := f.entries.drop 1 }) r.val idx
    else s

/-- LOT_START. -/
def execLotStart (r : RingId) (idx : Nat) (s : State) : Host.Outcome State Fault Refusal := .next (startLot s r idx)

/-- Write the first held receipt of a ring that has room now (R81, R82, R579). -/
def writeHeld (s : State) (r : RingId) : State :=
  match (s.rings[r]).held with
  | [] => s
  | h :: rest => if heldRoom s.rings[r] h && !s.fatal then writeFirst s r h rest else s

/-- HELD_RECEIPT_WRITE. -/
def execHeldReceiptWrite (r : RingId) (s : State) : Host.Outcome State Fault Refusal := .next (writeHeld s r)

end Sys2Proof.Machine
end

