-- ==== Sys2Proof/Machine/Holds.lean ====
section
/-! DEFINITION. Interruptions as they stand (R39, R482), and the holds of channels: retrain and lane repair (12 STK,
R390-R394). -/

namespace Sys2Proof.Machine

/-! ### Interruptions -/

/-- Time of a squall hold charged to an instance in a beat so far. -/
def squallOn (s : State) (i : Inst) (b : Nat) : Nat :=
  ((s.squallDebt.filter (fun c => c.1 == i && c.2.1 == b)).map (fun c => c.2.2)).sum

/-- The most that a pair of a site has lost so far in the beat. -/
def mostSpent (s : State) (i : Inst) : Nat :=
  match i with
  | .stall x => ((s.pairSpent.filter (fun e => e.1 / 256 == x.val && e.2.1 == s.beat.now)).map (fun e => e.2.2)).foldl Nat.max 0
  | _ => 0

/-- Charge time of a squall hold in the current beat: drawn first from what refresh and interposed accesses have left of
the unbooked share, and only the remainder is an interruption (R482). -/
def addSquall (s : State) (i : Inst) (ns : Nat) : State :=
  let b := s.beat.now
  let old := squallOn s i b
  let share := unbookedShare s - mostSpent s i
  let rem := (old + ns - share) - (old - share)
  { s with squallDebt := s.squallDebt ++ [(i, b, ns)],
           charges := if 0 < rem then s.charges ++ [(i, b, rem)] else s.charges }

/-- Does a squall hold, or the ripple that follows it, still charge? -/
def squallCharges (s : State) : Bool := s.power.squall || s.power.ripple.isSome

/-- The instances of a site that a squall hold charges (R482). -/
def squallSite (s : State) (x : SiteId) : State :=
  let d := s.ts - s.power.squallFrom
  addSquall (addSquall (addSquall s (.stall x) d) (.relief x) d) (.sealer x) d

/-- The part of a squall hold that the Cirrus path loses. -/
def squallCirrus (s : State) : State :=
  addSquall s .cirrus ((s.ts - s.power.squallFrom) * (100 - s.cfg.cirPct) / 100)

/-- Charge what a squall hold has cost so far to the sites whose ripple has not ended, and to the Cirrus path. -/
def settleSquall (s : State) : State :=
  if squallCharges s then
    let s1 := (List.finRange 20).foldl (fun st x =>
      if kindOf st x.val != .none && !(st.sites[x]).fenced && !(st.sites[x]).rippled then squallSite st x else st) s
    let s2 := if s1.power.squall then squallCirrus s1 else s1
    { s2 with power := { s2.power with squallFrom := s2.ts } }
  else s

/-- Charge an interruption that still runs, and start its next part now. -/
def restartAt (s : State) (i : Inst) : Option Nat → State
  | some t => if t < s.ts then charge s i t else s
  | none => s

/-- Does work of a fenced stall of a site still wait for, or run on, its relief engine (DEDUCED, log 99)? -/
def takeoverWaits (s : State) (x : SiteId) : Bool :=
  s.layouts.any (fun e =>
    match e.2.shard.upd with
    | some u =>
      e.2.shard.st == .isOpen && (u.ready.map (·.1) ++ u.disp.map (·.1)).any (fun q =>
        let p := e.2.parcelUnit s q
        p.site == x.val && stallFenced s p.site p.ch p.pair)
    | none => false)

/-- The running interruptions of a site. A takeover with nothing left to relieve interrupts nothing more (R444; DESIGN
CHOICE, log 55). -/
def settleSite (s0 : State) (x : SiteId) : State :=
  let s := if takeoverWaits s0 x then s0 else modSite s0 x (fun z => { z with stallFrom := none })
  let y := s.sites[x]
  let s1 := restartAt s (.channel x) y.holdFrom
  let s2 := restartAt (restartAt s1 (.stall x) y.stallFrom) (.relief x) y.stallFrom
  let s3 := restartAt s2 (.relief x) y.reliefFrom
  let now (o : Option Nat) : Option Nat := o.map (fun _ => s.ts)
  modSite s3 x (fun z => { z with holdFrom := now z.holdFrom, stallFrom := now z.stallFrom,
                                  reliefFrom := now z.reliefFrom })

/-- Charge every interruption that still runs up to now, in the current beat: R39 divides one that crosses into the
next beat at the boundary. -/
def settle (s : State) : State :=
  let s1 := (List.finRange 20).foldl settleSite s
  let s2 := restartAt (restartAt s1 .xchIn s1.linkFrom) .xchOut s1.linkFrom
  settleSquall { s2 with linkFrom := s2.linkFrom.map (fun _ => s2.ts) }

/-! ### Site events (Table STK-5) -/

/-- Set a bit of HT_SITEs_EVENT and write its Ledger entry (Table TEL-4). -/
def siteEvent (s : State) (x : SiteId) (bit : Nat) (pl : Place) (arg : Nat) : State :=
  ledAdd (modSite s x (fun y => { y with event := y.event ||| (1 <<< bit) })) (0x40 + bit) pl 0 arg

/-- Is a channel in service: live on a site that is up, the block out of reset? -/
def chanUp (s : State) (x : SiteId) (c : Nat) : Bool :=
  s.power.inReset.isNone && (s.sites[x]).state == 2 && !(s.sites[x]).fenced && (s.sites[x]).live.getLsbD c

/-- Add one, saturating at 255. -/
def bump8 (n : BitVec 8) : BitVec 8 := if n = 0xFF then n else n + 1

/-! ### Holds (R391-R393) -/

/-- A free channel begins a retrain or a repair; it holds from the close of the last open window (R391). -/
def beginHold (s : State) (x : SiteId) (c : Nat) (k : HoldKind) (lane : BitVec 8) : State :=
  let w := windowIn s 1 x.val c 0
  syncHold (modChan s x.val c (fun y =>
    { y with hold := some k, lane := lane, waitWindow := w, holdStart := s.ts })) x

/-- A repair that would need a third spare lane: NoSpare, and the channel is fenced (R392, Table FLT-2). -/
def noSpare (s : State) (x : SiteId) (c : Nat) : State :=
  requestDeferred (siteEvent s x 5 (Place.chan x.val c) 0) ⟨1, x.val, c, 0, [], none⟩

/-- A retrain trigger of a channel in service: it starts, follows a running repair, or adds nothing to a running
retrain (R390, R393, R427; DEDUCED, log 76). -/
def startRetrain (s : State) (x : SiteId) (c : Nat) : State :=
  if !chanUp s x c then s
  else
    match (getChan s x.val c).hold with
    | none => beginHold s x c .retrain 0
    | some .repair =>
      -- a repair that has not begun before this cycle: the retrain runs first (R393, Table STK-7)
      if (getChan s x.val c).holdStart = s.ts || (getChan s x.val c).waitWindow then
        modChan s x.val c (fun y => { y with hold := some .retrain, pendRepair := y.lane :: y.pendRepair })
      else modChan s x.val c (fun y => { y with pendRetrain := true })
    | some .retrain => s

/-- A lane-repair request: at once on a free channel, after the running retrain or repair otherwise (R392, R393). -/
def requestRepair (s : State) (x : SiteId) (c : Nat) (lane : BitVec 8) : State :=
  if !chanUp s x c then s
  else
    let y := getChan s x.val c
    match y.hold with
    | none => if 2 ≤ y.spares then noSpare s x c else beginHold s x c .repair lane
    | some _ => modChan s x.val c (fun z => { z with pendRepair := z.pendRepair ++ [lane] })

/-- What follows a hold that ended: a pending retrain, then a pending repair, in the same hold of the channel (R393);
else the channel serves again. -/
def nextHold (s : State) (x : SiteId) (c : Nat) (repairFirst : Bool) : State :=
  let y := getChan s x.val c
  let free (s : State) : State := syncHold (modChan s x.val c (fun z => { z with hold := none })) x
  let repair (l : BitVec 8) (r : List (BitVec 8)) : State :=
    if 2 ≤ y.spares then noSpare (free (modChan s x.val c (fun z => { z with pendRepair := [] }))) x c
    else modChan s x.val c (fun z => { z with hold := some .repair, lane := l, pendRepair := r })
  let retrain : State := modChan s x.val c (fun z => { z with hold := some .retrain, pendRetrain := false })
  match y.pendRepair, y.pendRetrain with
  | l :: r, true => if repairFirst then repair l r else retrain
  | l :: r, false => repair l r
  | [], true => retrain
  | [], false => free s

/-- ns for which the channel has been held (DEDUCED, log 79). -/
def heldNs (s : State) (x : SiteId) (c : Nat) : Nat := (s.ts - (getChan s x.val c).holdStart) % 2 ^ 32

/-- Is a hold of kind k running on a channel in service? -/
def holding (s : State) (x : SiteId) (c : Nat) (k : HoldKind) : Bool :=
  let y := getChan s x.val c
  chanUp s x c && y.hold == some k && !y.waitWindow

/-- A retrain ends (R390, R391, R427). One that fails twice in a row has its channel fenced (Table FLT-2; DEDUCED, log
77; DEDUCED, log 78). -/
def endRetrain (s : State) (x : SiteId) (c : Nat) (ok : Bool) : State :=
  if !holding s x c .retrain then s
  else
    let pl := Place.chan x.val c
    let s1 := modSite s x (fun y => { y with lastChannel := BitVec.ofNat 5 c, retrainCount := bump8 y.retrainCount })
    let s2 := if ok then siteEvent s1 x 0 pl (heldNs s x c) else siteEvent s1 x 4 pl 0
    let s3 := modChan (count s2 (1536 + 16 * x.val) 1) x.val c (fun y =>
      { y with fails := if ok then 0 else y.fails + 1, tempRef := none, parity := [], clearTran := false,
               tran := if y.clearTran then 0 else y.tran, tranOver := y.tranOver && !y.clearTran })
    let s4 := nextHold s3 x c true
    if 2 ≤ (getChan s3 x.val c).fails then requestDeferred s4 ⟨1, x.val, c, 0, [], none⟩ else s4

/-- A lane repair ends: the lane runs on a spare lane (R392). -/
def endRepair (s : State) (x : SiteId) (c : Nat) : State :=
  if !holding s x c .repair then s
  else
    let y := getChan s x.val c
    let s1 := modSite s x (fun z =>
      { z with lastChannel := BitVec.ofNat 5 c, repairCount := bump8 z.repairCount, lane := z.lane ||| (1 <<< c) })
    let s2 := siteEvent s1 x 1 (Place.chan x.val c) (heldNs s x c + 2 ^ 32 * y.lane.toNat)
    nextHold (modChan (count s2 (1537 + 16 * x.val) 1) x.val c (fun z =>
      { z with spares := z.spares + 1, laneMap := z.laneMap ++ [y.lane] })) x c false

/-- RETRAIN_START: a trigger of R390 arises on the channel (DEDUCED, log 80). -/
def execRetrainStart (x : SiteId) (c : ChId) (_trig : RetrainTrig) (s : State) : Host.Outcome State Fault Refusal :=
  .next (startRetrain s x c.val)
/-- LANE_REPAIR_REQUEST. -/
def execLaneRepairRequest (x : SiteId) (c : ChId) (lane : BitVec 8) (s : State) : Host.Outcome State Fault Refusal :=
  .next (requestRepair s x c.val lane)
end Sys2Proof.Machine
end

