-- ==== Sys2Proof/Machine/Flags.lean ====
section
/-! DEFINITION. The interrupt summary bits and the two interrupt outputs (18 MAP, R544-R548): what is computed from
status and enable registers. -/

namespace Sys2Proof.Machine

/-- A number from bits, bit 0 first. -/
def ofBits : List Bool → Nat
  | [] => 0
  | b :: r => (if b then 1 else 0) + 2 * ofBits r

/-- Do a status and the low (management) or high (runtime) enables share a bit among the lowest `n`? -/
def shares (status en : W32) (n : Nat) (runtime : Bool) : Bool :=
  let e := if runtime then en >>> 16 else en
  decide ((status &&& e).toNat % 2 ^ n ≠ 0)

/-- Does a ring raise its summary bit: its status bit is set, and an enable of it is (R548, DEDUCED, log 37)? -/
def ringLine (s : State) (r : RingId) (status : Bool) : Bool := status && decide ((s.rings[r]).irq.toNat % 16 ≠ 0)

/-- Do rings 0 to 3 raise HT_IRQ_RT.Rings? -/
def ringsLine (s : State) : Bool :=
  ringLine s 0 (s.regs.ordIrq.getLsbD 0) || ringLine s 1 (s.regs.ordIrq.getLsbD 1)
    || ringLine s 2 (s.regs.ordIrq.getLsbD 2) || ringLine s 3 (s.regs.ordIrq.getLsbD 3)

/-- Do the queues raise HT_IRQ_RT.Queues: a status bit is set and so is the IrqEn of its queue? -/
def queuesLine (s : State) : Bool :=
  (List.finRange 16).any (fun q => s.regs.queIrq.getLsbD q.val && (s.queues[q]).irqEn)

/-- HT_IRQ_PMC (Table MAP-1). -/
def irqPmc (s : State) : W32 :=
  let g := s.regs
  BitVec.ofNat 32 (ofBits [ringLine s 4 (g.ordSirq.getLsbD 0), s.mbxSOut.full && s.mbxSOut.irqEn, shares g.ityIrq g.ityEn 6 false,
    shares g.fltIrq g.fltEn 7 false, shares s.power.irq s.power.irqEn 7 false, shares s.led.irq s.led.irqEn 2 false,
    g.fltIrq.getLsbD 5, g.irqForce.getLsbD 0])

/-- HT_IRQ_RT (Table MAP-1). -/
def irqRt (s : State) : W32 :=
  let g := s.regs
  BitVec.ofNat 32 (ofBits [ringsLine s, s.mbxNsOut.full && s.mbxNsOut.irqEn, queuesLine s,
    shares g.fltIrq g.fltEn 7 true, shares s.power.irq s.power.irqEn 7 true, shares s.led.irq s.led.irqEn 2 true,
    g.fltIrq.getLsbD 5, g.irqForce.getLsbD 1])

/-- The interrupt of the inbound mailboxes to Drielm, inside the block (R96, R547). -/
def drielmIrq (s : State) : Bool := (s.mbxNsIn.full && s.mbxNsIn.irqEn) || (s.mbxSIn.full && s.mbxSIn.irqEn)

/-- Level of the management interrupt output (R545); in reset it holds its rest value (Table PWR-7). -/
def pmcOut (s : State) : Bool := if s.power.inReset.isSome then s.par.isoIrq else irqPmc s != 0
/-- Level of the runtime interrupt output (R545). -/
def rtOut (s : State) : Bool := if s.power.inReset.isSome then s.par.isoIrq else irqRt s != 0

/-! ### The other outputs with a rest value (R489, Table PWR-7; DEDUCED, log 166) -/

/-- REQp_UP of every requester port. -/
def reqUpOut (s : State) : Bool := if s.power.inReset.isSome then s.par.isoReqUp else true
/-- XCH_UP: the exchange port is ready for traffic unless its self-test failed (Table PWR-3). -/
def xchUpOut (s : State) : Bool := if s.power.inReset.isSome then s.par.isoXchUp else !s.power.selfTest.getLsbD 21
/-- AWREADY, WREADY and ARREADY while the block takes no transfer; out of reset the port is ready. -/
def axiReadyOut (s : State) : Bool := if s.power.inReset.isSome then s.par.isoAxiReady else true
/-- PWR_SITE_EN of a site: its latch, in reset too (R490), and the rest value while the block is powered down, which is
from the loss of a rail to the next release of BLK_PORST_N (R567). -/
def siteEnOut (s : State) (x : SiteId) : Bool := if s.power.needPorst then s.par.isoSiteEn else (s.sites[x]).powerEn
/-- PWR_ALERT_N (R488), high in reset. -/
def alertOut (s : State) : Bool := s.power.inReset.isSome || s.power.alertN

end Sys2Proof.Machine
end

