-- ==== Sys2Proof/Machine/Regs.lean ====
section
/-! DEFINITION. The AXI5-Lite register port (18 MAP): what each register of Table MAP-3 reads, what a write of it does,
and the commands that are register accesses. -/

namespace Sys2Proof.Machine

def w32 (n : Nat) : W32 := BitVec.ofNat 32 n

/-! ### Reads -/

/-- Registers of a ring (Table ORD-1): word `k` of its block (DESIGN CHOICE, log 49). -/
def ringPeek (g : RingSt) (k : Nat) : W32 :=
  match k with
  | 0 => w32 (g.depth + (if g.enable then 256 else 0))
  | 1 => w32 g.head
  | 2 => w32 g.tail
  | 3 => w32 g.rcpTail
  | 4 => w32 g.rcpHead
  | 5 => if g.held.isEmpty then g.status else g.status ||| 16
  | 6 => g.irq
  | _ => w32 g.owed

/-- A word of the ring window. -/
def awnWord (s : State) (a : Nat) : W32 := w32 (leNat (memReadN s.awn a 4))

/-- Awning areas in MiB (Table MEM-5, Table MEM-12). -/
def slotMib (s : State) : Nat := s.cfg.slots * 32 / 1024
def stageMib (s : State) : Nat := s.par.awnMib / 8
def cacheMib (s : State) : Nat := s.par.awnMib - 64 - slotMib s - stageMib s

/-- Kind code of a site (Table LAY-9). -/
def kindCode : SiteKind → Nat
  | .none => 0
  | .fcs48 => 1
  | .hbm4 => 2
  | .hbm3e => 3

def kindWord (s : State) (first n : Nat) : W32 :=
  w32 (((List.range n).map (fun i => kindCode (kindOf s (first + i)) * 4 ^ i)).sum)

/-- Full bits of 32 slots of a queue. -/
def fullWord (q : Queue) (first : Nat) : W32 :=
  w32 (ofBits ((List.range 32).map (fun i => ((kvGet q.slots (first + i)).map QSlot.full).getD false)))

def queuePeek (q : Queue) (k : Nat) : W32 :=
  match k with
  | 0 => fullWord q 0
  | 1 => fullWord q 32
  | 2 => w32 (q.layout + 2 ^ 16 * q.depth + (if q.defined then 2 ^ 24 else 0))
  | _ => if q.irqEn then 1 else 0

/-- Is a lane repair requested and not complete? -/
def Chan.repairPending (c : Chan) : Bool := c.pendRepair != [] || c.hold == some .repair

/-- Channels of a site that have a record. -/
def siteChans (s : State) (site : Nat) : List Chan := (s.chans.filter (fun e => e.1 / 32 == site)).map (·.2)

/-- Registers of a site (Table STK-5). -/
def sitePeek (s : State) (i : Fin 20) (k : Nat) : W32 :=
  let x := s.sites[i]
  let cs := siteChans s i.val
  match k with
  | 0 => w32 (x.state.toNat + (if cs.any Chan.held then 4 else 0) + (if cs.any Chan.repairPending then 8 else 0)
      + (if x.selfRefresh then 16 else 0) + 32 * x.lastChannel.toNat + 2 ^ 16 * x.retrainCount.toNat
      + 2 ^ 24 * x.repairCount.toNat)
  | 1 => w32 (x.temp.toNat + 2 ^ 11 * x.hotSensor.toNat + 2 ^ 16 * x.level + (if x.trip then 2 ^ 19 else 0))
  | 2 => x.lane
  | _ => x.event

/-- Site and channel that HT_ITY_SEL selects. -/
def itySite (s : State) : Nat := s.regs.itySel.toNat % 32
def ityChan (s : State) : Nat := s.regs.itySel.toNat / 32 % 32
def ityBank (s : State) : Nat := s.regs.itySel.toNat / 1024 % 16

/-- Rows of a scrub pass of a channel (R418): the data rows of every bank, and the spare rows in use. -/
def scrubRows (s : State) (site ch : Nat) : List (Nat × Nat) :=
  (List.range (banksOf s site)).flatMap (fun b =>
    let spares := ((remapEntries s (bankKey site ch b)).filter (fun e => e.2.2)).map (fun e => (b, 45776 + e.1))
    (List.range (rowLimit (isFcs s site))).map (fun r => (b, r)) ++ spares)

/-- Number of those rows. -/
def scrubTotal (s : State) (site ch : Nat) : Nat :=
  ((List.range (banksOf s site)).map (fun b =>
    rowLimit (isFcs s site) + ((remapEntries s (bankKey site ch b)).filter (fun e => e.2.2)).length)).sum

/-- Progress of the slowest live channel: passes and percent (Table ITY-8; DEDUCED, log 157). -/
def scrubWord (s : State) : W32 :=
  let cs := (List.range 20).flatMap (fun x => (liveCh (foldMask s x)).map (fun c =>
    let k := getChan s x c
    (k.scrubPasses, k.scrubPos * 100 / scrubTotal s x c)))
  match cs with
  | [] => 0
  | c :: r =>
    let m := r.foldl (fun a b => if b.1 < a.1 ∨ (b.1 = a.1 ∧ b.2 < a.2) then b else a) c
    w32 (Nat.min m.1 65535 + 2 ^ 16 * (m.2 % 128))

def ityPeek (s : State) (k : Nat) : W32 :=
  let g := s.regs
  let c := getChan s (itySite s) (ityChan s)
  match k with
  | 0 => g.ityIrq
  | 1 => g.ityEn
  | 2 => g.itySel
  | 3 => w32 (Nat.min c.lasting 65535 + 2 ^ 16 * Nat.min c.tran 255 + (if c.lastOver then 2 ^ 24 else 0)
      + (if c.tranOver then 2 ^ 25 else 0))
  | 4 => c.corrected
  | 5 => c.openReads ++ c.uncorr
  | 6 => w32 (remapEntries s (bankKey (itySite s) (ityChan s) (ityBank s))).length
  | 7 => g.ityFirst
  | 8 => scrubWord s
  | _ => 0

/-- Bits of a property of the sites. -/
def siteBits (s : State) (f : Site → Bool) : W32 := w32 (ofBits (s.sites.toList.map f))

def fltPeek (s : State) (k : Nat) : W32 :=
  let g := s.regs
  if k = 0 then g.fltIrq
  else if k = 1 then g.fltEn
  else if k = 2 then g.fltSel
  else if k ≤ 10 then
    let x := g.fltSel.toNat % 32
    let c0 := 4 * (k - 3)
    w32 (ofBits ((List.range 32).map (fun i => kvHas s.fencedStalls (stallKey x (c0 + i / 8) (i % 8)) && decide (x < 20))))
  else if k = 11 then siteBits s (·.fenced)
  else if k = 12 then siteBits s (·.reliefRestarted)
  else if k = 13 then
    let n := (s.xstreams.filter (fun e => e.2.st == .closed || e.2.st == .syncing)).length
    w32 (s.link + 2 ^ 16 * Nat.min n 65535)
  else if k = 14 then g.linkDowns ++ g.faults
  else 0

def pwrPeek (s : State) (k : Nat) : W32 :=
  let p := s.power
  match k with
  | 0 => w32 (p.phase + (if p.squall then 8 else 0) + (if p.warn then 16 else 0) + (if p.limiter then 32 else 0)
      + 64 * p.juncLevel)
  | 1 => p.irq
  | 2 => p.irqEn
  | 3 => w32 (s.cfg.budget % 2048 + 2 ^ 16 * (floorW s % 2048))
  | 4 => w32 p.est.toNat
  | 5 => w32 p.peak.toNat
  | 6 => w32 (p.junc.toNat + 2 ^ 11 * p.juncSensor.toNat)
  | 7 => p.lastUs ++ p.squallCount
  | 8 => siteBits s (·.powerEn)
  | 9 => p.resetCause
  | 10 => p.selfTest
  | _ => 0

/-- Has an admitted TALLY not latched yet? -/
def tallyPending (s : State) : Bool := s.inflight.any (fun f => match f.ctx with
  | .tally none => true
  | _ => false)

/-- Is a counter index assigned (Table TEL-1)? -/
def assigned (i : Nat) : Bool :=
  decide (i ≤ 26 ∨ (64 ≤ i ∧ i ≤ 75) ∨ (128 ≤ i ∧ i ≤ 166) ∨ (256 ≤ i ∧ i < 1536)
    ∨ (1536 ≤ i ∧ i < 1856 ∧ i % 16 ≤ 9) ∨ (2048 ≤ i ∧ i < 2688) ∨ (4100 ≤ i ∧ i < 8192))

/-- Group of an index (Table TEL-1). -/
def groupOf (i : Nat) : Nat :=
  if i < 64 then 0 else if i < 128 then 1 else if i < 256 then 2 else if i < 1536 then 3 else if i < 2048 then 4
  else if i < 4096 then 5 else 6

/-- Generation of the latch of a shadow (Table TEL-2); a reserved index latches nothing (R517). -/
def shadowGen (t : Tally) (i : Nat) : Nat := if assigned i then kvGetD t.groupGen (groupOf i) 0 else 0

/-- The latches of a world. -/
def worldLat (s : State) (sec : Bool) : Latches := if sec then s.latS else s.latNs
def setLat (s : State) (sec : Bool) (l : Latches) : State := if sec then { s with latS := l } else { s with latNs := l }

def talPeek (s : State) (sec : Bool) (k : Nat) : W32 :=
  let t := s.tally
  let l := worldLat s sec
  match k with
  | 0 => w32 (t.gen % 65536 + (if tallyPending s then 2 ^ 16 else 0))
  | 1 => w32 t.latchBeat
  | 2 => l.talBeatHi.zeroExtend 32
  | 3 => t.index.zeroExtend 32
  | 4 => w32 (kvGetD t.shadow t.index.toNat 0)
  | 5 => l.talGen ++ l.talDataHi
  | _ => 0

/-- The entry that HT_LED_SEL selects, zero when it is not unread (Table TEL-5). -/
def ledSelected (s : State) : BitVec 256 :=
  s.led.entries.getD ((s.led.sel.toNat + 65536 - s.led.head) % 65536) 0

def ledPeek (s : State) (k : Nat) : W32 :=
  let l := s.led
  match k with
  | 0 => w32 l.head
  | 1 => w32 ((l.head + l.entries.length) % 65536 + (if l.entries.length = 65536 then 2 ^ 16 else 0))
  | 2 => l.lost
  | 3 => l.irq
  | 4 => l.irqEn
  | 5 => l.sel.zeroExtend 32
  | _ => 0

def fwPeek (s : State) (i : Fin 64) (k : Nat) : W32 :=
  let e := s.sec.fw[i]
  match k with
  | 0 => e.range
  | 1 => e.ports
  | 2 => e.attr
  | _ => e.denied

def keyUseWord (s : State) : W32 :=
  w32 (((List.finRange 16).map (fun k => (s.sec.keys[k]).use * 4 ^ k.val)).sum)

/-- A word of a mailbox as its outside end reads it: an inbound one is write-only, an outbound one reads zero while
its Full is clear (R93). -/
def mbxPeek (m : Mbx) (inbound : Bool) (o : Nat) : W32 :=
  if o = 0x40 then w32 ((if m.full then 1 else 0) + (if m.irqEn then 256 else 0))
  else if inbound || !m.full then 0
  else m.d.toList.getD (o / 4) 0

/-- Registers at 0x0000 to 0x01FF. -/
def peekId (s : State) (sec : Bool) (a : Nat) : W32 :=
  match a with
  | 0x000 => 0x00B00020
  | 0x004 => 0x01010101
  | 0x008 => s.par.reqNs.zeroExtend 32
  | 0x040 => if sec then irqPmc s else irqPmc s &&& 0xFFFFFFFC
  | 0x044 => irqRt s
  | 0x048 => s.regs.irqForce
  | 0x100 => w32 s.beat.now
  | 0x104 => w32 ((worldLat s sec).beatHi.toNat + (if s.beat.valid then 2 ^ 31 else 0))
  | 0x108 => w32 s.beat.step
  | 0x10C => w32 ((worldLat s sec).stepHi.toNat + (if s.beat.stepValid then 2 ^ 31 else 0))
  | 0x110 => w32 s.cfg.period
  | 0x114 => s.beat.measured
  | 0x118 => s.beat.status
  | 0x11C => w32 (s.cfg.rho + (if s.cfg.period = 0 then 0 else 256 * (spanK s.cfg.period % 256)))
  | _ => 0

/-- Registers at 0x0200 to 0x05FF. -/
def peekOrd (s : State) (a : Nat) : W32 :=
  if a < 0x2A0 then ringPeek (s.rings[ringOf ((a - 0x200) / 0x20)]) (a % 0x20 / 4)
  else if a = 0x2A0 then s.regs.ordIrq
  else if a = 0x2A4 then s.regs.ordSirq
  else if a = 0x2A8 then
    w32 ((if s.regs.ready then 1 else 0) + 2 ^ 8 * s.regs.drielmMajor.toNat + 2 ^ 16 * s.regs.drielmMinor.toNat)
  else if 0x300 ≤ a ∧ a < 0x340 then awnWord s (orderAddr 4 (s.rings[4]).tail (s.rings[4]).depth + (a - 0x300))
  else if 0x340 ≤ a ∧ a < 0x360 then awnWord s (receiptAddr 4 (s.rings[4]).rcpHead (s.rings[4]).depth + (a - 0x340))
  else if 0x400 ≤ a ∧ a ≤ 0x440 then mbxPeek s.mbxNsIn true (a - 0x400)
  else if 0x480 ≤ a ∧ a ≤ 0x4C0 then mbxPeek s.mbxNsOut false (a - 0x480)
  else if 0x500 ≤ a ∧ a ≤ 0x540 then mbxPeek s.mbxSIn true (a - 0x500)
  else if 0x580 ≤ a ∧ a ≤ 0x5C0 then mbxPeek s.mbxSOut false (a - 0x580)
  else 0

/-- Registers at 0x0600 to 0x0BFF. -/
def peekSite (s : State) (a : Nat) : W32 :=
  if a < 0x650 then foldMask s ((a - 0x600) / 4)
  else if a = 0x650 then s.regs.foldEpoch.zeroExtend 32
  else if a = 0x654 then kindWord s 0 16
  else if a = 0x658 then kindWord s 16 4
  else if 0x700 ≤ a ∧ a < 0x800 then queuePeek (s.queues[(⟨(a - 0x700) / 16 % 16, by omega⟩ : Fin 16)]) (a % 16 / 4)
  else if a = 0x800 then s.regs.queIrq
  else if a = 0x900 then w32 (s.par.awnMib + 2 ^ 16 * 64)
  else if a = 0x904 then w32 (slotMib s + 2 ^ 16 * stageMib s)
  else if a = 0x908 then w32 (cacheMib s % 65536 + 2 ^ 16 * (s.par.awnMib / 16 % 256))
  else if a = 0x90C then w32 (trackerHeld s % 2 ^ 21)
  else if a = 0x910 then s.regs.cirPeak.zeroExtend 32
  else if a = 0x914 then s.regs.cirStatus
  else if 0xA00 ≤ a ∧ a < 0xB40 then sitePeek s (siteOf ((a - 0xA00) / 16)) (a % 16 / 4)
  else 0

/-- Registers at 0x0C00 and above. -/
def peekHigh (s : State) (sec : Bool) (a : Nat) : W32 :=
  if a < 0xD00 then ityPeek s ((a - 0xC00) / 4)
  else if a < 0xE00 then fltPeek s ((a - 0xD00) / 4)
  else if a < 0xF00 then pwrPeek s ((a - 0xE00) / 4)
  else if a = 0xF00 then (if s.sec.debugLock then 1 else 0)
  else if a = 0xF04 then keyUseWord s
  else if a = 0xF08 then s.sec.deny
  else if 0x1000 ≤ a ∧ a < 0x1400 then fwPeek s ⟨(a - 0x1000) / 16 % 64, by omega⟩ (a % 16 / 4)
  else if 0x1400 ≤ a ∧ a < 0x1440 then talPeek s sec ((a - 0x1400) / 4)
  else if 0x1440 ≤ a ∧ a < 0x1460 then ledPeek s ((a - 0x1440) / 4)
  else if 0x1460 ≤ a ∧ a < 0x1480 then (ledSelected s).extractLsb' (8 * (a - 0x1460)) 32
  else 0

/-- What the register at an address reads in a world, side effects aside (Table MAP-3, R537). -/
def regPeek (s : State) (sec : Bool) (a : Nat) : W32 :=
  if a < 0x200 then peekId s sec a
  else if a < 0x600 then peekOrd s a
  else if a < 0xC00 then peekSite s a
  else peekHigh s sec a

/-- Addresses that only the secure world reaches (R51, R495). -/
def secureReg (a : Nat) : Bool :=
  decide (0x280 ≤ a ∧ a ≤ 0x29C) || a == 0x2A4 || decide (0x300 ≤ a ∧ a ≤ 0x35C) || decide (0x500 ≤ a ∧ a ≤ 0x540)
    || decide (0x580 ≤ a ∧ a ≤ 0x5C0) || decide (0xF00 ≤ a ∧ a ≤ 0x13FC)

/-- The response of the port: 0 OKAY, 2 SLVERR, with the data of a read. -/
def axiAnswer (s : State) (resp : BitVec 2) (d : W32) : State := { s with regs := { s.regs with axiResp := resp, axiData := d } }

/-- Effects of a read (R541). -/
def readEffect (s : State) (sec : Bool) (a : Nat) : State :=
  let l := worldLat s sec
  let t := s.tally
  let i := t.index.toNat
  match a with
  | 0x100 => setLat s sec { l with beatHi := BitVec.ofNat 16 (s.beat.now / 2 ^ 32) }
  | 0x108 => setLat s sec { l with stepHi := BitVec.ofNat 8 (s.beat.step / 2 ^ 32) }
  | 0x1404 => setLat s sec { l with talBeatHi := BitVec.ofNat 16 (t.latchBeat / 2 ^ 32) }
  | 0x1410 => setLat s sec { l with talDataHi := BitVec.ofNat 16 (kvGetD t.shadow i 0 / 2 ^ 32), talGen := BitVec.ofNat 16 (shadowGen t i) }
  | 0x4BC => { s with mbxNsOut := { s.mbxNsOut with full := false } }
  | 0x5BC => { s with mbxSOut := { s.mbxSOut with full := false } }
  | 0x910 => { s with regs := { s.regs with cirPeak := 0 } }
  | 0xC1C => { s with regs := { s.regs with ityFirst := 0 } }
  | 0xE14 => { s with power := { s.power with peak := 0 } }
  | 0xF08 => { s with sec := { s.sec with deny := 0 } }
  | _ => s

/-- A read through the port (R535-R542). In a reset the port accepts nothing (DESIGN CHOICE, log 163). -/
def axiRead (s : State) (sec : Bool) (a : Nat) : State :=
  if s.power.inReset.isSome then s
  else if a % 4 ≠ 0 ∨ (!sec && secureReg a) then axiAnswer s 2 0
  else axiAnswer (readEffect s sec a) 0 (regPeek s sec a)

/-! ### Writes -/

/-- Write a W1C register: set bits written as one clear. -/
def w1c (old v : W32) : W32 := old &&& ~~~v

/-- Has the ring an order taken and not complete (R49, R56)? -/
def ringIncomplete (s : State) (r : Nat) : Bool :=
  ringBusy s r || s.defer.any (fun d => (d.ord.map (fun x => x.1 == r)).getD false)
    || (s.rings[ringOf r]).held.any (fun h => !h.notice)

/-- Start a ring afresh (R56): indices at 0, the receipt ring zero. -/
def restartRing (s : State) (r : RingId) : State :=
  let s1 := modRing s r (fun g => { g with enable := true, head := 0, tail := 0, rcpHead := 0, rcpTail := 0, held := [] })
  let lo := receiptAddr r.val 0 0
  let hi := lo + 32 * 2 ^ (s1.rings[r]).depth
  { s1 with awn := s1.awn.filter (fun c => decide (c.1 < lo) || decide (hi ≤ c.1)) }

/-- Set bits of a ring's STATUS. -/
def ringStatus (s : State) (r : RingId) (bits : W32) : State := modRing s r (fun g => { g with status := g.status ||| bits })

/-- Depth under R49: taken while Enable is 0 and no order taken is incomplete, judged as before the write (R550). -/
def writeDepth (s : State) (r : RingId) (d : Nat) (wasEnabled : Bool) : State :=
  if d = (s.rings[r]).depth then s
  else if 4 ≤ d ∧ d ≤ 16 ∧ !wasEnabled ∧ !ringIncomplete s r.val then modRing s r (fun g => { g with depth := d })
  else ringStatus s r 8

/-- A write of HT_ORD_RINGn_CFG (R49, R56; DEDUCED, log 151; DEDUCED, log 152). -/
def writeCfg (s : State) (r : RingId) (v : W32) : State :=
  let d := v.toNat % 32
  let was := (s.rings[r]).enable
  if v.getLsbD 8 then
    if was then writeDepth s r d was
    else if ringIncomplete s r.val then ringStatus s r 4
    else restartRing (writeDepth s r d was) r
  else modRing (writeDepth s r d was) r (fun g => { g with enable := false })

/-- A doorbell (R54). -/
def writeTail (s : State) (r : RingId) (v : W32) : State :=
  let g := s.rings[r]
  let x := v.toNat % 131072
  let occ := (x + 131072 - g.head) % 131072
  if 2 ^ g.depth < occ ∨ occ < g.occupancy then ledAdd (ringStatus s r 1) 0x05 (Place.ring r.val) 0 v.toNat
  else modRing s r (fun g => { g with tail := x })

/-- A write of HT_RCP_RINGn_HEAD (R55). -/
def writeRcpHead (s : State) (r : RingId) (v : W32) : State :=
  let g := s.rings[r]
  let x := v.toNat % 131072
  if g.unread < (x + 131072 - g.rcpHead) % 131072 then ringStatus s r 2
  else modRing s r (fun g => { g with rcpHead := x })

def ringWrite (s : State) (r : RingId) (k : Nat) (v : W32) : State :=
  match k with
  | 0 => writeCfg s r v
  | 2 => writeTail s r v
  | 4 => writeRcpHead s r v
  | 5 => modRing s r (fun g => { g with status := w1c g.status v })
  | 6 => modRing s r (fun g => { g with irq := v &&& 0xFFFF800F })
  | _ => s

/-- Write a payload word of an inbound mailbox; D15 commits (R90). -/
def mbxPut (m : Mbx) (o : Nat) (v : W32) : Mbx :=
  if o = 0x40 then { m with irqEn := v.getLsbD 8 }
  else if h : o / 4 < 16 then
    let d := m.d.set (o / 4) v
    { m with d := d, full := m.full || o == 0x3C }
  else m

/-- Does phase 3 begin: an image description stands in the secure inbound mailbox before Drielm is verified (Table
PWR-2) (DEDUCED, log 156)? -/
def beginPhase (s : State) (p : Nat) : State :=
  if s.power.phase < p then { s with power := { s.power with phase := p } } else s

def noteImage (s : State) : State :=
  if s.mbxSIn.full ∧ !s.boot.verified ∧ (s.mbxSIn.d[0]).toNat % 256 = 1 then beginPhase s 3 else s

/-- A write of a firewall entry register (R500, R507, R550). -/
def fwWrite (s : State) (i : Fin 64) (k : Nat) (v : W32) : State :=
  let e := s.sec.fw[i]
  let valid := e.attr.getLsbD 0
  let put (x : FwEntry) : State := { s with sec := { s.sec with fw := s.sec.fw.set i x } }
  match k with
  | 0 => if valid then s else put { e with range := v &&& 0x0FFF0FFF }
  | 1 => if valid then s else put { e with ports := v &&& 0x0001FFFF }
  | 2 =>
    if valid then put { e with attr := (e.attr &&& ~~~1#32) ||| (v &&& 1) }
    else
      let key : Fin 16 := ⟨v.toNat / 256 % 16, by omega⟩
      let w := v &&& 0xF3F
      put { e with attr := if (s.sec.keys[key]).use = 1 then w else w &&& ~~~0x20#32 }
  | _ => s

/-- Empty every key slot, pending parts included (R515). -/
def emptyKeys (s : State) : State := { s with sec := { s.sec with keys := Vector.replicate 16 Key.empty } }

/-- A write of HT_SEC_CTRL (R514, R515): clearing the lock empties the key slots first; setting it closes what only an
unlocked TAP reaches (DEDUCED, log 148). -/
def writeSecCtrl (s : State) (v : W32) : State :=
  if v.getLsbD 0 then
    { s with sec := { s.sec with debugLock := true },
             tap := if s.tap.ir = 0x01 then s.tap else { ir := 0xFF, dr := 0, wrap := none, dbg := false } }
  else
    let s1 := if s.sec.debugLock then emptyKeys s else s
    { s1 with sec := { s1.sec with debugLock := false } }

/-- HT_IRQ_FORCE (R544). -/
def writeForce (s : State) (sec : Bool) (v : W32) : State :=
  let n := if sec then v &&& 3 else (s.regs.irqForce &&& 1) ||| (v &&& 2)
  { s with regs := { s.regs with irqForce := n } }

/-- Writes at 0x0000 to 0x05FF, mailbox words of a full inbound mailbox apart (R91). -/
def pokeLow (s : State) (sec : Bool) (a : Nat) (v : W32) : State :=
  if a = 0x048 then writeForce s sec v
  else if a = 0x118 then { s with beat := { s.beat with status := w1c s.beat.status v } }
  else if 0x200 ≤ a ∧ a < 0x2A0 then ringWrite s (ringOf ((a - 0x200) / 0x20)) (a % 0x20 / 4) v
  else if a = 0x2A0 then { s with regs := { s.regs with ordIrq := w1c s.regs.ordIrq v } }
  else if a = 0x2A4 then { s with regs := { s.regs with ordSirq := w1c s.regs.ordSirq v } }
  else if 0x300 ≤ a ∧ a < 0x340 then
    { s with awn := memWriteN s.awn (orderAddr 4 (s.rings[4]).tail (s.rings[4]).depth + (a - 0x300)) (leBytes 4 v.toNat) }
  else if 0x400 ≤ a ∧ a ≤ 0x440 then { s with mbxNsIn := mbxPut s.mbxNsIn (a - 0x400) v }
  else if a = 0x4C0 then { s with mbxNsOut := mbxPut s.mbxNsOut 0x40 v }
  else if 0x500 ≤ a ∧ a ≤ 0x540 then noteImage { s with mbxSIn := mbxPut s.mbxSIn (a - 0x500) v }
  else if a = 0x5C0 then { s with mbxSOut := mbxPut s.mbxSOut 0x40 v }
  else s

/-- Writes at 0x0600 and above (DESIGN CHOICE, log 50). -/
def pokeHigh (s : State) (a : Nat) (v : W32) : State :=
  let g := s.regs
  if 0x700 ≤ a ∧ a < 0x800 ∧ a % 16 = 12 then
    setQueue s ⟨(a - 0x700) / 16 % 16, by omega⟩ (fun q => { q with irqEn := v.getLsbD 0 })
  else if a = 0x800 then { s with regs := { g with queIrq := w1c g.queIrq v } }
  else if a = 0x914 then { s with regs := { g with cirStatus := w1c g.cirStatus v } }
  else if 0xA00 ≤ a ∧ a < 0xB40 ∧ a % 16 = 12 then
    modSite s (siteOf ((a - 0xA00) / 16)) (fun x => { x with event := w1c x.event v })
  else if a = 0xC00 then { s with regs := { g with ityIrq := w1c g.ityIrq v } }
  else if a = 0xC04 then { s with regs := { g with ityEn := v &&& 0x3F } }
  else if a = 0xC08 then { s with regs := { g with itySel := v &&& 0x3FFF } }
  else if a = 0xD00 then { s with regs := { g with fltIrq := w1c g.fltIrq v ||| (if s.fatal then 32 else 0) } }
  else if a = 0xD04 then { s with regs := { g with fltEn := v &&& 0x007F007F } }
  else if a = 0xD08 then { s with regs := { g with fltSel := v &&& 0x1F } }
  else if a = 0xE04 then { s with power := { s.power with irq := w1c s.power.irq v } }
  else if a = 0xE08 then { s with power := { s.power with irqEn := v &&& 0x007F007F } }
  else if a = 0xF00 then writeSecCtrl s v
  else if 0x1000 ≤ a ∧ a < 0x1400 then fwWrite s ⟨(a - 0x1000) / 16 % 64, by omega⟩ (a % 16 / 4) v
  else if a = 0x140C then { s with tally := { s.tally with index := v.extractLsb' 0 13 } }
  else if a = 0x144C then { s with led := { s.led with irq := w1c s.led.irq v } }
  else if a = 0x1450 then { s with led := { s.led with irqEn := v &&& 0x00030003 } }
  else if a = 0x1454 then { s with led := { s.led with sel := v.extractLsb' 0 16 } }
  else s

/-- What a write does to the register at an address, under its access type (R10, Table MAP-3). -/
def regPoke (s : State) (sec : Bool) (a : Nat) (v : W32) : State := if a < 0x600 then pokeLow s sec a v else pokeHigh s a v

/-- Is the address a payload word of an inbound mailbox that is full (R91)? -/
def mbxBusy (s : State) (a : Nat) : Bool :=
  (decide (0x400 ≤ a ∧ a ≤ 0x43C) && s.mbxNsIn.full) || (decide (0x500 ≤ a ∧ a ≤ 0x53C) && s.mbxSIn.full)

/-- A write through the port (R535-R538). -/
def axiWrite (s : State) (sec : Bool) (a : Nat) (strb : BitVec 4) (v : W32) : State :=
  if s.power.inReset.isSome then s
  else if a % 4 ≠ 0 ∨ strb ≠ 15 ∨ (!sec && secureReg a) ∨ mbxBusy s a then axiAnswer s 2 0
  else axiAnswer (regPoke s sec a v) 0 0

/-! ### The commands -/

/-- Address of a register of ring r. -/
def ringReg (r : RingId) (off : Nat) : Nat := 0x200 + 0x20 * r.val + off

/-- Write of HT_ORD_RINGn_TAIL (R54). -/
def execDoorbell (sec : Bool) (r : RingId) (v : W32) (s : State) : Host.Outcome State Fault Refusal :=
  .next (axiWrite s sec (ringReg r 0x08) 15 v)
/-- Write of HT_RCP_RINGn_HEAD (R55). -/
def execRcpHeadWrite (sec : Bool) (r : RingId) (v : W32) (s : State) : Host.Outcome State Fault Refusal :=
  .next (axiWrite s sec (ringReg r 0x10) 15 v)
/-- Write of HT_ORD_RINGn_CFG that sets Enable (R56). -/
def execRingEnable (sec : Bool) (r : RingId) (depth : BitVec 5) (s : State) : Host.Outcome State Fault Refusal :=
  .next (axiWrite s sec (ringReg r 0) 15 (depth.zeroExtend 32 ||| 0x100))
/-- Write of HT_ORD_RINGn_CFG that clears Enable (R56). -/
def execRingDisable (sec : Bool) (r : RingId) (depth : BitVec 5) (s : State) : Host.Outcome State Fault Refusal :=
  .next (axiWrite s sec (ringReg r 0) 15 (depth.zeroExtend 32))
/-- Write of HT_ORD_RINGn_CFG (R49). -/
def execRingDepthWrite (sec : Bool) (r : RingId) (v : W32) (s : State) : Host.Outcome State Fault Refusal :=
  .next (axiWrite s sec (ringReg r 0) 15 v)
/-- Write of HT_MBX_NS_IN_D15 (R90, R91). -/
def execMbxNsInCommit (sec : Bool) (d : W32) (s : State) : Host.Outcome State Fault Refusal :=
  .next (axiWrite s sec 0x43C 15 d)
/-- Write of HT_MBX_S_IN_D15 (R90, R91). -/
def execMbxSInCommit (sec : Bool) (d : W32) (s : State) : Host.Outcome State Fault Refusal :=
  .next (axiWrite s sec 0x53C 15 d)
/-- Read of HT_MBX_NS_OUT_D15 (R92). -/
def execMbxNsOutD15Read (sec : Bool) (s : State) : Host.Outcome State Fault Refusal := .next (axiRead s sec 0x4BC)
/-- Read of HT_MBX_S_OUT_D15 (R92). -/
def execMbxSOutD15Read (sec : Bool) (s : State) : Host.Outcome State Fault Refusal := .next (axiRead s sec 0x5BC)
/-- Read of HT_BEAT_NOW_LO (R541, R542). -/
def execBeatNowLoRead (sec : Bool) (s : State) : Host.Outcome State Fault Refusal := .next (axiRead s sec 0x100)
/-- Read of HT_STEP_NOW_LO (R541, R542). -/
def execStepNowLoRead (sec : Bool) (s : State) : Host.Outcome State Fault Refusal := .next (axiRead s sec 0x108)
/-- Read of HT_TAL_BEAT_LO (R541, R542). -/
def execTalBeatLoRead (sec : Bool) (s : State) : Host.Outcome State Fault Refusal := .next (axiRead s sec 0x1404)
/-- Read of HT_TAL_DATA_LO (R541, R542). -/
def execTalDataLoRead (sec : Bool) (s : State) : Host.Outcome State Fault Refusal := .next (axiRead s sec 0x1410)
/-- Read of HT_CIR_PEAK (R541). -/
def execCirPeakRead (sec : Bool) (s : State) : Host.Outcome State Fault Refusal := .next (axiRead s sec 0x910)
/-- Read of HT_ITY_FIRST (R541). -/
def execItyFirstRead (sec : Bool) (s : State) : Host.Outcome State Fault Refusal := .next (axiRead s sec 0xC1C)
/-- Read of HT_SEC_DENY (R541, R495). -/
def execSecDenyRead (sec : Bool) (s : State) : Host.Outcome State Fault Refusal := .next (axiRead s sec 0xF08)
/-- Read of HT_PWR_PEAK (R541). -/
def execPwrPeakRead (sec : Bool) (s : State) : Host.Outcome State Fault Refusal := .next (axiRead s sec 0xE14)
/-- Write of 0 to HT_SEC_CTRL (R515). -/
def execDebugUnlock (sec : Bool) (s : State) : Host.Outcome State Fault Refusal := .next (axiWrite s sec 0xF00 15 0)
/-- Write of HT_FW_RANGEi, HT_FW_PORTSi or HT_FW_ATTRi (R500). -/
def execFirewallEntryWrite (sec : Bool) (i : Fin 64) (word : Fin 3) (v : W32) (s : State) :
    Host.Outcome State Fault Refusal := .next (axiWrite s sec (0x1000 + 16 * i.val + 4 * word.val) 15 v)
/-- Write of HT_IRQ_FORCE (R544). -/
def execIrqForceWrite (sec : Bool) (v : W32) (s : State) : Host.Outcome State Fault Refusal := .next (axiWrite s sec 0x48 15 v)
/-- A write of any register (R10, R536, R537). -/
def execRegisterWrite (sec : Bool) (addr : Nat) (strb : BitVec 4) (v : W32) (s : State) :
    Host.Outcome State Fault Refusal := .next (axiWrite s sec addr strb v)
/-- ARESETn (R568): only the handshake state of the port, which holds no register, is reset. -/
def execAxiPortReset (s : State) : Host.Outcome State Fault Refusal := .next s

end Sys2Proof.Machine
end

