-- ==== Sys2Proof/Machine/Mailbox.lean ====
section
/-! DEFINITION. The mailbox messages (16 SEC R501-R505, 17 TEL R532): the boot ROM and Drielm take a message, act on
it and answer it (R578). -/

namespace Sys2Proof.Machine

/-! ### Taking and answering (R578) -/

/-- Header fields of a message (R89). -/
def msgType (m : Mbx) : Nat := (m.d[0]).toNat % 256
def msgSeq (m : Mbx) : BitVec 8 := (m.d[0]).extractLsb' 8 8
def msgLen (m : Mbx) : Nat := (m.d[0]).toNat / 65536

/-- The inbound mailbox of a pair, and the answers of it that wait. -/
def inbox (s : State) (sec : Bool) : Mbx := if sec then s.mbxSIn else s.mbxNsIn
def answers (s : State) (sec : Bool) : List Answer := if sec then s.ansS else s.ansNs

/-- Can the receiver take the message of a pair: it is committed, no answer of the pair waits, and no digest check of
the secure pair runs? -/
def takableMsg (s : State) (sec : Bool) : Bool :=
  s.power.inReset.isNone && (inbox s sec).full && (answers s sec).isEmpty && !(sec && s.boot.checking)

/-- Take the message: Full clears. -/
def takeMsg (s : State) (sec : Bool) : State :=
  if sec then { s with mbxSIn := { s.mbxSIn with full := false } }
  else { s with mbxNsIn := { s.mbxNsIn with full := false } }

/-- Queue a STATUS answer of a pair. -/
def addAnswer (s : State) (sec : Bool) (code seq : BitVec 8) : State :=
  if sec then { s with ansS := s.ansS ++ [⟨code, seq⟩] } else { s with ansNs := s.ansNs ++ [⟨code, seq⟩] }

/-- A STATUS message (Table SEC-3, Table TEL-6). -/
def statusMsg (sec : Bool) (a : Answer) (m : Mbx) : Mbx :=
  let ty : W32 := if sec then 0x81 else 0xA1
  let d0 : W32 := ty ||| (a.seq.zeroExtend 32 <<< 8) ||| 0x40000
  let d1 : W32 := a.code.zeroExtend 32 ||| (a.seq.zeroExtend 32 <<< 8)
  { m with d := ((Vector.replicate 16 (0 : W32)).set 0 d0).set 1 d1, full := true }

/-- Place the waiting answer of a pair, once its outbound mailbox is not Full (R578). -/
def placeStatus (s : State) (sec : Bool) : State :=
  if s.power.inReset.isSome then s
  else
    match sec, s.ansS, s.ansNs with
    | true, a :: r, _ => if s.mbxSOut.full then s else { s with ansS := r, mbxSOut := statusMsg true a s.mbxSOut }
    | false, _, a :: r => if s.mbxNsOut.full then s else { s with ansNs := r, mbxNsOut := statusMsg false a s.mbxNsOut }
    | _, _, _ => s

/-! ### Malformed messages (R502, R532) -/

/-- Word `i` of a message. -/
def word (m : Mbx) (i : Nat) : Nat := (m.d.toList.getD i 0).toNat

/-- Is an IMAGE_DESC payload malformed: Path, Node, Address, image length, release? -/
def imageDescBad (m : Mbx) : Bool :=
  decide (16 ≤ word m 1) || word m 2 % 64 != 0 || decide (65536 ≤ word m 5)
    || !(decide (64 ≤ word m 4 ∧ word m 4 ≤ 4194304) && word m 4 % 64 == 0)

/-- Fields of KEY_LOAD and KEY_CLEAR. -/
def keyIdx (m : Mbx) : Fin 16 := ⟨word m 1 % 16, by omega⟩
def keyUseF (m : Mbx) : Nat := word m 1 / 256 % 4
def keyPart (m : Mbx) : Nat := word m 1 / 65536 % 2
def keyLoadBad (m : Mbx) : Bool :=
  (m.d[1] &&& ~~~0x1030F#32) != 0 || !(keyUseF m == 1 || keyUseF m == 2) || (keyUseF m == 2 && keyPart m == 1)

/-- Does a secure inbound message break R502? -/
def secureBad (m : Mbx) : Bool :=
  match msgType m with
  | 0x01 => msgLen m != 20 || imageDescBad m
  | 0x02 => msgLen m != 48
  | 0x10 => msgLen m != 36 || keyLoadBad m
  | 0x11 => msgLen m != 4 || decide (16 ≤ word m 1)
  | _ => true

/-- Does a non-secure inbound message break R532? -/
def plainBad (m : Mbx) : Bool := msgType m != 0x20 || msgLen m != 8 || decide (4096 ≤ word m 2)

def msgBad (sec : Bool) (m : Mbx) : Bool := if sec then secureBad m else plainBad m

/-- Take the message of a pair and act on it. After a failed parameter check the first secure message is answered 0x06
(R555); a malformed one 0x02; `act` gives the code of any other with the state it leaves, or no code where the answer
waits for the digest check. -/
def handleMsg (s : State) (sec : Bool) (act : State → Mbx → State × Option (BitVec 8)) : State :=
  let m := inbox s sec
  let s1 := takeMsg s sec
  if sec && !s.power.paramOk then
    addAnswer { s1 with power := { s1.power with paramOk := true } } sec 0x06 (msgSeq m)
  else if msgBad sec m then addAnswer s1 sec 0x02 (msgSeq m)
  else
    match act s1 m with
    | (s2, some c) => addAnswer s2 sec c (msgSeq m)
    | (s2, none) => s2

/-- Handle a message of a Type, when one waits to be taken (DESIGN CHOICE, log 14). -/
def onMsg (s : State) (sec : Bool) (ty : Nat) (act : State → Mbx → State × Option (BitVec 8)) : State :=
  if takableMsg s sec && msgType (inbox s sec) == ty then handleMsg s sec act else s

/-! ### The Drielm image (R503, R504) -/

/-- Is the boot ROM still to verify an image: not verified, and start-up not failed (DEDUCED, log 153)? -/
def bootOpen (s : State) : Bool := !s.boot.verified && s.power.phase != 6

/-- The check starts once both messages are held; its answer carries the Seq of the message that made the pair whole. A
message that does not is answered at once as done (R578; DEDUCED, log 154). -/
def startCheck (s : State) (seq : BitVec 8) : State × Option (BitVec 8) :=
  if s.boot.desc.isSome ∧ s.boot.digest.isSome then
    ({ s with boot := { s.boot with checking := true, answerSeq := seq } }, none)
  else (s, some 0x00)

def onImageDesc (s : State) (m : Mbx) : State × Option (BitVec 8) :=
  if !bootOpen s then (s, some 0x04)
  else
    let d : Vector W32 5 := #v[m.d[1], m.d[2], m.d[3], m.d[4], m.d[5]]
    startCheck { s with boot := { s.boot with desc := some d } } (msgSeq m)

def onImageDigest (s : State) (m : Mbx) : State × Option (BitVec 8) :=
  if !bootOpen s then (s, some 0x04)
  else
    let d : Vector W32 12 :=
      #v[m.d[1], m.d[2], m.d[3], m.d[4], m.d[5], m.d[6], m.d[7], m.d[8], m.d[9], m.d[10], m.d[11], m.d[12]]
    startCheck { s with boot := { s.boot with digest := some d } } (msgSeq m)

/-- Phase 4 begins with the first site that is trained while Drielm is verified (Table PWR-2). -/
def noteSelfTest (s : State) : State :=
  if s.boot.verified ∧ s.sites.toList.any (fun x => x.state == 2) then beginPhase s 4 else s

/-- Start-up fails (R470). -/
def failStart (s : State) : State := { s with power := { s.power with phase := 6 } }

/-- The image has been fetched, or its fetch failed, and its digest compared (R503). An image of another length than
IMAGE_DESC gave is not what the fetch returns. -/
def endCheck (s : State) (fetchOk : Bool) (image : Bytes) : State :=
  match s.boot.checking, s.boot.desc, s.boot.digest with
  | true, some d, some g =>
    let s1 := { s with boot := { s.boot with checking := false, desc := none, digest := none } }
    if !fetchOk then addAnswer (failStart s1) true 0x03 s.boot.answerSeq
    else if image.length ≠ (d[3]).toNat then s
    else if sha384 image = g.toList.flatMap (fun w => leBytes 4 w.toNat) then
      let s2 := { s1 with boot := { s1.boot with verified := true, major := (d[4]).extractLsb' 0 8,
                                                 minor := (d[4]).extractLsb' 8 8 } }
      addAnswer (noteSelfTest s2) true 0x00 s.boot.answerSeq
    else addAnswer (failStart s1) true 0x01 s.boot.answerSeq
  | _, _, _ => s

/-! ### Keys (R505) -/

/-- Is a key slot in use (R505): a valid firewall entry with Encrypt names it, an encrypted layout uses it, or an
incomplete SNAPSHOT names it? -/
def keyBusy (s : State) (k : Nat) : Bool :=
  s.sec.fw.toList.any (fun e => e.attr.getLsbD 0 && e.attr.getLsbD 5 && e.attr.toNat / 256 % 16 == k)
    || s.layouts.any (fun e => e.2.enc == some k)
    || s.inflight.any (fun f => ordOp f.order == 0x32 && fld f.order 18 1 == k)

def setKey (s : State) (k : Fin 16) (x : Key) : State := { s with sec := { s.sec with keys := s.sec.keys.set k x } }

/-- Key bits of a KEY_LOAD: D2 to D9. -/
def keyBits (m : Mbx) : BitVec 256 :=
  BitVec.ofNat 256 (((List.range 8).map (fun i => word m (2 + i) * 2 ^ (32 * i))).sum)

def onKeyLoad (s : State) (m : Mbx) : State × Option (BitVec 8) :=
  let k := keyIdx m
  let x := s.sec.keys[k]
  let b := keyBits m
  let p := keyPart m
  if keyBusy s k.val then (s, some 0x05)
  else if keyUseF m = 2 then (setKey s k ⟨2, b, 0, none⟩, some 0x00)
  else
    match x.pend with
    | some (q, c) =>
      if q = p then (setKey s k { x with pend := some (p, b) }, some 0x00)
      else (setKey s k (if p = 0 then ⟨1, b, c, none⟩ else ⟨1, c, b, none⟩), some 0x00)
    | none => (setKey s k { x with pend := some (p, b) }, some 0x00)

def onKeyClear (s : State) (m : Mbx) : State × Option (BitVec 8) :=
  let k := keyIdx m
  if keyBusy s k.val then (s, some 0x05) else (setKey s k Key.empty, some 0x00)

/-- MARK (Table TEL-6): Ledger 0x0A with the Arg. -/
def onMark (s : State) (m : Mbx) : State × Option (BitVec 8) :=
  (ledAdd s 0x0A Place.none 0 (word m 1 + 2 ^ 32 * word m 2), some 0x00)

/-! ### The commands -/

/-- IMAGE_DESC taken by the boot ROM, or refused by Drielm (R503, R504). -/
def execImageDesc (s : State) : Host.Outcome State Fault Refusal := .next (onMsg s true 0x01 onImageDesc)
/-- IMAGE_DIGEST taken by the boot ROM, or refused by Drielm (R503, R504). -/
def execImageDigest (s : State) : Host.Outcome State Fault Refusal := .next (onMsg s true 0x02 onImageDigest)
/-- The digest check ends (R503). -/
def execDigestCheckEnd (fetchOk : Bool) (image : Bytes) (s : State) : Host.Outcome State Fault Refusal :=
  .next (endCheck s fetchOk image)
/-- KEY_LOAD (R505). -/
def execKeyLoad (s : State) : Host.Outcome State Fault Refusal := .next (onMsg s true 0x10 onKeyLoad)
/-- KEY_CLEAR (R505). -/
def execKeyClear (s : State) : Host.Outcome State Fault Refusal := .next (onMsg s true 0x11 onKeyClear)
/-- MARK (R532). -/
def execMark (s : State) : Host.Outcome State Fault Refusal := .next (onMsg s false 0x20 onMark)
/-- STATUS placed in an outbound mailbox (R578). -/
def execStatus (sec : Bool) (s : State) : Host.Outcome State Fault Refusal := .next (placeStatus s sec)

/-- A malformed message of a pair is taken and answered 0x02 (R502, R532). -/
def takeBad (s : State) (sec : Bool) : State :=
  if takableMsg s sec && msgBad sec (inbox s sec) then handleMsg s sec (fun t _ => (t, none)) else s

/-- MAILBOX_MESSAGE_MALFORMED. -/
def execMailboxMessageMalformed (sec : Bool) (s : State) : Host.Outcome State Fault Refusal := .next (takeBad s sec)

end Sys2Proof.Machine
end

