-- ==== Sys2Proof/Machine/Beats.lean ====
section
/-! DEFINITION. The beat input (02 BEA Table BEA-1, R24) and what begins or ends with a beat: Tally latches (R522, R524),
serves whose due beat ends (R294), pulls without data (R293), an UPD_OPEN that waits past its beat (R281). -/

namespace Sys2Proof.Machine

/-! ### The Tally latch (R522, R524, R518) -/

/-- Reduction slots and seam entries held now, of every update. -/
def heldOf (s : State) (f : Upd → Nat) : Nat := (s.layouts.map (fun e => (e.2.shard.upd.map f).getD 0)).sum
def slotsHeld (s : State) : Nat := heldOf s (fun u => u.tiles.length)
def seamHeld (s : State) : Nat := heldOf s (fun u => u.seam.length)

/-- Latch the named groups: one instant, one generation; the two levels of group 1 restart. -/
def latchGroups (s : State) (groups : Nat) : State :=
  let t := s.tally
  let gen := (t.gen + 1) % 65536
  let sh := (List.range 7).flatMap (fun g =>
    (if groups.testBit g then t.ctr else t.shadow).filter (fun e => groupOf e.1 == g))
  let gg := (List.range 7).foldl (fun m g => if groups.testBit g then kvPut m g gen else m) t.groupGen
  let ctr := if groups.testBit 1 then kvPut (kvPut t.ctr 68 (slotsHeld s % ctrMod)) 75 (seamHeld s % ctrMod) else t.ctr
  { s with tally := { t with ctr := ctr, shadow := sh, groupGen := gg, gen := gen, latchBeat := s.beat.now } }

/-- Does an order wait for its latch in the current beat (R522, R524)? -/
def toLatch (s : State) (f : InFlight) : Bool :=
  (match f.ctx with
   | .tally none => true
   | _ => false) && decide (f.due ≤ s.beat.now)

/-- The latch of a beat: the union of the groups of every TALLY due. -/
def latchTallies (s : State) : State :=
  if s.inflight.any (toLatch s) then
    let groups := (s.inflight.filter (toLatch s)).foldl (fun a f => a ||| fld f.order 16 2 % 128) 0
    let s1 := latchGroups s groups
    { s1 with inflight := s1.inflight.map (fun f =>
        if toLatch s f then { f with ctx := .tally (some (s.beat.now, s1.tally.gen)) } else f) }
  else s

/-! ### Waiting UPD_OPENs (R281) -/

/-- Refuse every UPD_OPEN that waits and can no longer be promised. -/
def refuseWaiting (s : State) : State :=
  if s.cfg.period = 0 then s
  else
    let k := spanK s.cfg.period
    s.waiting.foldl (fun st w =>
      if ordDue w.order < st.beat.now + k then
        let r := ringOf w.ring
        let s1 := { st with waiting := st.waiting.filter (fun v => v.ring != w.ring) }
        let s2 := ledAdd s1 0x06 Place.none (uoLayout w.order) (uoSlot w.order % 8)
        refuseOrder s2 r w.idx w.order 0x12 0 (st.beat.now + k)
      else st) s

/-! ### Fetches -/

/-- Beats without data of a pull, as beat `p` (begun at tick `start`) up to `n - 1` end: 0 until its due beat ends with
no data received, then one more than the beats since without data (R293; DEDUCED, log 130). -/
def pullIdle (f : InFlight) (start p n : Nat) : OrderCtx :=
  match f.ctx with
  | .pull got last retry idle reason =>
    if n ≤ f.due then f.ctx
    else if p ≤ f.due then (if got = [] then .pull got last retry (n - f.due) reason else f.ctx)
    else if idle = 0 then f.ctx
    else if start ≤ last then .pull got last retry (n - p) reason
    else .pull got last retry (idle + (n - p)) reason
  | c => c

/-- Serves whose due beat ends with the strobe of beat `n` (R294; DEDUCED, log 131). -/
def endServes (s : State) (n : Nat) : State :=
  (s.inflight.filter (fun f => ordOp f.order == 0x31 && !isPull f.order && decide (f.due < n))).foldl
    (fun st f => endOrder st f (servePerf st f true)) s

/-! ### Strobes -/

/-- Record a step number (R24). -/
def recordStep (s : State) : Option (BitVec 40) → State
  | none => s
  | some x =>
    let jump := s.beat.stepValid && x.toNat != s.beat.step + 1
    let s1 := { s with beat := { s.beat with step := x.toNat, stepValid := true } }
    if jump then ledAdd { s1 with beat := { s1.beat with status := s1.beat.status ||| 16 } } 0x04 Place.none 0 x.toNat
    else s1

/-- Adopt beat `n`: it begins now (DEDUCED, log 155). -/
def adoptBeat (s : State) (n : Nat) : State :=
  count { s with beat := { s.beat with valid := true, now := n, start := s.ts } } 0 1

def beatStatus (s : State) (bits : W32) : State := { s with beat := { s.beat with status := s.beat.status ||| bits } }

/-- A strobe after the first that is adopted (Table BEA-1; DESIGN CHOICE, log 53). -/
def nextBeat (s : State) (n : Nat) (step : Option (BitVec 40)) : State :=
  let p := s.beat.now
  let len := s.ts - s.beat.start
  let start := s.beat.start
  let short := s.cfg.period != 0 && decide (64 * len < 63 * s.cfg.period)
  let jump := decide (p + 1 < n)
  let s0 := endServes (settle s) n
  let s1 := adoptBeat { s0 with
    beat := { s0.beat with measured := BitVec.ofNat 32 (Nat.min len 0xFFFFFFFF) },
    inflight := s0.inflight.map (fun f => { f with ctx := pullIdle f start p n }) } n
  let s2 := if jump then ledAdd (beatStatus s1 1) 0x01 Place.none 0 n else s1
  let s3 := recordStep (if short then beatStatus s2 4 else s2) step
  let s4 := if jump || short then lateCheck s3 6 else s3
  refuseWaiting (lateAtStrobe (latchTallies s4))

/-- A strobe (Table BEA-1). The block takes none in while it is in reset (DESIGN CHOICE, log 54). -/
def strobe (s : State) (n : Nat) (step : Option (BitVec 40)) : State :=
  if s.power.inReset.isSome then s
  else batch s fun s =>
    let s0 := { s with beat := { s.beat with lastStrobe := s.ts } }
    if !s.beat.valid then refuseWaiting (latchTallies (recordStep (adoptBeat s0 n) step))
    else if n ≤ s.beat.now then count (ledAdd (beatStatus s0 2) 0x02 Place.none 0 n) 1 1
    else nextBeat s0 n step

/-- BEAT_STROBE. -/
def execBeatStrobe (n : BitVec 48) (step : Option (BitVec 40)) (s : State) : Host.Outcome State Fault Refusal :=
  .next (strobe s n.toNat step)

/-- No strobe for 16 beat periods (Table BEA-1). -/
def stopped (s : State) : State :=
  if s.beat.valid ∧ s.cfg.period ≠ 0 ∧ 16 * s.cfg.period ≤ s.ts - s.beat.lastStrobe then
    ledAdd (beatStatus s 8) 0x03 Place.none 0 0
  else s

/-- SEQUENCER_STOPPED. -/
def execSequencerStopped (s : State) : Host.Outcome State Fault Refusal := .next (stopped s)

end Sys2Proof.Machine
end

