-- ==== Sys2Proof/Machine/Tiles.lean ====
section
/-! DEFINITION. Contributions (06 UPD, R180-R191): classification of tile packets, addition into reduction slots, and what
follows when a tile is ripe. -/

namespace Sys2Proof.Machine

/-! ### Where a request comes from -/

/-- World of a requester request (R494): secure where neither the fabric's attribute nor the port's tie-off REQ_NS says
otherwise; exchange-port traffic is non-secure. -/
def originSecure (s : State) : Origin → Bool
  | .port p ns => !ns && !s.par.reqNs.getLsbD p.val
  | .node _ => false

/-- Firewall port bit of an origin. -/
def originBit : Origin → Nat
  | .port p _ => 2 ^ p.val
  | .node _ => 65536

/-- Count bytes inbound at the port an origin arrives by. -/
def countOrigin (s : State) (o : Origin) (n : Nat) : State :=
  match o with
  | .port p _ => count s (128 + p.val) n
  | .node _ => count s 160 n

/-- A port that failed its loopback completes every request with UNMAPPED (Table PWR-3). -/
def portBad (s : State) : Origin → Bool
  | .port p _ => s.power.badPorts.getLsbD p.val
  | .node _ => false

/-- Are messages from the exchange port not accepted (Table PWR-3)? -/
def xchBad (s : State) : Bool := s.power.selfTest.getLsbD 21

/-- Send a completion of a non-posted request, under a fresh request number. -/
def completeReq (s : State) (o : Origin) (c : Cpl) (data : Bytes) : State :=
  { send s (.completion o s.nextReq c data) with nextReq := s.nextReq + 1 }

/-! ### Fields of a tile header (Table UPD-5) -/

def tiLayout (h : Order) : Nat := fld h 2 2
def tiStep (h : Order) : Nat := fld h 4 5
def tiAttempt (h : Order) : Nat := fld h 9 1
def tiContrib (h : Order) : Nat := fld h 10 2
def tiIndex (h : Order) : Nat := fld h 12 4
def tiCrc (h : Order) : Nat := fld h 20 4

/-- Tiles of a shard in the published order (R110). -/
def publishedTiles (ly : Layout) (g : Geo) : List Nat :=
  if ly.arrivalDesc then (List.range g.tiles).reverse else List.range g.tiles

/-- The front: the first tile in the published order that is not ripe (R183). -/
def frontTile (ly : Layout) (g : Geo) (u : Upd) : Option Nat := (publishedTiles ly g).find? (fun t => !kvHas u.ripe t)

/-- Elements that a tile holds of the shard. -/
def tileLen (g : Geo) (t : Nat) : Nat := Nat.min 8192 (g.parcels * g.n - t * 8192)

/-- How a packet is classified (R183). -/
inductive TileVerdict where
  /-- answered at once with a code. -/
  | ack (code : Nat)
  /-- refused by the firewall. -/
  | denied
  /-- a copy of a contribution that is still being added. -/
  | await
  /-- added into a slot. -/
  | take
deriving DecidableEq, Repr

/-- Classification of a packet of an open step with the right attempt (R183, R185). -/
def classifyOpen (ly : Layout) (g : Geo) (u : Upd) (h : Order) : TileVerdict :=
  let t := tiIndex h
  let c := tiContrib h
  if u.d ≤ c ∨ g.tiles ≤ t then .ack 0x15
  else if kvHas u.ripe t then .ack ackDup
  else
    match kvGet u.tiles t with
    | some x =>
      if x.adding.any (fun a => a.contrib == c) then .await
      else if x.bits.contains c then .ack ackDup
      else .take
    | none => if frontTile ly g u ≠ some t ∧ u.share - u.tiles.length ≤ 1 then .ack 0x12 else .take

/-- Classification of a tile packet (R183). -/
def classifyTile (s : State) (src : Origin) (h : Order) (payload : Bytes) : TileVerdict :=
  if fld h 0 1 ≠ 0xA1 ∨ fld h 1 1 ≠ 0x01 ∨ nonZero h (span 24 63) ≠ [] then .ack 0x17
  else if (crc32c payload).toNat ≠ tiCrc h then .ack 0x10
  else
    match getLayout s (tiLayout h) with
    | none => .ack 0x14
    | some ly =>
      if ly.kind ≠ 1 then .ack 0x14
      else if !fwOk s (tiLayout h) ⟨originSecure s src, originBit src, false, false, true⟩ then .denied
      else
        let sh := ly.shard
        if tiStep h ≤ sh.step then .ack ackDup
        else if tiStep h ≠ sh.step + 1 then .ack 0x15
        else
          match sh.st, sh.upd with
          | .isOpen, some u => if tiAttempt h ≠ u.attempt then .ack 0x13 else classifyOpen ly (ly.geo s) u h
          | _, _ => if sh.aborted = some (tiStep h, tiAttempt h) then .ack 0x13 else .ack 0x11

/-- Change the update of a layout. -/
def modUpd (s : State) (id : Nat) (f : Upd → Upd) : State := modShard s id (fun h => { h with upd := h.upd.map f })

/-- A tile record for a slot just taken: +0 in every element (R188). -/
def newTile (n : Nat) : Tile := ⟨[], [], List.replicate n 0⟩

/-- A contribution begins to be added: its slot is taken where the tile has none, and its bit is set (R183, R187). -/
def beginAdd (s : State) (src : Origin) (h : Order) (payload : Bytes) : State :=
  match getLayout s (tiLayout h) with
  | none => s
  | some ly =>
    let g := ly.geo s
    let t := tiIndex h
    let s1 := modUpd s (tiLayout h) (fun u =>
      let x := (kvGet u.tiles t).getD (newTile (tileLen g t))
      let y : Tile := ⟨x.bits ++ [tiContrib h], x.adding ++ [⟨tiContrib h, src, h, payload, []⟩], x.acc⟩
      { u with tiles := kvPut u.tiles t y })
    countHigh s1 68 (slotsHeld s1)

/-- A copy waits for the addition of its contribution (R184). -/
def addDup (s : State) (src : Origin) (h : Order) : State :=
  modUpd s (tiLayout h) (fun u =>
    match kvGet u.tiles (tiIndex h) with
    | some x =>
      let y : Tile := ⟨x.bits, x.adding.map (fun a =>
        if a.contrib = tiContrib h then { a with dups := a.dups ++ [(src, h)] } else a), x.acc⟩
      { u with tiles := kvPut u.tiles (tiIndex h) y }
    | none => u)

/-- Is an origin a requester port? -/
def atPort (p : PortId) : Origin → Bool
  | .port q _ => q == p
  | .node _ => false

/-- Tile writes of a port whose acknowledgement, which is their completion, has not left (R182, R184). -/
def tilesPending (s : State) (p : PortId) : Nat :=
  (s.layouts.map (fun e => ((e.2.shard.upd.map (fun u => (u.tiles.map (fun t => (t.2.adding.map (fun a =>
    (if atPort p a.src then 1 else 0) + (a.dups.filter (fun d => atPort p d.1)).length)).sum)).sum)).getD 0))).sum

/-- Non-posted requests outstanding at the port of an origin (R340). -/
def outstandingAt (s : State) (o : Origin) : Nat :=
  match o with
  | .port p _ => (s.outst.filter (fun r => atPort p r.origin && !r.posted)).length + tilesPending s p
  | .node _ => 0

/-- Does the block accept a non-posted request now: out of reset, with credit left (R340, R489)? -/
def accepts (s : State) (o : Origin) : Bool := s.power.inReset.isNone && decide (outstandingAt s o < 4096)

/-- Take in a tile packet (R182-R184). -/
def takeTile (s : State) (src : Origin) (h : Order) (payload : Bytes) : State :=
  match classifyTile s src h payload with
  | .ack c => sendTileAck s src c h
  | .denied => sendTileAck (fwDeny s (tiLayout h)) src 0x16 h
  | .await => addDup s src h
  | .take => beginAdd s src h payload

/-- A tile packet arrives: at a requester port as a write of the tile intake window (Table MEM-1, R558), at the exchange
port as a message of the tile class (DEDUCED, log 134). -/
def tileArrives (s : State) (src : Origin) (offset : Nat) (h : Order) (payload : Bytes) : State :=
  if !accepts s src then s
  else
    match src with
    | .port .. =>
      let s1 := countOrigin s src (64 + payload.length)
      if portBad s src || offset % 32768 != 0 || decide (1048576 ≤ offset) || payload.length != 16384 then
        completeReq s1 src .unmapped []
      else takeTile s1 src h payload
    | .node n =>
      if xchBad s || payload.length != 16384 then s
      else takeTile (countOrigin (hearFrom s n.toNat) src (64 + payload.length)) src h payload

/-- TILE_PACKET. -/
def execTilePacket (src : Origin) (offset : Nat) (hdr : Order) (payload : Bytes) (s : State) :
    Host.Outcome State Fault Refusal := .next (tileArrives s src offset hdr payload)

/-! ### Addition and ripeness (R188-R191, R244) -/

/-- Element i of a payload of BF16. -/
def payloadAt (b : Bytes) (i : Nat) : Nat := (b.getD (2 * i) 0).toNat + 256 * (b.getD (2 * i + 1) 0).toNat

/-- Is shard index x a real element (R107, R108)? -/
def realAt (ly : Layout) (g : Geo) (x : Nat) : Bool := (elemAt g.n ly.segs x).isSome

/-- The slot with a contribution added, element by element; +0 in place of padding (R188). -/
def addPayload (ly : Layout) (g : Geo) (t : Nat) (acc : List W32) (payload : Bytes) : List W32 :=
  acc.zipIdx.map (fun a => fadd a.1 (if realAt ly g (8192 * t + a.2) then widen bf16 (payloadAt payload a.2) else 0))

/-- The dispatched gradient of an element from its slot value (R189): one rounding of the exact product. -/
def formG (u : Upd) (x : W32) : BitVec 16 :=
  let n := num32 x
  let y := if u.clip then
      match n, num32 u.clipFactor with
      | .fin n1 m1 e1, .fin n2 m2 e2 => Num.fin (n1 != n2) (m1 * m2) (e1 + e2)
      | v, _ => v
    else n
  BitVec.ofNat 16 (narrowInf bf16 y)

/-- Is a BF16 encoding non-finite? -/
def nonFin16 (x : BitVec 16) : Bool := x.extractLsb' 7 8 == 0xFF

/-- Sum of squares of a tile over its real, finite elements in element order, in FP32 (R190). -/
def tileSumSq (ly : Layout) (g : Geo) (t : Nat) (acc : List W32) : W32 :=
  acc.zipIdx.foldl (fun a x =>
    if realAt ly g (8192 * t + x.2) && isFin32 x.1 then fadd a (fmul x.1 x.1) else a) 0

/-- The reduced gradient of a tile; padding is +0. -/
def tileSum (ly : Layout) (g : Geo) (t : Nat) (acc : List W32) : List W32 :=
  acc.zipIdx.map (fun a => if realAt ly g (8192 * t + a.2) then a.1 else 0)

/-- The part of a parcel's reduced gradient that lies in tile t. -/
def parcelPart (g : Geo) (t q : Nat) (grad : List W32) : List W32 :=
  let lo := Nat.max (q * g.n) (t * 8192)
  let hi := Nat.min ((q + 1) * g.n) ((t + 1) * 8192)
  (grad.drop (lo - t * 8192)).take (hi - lo)

/-- Does parcel q lie in one tile alone? -/
def inOneTile (g : Geo) (q : Nat) : Bool := q * g.n / 8192 == ((q + 1) * g.n - 1) / 8192

/-- Hand a parcel's part to its parcel: ready when its other tile is ripe, else to the seam (R191, R111). The gradient
that is dispatched is formed from the reduced one (R189). -/
def handParcel (g : Geo) (t : Nat) (grad : List W32) (u : Upd) (q : Nat) : Upd :=
  let part := parcelPart g t q grad
  if inOneTile g q then { u with ready := kvPut u.ready q (part.map (formG u)) }
  else
    match kvGet u.seam q with
    | some (t', other) =>
      let full := if t' < t then other ++ part else part ++ other
      { u with ready := kvPut u.ready q (full.map (formG u)), seam := kvDel u.seam q }
    | none => { u with seam := kvPut u.seam q (t, part) }

/-- A tile is ripe (R189-R191): its slot is freed, and its parcels become ready, or wait in the seam. Under HoldTile a
tile with a non-finite element is held, and the first one ends the step (R212, R244). -/
def ripen (s : State) (id t : Nat) (ly : Layout) (u : Upd) (x : Tile) : State :=
  let g := ly.geo s
  let grad := tileSum ly g t x.acc
  let bad := (grad.filter (fun v => nonFin16 (formG u v))).length
  let u1 := { u with tiles := kvDel u.tiles t, ripe := kvPut u.ripe t true,
                     sumSq := fadd u.sumSq (tileSumSq ly g t x.acc) }
  if u.holdTile ∧ bad ≠ 0 then
    stopUpdate id 1 (u.heldTiles + 1)
      (modUpd s id (fun _ => { u1 with heldTiles := u.heldTiles + 1, nfGrad := u.nfGrad + bad }))
  else
    let s1 := modUpd s id (fun _ => (tileParcels g t).foldl (handParcel g t grad) u1)
    countHigh s1 75 (seamHeld s1)

/-- A contribution has been added into its slot: it is acknowledged, and its tile is ripe if it was the last (R184). -/
def finishAdd (s : State) (id t c : Nat) : State :=
  match getLayout s id with
  | none => s
  | some ly =>
    match ly.shard.upd with
    | none => s
    | some u =>
      match kvGet u.tiles t with
      | none => s
      | some x =>
        -- contributions are added in the order they arrive (R188)
        match x.adding.head?.filter (fun a => a.contrib == c) with
        | none => s
        | some a =>
          let g := ly.geo s
          let x1 : Tile := ⟨x.bits, x.adding.filter (fun b => b.contrib != c), addPayload ly g t x.acc a.payload⟩
          let isNode := match a.src with
            | .node _ => true
            | .port .. => false
          let u1 := { u with tiles := kvPut u.tiles t x1, gotLocal := u.gotLocal + (if isNode then 0 else 1),
                             gotRemote := u.gotRemote + (if isNode then 1 else 0) }
          let s1 := ackAdded (modUpd s id (fun _ => u1)) a
          if x1.bits.length = u.d ∧ x1.adding = [] then
            match getLayout s1 id with
            | some ly1 => ripen s1 id t ly1 u1 x1
            | none => s1
          else s1

/-- TILE_CONTRIBUTION_ADDED. -/
def execTileContributionAdded (layout tile contrib : Nat) (s : State) : Host.Outcome State Fault Refusal :=
  .next (finishAdd s layout tile contrib)

end Sys2Proof.Machine
end

