-- ==== Sys2Proof/Machine/Target.lean ====
section
/-! DEFINITION. Accesses by address (11 MEM, R337-R357): what an address names, the statuses of Table MEM-2, how an access is
performed, and its wait for the close of a commit window. -/

namespace Sys2Proof.Machine

/-! ### Addresses (R337, R338, R556) -/

/-- What a requester address names. -/
inductive Target where
  | ring (off : Nat)
  | stage (off : Nat)
  | area (id : Nat) (area off : Nat)
deriving DecidableEq, Repr

/-- Are the bytes of a ring-window access mapped (R556)? -/
def ringMapped (s : State) (off n : Nat) : Bool :=
  let r := off / 0x800000
  let o := off % 0x800000
  let d := 2 ^ (s.rings[ringOf r]).depth
  decide (r < 4) && (decide (o + n ≤ 64 * d) || decide (0x400000 ≤ o ∧ o + n ≤ 0x400000 + 32 * d))

/-- The window an address lies in; narrow requests and atomics have the layout window alone (Table MEM-1). -/
def targetOf (s : State) (wide : Bool) (addr n : Nat) : Option Target :=
  let p := s.par
  if p.winLayout ≤ addr ∧ addr < p.winLayout + 2 ^ 56 then
    let a := addr - p.winLayout
    some (.area (a / 2 ^ 44) (a / 2 ^ 40 % 16) (a % 2 ^ 40))
  else if wide && decide (p.winRing ≤ addr) && ringMapped s (addr - p.winRing) n then some (.ring (addr - p.winRing))
  else if wide && decide (p.winStage ≤ addr ∧ addr + n ≤ p.winStage + 4194304) then some (.stage (addr - p.winStage))
  else none

/-- Size and alignment of a wide request (Table MEM-1). -/
def wideOk (addr n : Nat) : Bool :=
  decide (64 ≤ n ∧ n ≤ 4096) && n % 64 == 0 && addr % 64 == 0 && addr / 4096 == (addr + n - 1) / 4096

/-- Size and alignment of a narrow request (Table MEM-1). -/
def narrowOk (addr n : Nat) : Bool := (n == 8 || n == 16 || n == 32) && addr % n == 0

/-- Kinds of access that Table MEM-2 tells apart. -/
inductive ReqKind where
  | read | write | atomic
deriving DecidableEq, Repr

/-- The status of an access that names a layout, short of POISON, and whether the firewall denied it (R338, R339). -/
def judgeArea (s : State) (o : Origin) (k : ReqKind) (id area off n : Nat) : Cpl × Bool :=
  match getLayout s id with
  | none => (.unmapped, false)
  | some ly =>
    match areaLen s ly area with
    | none => (.unmapped, false)
    | some len =>
      if len < off + n then (.unmapped, false)
      else if !fwOk s id ⟨originSecure s o, originBit o, k == .read, k != .read, false⟩ then (.denied, true)
      else if (k != .read && area != 0) || (k == .atomic && ly.isOpen) then (.denied, false)
      else if rangeLost s ly area off n then (.lost, false)
      else (.ok, false)

/-- Status of any access (DEDUCED, log 161). -/
def judgeAccess (s : State) (o : Origin) (k : ReqKind) (fits wide : Bool) (addr n : Nat) : Option Target × Cpl × Bool :=
  if portBad s o || !fits then (none, .unmapped, false)
  else
    match targetOf s wide addr n with
    | none => (none, .unmapped, false)
    | some (.area id a off) => (some (.area id a off), judgeArea s o k id a off n)
    | some t => (some t, .ok, false)

/-- Count bytes outbound at the port of an origin. -/
def countOut (s : State) (o : Origin) (n : Nat) : State :=
  match o with
  | .port p _ => count s (144 + p.val) n
  | .node _ => count s 161 n

/-- Send the completion of a request to its origin (R339). -/
def sendCpl (s : State) (o : Origin) (id : Nat) (c : Cpl) (data : Bytes) : State :=
  let s1 := countOut s o data.length
  match o with
  | .port .. => send s1 (.completion o id c data)
  | .node n => sendX s1 n.toNat (.completion o id c data)

/-- A request that is refused completes at once. -/
def refuseReq (s : State) (o : Origin) (c : Cpl) : State :=
  sendCpl { s with nextReq := s.nextReq + 1 } o s.nextReq c []

/-! ### Arbitration points (R345) -/

/-- Key of an arbitration point. -/
def arbKey : ArbPt → Nat
  | .channel x c => x.val * 32 + c.val
  | .slice i => 1000 + i.val
  | .portIn p => 2000 + p.val
  | .portOut p => 2100 + p.val
  | .xchIn => 2200
  | .xchOut => 2201

def Arb.empty : Arb := ⟨0, 0, 0, []⟩

def getArb (s : State) (k : Nat) : Arb := kvGetD s.arb k Arb.empty

/-- A request waits at an arbitration point. -/
def enqueue (s : State) (k cls id : Nat) : State :=
  let a := getArb s k
  { s with arb := kvPut s.arb k { a with waiting := a.waiting ++ [⟨cls, id⟩] } }

/-- Points a request passes: the channel of its first column or, with no column to fetch, the Awning slice of its line;
and the direction of its port that carries its data (DESIGN CHOICE, log 34). -/
def pointsOf (o : Origin) (write : Bool) (addr : Nat) (cols : List Nat) : List Nat :=
  let mem := match cols with
    | k :: _ => keySite k * 32 + keyCh k
    | [] => 1000 + addr / 256 % 64
  let dir := match o, write with
    | .port p _, true => 2000 + p.val
    | .port p _, false => 2100 + p.val
    | .node _, true => 2200
    | .node _, false => 2201
  [mem, dir]

/-- Class of an access (Table MEM-3): the attribute on a write is ignored. -/
def clsOf (crit : Bool) : Nat := if crit then 0 else 2

/-- Is the area a version slot that is not Readable (R277)? -/
def notReadable (ly : Layout) (area : Nat) : Bool :=
  area != 0 && (match ly.slotSt.getD (area - 1) .released with
    | .readable _ => false
    | _ => true)

/-- Count a narrow access's lookup of the cache (R353, R366). -/
def lookup (s : State) (id : Nat) (ly : Layout) (area off : Nat) : State :=
  if cacheable ly area then count s (if kvHas s.cache (lineKey id area off) then 64 else 65) 1 else s

/-! ### Performing an access (R353, R354, R366) -/

/-- The layout, area, offset and length of an access that has yet to be performed. -/
def ReqOp.place : ReqOp → Nat × Nat × Nat × Nat
  | .read id a off n => (id, a, off, n)
  | .write id a off d => (id, a, off, d.length)
  | .atomic id a off n .. => (id, a, off, n)

/-- Columns that an access fetches or writes. A wide write goes through the cache where it can. -/
def opCols (s : State) (narrow : Bool) (p : ReqOp) : List Nat :=
  let (id, a, off, n) := p.place
  match getLayout s id, p with
  | some ly, .write .. => if narrow then rangeCols s ly a off n else missCols s id ly true a off n
  | some ly, _ => missCols s id ly (!narrow) a off n
  | none, _ => []

/-- Read bytes of an area: undefined ones from a slot that is not Readable (R277) or a queue slot that is not Full
(R330); the state after it, the bytes, and whether they are good. -/
def readPlace (s : State) (narrow : Bool) (id a off n : Nat) : State × Bytes × Bool :=
  match getLayout s id with
  | none => (s, [], true)
  | some ly =>
    let s0 := bump (noteOpenReads s (missCols s id ly (!narrow) a off n))
    if notReadable ly a then (s0, (List.range n).map (fun i => undefByte s (off + i)), true)
    else if narrow then
      let r := areaRead s id ly a off n
      (lookup s0 id ly a off, maskQueue s id a off r.1, r.2)
    else
      let r := reqRead s0 id ly a off n
      (r.1, maskQueue s id a off r.2.1, r.2.2)

/-- Write bytes of an area. A narrow write reads and writes the block of its bytes (R366); a wide one fills the lines
that it allocates (DEDUCED, log 159). -/
def writePlace (s : State) (narrow : Bool) (id a off : Nat) (d : Bytes) : State :=
  match getLayout s id with
  | none => s
  | some ly =>
    let s0 := noteOpenReads s (if narrow || cacheable ly a then missCols s id ly (!narrow) a off d.length else [])
    if narrow then areaWrite (lookup s0 id ly a off) id ly a off d else reqWrite s0 id ly a off d

/-- Store the new value of an atomic in its line, which the read of the old value left in the cache. -/
def storeAtomic (s : State) (id area off : Nat) (b : Bytes) : State :=
  match getLayout s id, kvGet s.cache (lineKey id area off) with
  | some _, some l =>
    let o := off % 256
    { s with cache := kvPut s.cache (lineKey id area off) ⟨true, l.data.take o ++ b ++ l.data.drop (o + b.length)⟩ }
  | some ly, none => stackWrite s id ly area off b
  | none, _ => s

/-- A 32-bit function on the numbers of two words. -/
def on32 (f : W32 → W32 → W32) (x old : Nat) : Nat := (f (BitVec.ofNat 32 old) (BitVec.ofNat 32 x)).toNat

/-- The new value of an atomic of `n` bytes (Table MEM-7). -/
def AtomKind.apply (k : AtomKind) (n cmp x old : Nat) : Nat :=
  match k with
  | .fadd => on32 Machine.fadd x old
  | .fmax => on32 Machine.fmax x old
  | .fmin => on32 Machine.fmin x old
  | .iadd => (old + x) % 2 ^ (8 * n)
  | .swap => x
  | .cas => if old = cmp then x else old

/-- An atomic: the old value is returned, the new one stored at the Awning slice. An error in the bytes read leaves them
as they are (R357; DEDUCED, log 160). -/
def atomicPlace (s : State) (id a off n : Nat) (k : AtomKind) (cmp x : Nat) : State × Bytes × Bool :=
  let r := readPlace s false id a off n
  if r.2.2 then (count (storeAtomic r.1 id a off (leBytes n (k.apply n cmp x (leNat r.2.1)))) 66 1, r.2.1, true) else r

/-- Perform an access: the state after it, the data, and the status. One whose layout has been freed meanwhile completes
with UNMAPPED (Table MEM-11; DEDUCED, log 158). -/
def performOp (s : State) (narrow : Bool) (p : ReqOp) : State × Bytes × Cpl :=
  if (getLayout s p.place.1).isNone then (s, [], .unmapped)
  else
    match p with
    | .read id a off n => let r := readPlace s narrow id a off n; (r.1, r.2.1, if r.2.2 then .ok else .poison)
    | .write id a off d => (writePlace s narrow id a off d, [], .ok)
    | .atomic id a off n k cmp x =>
      let r := atomicPlace s id a off n k cmp x
      (r.1, r.2.1, if r.2.2 then .ok else .poison)

/-! ### Acceptance, and the close of windows (R16, R150, R341) -/

/-- Must an access wait: a commit window is open on a pair that it touches, or an access accepted before it and not yet
performed touches a column of its own (R150, R341) (DEDUCED, log 68)? -/
def mustWait (s : State) (before : List PendReq) (cols : List Nat) : Bool :=
  cols.any (fun k => windowOn s k || before.any (fun r => r.op.isSome && r.cols.any (fun c => c / 2 == k / 2)))

/-- An accepted access waits for its service at its points, and for its completion unless it is posted. It is performed
now, or once no window keeps it out. -/
def awaitService (s : State) (o : Origin) (cls : Nat) (narrow posted write : Bool) (addr : Nat) (p : ReqOp) : State :=
  let id := s.nextReq
  let cols := opCols s narrow p
  let wait := mustWait s s.outst cols
  let r : State × Bytes × Cpl := if wait then (s, [], .ok) else performOp s narrow p
  let s1 := (pointsOf o write addr cols).foldl (fun st k => enqueue st k cls id) { r.1 with nextReq := id + 1 }
  if posted && !wait then s1
  else { s1 with outst := s1.outst ++ [⟨id, o, narrow, posted, r.2.2, r.2.1, false, cols, if wait then some p else none⟩] }

/-- Columns of an access to the ring or staging window: none; it is complete in the Awning. -/
def awaitAwning (s : State) (o : Origin) (cls : Nat) (posted write : Bool) (addr : Nat) (data : Bytes) : State :=
  let id := s.nextReq
  let s1 := (pointsOf o write addr []).foldl (fun st k => enqueue st k cls id) { s with nextReq := id + 1 }
  if posted then s1 else { s1 with outst := s1.outst ++ [⟨id, o, false, false, .ok, data, false, [], none⟩] }

/-- One access that waited, with those before it: performed where nothing keeps it out any more. A posted write is then
done with. -/
def performOne (acc : State × List PendReq) (r : PendReq) : State × List PendReq :=
  match r.op with
  | none => (acc.1, acc.2 ++ [r])
  | some p =>
    if mustWait acc.1 acc.2 r.cols then (acc.1, acc.2 ++ [r])
    else
      let x := performOp acc.1 r.narrow p
      if r.posted then (x.1, acc.2) else (x.1, acc.2 ++ [{ r with cpl := x.2.2, data := x.2.1, op := none }])

/-- At the close of a window: the accesses that waited are performed in the order of acceptance. -/
def performPending (s : State) : State :=
  let r := s.outst.foldl performOne ({ s with outst := [] }, [])
  { r.1 with outst := r.2 }

/-- A read is accepted: UNMAPPED, DENIED and LOST complete at once. -/
def acceptRead (s : State) (o : Origin) (crit narrow fits : Bool) (addr n : Nat) : State :=
  match judgeAccess s o .read fits (!narrow) addr n with
  | (some (.ring off), .ok, _) => awaitAwning s o (clsOf crit) false false addr (memReadN s.awn off n)
  | (some (.stage off), .ok, _) => awaitAwning s o (clsOf crit) false false addr (memReadN s.stage off n)
  | (some (.area id a off), .ok, _) => awaitService s o (clsOf crit) narrow false false addr (.read id a off n)
  | (some (.area id _ _), c, true) => refuseReq (fwDeny s id) o c
  | (_, c, _) => refuseReq s o c

/-- Refuse a write: a posted one has no completion. -/
def refuseWrite (s : State) (o : Origin) (posted : Bool) (c : Cpl) : State := if posted then s else refuseReq s o c

/-- A write is accepted: its bytes take effect in the order of acceptance (R341). -/
def acceptWrite (s : State) (o : Origin) (posted narrow fits : Bool) (addr : Nat) (data : Bytes) : State :=
  match judgeAccess s o .write fits (!narrow) addr data.length with
  | (some (.ring off), .ok, _) => awaitAwning { s with awn := memWriteN s.awn off data } o 2 posted true addr []
  | (some (.stage off), .ok, _) => awaitAwning { s with stage := memWriteN s.stage off data } o 2 posted true addr []
  | (some (.area id a off), .ok, _) => awaitService s o 2 narrow posted true addr (.write id a off data)
  | (some (.area id _ _), c, true) => refuseWrite (fwDeny s id) o posted c
  | (_, c, _) => refuseWrite s o posted c

end Sys2Proof.Machine
end

