-- ==== Sys2Proof/Machine/Arbiter.lean ====
section
/-! DEFINITION. The arbitration points (11 MEM, R343-R345): what keeps a request waiting, the choice of the next request, and
the share of background work. -/

namespace Sys2Proof.Machine

/-! ### Arbitration (R345) -/

/-- Stall key of the pair that a column lies in. -/
def pairOfCol (k : Nat) : Nat := stallKey (keySite k) (keyCh k) (keyBank k / 2)

/-- Does a hold of its channel keep a request from its columns (R343, R391)? -/
def colsHeld (s : State) (cols : List Nat) : Bool := cols.any (fun k => (getChan s (keySite k) (keyCh k)).held)

/-- Is a class held at every point: class 2 and 3 in a squall hold, or by the peak limiter (R475, R480)? -/
def classHeld (s : State) (cls : Nat) : Bool := decide (2 ≤ cls) && (s.power.squall || s.power.limiter)

/-- Does something keep an accepted request from being served: a hold of its channel; a commit window that was open when
it was accepted, until that closes (R16, R150); or, for any but a latency-critical read, a pair whose unbooked share is
spent (R152) (DEDUCED, log 64)? -/
def reqKept (s : State) (cls : Nat) (r : PendReq) : Bool :=
  colsHeld s r.cols || r.op.isSome || (cls != 0 && r.cols.any (fun k => shareSpent s (pairOfCol k)))

/-- Is a waiting item free to be served? A posted write that is done with needs the point's time alone. -/
def itemFree (s : State) (i : ArbItem) : Bool :=
  !classHeld s i.cls && ((s.outst.find? (fun r => r.id == i.id)).map (fun r => !reqKept s i.cls r)).getD true

/-- The first free item of a class. -/
def firstOf (s : State) (a : Arb) (cls : Nat) : Option ArbItem := a.waiting.find? (fun i => i.cls == cls && itemFree s i)

/-- The instance whose bookings a point serves (DEDUCED, log 65). -/
def arbInst : ArbPt → Inst
  | .channel x _ => .channel x
  | .slice _ => .awning
  | .portIn p => .portIn p
  | .portOut p => .portOut p
  | .xchIn => .xchIn
  | .xchOut => .xchOut

/-- An order's booking not yet served: due beat, admission number, ring, index, beat. -/
abbrev Due := Nat × Nat × Nat × Nat × Nat

/-- The booked work that a point has not run and serves first, of beats up to `now` or of later ones: earliest due beat,
then admission. -/
def nextWork (s : State) (pt : ArbPt) (late : Bool) : Option Due :=
  let i := arbInst pt
  let all : List Due := s.inflight.flatMap (fun f =>
    (f.booked.filter (fun k => k.inst == i && !k.served.contains (arbKey pt) && (decide (s.beat.now < k.beat) == late))).map
      (fun k => (f.due, f.seq, f.ring, f.idx, k.beat)))
  all.foldl (fun (b : Option Due) x =>
    match b with
    | none => some x
    | some y => if x.1 < y.1 ∨ (x.1 = y.1 ∧ (x.2.1 < y.2.1 ∨ (x.2.1 = y.2.1 ∧ x.2.2.2.2 < y.2.2.2.2))) then some x else some y)
    none

/-- What a point serves next: an item, an order's booking, or background work (class 3). -/
inductive Choice where
  | item (i : ArbItem)
  | work (w : Due)
  | background
deriving DecidableEq, Repr

/-- The choice of R345; `bg` says that background work waits at the point. -/
def choose (s : State) (pt : ArbPt) (a : Arb) (bg : Bool) : Option Choice :=
  let room : Rat := (s.cfg.period : Rat) - allowance s.cfg.period
  let i := arbInst pt
  let c0 := (firstOf s a 0).map Choice.item
  let c2 := (firstOf s a 2).map Choice.item
  let c3 := if bg && !classHeld s 3 then some Choice.background else none
  let due := (nextWork s pt false).map Choice.work
  let early := (nextWork s pt true).map Choice.work
  let q0 := if (a.used0 : Rat) < lcShare i * room then c0 else none
  let q3 := if (a.used3 : Rat) < room / 128 then c3 else none
  q0.orElse (fun _ => due.orElse (fun _ => c0.orElse (fun _ => q3.orElse (fun _ => c2.orElse (fun _ =>
    early.orElse (fun _ => c3))))))

/-- Mark a booking run by a point. -/
def serveWork (s : State) (pt : ArbPt) (w : Due) : State :=
  { s with inflight := s.inflight.map (fun f =>
      if f.ring = w.2.2.1 ∧ f.idx = w.2.2.2.1 then
        { f with booked := f.booked.map (fun k => if k.inst = arbInst pt ∧ k.beat = w.2.2.2.2 then
            { k with served := arbKey pt :: k.served } else k) }
      else f) }

/-- Does a request still wait at some point? -/
def stillWaits (s : State) (id : Nat) : Bool := s.arb.any (fun e => e.2.waiting.any (fun i => i.id == id))

/-- A request that no point still keeps has been granted. -/
def noteGranted (s : State) (id : Nat) : State :=
  if stillWaits s id then s
  else { s with outst := s.outst.map (fun r => if r.id = id then { r with granted := true } else r) }

/-- May a point serve at all: a channel in a hold serves nothing? -/
def pointOpen (s : State) : ArbPt → Bool
  | .channel x c => chanUp s x c.val && !(getChan s x.val c.val).held
  | _ => s.power.inReset.isNone

/-- An arbitration point as it stands in this beat: times of another beat start afresh. -/
def arbNow (s : State) (pt : ArbPt) : Arb :=
  let a := getArb s (arbKey pt)
  if a.beat = s.beat.now then a else ⟨s.beat.now, 0, 0, a.waiting⟩

/-- May background work that waits at a point be served now (R345) (DEDUCED, log 66)? -/
def bgTurn (s : State) (pt : ArbPt) : Bool := pointOpen s pt && choose s pt (arbNow s pt) true == some .background

/-- Background work takes `ns` of a point. -/
def takeBg (s : State) (pt : ArbPt) (ns : Nat) : State :=
  let a := arbNow s pt
  count { s with arb := kvPut s.arb (arbKey pt) { a with used3 := a.used3 + ns } } 72 ns

/-- An access of `ns` at a channel takes the time from the stalls of the pairs it touches there (R150, R152). -/
def drawAccess (s : State) (pt : ArbPt) (id ns : Nat) : State :=
  match pt with
  | .channel x c =>
    let cols := ((s.outst.find? (fun r => r.id == id)).map PendReq.cols).getD []
    ((cols.filter (fun k => keySite k * 32 + keyCh k == x.val * 32 + c.val)).map pairOfCol).dedup.foldl
      (fun st k => drawPair st x k ns) s
  | _ => s

/-- One grant of `ns` (R345). -/
def grant (s : State) (pt : ArbPt) (ns : Nat) : State :=
  if !pointOpen s pt then s
  else
    let a := arbNow s pt
    match choose s pt a false with
    | some (.work w) => count (serveWork s pt w) 70 ns
    | some (.item i) =>
      let a1 : Arb := ⟨a.beat, a.used0 + (if i.cls = 0 then ns else 0), a.used3, a.waiting.erase i⟩
      let s1 := drawAccess s pt i.id ns
      noteGranted (count { s1 with arb := kvPut s1.arb (arbKey pt) a1 } (69 + i.cls) ns) i.id
    | _ => s

end Sys2Proof.Machine
end

