-- ==== Sys2Proof/Machine/Stack.lean ====
section
/-! DEFINITION. Stack sites (12 STK): training, command parity, temperatures (15 PWR), refresh, and the stack commands of
Table STK-4. -/

namespace Sys2Proof.Machine

/-! ### Training (R388, R389) -/

/-- Set a bit of the SelfTest field (Table PWR-3). -/
def selfTestBit (s : State) (b : Nat) : State := { s with power := { s.power with selfTest := s.power.selfTest ||| (1 <<< b) } }

/-- Has BUS48_WARN_N been deasserted for 50 µs, or never been asserted (R472, R481, R493)? -/
def busQuiet (s : State) : Bool := !s.power.warn && s.power.clearAt.all (fun t => decide (t ≤ s.ts))

/-- The powered sites that are off begin training (Table PWR-2), where the bus is quiet (R493). -/
def startTraining (s : State) : State :=
  if busQuiet s then
    (List.finRange 20).foldl (fun st x =>
      let y := st.sites[x]
      if y.powerGood && !y.fenced && y.state == 0 then
        beginPhase (modSite st x (fun z => { z with cke := true, selfRefresh := false, state := 1 })) 2
      else st) s
  else s

/-- PWR_GOOD_SITE of an enabled site rises: its channels begin training (Table PWR-2), once the block is out of reset.
-/
def powerGood (s : State) (x : SiteId) : State :=
  let y := s.sites[x]
  if kindOf s x.val != .none && y.powerEn && !y.powerGood && !y.fenced then
    let s1 := modSite s x (fun z => { z with powerGood := true })
    if s.power.inReset.isNone then startTraining s1 else s1
  else s

/-- SITE_POWER_GOOD. -/
def execSitePowerGood (x : SiteId) (s : State) : Host.Outcome State Fault Refusal := .next (powerGood s x)

/-- Lanes of a channel that failed training. -/
def lanesOf (lanes : List (ChId × Nat)) (c : Nat) : Nat := ((lanes.filter (fun e => e.1.val == c)).map (·.2)).sum

/-- Training of a site ends: failing lanes are mapped onto spares, the lane map is recorded (R388), and a channel that
needs more than two is not live (R389; DEDUCED, log 83). -/
def endTraining (s : State) (x : SiteId) (lanes : List (ChId × Nat)) : State :=
  if s.power.inReset.isSome || (s.sites[x]).state != 1 then s
  else
    let live := (s.sites[x]).live
    let cs := liveCh live
    let bad := cs.filter (fun c => decide (2 < lanesOf lanes c))
    let s1 := cs.foldl (fun st c =>
      let n := lanesOf lanes c
      let st1 := if n = 0 then st else siteEvent st x 4 (Place.chan x.val c) 0
      let st2 := modChan (bump st1) x.val c (fun y => { y with
        spares := Nat.min n 2, tempRef := none, parity := [], scrubFrom := st.ts,
        laneMap := (List.range (Nat.min n 2)).map (fun i => Config.failedLane (st.fresh + i)) })
      if 1 ≤ n ∧ n ≤ 2 then modSite st2 x (fun y => { y with lane := y.lane ||| (1 <<< c) }) else st2) s
    let s2 := setLive s1 x (bad.foldl (fun m c => m &&& ~~~ (1#32 <<< c)) live)
    let s3 := if bad.isEmpty then s2 else selfTestBit s2 x.val
    noteSelfTest (modSite s3 x (fun y => { y with state := 2 }))

/-- TRAINING_COMPLETE. -/
def execTrainingComplete (x : SiteId) (lanes : List (ChId × Nat)) (s : State) : Host.Outcome State Fault Refusal :=
  .next (endTraining s x lanes)

/-! ### Command parity (R382, R390, R402) -/

/-- A command with bad parity was dropped, and is issued again. An FCS-48 stack records the failure in a base-die
register (R382). Three on one channel within 1 ms start a retrain; while the site trains, training repeats the step. -/
def parityAlert (s : State) (x : SiteId) (c : Nat) : State :=
  let y := s.sites[x]
  if s.power.inReset.isSome || y.fenced || !y.live.getLsbD c || !(y.state == 1 || y.state == 2) then s
  else
    let s0 := if isFcs s x.val then
        bump (modSite s x (fun z => { z with die := { z.die with parity := Config.parityRecord c s.fresh } })) else s
    let s1 := siteEvent s0 x 2 (Place.chan x.val c) 0
    if y.state == 1 then s1
    else
      let recent := ((getChan s1 x.val c).parity.filter (fun t => decide (s.ts ≤ t + 1000000))) ++ [s.ts]
      if 3 ≤ recent.length then startRetrain (modChan s1 x.val c (fun z => { z with parity := [] })) x c
      else modChan s1 x.val c (fun z => { z with parity := recent })

/-- COMMAND_PARITY_ALERT. -/
def execCommandParityAlert (x : SiteId) (c : ChId) (s : State) : Host.Outcome State Fault Refusal :=
  .next (parityAlert s x c.val)

/-! ### Temperatures (R398, R485-R488) -/

/-- The level after a reading: a threshold is entered when reached, and left at the threshold less the hysteresis.
Thresholds and readings are in units of 0.125 °C, in ascending order. -/
def levelUp (t : Nat) (th : List Nat) : Nat := (th.filter (fun x => decide (x ≤ t))).length
def levelDown (t hyst : Nat) (th : List Nat) : Nat := (th.filter (fun x => decide (x < t + hyst))).length
def nextLevel (old t hyst : Nat) (th : List Nat) : Nat :=
  if old < levelUp t th then levelUp t th else Nat.min old (levelDown t hyst th)

/-- Largest reading, and the lowest index that has it. -/
def hottest (r : List (BitVec 11)) : BitVec 11 × Nat :=
  let m := r.foldl (fun a x => if a < x then x else a) 0
  (m, r.findIdx (fun x => x == m))

def stackThr : List Nat := [680, 760, 840, 880]
def juncThr : List Nat := [800, 840]

def pwrIrq (s : State) (bit : Nat) : State := { s with power := { s.power with irq := s.power.irq ||| (1 <<< bit) } }

/-- A change of θ is an event of cause THERMAL where it takes some instance below ρ (Table BEA-5; DEDUCED, log 86). -/
def thermalCheck (old new : State) (is : List Inst) : State :=
  let rho : Rat := (new.cfg.rho : Rat) / 100
  if is.any (fun i => decide (theta new i < rho) && decide (theta new i < theta old i)) then lateCheck new 2 else new

/-- A site takes a new level (Table PWR-6); level 4 shuts the site down (R486; DEDUCED, log 84). -/
def setLevel (s : State) (x : SiteId) (new : Nat) : State :=
  let old := (s.sites[x]).level
  if new = old then s
  else
    let s1 := ledAdd (modSite s x (fun y => { y with level := new })) 0x33 (Place.site x.val) 0 0
    let s2 := if old < new then pwrIrq s1 2 else s1
    let s3 := thermalCheck s s2 [.stall x, .sealer x]
    if new = 4 then
      let s4 := ledAdd (pwrIrq (modSite s3 x (fun y => { y with shutdown := true })) 3) 0x34 (Place.site x.val) 0 0
      requestDeferred s4 ⟨2, x.val, 0, 0, [], none⟩
    else s3

/-- A reading of the die of channel `c` has moved 15 °C or more since the channel's training: a retrain starts (R390).
The first reading after a training is taken as the temperature of that training (DEDUCED, log 81). -/
def driftCheck (s : State) (x : SiteId) (c t : Nat) : State :=
  match (getChan s x.val c).tempRef with
  | none => modChan s x.val c (fun y => { y with tempRef := some t })
  | some r => if 120 ≤ (t - r) + (r - t) then startRetrain s x c else s

/-- PWR_SITE_EN of a site that has shut down is deasserted (R486; DEDUCED, log 142). -/
def shutdownOff (s : State) (x : SiteId) : State :=
  if (s.sites[x]).shutdown && (s.sites[x]).fenced then
    modSite s x (fun y =>
      { y with powerEn := false, powerGood := false, cke := false, selfRefresh := false, shutdown := false })
  else s

/-- SITE_SHUTDOWN_POWER_OFF. -/
def execSiteShutdownPowerOff (x : SiteId) (s : State) : Host.Outcome State Fault Refusal := .next (shutdownOff s x)

/-- Instances whose θ the junction sets (R488). -/
def juncInsts : List Inst :=
  (List.finRange 20).map Inst.channel ++ (List.finRange 20).map Inst.relief ++ [.awning, .cirrus]
    ++ (List.finRange 16).map Inst.portIn ++ (List.finRange 16).map Inst.portOut ++ [.xchIn, .xchOut]

/-- The junction sensors are read (R488; DEDUCED, log 85). -/
def readJunction (s : State) (r : List (BitVec 11)) : State :=
  if s.power.inReset.isSome || r.isEmpty then s
  else
    let h := hottest r
    let old := s.power.juncLevel
    let new := nextLevel old h.1.toNat (8 * s.cfg.hyst) juncThr
    let s1 := { s with power := { s.power with junc := h.1, juncSensor := BitVec.ofNat 3 h.2 } }
    if new = old then s1
    else
      let s2 := ledAdd { s1 with power := { s1.power with juncLevel := new, alertN := decide (new < 2) } } 0x36 Place.none 0 0
      let s3 := if old = 0 then pwrIrq s2 5 else s2
      thermalCheck s (if new = 2 then pwrIrq s3 6 else s3) juncInsts

/-- JUNCTION_READ. -/
def execJunctionRead (r : List (BitVec 11)) (s : State) : Host.Outcome State Fault Refusal := .next (readJunction s r)

/-! ### Stack commands (Table STK-4) -/

/-- Can the controller send a command to the channel: in service, on an FCS-48 stack that is not in self-refresh, and
not held? -/
def canSend (s : State) (x : SiteId) (c : Nat) : Bool :=
  chanUp s x c && isFcs s x.val && !(s.sites[x]).selfRefresh && !(getChan s x.val c).held

/-- Does the stall of the pair take stall commands? A fenced one ignores them. -/
def stallTakes (s : State) (x : SiteId) (c k : Nat) : Bool := canSend s x c && !stallFenced s x.val c k

/-- Is the pair at a parcel boundary with its stall paused, or without a pass (R151)? -/
def pairQuiet (s : State) (x : SiteId) (c k : Nat) : Bool :=
  let u := getUnit s (stallKey x.val c k)
  !u.windowOpen && (u.paused || u.layout == 0 || stallFenced s x.val c k)

/-- SFNC: the stall is fenced at the close of any open window. -/
def execSfnc (x : SiteId) (c : ChId) (k : PairId) (s : State) : Host.Outcome State Fault Refusal :=
  .next (if stallTakes s x c.val k.val then requestDeferred s ⟨0, x.val, c.val, k.val, [], none⟩ else s)

/-- Does a data row lie in the band of a layout with Open = 1, whose blocks are never sealed (R411)? -/
def rowStaysOpen (s : State) (x c bank row : Nat) : Bool :=
  s.layouts.any (fun e => opensWrites e.2 && e.2.masks.any (fun m => m.1 == x && m.2.getLsbD c)
    && decide (e.2.rowBase ≤ row ∧ row < e.2.rowBase + e.2.bandRows) && decide (bank < 16))

/-- What the sealer does to one block (R412): a sealed block is decoded and written back where it was corrected, an open
block with clean parity is sealed, and any other is left and reported. With ForceSeal set an open block is sealed from
its data (R415; DEDUCED, log 71). -/
def sealStep (force : Bool) (s : State) (p : Nat) : State :=
  let r := readBlock s p
  if blockOpen s p then (if force || r.1 == .clean then sealBlock s p else s)
  else if r.1 == .corrected then
    let b := blockBase p
    let ks := sealedChk r.2.1 r.2.2
    putRaw (putRaw s b r.2.1 ks.1) (b + 1) r.2.2 ks.2
  else s

/-- May the sealer of a site work: not in a squall hold, nor at level 3 (R480, Table PWR-6)? -/
def sealerRuns (s : State) (x : SiteId) : Bool := !s.power.squall && decide ((s.sites[x]).level < 3)

/-- A column as eight words, word 0 lowest. -/
def wordsOfCol (d : Col) : List W32 := (List.range 8).map (lane d)

/-- Eight words of a rule store from `w` on. -/
def storeWords (u : Stall) (w : Nat) (d : Col) : Stall :=
  let old := (List.range 64).map (fun i => u.rule.getD i 0)
  { u with rule := (List.range 64).map (fun i => if w ≤ i ∧ i < w + 8 then lane d (i - w) else old.getD i 0) }

/-- RSTW: eight rule-store words of one stall, or of every stall of the channel. -/
def execRstw (x : SiteId) (c : ChId) (k : Option PairId) (word : Nat) (data : Col) (s : State) :
    Host.Outcome State Fault Refusal :=
  let ks := match k with
    | some p => [p.val]
    | none => List.range 8
  .next (ks.foldl (fun st p =>
    if stallTakes st x c.val p then
      putUnit st (stallKey x.val c.val p) (storeWords (getUnit st (stallKey x.val c.val p)) word data)
    else st) s)

/-- What a pass descriptor loads. The layout of its burst is not in the spec, so its fields are free functions of the
burst (DESIGN CHOICE, log 32). -/
def loadPass (u : Stall) (d : Col) : Stall :=
  let f (i : Nat) := Config.passField i d
  { u with desc := d, nPro := f 0 % 65, nBody := f 1 % 65, stateLayout := f 2 % 3 + 1, stream0 := f 3 % 65536,
           stream1 := f 4 % 65536, step := f 5 % 2 ^ 40, seed0 := BitVec.ofNat 64 (f 6), seed1 := BitVec.ofNat 64 (f 7) }

/-- PASSD. -/
def execPassd (x : SiteId) (c : ChId) (k : PairId) (data : Col) (s : State) : Host.Outcome State Fault Refusal :=
  let key := stallKey x.val c.val k.val
  .next (if stallTakes s x c.val k.val then putUnit s key (loadPass (getUnit s key) data) else s)

/-- The parcel descriptor of a LATG burst (R130). Its layout is not in the spec (DESIGN CHOICE, log 32). -/
def latchDesc (n : Nat) (d : Col) : PDesc :=
  ⟨Config.latchField 2 d % 2 ^ 32, Config.latchField 3 d, Config.latchField 4 d % 2 ^ 32, Config.latchField 0 d % 2 ^ 48,
    Config.latchField 1 d % n + 1⟩

/-- The stall takes up the parcel of a descriptor. -/
def Stall.takeDesc (u : Stall) (d : PDesc) : Stall :=
  { u with num := d.num, row := d.row, tensor := d.tensor, base := d.base, realCount := d.realCount, next := none, issued := [] }

/-- One gradient group into the latch (R130). Group 0 carries the parcel descriptor, which waits while a parcel is in
work. -/
def loadGroup (u : Stall) (g : Nat) (d : Col) : Stall :=
  let e := groupElems u.stateLayout
  let n := parcelSize u.stateLayout
  let latch := (List.range n).map (fun i =>
    if g * e ≤ i ∧ i < (g + 1) * e then half d (i - g * e) else u.latch.getD i 0)
  let v := { u with latch := latch }
  if g = 0 then (if u.parcel.isSome then { v with next := some (latchDesc n d) } else v.takeDesc (latchDesc n d)) else v

/-- May group `g` be written into the latch: the LDG of the group of a parcel in work has issued (R130)? -/
def latchFree (u : Stall) (g : Nat) : Bool := u.parcel.isNone || u.issued.contains g

/-- LATG. -/
def execLatg (x : SiteId) (c : ChId) (k : PairId) (group : Nat) (data : Col) (s : State) :
    Host.Outcome State Fault Refusal :=
  let key := stallKey x.val c.val k.val
  let u := getUnit s key
  .next (if stallTakes s x c.val k.val && decide (group < groupCount u.stateLayout) && latchFree u group then
    putUnit s key (loadGroup u group data) else s)

/-- STATQ: the watch counters and stall status, in a burst whose layout is not in the spec (DESIGN CHOICE, log 31). -/
def execStatq (x : SiteId) (c : ChId) (k : PairId) (s : State) : Host.Outcome State Fault Refusal :=
  let u := getUnit s (stallKey x.val c.val k.val)
  let b (p : Bool) : Nat := if p then 1 else 0
  .next (if stallTakes s x c.val k.val then
    send s (.stack x (Config.statqBurst [u.zeros, u.sats, u.nfStore, u.nfGrad, u.layout, u.parcel.getD 0, b u.windowOpen,
      b u.paused, b u.fault])) else s)

/-- TEMPQ: the 18 sensor readings as last read out, in a burst whose layout is not in the spec (DESIGN CHOICE, log 31;
DESIGN CHOICE, log 74). -/
def execTempq (x : SiteId) (c : ChId) (s : State) : Host.Outcome State Fault Refusal :=
  .next (if canSend s x c.val then send s (.stack x (Config.tempqBurst (s.sites[x]).readings)) else s)

/-- Key of a base-die register. -/
def bdKey (x : SiteId) (i : Nat) : Nat := x.val * 65536 + i

/-- The 32 bits of flags, bit 0 first. -/
def flagWord (f : Nat → Bool) : W32 := BitVec.ofNat 32 (((List.range 32).map (fun i => if f i then 2 ^ i else 0)).sum)

/-- An entry of the remap table as a word (R434). -/
def remapWord (s : State) (bank entry : Nat) : W32 :=
  match (remapEntries s bank).find? (fun e => e.1 == entry) with
  | some e => BitVec.ofNat 32 (e.2.1 % 65536 + (if e.2.2 then 2 ^ 31 else 0))
  | none => 0

/-- What a base-die register reads (R381, R382, R414, R415, R434, R443). One that nothing has written and whose content
the spec does not describe reads a free value (DESIGN CHOICE, log 9). -/
def bdRead (s : State) (x : SiteId) (idx : Nat) : W32 :=
  let y := (s.sites[x]).die
  match Config.bdReg idx with
  | .remap b j => remapWord s (x.val * 512 + b % 512) (j % 458)
  | .stallFault w => flagWord (fun i => (getUnit s (x.val * 256 + w % 8 * 32 + i)).fault)
  | .parity => y.parity
  | .run i => kvGetD y.runs (i % 4) 0
  | .crc i => y.crcs.getD i (Config.baseDieReg x.val idx)
  | .forceSeal => if y.forceSeal then 1 else 0
  | .plain => kvGetD s.bdregs (bdKey x idx) (Config.baseDieReg x.val idx)

/-- A write of a base-die register: the remap table is written by RMAP alone, and flags and results by the base die. -/
def bdWrite (s : State) (x : SiteId) (idx : Nat) (v : W32) : State :=
  match Config.bdReg idx with
  | .run i => modSite s x (fun z => { z with die := { z.die with runs := kvPut z.die.runs (i % 4) v } })
  | .forceSeal => modSite s x (fun z => { z with die := { z.die with forceSeal := v != 0 } })
  | .plain => { s with bdregs := kvPut s.bdregs (bdKey x idx) v }
  | _ => s

/-- BDREG. -/
def execBdreg (x : SiteId) (idx : Nat) (write : Option W32) (s : State) : Host.Outcome State Fault Refusal :=
  .next (if s.power.inReset.isNone && isFcs s x.val && (s.sites[x]).state == 2 && !(s.sites[x]).selfRefresh
      && decide (idx < 65536) then
    match write with
    | some v => bdWrite s x idx v
    | none => send s (.stack x ((bdRead s x idx).zeroExtend 256))
  else s)

end Sys2Proof.Machine
end

