-- ==== Sys2Proof/Machine/Integrity.lean ====
section
/-! DEFINITION. Detected errors, leaky buckets and patrol scrub (13 ITY). -/

namespace Sys2Proof.Machine

/-! ### Leaky buckets (R425-R429) -/

/-- The channel of the first bucket overflow since the last read (Table ITY-8). -/
def noteFirst (s : State) (x : SiteId) (c : Nat) : State :=
  if s.regs.ityFirst.getLsbD 31 then s
  else { s with regs := { s.regs with ityFirst := BitVec.ofNat 32 (x.val + 32 * c + 2 ^ 31) } }

/-- An event in the lasting bucket (R425, R426). -/
def lastingEvent (s : State) (x : SiteId) (c : Nat) : State :=
  let y := getChan s x.val c
  let n := Nat.min (y.lasting + 1) 65535
  if !y.lastOver && decide (s.cfg.lastThr ≤ n) then
    let s1 := modChan s x.val c (fun z => { z with lasting := n, lastOver := true })
    noteFirst (ityIrq (ledAdd s1 0x16 (Place.chan x.val c) 0 0) 0) x c
  else modChan s x.val c (fun z => { z with lasting := n })

/-- An event in the transient bucket; its overflow starts a retrain (R426, R427). -/
def tranEvent (s : State) (x : SiteId) (c : Nat) : State :=
  let y := getChan s x.val c
  let n := Nat.min (y.tran + 1) 255
  if !y.tranOver && decide (s.cfg.tranThr ≤ n) then
    let s1 := modChan s x.val c (fun z => { z with tran := n, tranOver := true, clearTran := true })
    startRetrain (noteFirst (ityIrq (ledAdd s1 0x17 (Place.chan x.val c) 0 0) 1) x c) x c
  else modChan s x.val c (fun z => { z with tran := n })

/-- Length of a leak interval in ticks of the 1 GHz reference. -/
def leakNs (s : State) (transient : Bool) : Nat := if transient then s.cfg.tranLeak * 1000 else s.cfg.lastLeak * 1000000

/-- A leak tick, at a whole multiple of the interval (R425); Over clears below half the threshold (R426). -/
def leakTick (s : State) (x : SiteId) (c : Nat) (transient : Bool) : State :=
  if s.power.inReset.isSome || !(s.sites[x]).live.getLsbD c || s.ts % leakNs s transient != 0 then s
  else
    modChan s x.val c (fun y =>
      if transient then { y with tran := y.tran - 1, tranOver := y.tranOver && decide (s.cfg.tranThr ≤ 2 * (y.tran - 1)) }
      else { y with lasting := y.lasting - 1, lastOver := y.lastOver && decide (s.cfg.lastThr ≤ 2 * (y.lasting - 1)) })

/-- BUCKET_LEAK_TICK. -/
def execBucketLeakTick (x : SiteId) (c : ChId) (transient : Bool) (s : State) : Host.Outcome State Fault Refusal :=
  .next (leakTick s x c.val transient)

/-! ### Outcomes of errors (Table ITY-3) -/

/-- Add one, saturating. -/
def sat32w (n : W32) : W32 := if n = 0xFFFFFFFF then n else n + 1
def sat16w (n : BitVec 16) : BitVec 16 := if n = 0xFFFF then n else n + 1

/-- Index of a channel's counters (Table TEL-1). -/
def chanCtr (x : SiteId) (c : Nat) : Nat := 256 + 2 * (32 * x.val + c)

/-- Record an error by its Ledger code: entry, counters, interrupt and bucket. -/
def recordError (s : State) (x : SiteId) (c code : Nat) : State :=
  let s1 := ledAdd s code (Place.chan x.val c) 0 0
  let corrected (s : State) : State :=
    count (modChan s x.val c (fun y => { y with corrected := sat32w y.corrected })) (chanCtr x c) 1
  match code with
  | 0x10 => tranEvent (corrected s1) x c
  | 0x11 => lastingEvent (corrected s1) x c
  | 0x12 => tranEvent s1 x c
  | _ =>
    let s2 := count (modChan s1 x.val c (fun y => { y with uncorr := sat16w y.uncorr })) (chanCtr x c + 1) 1
    lastingEvent (ityIrq s2 2) x c

/-- Ledger code of a first read and its retry (Table ITY-3). -/
def errorCode : FirstRead → RetryRead → Nat
  | .corrected, .clean => 0x10
  | .corrected, _ => 0x11
  | .uncorrectable, .clean => 0x12
  | .uncorrectable, .corrected => 0x11
  | .uncorrectable, .bad => 0x13
  | .parityOpen, .clean => 0x12
  | .parityOpen, _ => 0x14

/-- Write a corrected sealed block back (Table ITY-3; DEDUCED, log 100). -/
def writeBack (s : State) (p : Nat) : State :=
  let r := readBlock s p
  if blockOpen s p || r.1 == .bad then s
  else
    let b := blockBase p
    let ks := sealedChk r.2.1 r.2.2
    putRaw (putRaw s b r.2.1 ks.1) (b + 1) r.2.2 ks.2

/-- Physical key of the even column of a block named by a bank, a row and its place in the row; rows from 45,776 on of
an FCS-48 bank are its spare rows. -/
def blockKey (s : State) (x : SiteId) (c bank row blk : Nat) : Nat :=
  let k := colKey x.val c bank row (2 * blk % 64)
  if isFcs s x.val && decide (45776 ≤ row) then k else physKey s k

/-- Columns of parcel `q` that a seal check covers: by StateCrc, by VersionCrc of slot `v`, by UndoCrc. -/
def stateKeys (s : State) (ly : Layout) (q : Nat) : List Nat := (List.range 64).map (fun j => ly.parcelCol s q j)
def verKeys (s : State) (ly : Layout) (v q : Nat) : List Nat := (List.range (ly.geo s).w).map (fun j => ly.verCol s v q j)
def undoKeys (s : State) (ly : Layout) (q : Nat) : List Nat :=
  if ly.guarded then (List.range (ly.geo s).u).map (fun j => ly.undoCol s q j) else []

/-- Does a list of data columns touch the block of physical key p? -/
def touches (s : State) (p : Nat) (ks : List Nat) : Bool := ks.any (fun k => blockBase (physKey s k) == blockBase p)

/-- Has a parcel of a layout a column in a block? -/
def parcelHas (s : State) (ly : Layout) (p q : Nat) : Bool :=
  (ly.kind == 1 && (touches s p (stateKeys s ly q) || touches s p (undoKeys s ly q)))
    || (List.range ly.slots).any (fun v => touches s p (verKeys s ly v q))

/-- The parcels of a layout that have a column in a block: a version block may hold columns of two. -/
def parcelsAt (s : State) (ly : Layout) (p : Nat) : List Nat := (List.range (ly.geo s).parcels).filter (parcelHas s ly p)

/-- The first parcel of a layout that has a column in a block. -/
def parcelAt (s : State) (ly : Layout) (p : Nat) : Option Nat := (parcelsAt s ly p).head?

/-- Byte offset in a Kind 0x03 layout of a block. -/
def offsetAt (s : State) (ly : Layout) (p : Nat) : Option Nat :=
  ((List.range (cdiv ly.length 64)).find? (fun b => touches s p [areaCol s ly 0 (2 * b)])).map (64 * ·)

/-- Where of R289 for a block met by an order. -/
def whereOf (s : State) (f : InFlight) (p : Nat) : Nat :=
  ((orderLayouts s f.order f.ctx).findSome? (fun id =>
    match getLayout s id with
    | some ly => if ly.kind = 3 then offsetAt s ly p else parcelAt s ly p
    | none => none)).getD 0

/-- A parcel is uncorrectable: the step is rolled back under guarded step, and the shard damaged otherwise (R205). -/
def uncorrectable (s : State) (id q : Nat) (u : Upd) : State :=
  if u.guarded then stopUpdate id 2 q s else endUpdate s id 0x20 3 q .damaged

/-- A lasting uncorrectable error that the relief engine meets in the loads of a parcel ends the step as R205 gives; one
that another order meets marks it, and its completion answers FAILED_DATA (Table ITY-3; DEDUCED, log 90). -/
def poisonOrder (s : State) (p : Nat) (f : InFlight) : State :=
  let marked := putInflight s { f with bad := some (f.bad.getD (whereOf s f p)) }
  if ordOp f.order ≠ 0x20 then marked
  else
    let id := fld f.order 16 2
    match getLayout s id with
    | none => marked
    | some ly =>
      match ly.shard.st, ly.shard.upd, parcelAt s ly p with
      | .isOpen, some u, some q => if kvHas u.sealed q then s else uncorrectable s id q u
      | _, _, _ => s

/-- A lasting uncorrectable error reaches its reader: POISON for the requests that read the block, FAILED_DATA for an
order (Table ITY-3). -/
def poisonReader (s : State) (p : Nat) : Reader → State
  | .requester =>
    { s with outst := s.outst.map (fun r => if r.cpl == .ok && touches s p r.cols then { r with cpl := .poison } else r) }
  | .order r idx =>
    (match findInflight s r.val idx with
     | some f => poisonOrder s p f
     | none => s)
  | _ => s

/-! ### Seal checks of one parcel (R202) -/

/-- Are the seal's Step, Attempt and ParcelNumber those of step `v`, attempt `att` and parcel `q`? -/
def sealNames (x : Seal) (v att q : Nat) : Bool := x.step == v && x.attempt == att && x.parcel == q

/-- Every check but UndoCrc. -/
def sealGood (s : State) (ly : Layout) (v att q : Nat) : Bool :=
  let x := parseSeal (rowCol s ly q 63)
  sealNames x v att q && stateCrcOk ly.stateLayout (rowCol s ly q) && x.versionCrc == colsCrc (verCols s ly x.slot q)

/-- UndoCrc, where the seal says a pre-image lies in the undo area. -/
def undoGood (s : State) (ly : Layout) (q : Nat) : Bool :=
  let x := parseSeal (rowCol s ly q 63)
  !x.guarded || x.undoCrc == colsCrc (undoCols s ly q)

/-- The seal checks of R202 that cover a block for parcel `q` of a step: their outcomes. -/
def checksOn (s : State) (ly : Layout) (u : Upd) (p q : Nat) : List Bool :=
  let x := parseSeal (rowCol s ly q 63)
  let names := sealNames x u.step u.attempt q
  (if touches s p (stateKeys s ly q) then [names && stateCrcOk ly.stateLayout (rowCol s ly q)] else [])
    ++ (if touches s p (verKeys s ly u.slot q) then
        [names && x.slot == u.slot && x.versionCrc == colsCrc (verCols s ly u.slot q)] else [])
    ++ (if touches s p (undoKeys s ly q) then [undoGood s ly q] else [])

/-- The outcome of R415 for a lasting parity error that the sealer reports: whether every check that covers the block
passes; none when no parcel under reseal holds it (DEDUCED, log 165). -/
def sealerVerdict (s : State) (p : Nat) : Option Bool :=
  s.layouts.findSome? (fun e =>
    match e.2.kind, e.2.shard.st, e.2.shard.upd with
    | 1, .resealing, some u =>
      let cs := (parcelsAt s e.2 p).flatMap (checksOn s e.2 u p)
      if cs = [] then none else some (cs.all id)
    | _, _, _ => none)

/-- Time of the wait for a retry, an interruption of the channel time of the site (R423). -/
def chargeRetry (s : State) (x : SiteId) : State :=
  bump { s with charges := s.charges ++ [(.channel x, s.beat.now, Config.retryNs s.fresh % 201)] }

/-- The retry of a detected error ends, and classifies it (R421-R423, R415). A retry that falls in a hold waits for its
end (R439). -/
def classifyError (s : State) (x : SiteId) (c bank row blk : Nat) (first : FirstRead) (retry : RetryRead) (rd : Reader) :
    State :=
  if !chanUp s x c || (getChan s x.val c).held then s
  else
    let p := blockKey s x c bank row blk
    let code := errorCode first retry
    let s1 := if first == .corrected then s else chargeRetry s x
    match rd, first with
    | .sealer, .parityOpen =>
      if retry == .clean then
        let s2 := recordError s1 x c 0x12
        if blockOpen s2 p then sealBlock s2 p else s2
      else
        match sealerVerdict s1 p with
        | some true => recordError (sealBlock s1 p) x c 0x11
        | _ => recordError s1 x c 0x14
    | _, _ =>
      let s2 := recordError s1 x c code
      if code = 0x11 then writeBack s2 p else if code = 0x13 ∨ code = 0x14 then poisonReader s2 p rd else s2

/-- ERROR_RETRY. -/
def execErrorRetry (x : SiteId) (c : ChId) (bank row block : Nat) (first : FirstRead) (retry : RetryRead) (rd : Reader)
    (s : State) : Host.Outcome State Fault Refusal := .next (classifyError s x c.val bank row block first retry rd)

/-! ### Patrol scrub (R418-R420) -/

/-- Bank and row at a place in a pass: every data row of a bank in ascending order, then its spare rows in use. -/
def scrubAt (s : State) (x : SiteId) (c : Nat) : List Nat → Nat → Option (Nat × Nat)
  | [], _ => none
  | b :: r, pos =>
    let data := rowLimit (isFcs s x.val)
    let spares := ((remapEntries s (bankKey x.val c b)).filter (fun e => e.2.2)).map (·.1)
    if pos < data then some (b, pos)
    else if pos < data + spares.length then some (b, 45776 + spares.getD (pos - data) 0)
    else scrubAt s x c r (pos - data - spares.length)

/-- Physical keys of the 32 blocks of a row. -/
def rowBlocks (s : State) (x : SiteId) (c bank row : Nat) : List Nat := (List.range 32).map (blockKey s x c bank row)

/-- Is a row scrubbed by reads: a row of a JEDEC channel, of an open band, or with a column in a haze window (R419)? -/
def scrubReads (s : State) (x : SiteId) (c bank row : Nat) : Bool :=
  !isFcs s x.val || rowStaysOpen s x.val c bank row || (rowBlocks s x c bank row).any (blockOpen s)

/-- Scrub a row: by SEAL, or by reads. Dirty lines of the row are written back first (R354). -/
def scrubRow (s0 : State) (x : SiteId) (c bank row : Nat) : State :=
  let s := cleanRow s0 x.val c bank row
  let bs := rowBlocks s x c bank row
  if scrubReads s0 x c bank row then
    let n := (bs.filter (blockOpen s)).length
    let s1 := modChan s x.val c (fun y =>
      { y with openReads := BitVec.ofNat 16 (Nat.min (y.openReads.toNat + n) 65535) })
    bs.foldl (fun st p => if (readBlock st p).1 == .corrected then writeBack st p else st) s1
  else bs.foldl (sealStep false) s

/-- Time that the scrub of a row takes: 150 cycles of the sealer (R413), or the reads of its 2,048 bytes (DEDUCED, log
67). -/
def scrubNs (reads : Bool) : Nat := if reads then (chanNs 2048).ceil.toNat else 160

/-- May the row be scrubbed now: no window open on its pair (R439), and for the sealer no pass that runs there (R413)?
-/
def rowFree (s : State) (x : SiteId) (c bank row : Nat) : Bool :=
  !isFcs s x.val || (!windowIn s 0 x.val c (bank / 2) && (scrubReads s x c bank row || pairQuiet s x c (bank / 2)))

/-- The next place of a channel's pass; a pass that ends is followed by the next at once. -/
def nextScrub (s : State) (x : SiteId) (c : Nat) : State :=
  modChan s x.val c (fun z =>
    if scrubTotal s x.val c ≤ z.scrubPos + 1 then
      { z with scrubPos := 0, scrubPasses := z.scrubPasses + 1, scrubFrom := s.ts }
    else { z with scrubPos := z.scrubPos + 1 })

/-- Visit the next row of a channel. Scrub is class 3 traffic: it waits for its turn at the channel (R345, R418), in a
squall hold or by the peak limiter (R475, R480), in a hold of the channel, and for an open window on the pair (R439). -/
def scrubNext (s : State) (x : SiteId) (c : ChId) : State :=
  let y := getChan s x.val c.val
  if !chanUp s x c.val || !bgTurn s (.channel x c) then s
  else
    match scrubAt s x c.val (List.range (banksOf s x.val)) y.scrubPos with
    | none => nextScrub s x c.val
    | some (b, row) =>
      if !rowFree s x c.val b row then s
      else
        let ns := scrubNs (scrubReads s x c.val b row)
        let s1 := if scrubReads s x c.val b row then drawPair s x (stallKey x.val c.val (b / 2)) ns else s
        nextScrub (scrubRow (takeBg s1 (.channel x c) ns) x c.val b row) x c.val

/-- SCRUB_ROW. -/
def execScrubRow (x : SiteId) (c : ChId) (s : State) : Host.Outcome State Fault Refusal := .next (scrubNext s x c)

/-- Length of a scrub period (CONFIG key 0x0100) in ticks. -/
def scrubPeriod (s : State) : Nat := s.cfg.scrubS * 1000000000

/-- A pass has not finished within its period: it is late, and the next starts (R420). -/
def scrubLate (s : State) (x : SiteId) (c : Nat) : State :=
  if !chanUp s x c || decide (s.ts < (getChan s x.val c).scrubFrom + scrubPeriod s) then s
  else
    ityIrq (ledAdd (modChan s x.val c (fun z => { z with scrubPos := 0, scrubFrom := s.ts })) 0x18
      (Place.chan x.val c) 0 0) 5

/-- SCRUB_PASS_LATE. -/
def execScrubPassLate (x : SiteId) (c : ChId) (s : State) : Host.Outcome State Fault Refusal := .next (scrubLate s x c.val)

end Sys2Proof.Machine
end

