-- ==== Sys2Proof/Machine/Close.lean ====
section
/-! DEFINITION. Refresh (12 STK, R395, R396), the stack commands that wait for a parcel boundary (Table STK-4), and what
happens at the close of a commit window (R12, R158, R439). -/

namespace Sys2Proof.Machine

/-! ### Refresh (R151, R395, R396) -/

/-- Time that a REFP takes from its pair (tRFCp of Table STK-3). -/
def refpNs : Nat := 80

/-- Rows of a bank that refresh covers: those of data and the spares (Table STK-1). -/
def refreshRows : Nat := 46234

/-- `n` refreshes of a pair: six rows of each of its banks each, at its refresh pointer. The controller pauses the stall
for them, which loses their time (R151, R152; DEDUCED, log 63). -/
def sendRefp (s : State) (x : SiteId) (c k n : Nat) : State :=
  let key := stallKey x.val c k
  let s1 := { s with
    refreshDebt := kvPut s.refreshDebt key (kvGetD s.refreshDebt key 0 - n),
    refreshPtr := kvPut s.refreshPtr key ((kvGetD s.refreshPtr key 0 + 6 * n) % refreshRows) }
  drawPair (count s1 (1538 + 16 * x.val) n) x key (refpNs * n)

/-- Most refreshes that the controller postpones: four of a pair of an FCS-48 site (R395), none of a JEDEC channel. -/
def refreshLimit (s : State) (x : SiteId) : Nat := if isFcs s x.val then 4 else 0

/-- May a refresh enter now: no window open on the pair, and the channel not held (R158, Table STK-7)? -/
def refreshFree (s : State) (x : SiteId) (c k : Nat) : Bool :=
  chanUp s x c && !(s.sites[x]).selfRefresh && !(getChan s x.val c).held && !windowIn s 0 x.val c k

/-- Refreshes owed beyond what may be postponed go out where they may enter: at the close of a window, or after a hold
(Table STK-7). -/
def catchUp (s : State) (x : SiteId) (c k : Nat) : State :=
  let d := kvGetD s.refreshDebt (stallKey x.val c k) 0
  let l : Int := refreshLimit s x
  if l < d && refreshFree s x c k then sendRefp s x c k (d - l).toNat else s

/-- A refresh interval of a pair elapses: one more is owed. On a JEDEC channel it is the standard's refresh of the
channel, which is issued at once (R396; DEDUCED, log 62). -/
def refreshDue (s : State) (x : SiteId) (c k : Nat) : State :=
  if chanUp s x c && !(s.sites[x]).selfRefresh then
    let key := stallKey x.val c k
    catchUp { s with refreshDebt := kvPut s.refreshDebt key (kvGetD s.refreshDebt key 0 + 1) } x c k
  else s

/-- REFRESH_DUE. -/
def execRefreshDue (x : SiteId) (c : ChId) (k : PairId) (s : State) : Host.Outcome State Fault Refusal :=
  .next (refreshDue s x c.val k.val)

/-- Every pair that owes too many refreshes catches up where it can. -/
def catchUpAll (s : State) : State :=
  s.refreshDebt.foldl (fun st e => catchUp st (siteOf (e.1 / 256)) (e.1 / 8 % 32) (e.1 % 8)) s

/-! ### Commands that wait for a parcel boundary -/

/-- Does a channel take stack commands, now or after a hold: in service, on an FCS-48 stack that is not in self-refresh?
-/
def reachable (s : State) (x : SiteId) (c : Nat) : Bool := chanUp s x c && isFcs s x.val && !(s.sites[x]).selfRefresh

/-- REFP: never more than four ahead (R395). -/
def refp (s : State) (x : SiteId) (c k : Nat) : State :=
  if -4 < kvGetD s.refreshDebt (stallKey x.val c k) 0 then sendRefp s x c k 1 else s

/-- SEAL of one row: the dirty lines of the row are written back first (R354), then the sealer visits each block. -/
def sealRow (s : State) (x : SiteId) (c bank row : Nat) : State :=
  if rowStaysOpen s x.val c bank row then s
  else
    let s1 := cleanRow s x.val c bank row
    (List.range 32).foldl (fun st j => sealStep (s.sites[x]).die.forceSeal st (physKey st (colKey x.val c bank row (2 * j)))) s1

/-- The CRC-32C values of the runs of a run list over a row, after any mend (R414). -/
def runCrcs (s : State) (x : SiteId) (c bank row : Nat) : List W32 :=
  ((s.sites[x]).die.runs).map (fun e =>
    let r := Config.runOf e.2
    colsCrc ((List.range (r.2 % 65)).map (fun i =>
      let p := physKey s (colKey x.val c bank row ((r.1 + i) % 64))
      let b := readBlock s p
      if p % 2 = 0 then b.2.1 else b.2.2)))

/-- SEAL over `n` rows of a bank from `row`; the CRC values of the run list are left in the base die, row by row
(DEDUCED, log 70). -/
def sealRows (s : State) (x : SiteId) (c bank row n : Nat) : State :=
  let s1 := (List.range n).foldl (fun st i => sealRow st x c bank (row + i)) s
  let crcs := (List.range n).flatMap (fun i => runCrcs s1 x c bank (row + i))
  modSite s1 x (fun y => { y with die := { y.die with crcs := crcs } })

/-- The deferred form of a stack command: scope 5 SEAL, 6 RMAP, 7 REFP. -/
def stackDefer (scope : Nat) (x : SiteId) (c k : Nat) (args : List Nat) : Deferred := ⟨scope, x.val, c, k, args, none⟩

/-- May what waits take effect? A stack command waits for a hold of its channel too, and a SEAL for the stall of its
pair to be without a pass or paused (R413) and for the sealer to run. -/
def deferReady (s : State) (d : Deferred) : Bool :=
  !windowIn s d.scope d.site d.ch d.pair && (decide (d.scope < 5) ||
    (!(getChan s d.site d.ch).held
      && (d.scope != 5 || (pairQuiet s (siteOf d.site) d.ch d.pair && sealerRuns s (siteOf d.site)))))

/-- What waited takes effect. A stack command for a channel that is no longer in service is dropped. -/
def runDefer (s : State) (d : Deferred) : State :=
  let x := siteOf d.site
  if d.scope < 5 then applyDeferred s d
  else if !reachable s x d.ch then s
  else
    match d.scope, d.args with
    | 5, [bank, row, n] => sealRows s x d.ch bank row n
    | 6, [bank, row, entry, v] => putRemap s (bankKey d.site d.ch bank) entry row (v == 1)
    | 7, _ => refp s x d.ch d.pair
    | _, _ => s

/-- A stack command takes effect at once, or waits (DEDUCED, log 73). -/
def stackCmd (s : State) (d : Deferred) : State := if deferReady s d then runDefer s d else { s with defer := s.defer ++ [d] }

/-- REFP. It enters a pair at a parcel boundary (R158, R439). -/
def execRefp (x : SiteId) (c : ChId) (k : PairId) (s : State) : Host.Outcome State Fault Refusal :=
  .next (if reachable s x c.val then stackCmd s (stackDefer 7 x c.val k.val []) else s)

/-- RMAP: writes one entry of the row-remap table of a bank (R434). -/
def execRmap (x : SiteId) (c : ChId) (bank : Fin 16) (row : BitVec 16) (entry : BitVec 9) (valid : Bool) (s : State) :
    Host.Outcome State Fault Refusal :=
  .next (if reachable s x c.val && decide (entry.toNat < 458) then
    stackCmd s (stackDefer 6 x c.val (bank.val / 2) [bank.val, row.toNat, entry.toNat, if valid then 1 else 0]) else s)

/-- SEAL. It enters a pair with an open window at the window's close (R439). -/
def execSeal (x : SiteId) (c : ChId) (bank : Fin 16) (row count : Nat) (s : State) :
    Host.Outcome State Fault Refusal :=
  .next (if reachable s x c.val && decide (row + count ≤ 45776) then
    stackCmd s (stackDefer 5 x c.val (bank.val / 2) [bank.val, row, count]) else s)

/-! ### At a parcel boundary -/

/-- What waited and may take effect does, in order. -/
def runReady (s : State) : State :=
  (s.defer.filter (deferReady s)).foldl runDefer { s with defer := s.defer.filter (fun d => !deferReady s d) }

/-- The holds that waited for a window begin at the close of the last one on their channel (R391). -/
def beginHolds (s : State) : State :=
  (List.finRange 20).foldl syncHold { s with chans := s.chans.map (fun e =>
    if e.2.waitWindow && !windowIn s 1 (e.1 / 32) (e.1 % 32) 0 then
      (e.1, { e.2 with waitWindow := false, holdStart := s.ts }) else e) }

/-- What happens once a window has closed: fences, pauses and damage that waited for it, and stack commands (R12, R439);
the refreshes that are owed (Table STK-7); the accesses that waited (R16, R150); and the holds of channels (R391). -/
def afterClose (s : State) : State := batch s fun s => beginHolds (performPending (catchUpAll (runReady s)))

/-- PAUSE: at the close of the window where one is open (R149). A SEAL that waited for it follows. -/
def execPause (x : SiteId) (c : ChId) (k : PairId) (s : State) : Host.Outcome State Fault Refusal :=
  .next (if stallTakes s x c.val k.val then
    batch s fun s => afterClose (requestDeferred s ⟨3, x.val, c.val, k.val, [], none⟩) else s)

/-- RESUME (R149): a pause that still waits is dropped. -/
def execResume (x : SiteId) (c : ChId) (k : PairId) (s : State) : Host.Outcome State Fault Refusal :=
  let key := stallKey x.val c.val k.val
  .next (if stallTakes s x c.val k.val then
    putUnit { s with defer := s.defer.filter (fun d =>
        !(d.scope == 3 && d.site == x.val && d.ch == c.val && d.pair == k.val)) }
      key { getUnit s key with paused := false } else s)

/-! ### The end of a hold -/

/-- RETRAIN_COMPLETE: refreshes and commands that the hold kept out follow it. -/
def execRetrainComplete (x : SiteId) (c : ChId) (ok : Bool) (s : State) : Host.Outcome State Fault Refusal :=
  .next (batch s fun s => afterClose (endRetrain s x c.val ok))

/-- LANE_REPAIR_COMPLETE. -/
def execLaneRepairComplete (x : SiteId) (c : ChId) (s : State) : Host.Outcome State Fault Refusal :=
  .next (batch s fun s => afterClose (endRepair s x c.val))

end Sys2Proof.Machine
end

