-- ==== Sys2Proof/Machine/Commit.lean ====
section
/-! DEFINITION. Dispatch and commit of parcels, close, reseal and rollback of a step (06 UPD, 05 STL). -/

namespace Sys2Proof.Machine

/-! ### Units and passes (R153, R194) -/

def chOf (n : Nat) : ChId := ⟨n % 32, by omega⟩
def pairOf (n : Nat) : PairId := ⟨n % 8, by omega⟩

/-- The unit that runs a parcel now: the stall of its pair, or the relief engine of its site (R194). -/
def unitFor (s : State) (ly : Layout) (q : Nat) : UnitId :=
  let u := ly.parcelUnit s q
  if onRelief s u then .relief (siteOf u.site) else .stall ⟨siteOf u.site, chOf u.ch, pairOf u.pair⟩

def unitSite : UnitId → SiteId
  | .stall st => st.site
  | .relief x => x

def isReliefUnit : UnitId → Bool
  | .relief _ => true
  | .stall _ => false

/-- Does a unit run the parcel? -/
def running (s : State) (id q : Nat) : Bool := s.units.any (fun e => e.2.layout == id && e.2.parcel == some q)

/-- Parcels of an open update that wait for a dispatch: ready ones, and dispatched ones that no unit runs (R205, R206).
-/
def waitingParcels (s : State) (id : Nat) (u : Upd) : List Nat :=
  u.ready.map (·.1) ++ ((u.disp.filter (fun d => !running s id d.1)).map (·.1))

/-- Updates with a parcel that waits for unit `k`: due beat, admission number, layout. -/
def passesFor (s : State) (k : Nat) : List (Nat × Nat × Nat) :=
  s.layouts.filterMap (fun e =>
    match e.2.shard.st, e.2.shard.upd with
    | .isOpen, some u =>
      if (waitingParcels s e.1 u).any (fun q => unitKey (unitFor s e.2 q) == k) then some (u.due, u.seq, e.1) else none
    | _, _ => none)

/-- How often a unit has entered the pass of a layout in this beat. -/
def enteredNow (s : State) (t : Stall) (id : Nat) : Nat := if t.entered.1 = s.beat.now then t.entered.2.count id else 0

/-- May a unit run the pass of a layout: it is in that pass, or may enter it, at most twice in a beat (R153)? -/
def passAllowed (s : State) (t : Stall) (id : Nat) : Bool := t.layout == id || decide (enteredNow s t id < 2)

/-- The pass a unit takes: earliest due beat, ties to the order admitted first, of those it may run (R153). -/
def bestPass (s : State) (k : Nat) : Option Nat :=
  (((passesFor s k).filter (fun p => passAllowed s (getUnit s k) p.2.2)).foldl (fun (b : Option (Nat × Nat × Nat)) x =>
    match b with
    | none => some x
    | some y => if x.1 < y.1 ∨ (x.1 = y.1 ∧ x.2.1 < y.2.1) then some x else some y) none).map (·.2.2)

/-- Has the ripple start reached the unit (R476, R477)? -/
def rippleReached (s : State) : UnitId → Bool
  | .stall st =>
    match s.power.ripple with
    | none => true
    | some (x, g) => decide (st.site.val < x) || (st.site.val == x && decide (st.ch.val < g))
  | .relief r =>
    match s.power.ripple with
    | none => true
    | some (x, g) => decide (r.val < x) || (r.val == x && decide (0 < g))

/-- Has no stall of a site run for 10 µs or more (R476)? A site whose groups a ripple is starting is not idle. -/
def siteIdle (s : State) (x : SiteId) : Bool :=
  decide ((s.sites[x]).ranTs + 10000 ≤ s.ts) && s.power.ripple.all (fun r => r.1 != x.val)
    && !s.units.any (fun e => decide (e.1 < 5120) && e.1 / 256 == x.val && e.2.parcel.isSome)

/-- Has a start by stall groups reached channel `c`: the groups start in ascending channel order, 64 ns apart, and one
below the first waits for the end of the start (R476; DEDUCED, log 164)? -/
def groupReached (s : State) (x : SiteId) (c : Nat) : Bool :=
  siteIdle s x || match (s.sites[x]).groups with
    | none => true
    | some (t, f) => decide (t + 2048 ≤ s.ts) || (decide (f ≤ c) && decide (t + 64 * (c - f) ≤ s.ts))

/-- A parcel begins on a stall of a site: after 10 µs of rest the site starts by stall groups, and the 2.048 µs of that
are drawn from the unbooked share of stall time (R476, R152). -/
def noteStart (idle : Bool) (s : State) (un : UnitId) : State :=
  match un with
  | .stall st =>
    let x := st.site
    if idle then
      addSquall (modSite s x (fun y => { y with ranTs := s.ts, groups := some (s.ts, st.ch.val) })) (.stall x) 2048
    else modSite s x (fun y => { y with ranTs := s.ts })
  | .relief _ => s

/-- A stall of a site ends a parcel at this tick. -/
def noteRan (s : State) (un : UnitId) : State :=
  match un with
  | .stall st => modSite s st.site (fun y => { y with ranTs := s.ts })
  | .relief _ => s

/-- May the unit begin a parcel: no squall hold, no thermal stop, engine running, channel `c` of the parcel in service
and not held, the unit between parcels and not paused, its stall group started (R480, Table PWR-6, R446, R391, R149,
R476)? -/
def mayBegin (s : State) (u : UnitId) (c : Nat) : Bool :=
  let x := unitSite u
  let y := s.sites[x]
  let t := getUnit s (unitKey u)
  chanUp s x c && !(getChan s x.val c).held && !s.power.squall && rippleReached s u && !s.fatal
    && t.parcel.isNone && !t.paused
    && (match u with
        | .stall st => decide (y.level < 3) && !t.fault && groupReached s x st.ch.val
        | .relief _ => !y.reliefDown)

/-- A load of a column: a stall checks its parity alone (R132, R133); a relief engine reads through the channel, and
decodes. -/
def unitLoad (relief : Bool) (s : State) (k : Nat) : Col × Bool := if relief then readCol s k else stallCol s k

/-- What a load of a parcel sees: its state row. -/
def rowLoads (relief : Bool) (s : State) (ly : Layout) (q : Nat) : Loads := fun src col =>
  if src = 0 then (unitLoad relief s (ly.parcelCol s q (col % 64))).1 else 0

/-- Columns of the row that the program of a unit loads for a parcel. -/
def loadedCols (t : Stall) : List Nat :=
  ((t.body.filter (fun w => wOp w == 1 && wSrc w == 0)).flatMap (fun w =>
    if wG w then (List.range (groupCount t.stateLayout)).map (fun g => wA w + groupStride t.stateLayout * g)
    else [wA w])).dedup

/-- Do the loads of a parcel find no bad column: a mismatch keeps the window from opening (R132)? -/
def loadsGood (relief : Bool) (s : State) (ly : Layout) (q : Nat) (t : Stall) : Bool :=
  (loadedCols t).all (fun j => (unitLoad relief s (ly.parcelCol s q (j % 64))).2)

/-- A unit enters the pass of an update: program, descriptor and hyperparameters, then the prologue (R134, R153). -/
def enterPass (t : Stall) (id : Nat) (ly : Layout) (u : Upd) (r : Rule) : Stall :=
  runPrologue { t with
    rule := r.prologue ++ r.body, nPro := r.prologue.length, nBody := r.body.length, stateLayout := ly.stateLayout,
    workFormat := ly.workFormat, mixMaster := r.mixMaster, step := u.step, stream0 := u.stream0, stream1 := u.stream1,
    seed0 := u.seed0, seed1 := u.seed1, hyper := u.hyper, layout := id, parcel := none, windowOpen := false,
    mode := .rule }
    (fun _ _ => 0)

/-- A unit enters a pass in this beat. -/
def enterNow (s : State) (t : Stall) (id : Nat) (ly : Layout) (u : Upd) (r : Rule) : Stall :=
  { enterPass t id ly u r with
    entered := (s.beat.now, id :: (if t.entered.1 = s.beat.now then t.entered.2 else [])) }

/-- The descriptor that the controller sends with a parcel (R130). -/
def descOf (s : State) (ly : Layout) (q : Nat) : PDesc :=
  let n := parcelSize ly.stateLayout
  let b := parcelBase n ly.segs q
  ⟨q, ly.parcelCol s q 0 / 64, ((elemAt n ly.segs (q * n)).map Prod.fst).getD 0, b.1, b.2⟩

/-- A parcel is loaded into a unit: descriptor and gradient latch (R130). -/
def loadParcel (t : Stall) (q : Nat) (grad : List (BitVec 16)) (d : PDesc) : Stall :=
  let v := t.takeDesc d
  { v with parcel := some q, latch := grad, group := 0, cursor := 0, commit := [],
           wcodes := [], wscales := [], wpend := [], zeros := 0, sats := 0, nfStore := 0, nfGrad := 0,
           windowOpen := false }

/-- PASS_SWITCH: a unit between parcels enters the pass it takes next. -/
def passSwitch (s : State) (u : UnitId) : State :=
  let k := unitKey u
  let t := getUnit s k
  if t.parcel.isSome || t.paused || t.fault || s.power.inReset.isSome then s
  else
    match bestPass s k with
    | none => s
    | some id =>
      match getLayout s id with
      | none => s
      | some ly =>
        match ly.shard.upd with
        | none => s
        | some up =>
          match ruleOf s up.ruleId with
          | none => s
          | some r => putUnit s k (enterNow s t id ly up r)

/-- PASS_SWITCH. -/
def execPassSwitch (u : UnitId) (s : State) : Host.Outcome State Fault Refusal := .next (passSwitch s u)

/-! ### Dispatch (R192, R194, R204, R248, R249) -/

/-- Columns of the state row as they stand, and as undo writes keep them. -/
def oldState (s : State) (ly : Layout) (q : Nat) : List Col :=
  (List.range (stateCols ly.stateLayout)).map (fun j => rowCol s ly q j)

/-- Write a column as a unit does: a stall open, a relief engine sealed (R406). -/
def unitWrite (relief : Bool) (s : State) (w : Nat × Col) : State :=
  if relief then writeSealed s w.1 w.2 else writeOpen s w.1 w.2

/-- The pre-image of a parcel cut in its window is checked against the UndoCrc of its dispatch, and restored (R204).
None when the check fails (DEDUCED, log 89). -/
def restoreCut (s : State) (ly : Layout) (q : Nat) (d : Disp) : Option State :=
  let cs := undoCols s ly q
  if colsCrc cs = d.undoCrc then some (writeCols s (fun j => ly.parcelCol s q j) cs) else none

/-- A lower parcel of the same site, of a tile that this one overlaps, is still to be dispatched (R194, DEDUCED, log
38). -/
def lowerWaits (s : State) (ly : Layout) (g : Geo) (u : Upd) (q : Nat) : Bool :=
  u.ready.any (fun e => decide (e.1 < q) && (ly.parcelUnit s e.1).site == (ly.parcelUnit s q).site
    && overlap (tileParcels' g e.1) (tileParcels' g q))
where
  /-- Tiles that a parcel overlaps. -/
  tileParcels' (g : Geo) (q : Nat) : List Nat := span (q * g.n / 8192) (((q + 1) * g.n - 1) / 8192)

/-- Is this dispatch, the site's n-th from zero, a spot-check parcel (R248)? -/
def isSpot (s : State) (n : Nat) : Bool := n % 2 ^ s.cfg.spotLog == 2 ^ s.cfg.spotLog - 1

/-- Begin a parcel on its unit, its gradient given, in the state where the row is ready to load (DEDUCED, log 91). -/
def beginParcel (s : State) (id q : Nat) (ly : Layout) (up : Upd) (r : Rule) (un : UnitId) (grad : List (BitVec 16))
    (tries : Nat) : State :=
  let k := unitKey un
  let x := unitSite un
  let t0 := getUnit s k
  let t1 := if t0.layout = id then t0 else enterNow s t0 id ly up r
  let t2 := loadParcel t1 q grad (descOf s ly q)
  let d : Disp := ⟨un, grad, tries, if up.guarded then colsCrc (oldState s ly q) else 0, false⟩
  let s1 := modUpd (putUnit s k t2) id (fun u => { u with ready := kvDel u.ready q, disp := kvPut u.disp q d })
  let n := (s.sites[x]).dispatched
  let s2 := noteStart (siteIdle s x) (modSite s1 x (fun y => { y with dispatched := n + 1 })) un
  if isSpot s n then
    let row := (List.range 64).map (fun j => rowCol s ly q j)
    let s3 := dropSpots s2 (fun z => z.layout == id && z.parcel == q)
    { s3 with spots := s3.spots ++ [⟨x.val, id, q, up.step, un, row, grad, t2, false, 0⟩] }
  else s2

/-- Booked work of a fenced stall resumes on the relief engine: the interruption ends (R444). -/
def endTakeover (s : State) (un : UnitId) : State :=
  match un with
  | .relief x =>
    (match (s.sites[x]).stallFrom with
     | some t => modSite (charge (charge s (.stall x) t) (.relief x) t) x (fun y => { y with stallFrom := none })
     | none => s)
  | .stall _ => s

/-- Dispatch a parcel that waits (R194, R205, R206). A parcel that a hard fault cut is first restored (R204); where that
fails, the shard is damaged, for no pre-image is left to restore. -/
def dispatchParcel (s : State) (x : SiteId) (id q : Nat) : State :=
  match getLayout s id with
  | none => s
  | some ly =>
    match ly.shard.st, ly.shard.upd with
    | .isOpen, some up =>
      match ruleOf s up.ruleId with
      | none => s
      | some r =>
        let un := unitFor s ly q
        let g := ly.geo s
        if unitSite un ≠ x || !(waitingParcels s id up).contains q || !mayBegin s un (ly.parcelUnit s q).ch
            || bestPass s (unitKey un) != some id || lowerWaits s ly g up q then s
        else
          let s0 := endTakeover s un
          match kvGet up.disp q, kvGet up.ready q with
          | some d, _ =>
            if d.restore then
              match restoreCut s0 ly q d with
              | some s1 => beginParcel s1 id q ly up r un d.grad d.tries
              | none => endUpdate s0 id 0x20 3 q .damaged
            else beginParcel s0 id q ly up r un d.grad d.tries
          | none, some grad => beginParcel s0 id q ly up r un grad 0
          | none, none => s
    | _, _ => s

/-- PARCEL_DISPATCH. -/
def execParcelDispatch (x : SiteId) (layout parcel : Nat) (s : State) : Host.Outcome State Fault Refusal :=
  .next (dispatchParcel s x layout parcel)

/-! ### The commit (R155-R157, R195, R196) -/

/-- The short weights of the commit, in the target slot. -/
def weightWrites (s : State) (ly : Layout) (slot q : Nat) (t : Stall) : List (Nat × Col) :=
  (weightCols t).zipIdx.map (fun c => (ly.verCol s slot q c.2, c.1))

/-- The row after the commit: the columns of the commit buffer over the old ones. -/
def newRow (s : State) (ly : Layout) (q : Nat) (t : Stall) (j : Nat) : Col :=
  kvGetD t.commit j (rowCol s ly q j)

/-- The columns a commit writes to the state row, ascending: every state column, and the auxiliary columns the program
stores (R195). -/
def commitCols (sl aux : Nat) : List Nat := List.range (stateCols sl) ++ auxCols sl aux

/-- The seal of a commit (Table UPD-8). -/
def commitSeal (s : State) (ly : Layout) (up : Upd) (r : Rule) (q : Nat) (t : Stall) : Seal :=
  let undo := if up.guarded then colsCrc (oldState s ly q) else 0
  Seal.withCrc ⟨up.step, up.ruleId, up.slot, up.guarded, ly.stateLayout, q, up.attempt, r.auxStore, 0,
    colsCrc (weightCols t), undo⟩ (newRow s ly q t)

/-- Writes before the window: version columns, and the pre-image under guarded step (R157). -/
def writesBefore (s : State) (ly : Layout) (up : Upd) (q : Nat) (t : Stall) : List (Nat × Col) :=
  weightWrites s ly up.slot q t
    ++ (if up.guarded then (oldState s ly q).zipIdx.map (fun c => (ly.undoCol s q c.2, c.1)) else [])

/-- Writes of the window: commit columns ascending, the seal last (R155). -/
def writesInside (s : State) (ly : Layout) (up : Upd) (r : Rule) (q : Nat) (t : Stall) : List (Nat × Col) :=
  (commitCols ly.stateLayout r.auxStore).map (fun j => (ly.parcelCol s q j, newRow s ly q t j))
    ++ [(ly.parcelCol s q 63, sealCol (commitSeal s ly up r q t))]

/-- Commit a parcel as far as the first `n` writes of its window. -/
def commitWrites (s : State) (ly : Layout) (up : Upd) (r : Rule) (q : Nat) (t : Stall) (relief : Bool) (n : Nat) : State :=
  let ws := writesBefore s ly up q t ++ (writesInside s ly up r q t).take n
  ws.foldl (unitWrite relief) s

/-- Body of layout U (Table ORD-6, R198). -/
def bodyU (u : Upd) : BitVec 192 :=
  BitVec.ofNat 192 (u.step % 2 ^ 40 + 2 ^ 40 * (u.slot % 8) + 2 ^ 43 * (if u.guarded then 1 else 0)
    + 2 ^ 48 * sat36 u.zeros + 2 ^ 84 * sat36 u.sats + 2 ^ 120 * sat36 (nonFinite u) + 2 ^ 156 * u.sumSq.toNat)

/-- Every parcel has its seal written, or was left open by a hard fault (R197, R444). -/
def allSealed (g : Geo) (u : Upd) : Bool := (List.range g.parcels).all (fun q => kvHas u.sealed q || kvHas u.cut q)

/-- The close of a step (R197-R199, R519): the receipt, the readable slot and the shard's new step. -/
def closeStep (s : State) (id : Nat) : State :=
  match getLayout s id with
  | none => s
  | some ly =>
    match ly.shard.upd with
    | none => s
    | some u =>
      let body := bodyU u
      let s1 := modLayout s id (fun l =>
        let l1 := setSlot l u.slot (.readable u.step)
        { l1 with shard := { l1.shard with
            st := .resealing, step := u.step, prev := l1.shard.last,
            last := some ⟨body, true, u.attempt, u.ruleId, ((ruleOf s u.ruleId).map Rule.body).getD [], u.slot, u.guarded⟩,
            undo := if u.guarded then some u.step else none, badUndo := [] } })
      let s2 := { s1 with units := s1.units.map (fun e => if e.2.layout = id then (e.1, e.2.idle) else e) }
      let s3 := addShardCounts s2 id u
      match findInflight s3 u.ring u.idx with
      | some f => completeWith s3 f 0x01 0x23 body
      | none => s3

/-- Close the step when its last parcel has gone. -/
def closeIfDone (s : State) (id : Nat) : State :=
  match getLayout s id with
  | some ly =>
    (match ly.shard.st, ly.shard.upd with
     | .isOpen, some u => if allSealed (ly.geo s) u then closeStep s id else s
     | _, _ => s)
  | none => s

/-- The parcel of a spot check has its seal written (R249, R254), by the unit that the check will name (R255). -/
def sealSpot (s : State) (un : UnitId) (id q step : Nat) : State :=
  { s with spots := s.spots.map (fun z =>
      if z.layout = id ∧ z.parcel = q ∧ z.step = step then { z with unit := un, committed := true, sealedAt := s.ts }
      else z) }

/-- A unit's parcel has been committed: counts, the sealed parcel, and the unit free for the next (DEDUCED, log 92). -/
def parcelSealed (s : State) (un : UnitId) (id q : Nat) (ly : Layout) (r : Rule) (t : Stall) : State :=
  let x := unitSite un
  let t0 := { t with parcel := none, windowOpen := false, commit := [], wcodes := [], wscales := [], wpend := [] }
  let s1 := putUnit s (unitKey un) ((t.next.map t0.takeDesc).getD t0)
  let s2 := modUpd s1 id (fun u =>
    { u with zeros := u.zeros + t.zeros, sats := u.sats + t.sats, nfStore := u.nfStore + t.nfStore,
             nfGrad := u.nfGrad + t.nfGrad, sealed := kvPut u.sealed q true, disp := kvDel u.disp q })
  let guarded := ((ly.shard.upd).map Upd.guarded).getD false
  let s3 := if isReliefUnit un then count s2 (1541 + 16 * x.val) 1
    else count s2 (1540 + 16 * x.val) (parcelCycles ly.stateLayout r.body guarded)
  sealSpot (noteRan s3 un) un id q (((ly.shard.upd).map Upd.step).getD 0)

/-- May the unit finish its parcel: its window is open already, or nothing stops it from opening one (R12, R480)? A
relief engine writes through the channel, which must not be held (R391). -/
def mayFinish (s : State) (un : UnitId) (t : Stall) (c : Nat) (open? : Bool) : Bool :=
  s.power.inReset.isNone && !s.fatal && (t.windowOpen || (open? && !t.paused && !t.fault &&
    (match un with
     | .relief x => !(s.sites[x]).reliefDown && !(getChan s x.val c).held
     | .stall _ => true)))

/-- The seal of a unit's parcel has been written: the rest of its program has run and its columns are committed (R155,
R195), and the step closes with its last parcel (R197). -/
def finishParcel (s : State) (un : UnitId) (id q : Nat) : State :=
  let t := getUnit s (unitKey un)
  if t.layout ≠ id || t.parcel != some q then s
  else
    match getLayout s id with
    | none => s
    | some ly =>
      match ly.shard.upd with
      | none => s
      | some up =>
        match ruleOf s up.ruleId with
        | none => s
        | some r =>
          let rel := isReliefUnit un
          if !mayFinish s un t (ly.parcelUnit s q).ch (ly.shard.st == .isOpen)
              || !(t.windowOpen || loadsGood rel s ly q t) then s
          else batch s fun s =>
            let t1 := runParcel t (rowLoads rel s ly q)
            let n := (commitCols ly.stateLayout r.auxStore).length + 1
            let s1 := commitWrites s ly up r q t1 rel n
            afterClose (closeIfDone (parcelSealed s1 un id q ly r t1) id)

/-- PARCEL_SEAL_WRITTEN. -/
def execParcelSealWritten (u : UnitId) (layout parcel : Nat) (s : State) : Host.Outcome State Fault Refusal :=
  .next (finishParcel s u layout parcel)

/-! ### Parity mismatches (R132, R205, R580) -/

/-- Ledger code of the failing column's block, and whether it is lasting uncorrectable (R580). For an open column the
dispatch that follows is the retry. -/
def mismatchCode (openCol : Bool) (first : Option FirstRead) (retry : RetryRead) : Nat × Bool :=
  if openCol then (if retry = .clean then (0x12, false) else (0x14, true))
  else
    match first with
    | none => (0x12, false)
    | some .corrected => (errorCode .corrected retry, false)
    | some _ => let c := errorCode .uncorrectable retry; (c, c == 0x13)

/-- The sealed blocks among the columns that a parcel loads which decode as corrected are written back (R424, R580). -/
def mendLoads (s : State) (ly : Layout) (q : Nat) (t : Stall) : State :=
  (loadedCols t).foldl (fun st j =>
    let p := physKey st (ly.parcelCol st q (j % 64))
    if !blockOpen st p && (readBlock st p).1 == .corrected then writeBack st p else st) s

/-- A stall reports a mismatch in a parcel's loads: nothing of the parcel is written, and it is dispatched again once. A
first read that is uncorrectable, and an open column, cost the wait of a retry (R423, Table FLT-1). -/
def mismatch (s : State) (un : UnitId) (id q : Nat) (openCol : Bool) (first : Option FirstRead) (retry : RetryRead) :
    State :=
  let t := getUnit s (unitKey un)
  if t.layout ≠ id || t.parcel != some q || t.windowOpen || s.power.inReset.isSome then s
  else
    match getLayout s id with
    | none => s
    | some ly =>
      match ly.shard.upd with
      | none => s
      | some u =>
        match kvGet u.disp q with
        | none => s
        | some d =>
          let code := mismatchCode openCol first retry
          let pu := ly.parcelUnit s q
          let s1 := putUnit s (unitKey un) { t with parcel := none, commit := [], wcodes := [], wscales := [], wpend := [] }
          let x := siteOf pu.site
          let s1a := if openCol || first == some .uncorrectable then chargeRetry s1 x else s1
          let s2 := recordError (if openCol || code.2 then s1a else mendLoads s1a ly q t) x pu.ch code.1
          if code.2 || 1 ≤ d.tries then
            match (getLayout s2 id).bind (fun l => l.shard.upd) with
            | some u2 => uncorrectable s2 id q u2
            | none => s2
          else modUpd s2 id (fun v => { v with disp := kvPut v.disp q { d with tries := d.tries + 1 } })

/-- STALL_PARITY_MISMATCH. -/
def execStallParityMismatch (u : UnitId) (layout parcel : Nat) (openCol : Bool) (first : Option FirstRead)
    (retry : RetryRead) (s : State) : Host.Outcome State Fault Refusal :=
  .next (mismatch s u layout parcel openCol first retry)

/-! ### Reseal (R201-R203) -/

/-- Columns of a parcel that a step writes. -/
def stepKeys (s : State) (ly : Layout) (u : Upd) (q : Nat) : List Nat :=
  stateKeys s ly q ++ verKeys s ly u.slot q ++ (if u.guarded then undoKeys s ly q else [])

/-- Seal the open blocks of columns (R412). -/
def sealKeys (s : State) (ks : List Nat) : State := ks.foldl (fun st k => sealStep false st (physKey st k)) s

/-- May the sealers of the layout's sites work? -/
def sealersRun (s : State) (ly : Layout) : Bool :=
  ly.masks.all (fun m => sealerRuns s (siteOf m.1)) && s.power.inReset.isNone

/-- Rows resealed, by FCS-48 site (Table TEL-1; DEDUCED, log 93). -/
def countRows (s : State) (rows : List Nat) : State :=
  let m : KV Nat := rows.dedup.foldl (fun m r => kvAdd m (r / 65536 / 16 / 32) 1) []
  m.foldl (fun st e => if isFcs st e.1 then count st (1539 + 16 * e.1) e.2 else st) s

/-- The reseal of a step: the checks of R202 over every parcel, then every column the step wrote is sealed. With it the
torn parcels. -/
def resealStep (s : State) (id : Nat) (ly : Layout) (u : Upd) : State × List Nat :=
  let ps := List.range (ly.geo s).parcels
  let torn := ps.filter (fun q => !sealGood s ly u.step u.attempt q)
  let badUndo := ps.filter (fun q => sealGood s ly u.step u.attempt q && !undoGood s ly q)
  let s1 := torn.foldl (fun st q => ledAdd st 0x07 Place.none id q) s
  let s2 := badUndo.foldl (fun st q => ledAdd st 0x08 Place.none id q) s1
  let s3 := sealKeys s2 (ps.flatMap (stepKeys s2 ly u))
  let s4 := countRows s3 (ps.flatMap (fun q => parcelRows s3 ly u.slot q u.guarded))
  let s5 := modShard s4 id (fun h => { h with badUndo := badUndo, upd := none })
  (dropSpots s5 (fun z => z.layout == id && z.step == u.step && torn.contains z.parcel), torn)

/-- The TORN notice of a step (R203). -/
def tornNotice (s : State) (u : Upd) (torn : List Nat) : State :=
  if torn = [] then s
  else emitNotice s (ringOf u.ring) 0x31 0x23 u.idx 0 u.tag u.due u.seq (bodyT u.step torn.length)

/-- The reseal of a closed step is complete (R203). -/
def finishReseal (s : State) (id : Nat) : State :=
  match getLayout s id with
  | none => s
  | some ly =>
    match ly.shard.st, ly.shard.upd with
    | .resealing, some u =>
      if !sealersRun s ly then s
      else
        let r := resealStep s id ly u
        let s1 := modShard r.1 id (fun h => { h with st := if r.2 = [] then .idle else .torn })
        tornNotice s1 u r.2
    | _, _ => s

/-- RESEAL_COMPLETE. -/
def execResealComplete (layout : Nat) (s : State) : Host.Outcome State Fault Refusal := .next (finishReseal s layout)

/-! ### Rollback (R204, R205, R209-R213) -/

/-- The new seal of a rolled-back parcel (R210): step `v`, the RuleId, VersionSlot and Attempt of the close before. -/
def rolledSeal (s : State) (ly : Layout) (q v : Nat) (c : CloseRec) (row : Nat → Col) : Seal :=
  Seal.withCrc ⟨v, c.ruleId, c.slot, false, ly.stateLayout, q, c.attempt, 0, 0, colsCrc (verCols s ly c.slot q), 0⟩ row

/-- Restore a parcel from its pre-image, with a new seal (R210). -/
def restoreParcel (s : State) (ly : Layout) (q v : Nat) (c : CloseRec) : State :=
  let cs := undoCols s ly q
  let s1 := writeCols s (fun j => ly.parcelCol s q j) cs
  writeSealed s1 (ly.parcelCol s1 q 63) (sealCol (rolledSeal s1 ly q v c (fun j => cs.getD j (rowCol s1 ly q j))))

/-- The close record to roll back to; the layout's filling counts as one (R303). -/
def closeOr (c : Option CloseRec) : CloseRec := c.getD ⟨0, false, 0, 0, [], 0, false⟩

/-- Roll back every parcel of `ps` whose seal holds step `v + 1`; those whose pre-image fails are left, and reported
(R210). -/
def rollParcels (s : State) (ly : Layout) (v : Nat) (c : CloseRec) (bad : List Nat) (ps : List Nat) :
    State × Nat × Bool :=
  ps.foldl (fun (a : State × Nat × Bool) q =>
    if (parseSeal (rowCol a.1 ly q 63)).step ≠ v + 1 then a
    else if bad.contains q || !undoGood a.1 ly q || !(parseSeal (rowCol a.1 ly q 63)).guarded then (a.1, a.2.1, true)
    else (restoreParcel a.1 ly q v c, a.2.1 + 1, a.2.2)) (s, 0, false)

/-- An admitted UPD_ABORT of a shard. -/
def abortOrder (s : State) (id : Nat) : Option InFlight :=
  s.inflight.find? (fun f => ordOp f.order == 0x21 && fld f.order 16 2 == id)

/-- DONE of the UPD_ABORT (R213). -/
def finishAbort (s : State) (id step rolled : Nat) (damaged : Bool) : State :=
  match abortOrder s id with
  | some f => completeG s f 0x01 (step % 2 ^ 40 + 2 ^ 64 * (rolled % 2 ^ 32) + 2 ^ 96 * (if damaged then 1 else 0))
  | none => s

/-- Restore the parcels of an ended step that a hard fault cut and that no unit has taken up again (R204). -/
def restoreCuts (s : State) (ly : Layout) (u : Upd) : State × Bool :=
  (u.disp.filter (fun d => d.2.restore)).foldl (fun (a : State × Bool) d =>
    match restoreCut a.1 ly d.1 d.2 with
    | some s1 => (s1, a.2)
    | none => (a.1, true)) (s, false)

/-- The rollback of a step that ended before its close is complete: the receipt of the UPD_OPEN, then that of the
UPD_ABORT (R205, R209, R212; DEDUCED, log 88). -/
def rollOpen (s : State) (id : Nat) (ly : Layout) (u : Upd) (reason cnt : Nat) : State :=
  let v := ly.shard.step
  let done := u.sealed.map (·.1)
  if u.guarded then
    let a := restoreCuts s ly u
    let b := rollParcels a.1 ly v (closeOr ly.shard.last) [] done
    let bad := a.2 || b.2.2
    let s1 := sealKeys b.1 ((done ++ u.disp.map (·.1)).flatMap (stepKeys b.1 ly u))
    let reason' := if bad ∧ reason = 2 then 3 else if bad ∧ reason = 4 then 5 else reason
    let status := if reason = 4 then 0x22 else 0x20
    let s2 := endUpdate s1 id status reason' (if reason = 4 then done.length else cnt) (if bad then .damaged else .idle)
    let s3 := dropSpots (modShard s2 id (fun h => { h with undo := none, badUndo := [] })) (fun z => z.layout == id)
    finishAbort s3 id v b.2.1 bad
  else
    let clean := u.sealed.isEmpty && u.cut.isEmpty
    let s1 := sealKeys s (done.flatMap (stepKeys s ly u))
    let s2 := endUpdate s1 id 0x22 (if clean then 4 else 5) done.length (if clean then .idle else .damaged)
    finishAbort (dropSpots s2 (fun z => z.layout == id)) id v 0 (!clean)

/-- The rollback of a closed step is complete (R209-R211): parcels are resealed first where their reseal has not run
(DEDUCED, log 87). -/
def rollClosed (s : State) (id : Nat) (ly : Layout) : State :=
  let c := closeOr ly.shard.last
  let v := ly.shard.step - 1
  let s0 := match ly.shard.upd with
    | some u => let r := resealStep s id ly u; tornNotice r.1 u r.2
    | none => s
  let bad := ((getLayout s0 id).map (fun l => l.shard.badUndo)).getD []
  let b := rollParcels s0 ly v (closeOr ly.shard.prev) bad (List.range (ly.geo s0).parcels)
  let s1 := modShard b.1 id (fun h =>
    { h with st := if b.2.2 then .damaged else .idle, step := v, prev := none, undo := none, badUndo := [], upd := none,
             last := h.prev.map (fun p => { p with hasBody := false }) })
  let s2 := giveUpSlot s1 id c.slot ly.shard.step
  finishAbort (dropSpots s2 (fun z => z.layout == id)) id v b.2.1 b.2.2

/-- A rollback is complete. It waits for open windows (Table UPD-13). Where a fence has damaged the shard meanwhile, the
UPD_ABORT ends with FAILED_LOST. -/
def finishRollback (s : State) (id : Nat) : State :=
  match getLayout s id with
  | none => s
  | some ly =>
    if s.power.inReset.isSome || s.units.any (fun e => e.2.layout == id && e.2.windowOpen) then s
    else batch s fun s =>
      match ly.shard.st, ly.shard.upd with
      | .damaged, _ =>
        (match abortOrder s id with
         | some f => completeG s f 0x21 0
         | none => s)
      | .rolling, some u =>
        (match u.ending with
         | some (reason, cnt) => rollOpen s id ly u reason cnt
         | none => if sealersRun s ly then rollClosed s id ly else s)
      | .rolling, none => rollClosed s id ly
      | _, _ => s

/-- ROLLBACK_COMPLETE. -/
def execRollbackComplete (layout : Nat) (s : State) : Host.Outcome State Fault Refusal := .next (finishRollback s layout)

end Sys2Proof.Machine
end

