-- ==== Sys2Proof/Machine/StallCmd.lean ====
section
/-! DEFINITION. Stall instructions as commands (05 STL, R140-R146, Tables STL-3 and STL-4): one instruction issued on a
stall. -/

namespace Sys2Proof.Machine

/-- The column a load sees with no parcel row behind it: 32 free bytes (R9; DESIGN CHOICE, log 6). -/
def freeCol (s : State) : Col := colOf (freeBytes s 32).1

/-- What the loads of a stall see: the state row of its parcel; a stall without one, and the operands of an EW pass,
give free bytes (DESIGN CHOICE, log 33). -/
def stallLoads (s : State) (u : Stall) : Loads :=
  match u.parcel, getLayout s u.layout with
  | some q, some ly => fun src col => if src = 0 then rowLoads false s ly q 0 col else freeCol s
  | _, _ => fun _ _ => freeCol s

/-- Does the update behind a stall still let a commit window open? -/
def passOpen (s : State) (u : Stall) : Bool :=
  match getLayout s u.layout with
  | some ly => ly.shard.st == .isOpen && ly.shard.upd.isSome
  | none => false

/-- Did the loads of the parcel find no bad column (R132)? -/
def passGood (s : State) (u : Stall) : Bool :=
  match u.parcel, getLayout s u.layout with
  | some q, some ly => loadsGood false s ly q u
  | _, _ => true

/-- The cursor passes an instruction that is the next of the body; with the last group done the commit window opens
(R134, R155). -/
def nextCursor (s : State) (u0 u : Stall) (w : W32) : Stall :=
  if u0.parcel.isSome && decide (u0.group < groupCount u0.stateLayout) && decide (u0.cursor < u0.nBody)
      && u0.body.getD u0.cursor 0 == w then
    let v := u.advance
    if groupCount v.stateLayout ≤ v.group && passOpen s v && passGood s v then { v with windowOpen := true } else v
  else u

/-- Before its window opens a parcel's version columns are written, and under guarded step its pre-image (R157). -/
def writeBefore (s : State) (u : Stall) : State :=
  match u.parcel, getLayout s u.layout with
  | some q, some ly =>
    (match ly.shard.upd with
     | some up => (writesBefore s ly up q u).foldl (unitWrite false) s
     | none => s)
  | _, _ => s

/-- Does the stall run an instruction now: in service, not fenced, not paused, without a hard fault? -/
def stallRuns (s : State) (st : StallId) : Bool :=
  let u := getUnit s (unitKey (.stall st))
  stallTakes s st.site st.ch.val st.pair.val && !u.paused && !u.fault

/-- Instruction `w` on a stall that runs it. -/
def issueWord (s : State) (st : StallId) (w : W32) : State :=
  let k := unitKey (.stall st)
  let u := getUnit s k
  let v := nextCursor s u (doWord u (stallLoads s u) w) w
  let s1 := if v.windowOpen && !u.windowOpen then writeBefore s v else s
  putUnit (if wOp w = 1 then { s1 with fresh := s1.fresh + 32 } else s1) k v

/-- A stall instruction. A reserved encoding has no effect in the spec (R141): the model stops there. -/
def stallWord (st : StallId) (w : W32) (s : State) : Host.Outcome State Fault Refusal :=
  if reservedWord w then .fault .reservedEncoding
  else if stallRuns s st then .next (issueWord s st w) else .next s

/-- NOP. -/
def execStallNop (st : StallId) (s : State) : Host.Outcome State Fault Refusal := stallWord st 0 s
/-- LD: a column into a register or pair. -/
def execLd (st : StallId) (f : FmtM) (s : State) : Host.Outcome State Fault Refusal := stallWord st (wordM 1 f) s
/-- LDG: gradient latch elements into a register or pair. -/
def execLdg (st : StallId) (f : FmtM) (s : State) : Host.Outcome State Fault Refusal := stallWord st (wordM 2 f) s
/-- STC: a register or pair into a commit-buffer column. -/
def execStc (st : StallId) (f : FmtM) (s : State) : Host.Outcome State Fault Refusal := stallWord st (wordM 3 f) s
/-- STW: a register or pair onto the weight buffer. -/
def execStw (st : StallId) (f : FmtM) (s : State) : Host.Outcome State Fault Refusal := stallWord st (wordM 4 f) s
/-- BCST: a hyperparameter word into every lane. -/
def execBcst (st : StallId) (f : FmtM) (s : State) : Host.Outcome State Fault Refusal := stallWord st (wordM 5 f) s
/-- DRAW: Drizzle bits of the group's elements. -/
def execDraw (st : StallId) (f : FmtM) (s : State) : Host.Outcome State Fault Refusal := stallWord st (wordM 6 f) s
/-- FMA. -/
def execFma (st : StallId) (f : FmtV) (s : State) : Host.Outcome State Fault Refusal := stallWord st (wordV 0x10 f) s
/-- ADD. -/
def execAdd (st : StallId) (f : FmtV) (s : State) : Host.Outcome State Fault Refusal := stallWord st (wordV 0x11 f) s
/-- MUL. -/
def execMul (st : StallId) (f : FmtV) (s : State) : Host.Outcome State Fault Refusal := stallWord st (wordV 0x12 f) s
/-- MIN. -/
def execMin (st : StallId) (f : FmtV) (s : State) : Host.Outcome State Fault Refusal := stallWord st (wordV 0x13 f) s
/-- MAX. -/
def execMax (st : StallId) (f : FmtV) (s : State) : Host.Outcome State Fault Refusal := stallWord st (wordV 0x14 f) s
/-- ABS. -/
def execAbs (st : StallId) (f : FmtV) (s : State) : Host.Outcome State Fault Refusal := stallWord st (wordV 0x15 f) s
/-- SIGN. -/
def execSign (st : StallId) (f : FmtV) (s : State) : Host.Outcome State Fault Refusal := stallWord st (wordV 0x16 f) s
/-- SEL. -/
def execSel (st : StallId) (f : FmtV) (s : State) : Host.Outcome State Fault Refusal := stallWord st (wordV 0x17 f) s
/-- CMP. -/
def execCmp (st : StallId) (f : FmtV) (s : State) : Host.Outcome State Fault Refusal := stallWord st (wordV 0x18 f) s
/-- CLAMP. -/
def execClamp (st : StallId) (f : FmtV) (s : State) : Host.Outcome State Fault Refusal := stallWord st (wordV 0x19 f) s
/-- CVT. -/
def execCvt (st : StallId) (f : FmtV) (s : State) : Host.Outcome State Fault Refusal := stallWord st (wordV 0x1A f) s
/-- RSQRT. -/
def execRsqrt (st : StallId) (f : FmtV) (s : State) : Host.Outcome State Fault Refusal := stallWord st (wordV 0x20 f) s
/-- RCP. -/
def execRcp (st : StallId) (f : FmtV) (s : State) : Host.Outcome State Fault Refusal := stallWord st (wordV 0x21 f) s
/-- EXP2. -/
def execExp2 (st : StallId) (f : FmtV) (s : State) : Host.Outcome State Fault Refusal := stallWord st (wordV 0x22 f) s
/-- LOG2. -/
def execLog2 (st : StallId) (f : FmtV) (s : State) : Host.Outcome State Fault Refusal := stallWord st (wordV 0x23 f) s

end Sys2Proof.Machine
end

