-- ==== Sys2Proof/Machine/Requests.lean ====
section
/-! DEFINITION. Requester paths (11 MEM, R337-R366): requests and their completions, the Cirrus tracker, atomics, and the
arbitration of R345. -/

namespace Sys2Proof.Machine

/-! ### Wide requests -/

/-- REQUESTER_READ. -/
def execRequesterRead (p : PortId) (ns crit : Bool) (addr len : Nat) (s : State) : Host.Outcome State Fault Refusal :=
  let o := Origin.port p ns
  .next (if accepts s o then acceptRead s o crit false (wideOk addr len) addr len else s)

/-- REQUESTER_WRITE. -/
def execRequesterWrite (p : PortId) (ns posted : Bool) (addr : Nat) (data : Bytes) (s : State) :
    Host.Outcome State Fault Refusal :=
  let o := Origin.port p ns
  .next (if s.power.inReset.isNone && (posted || accepts s o) then
    acceptWrite (countOrigin s o data.length) o posted false (wideOk addr data.length) addr data else s)

/-! ### The Cirrus path (R363-R366) -/

/-- An unbooked access takes a tracker entry. -/
def takeEntry (s : State) : State := notePeak { s with tracker := s.tracker + 1 }

/-- Is there an entry for an unbooked access (R364)? -/
def entryFree (s : State) : Bool := decide (s.tracker < trackerMax) && decide (trackerHeld s < trackerAll)

/-- A narrow access with an entry: it is refused at once, or waits for its service. -/
def startNarrow (s : State) (a : HeldNarrow) : State :=
  let s1 := takeEntry s
  let before := s1.outst.length
  let s2 := match a.write with
    | some d => acceptWrite (countOrigin s1 a.origin d.length) a.origin false true (narrowOk a.addr a.size) a.addr d
    | none => acceptRead s1 a.origin a.crit true (narrowOk a.addr a.size) a.addr a.size
  if s2.outst.length = before then count { s2 with tracker := s2.tracker - 1 } 73 1 else s2

/-- A narrow access arrives: it takes an entry, or is held at its ingress (R365). -/
def narrowArrives (s : State) (a : HeldNarrow) : State :=
  if !accepts s a.origin then s
  else
    let s0 := match a.origin with
      | .node n => hearFrom s n.toNat
      | .port .. => s
    if entryFree s0 ∧ s0.heldNarrow = [] then startNarrow s0 a
    else
      count { s0 with heldNarrow := s0.heldNarrow ++ [a],
                      regs := { s0.regs with cirStatus := s0.regs.cirStatus ||| 1 } } 74 1

/-- The narrow access held longest obtains an entry, once its port has credit for it too. -/
def releaseNarrow (s : State) : State :=
  match s.heldNarrow with
  | a :: r => if entryFree s && accepts s a.origin then startNarrow { s with heldNarrow := r } a else s
  | [] => s

/-- NARROW_READ. -/
def execNarrowRead (o : Origin) (crit : Bool) (addr size : Nat) (s : State) : Host.Outcome State Fault Refusal :=
  .next (narrowArrives s ⟨o, crit, addr, size, none⟩)
/-- NARROW_WRITE. -/
def execNarrowWrite (o : Origin) (addr : Nat) (data : Bytes) (s : State) : Host.Outcome State Fault Refusal :=
  .next (narrowArrives s ⟨o, false, addr, data.length, some data⟩)
/-- NARROW_HOLD_RELEASE. -/
def execNarrowHoldRelease (s : State) : Host.Outcome State Fault Refusal := .next (releaseNarrow s)

/-! ### Atomics (R356, R357, Table MEM-7) -/

/-- An atomic of `n` bytes with `operands` bytes of operand at an address. -/
def atomicOp (s : State) (o : Origin) (addr n operands : Nat) (k : AtomKind) (cmp x : Nat) : State :=
  if !accepts s o then s
  else
    let s0 := countOrigin s o operands
    match judgeAccess s0 o .atomic (addr % n == 0) false addr n with
    | (some (.area id a off), .ok, _) => awaitService s0 o 2 false false false addr (.atomic id a off n k cmp x)
    | (some (.area id _ _), c, true) => refuseReq (fwDeny s0 id) o c
    | (_, c, _) => refuseReq s0 o c

/-- FADD32: old + operand in FP32. -/
def execFadd32 (p : PortId) (ns : Bool) (addr : Nat) (x : BitVec 32) (s : State) : Host.Outcome State Fault Refusal :=
  .next (atomicOp s (.port p ns) addr 4 4 .fadd 0 x.toNat)
/-- FMAX32. -/
def execFmax32 (p : PortId) (ns : Bool) (addr : Nat) (x : BitVec 32) (s : State) : Host.Outcome State Fault Refusal :=
  .next (atomicOp s (.port p ns) addr 4 4 .fmax 0 x.toNat)
/-- FMIN32. -/
def execFmin32 (p : PortId) (ns : Bool) (addr : Nat) (x : BitVec 32) (s : State) : Host.Outcome State Fault Refusal :=
  .next (atomicOp s (.port p ns) addr 4 4 .fmin 0 x.toNat)
/-- IADD32: modulo 2^32. -/
def execIadd32 (p : PortId) (ns : Bool) (addr : Nat) (x : BitVec 32) (s : State) : Host.Outcome State Fault Refusal :=
  .next (atomicOp s (.port p ns) addr 4 4 .iadd 0 x.toNat)
/-- IADD64: modulo 2^64. -/
def execIadd64 (p : PortId) (ns : Bool) (addr : Nat) (x : BitVec 64) (s : State) : Host.Outcome State Fault Refusal :=
  .next (atomicOp s (.port p ns) addr 8 8 .iadd 0 x.toNat)
/-- SWAP32. -/
def execSwap32 (p : PortId) (ns : Bool) (addr : Nat) (x : BitVec 32) (s : State) : Host.Outcome State Fault Refusal :=
  .next (atomicOp s (.port p ns) addr 4 4 .swap 0 x.toNat)
/-- SWAP64. -/
def execSwap64 (p : PortId) (ns : Bool) (addr : Nat) (x : BitVec 64) (s : State) : Host.Outcome State Fault Refusal :=
  .next (atomicOp s (.port p ns) addr 8 8 .swap 0 x.toNat)
/-- CAS32: the operand where old equals the compare value. -/
def execCas32 (p : PortId) (ns : Bool) (addr : Nat) (cmp x : BitVec 32) (s : State) :
    Host.Outcome State Fault Refusal :=
  .next (atomicOp s (.port p ns) addr 4 8 .cas cmp.toNat x.toNat)
/-- CAS64. -/
def execCas64 (p : PortId) (ns : Bool) (addr : Nat) (cmp x : BitVec 64) (s : State) :
    Host.Outcome State Fault Refusal :=
  .next (atomicOp s (.port p ns) addr 8 16 .cas cmp.toNat x.toNat)

/-! ### Arbitration (R345) -/

/-- ARBITRATION_GRANT. -/
def execArbitrationGrant (pt : ArbPt) (ns : Nat) (s : State) : Host.Outcome State Fault Refusal := .next (grant s pt ns)

/-! ### Completion (R339) -/

/-- Class of a request as it waits at its points. -/
def clsWaiting (s : State) (id : Nat) : Nat :=
  (s.arb.findSome? (fun e => (e.2.waiting.find? (fun i => i.id == id)).map ArbItem.cls)).getD 0

/-- Does something keep a request from being served? -/
def reqHeld (s : State) (r : PendReq) : Bool :=
  !r.granted && (reqKept s (clsWaiting s r.id) r
    || s.arb.any (fun e => e.2.waiting.any (fun i => i.id == r.id && classHeld s i.cls)))

/-- A request leaves its arbitration points. -/
def leavePoints (s : State) (id : Nat) : State :=
  { s with arb := s.arb.map (fun e => (e.1, { e.2 with waiting := e.2.waiting.filter (fun i => i.id != id) })) }

/-- The completion of an outstanding request; the grants it needed count as given (DESIGN CHOICE, log 34). -/
def completeRequest (s : State) (id : Nat) : State :=
  match s.outst.find? (fun r => r.id == id) with
  | none => s
  | some r =>
    if reqHeld s r then s
    else
      let s1 := leavePoints { s with outst := s.outst.filter (fun x => x.id != id) } id
      let s2 := if r.narrow then count { s1 with tracker := s1.tracker - 1 } 73 1 else s1
      sendCpl s2 r.origin id r.cpl r.data

/-- REQUEST_COMPLETION. -/
def execRequestCompletion (id : Nat) (s : State) : Host.Outcome State Fault Refusal := .next (completeRequest s id)

end Sys2Proof.Machine
end

