-- ==== Sys2Proof/Machine/Exchange.lean ====
section
/-! DEFINITION. Exchange messages that carry data: micro-batch queue pieces (10 STA, R326-R329) and fetches (09 VER,
R290-R294). -/

namespace Sys2Proof.Machine

/-! ### Queue pieces -/

/-- Fields of a piece header (Table STA-8). -/
def qpQueue (h : Order) : Nat := fld h 2 1
def qpPart (h : Order) : Nat := fld h 3 1
def qpBatch (h : Order) : Nat := fld h 4 5
def qpPiece (h : Order) : Nat := fld h 12 4

/-- Answer a piece: bytes 2 to 19 of its header echoed (R327). -/
def sendPieceAck (s : State) (node : BitVec 24) (code : Nat) (h : Order) : State :=
  let s1 := if code = 0x00 then count s 165 1 else if code = 0x01 then count s 166 1 else s
  sendX s1 node.toNat (.pieceAck node (BitVec.ofNat 256 (0xA6 + 2 ^ 8 * code + 2 ^ 16 * fld h 2 18)))

/-- Elements of a piece: PieceElems, or the remainder for the last (R323). -/
def pieceCount (p : QPart) (i : Nat) : Nat := Nat.min (pieceElems p.store p.wire) (p.count - i * pieceElems p.store p.wire)

/-- Byte of the region at which a piece of part `j` of slot `i` begins (R322): a piece holds whole chunks. -/
def piecePlace (x : Queue) (i j k : Nat) (p : QPart) : Nat :=
  i * entryBytes x.parts + ((x.parts.take j).map (fun q => partBytes q.count q.store)).sum
    + k * (pieceElems p.store p.wire / (chunkElems p.store).getD 1) * 2048

/-- Chunks of elements in the stored format; plain formats write their elements alone (R309, R311; DEDUCED, log 108). -/
def storedBytes (p : QPart) : Nat → List W32 → Bytes
  | 0, _ => []
  | n + 1, xs =>
    let per := (chunkElems p.store).getD 1
    let b := (encodeChunk p.wire p.store (xs.take per)).1
    let w := if p.store = 0x10 then 4 else 2
    (if (mxFmt p.store).isSome then b else b.take (w * (xs.take per).length)) ++ storedBytes p n (xs.drop per)

/-- Converted bytes of a payload. -/
def pieceBytes (p : QPart) (n : Nat) (payload : Bytes) : Bytes :=
  storedBytes p (cdiv n ((chunkElems p.store).getD 1)) (elems32 p.wire n payload)

/-- A slot with a further piece (R328, R329). -/
def addPiece (x : Queue) (e : QSlot) (m j k : Nat) : QSlot :=
  let bits := e.bits ++ [(j, k)]
  ⟨some m, bits.length == (x.parts.map partPieces).sum, bits, e.highest⟩

/-- A full slot interrupts where its queue enables it (R329). -/
def queueFull (s : State) (q : Fin 16) (full : Bool) : State :=
  if full && (s.queues[q]).irqEn then { s with regs := { s.regs with queIrq := s.regs.queIrq ||| (1 <<< q.val) } } else s

/-- A piece of a defined queue that the firewall lets in (R327, R328): code, and the state it leaves. -/
def takePiece (s : State) (q : Fin 16) (ly : Layout) (h : Order) (payload : Bytes) : Nat × State :=
  let x := s.queues[q]
  let j := qpPart h
  let k := qpPiece h
  let m := qpBatch h
  match x.parts[j]? with
  | none => (0x15, s)
  | some p =>
    let n := pieceCount p k
    if partPieces p ≤ k ∨ payload.length ≠ fld h 24 4 ∨ fld h 24 4 ≠ n * (if p.wire = 1 then 4 else 2) then (0x15, s)
    else
      let i := m % x.depth
      let e := kvGetD x.slots i QSlot.empty
      if (e.highest.map (fun g => decide (m ≤ g))).getD false then (0x01, s)
      else if e.occ.isSome ∧ e.occ ≠ some m then (0x12, s)
      else if e.bits.contains (j, k) then (0x01, s)
      else
        let s1 := areaWrite s x.layout ly 0 (piecePlace x i j k p) (pieceBytes p n payload)
        let e1 := addPiece x e m j k
        (0x00, queueFull (setQueue s1 q (fun y => { y with slots := kvPut y.slots i e1 })) q e1.full)

/-- The answer to a piece, checked in the order of R183 for tiles: form, CRC, queue, firewall, then R328. -/
def judgePiece (s : State) (h : Order) (payload : Bytes) : Nat × State :=
  if fld h 0 1 ≠ 0xA5 ∨ fld h 1 1 ≠ 0x01 ∨ nonZero h (span 9 11 ++ span 28 63) ≠ [] then (0x17, s)
  else if (crc32c payload).toNat ≠ fld h 20 4 then (0x10, s)
  else if hq : qpQueue h < 16 then
    let q : Fin 16 := ⟨qpQueue h, hq⟩
    match (s.queues[q]).defined, getLayout s (s.queues[q]).layout with
    | true, some ly =>
      let id := (s.queues[q]).layout
      if !fwOk s id ⟨false, 65536, false, true, false⟩ then (0x16, fwDeny s id) else takePiece s q ly h payload
    | _, _ => (0x14, s)
  else (0x14, s)

/-- Are data messages from the exchange port taken in (Table PWR-3)? -/
def xchOpen (s : State) : Bool := s.power.inReset.isNone && !xchBad s

/-- A message from a node, with its bytes counted. -/
def fromNode (s : State) (node : BitVec 24) (payload : Bytes) : State :=
  hearFrom (count s 160 (64 + payload.length)) node.toNat

/-- QUEUE_PIECE. -/
def execQueuePiece (node : BitVec 24) (hdr : Order) (payload : Bytes) (s : State) : Host.Outcome State Fault Refusal :=
  .next (if xchOpen s then
    let r := judgePiece (fromNode s node payload) hdr payload
    sendPieceAck r.2 node r.1 hdr
  else s)

/-! ### Fetch requests at the owner (R291, R294) -/

def feOwner (h : Order) : Nat := fld h 2 2
def feVersion (h : Order) : Nat := fld h 4 5
def fePuller (h : Order) : Nat := fld h 10 2
def feSlot (h : Order) : Nat := fld h 12 1
def feOffset (h : Order) : Nat := fld h 16 8
def feLength (h : Order) : Nat := fld h 24 4

/-- The incomplete serve that names the layout and version, the first admitted where there are several (DEDUCED, log
128). -/
def serveOf (s : State) (h : Order) : Option InFlight :=
  s.inflight.find? (fun f => ordOp f.order == 0x31 && !isPull f.order && fld f.order 18 2 == feOwner h
    && fld f.order 20 5 == feVersion h)

/-- The slot that a serve reads. -/
def serveSlot (f : InFlight) : Option Nat := match f.ctx with
  | .serve v .. => some v
  | _ => none

/-- Refusal code of a request, or the layout, slot and serve that answer it (R291; DEDUCED, log 129). -/
def judgeFetch (s : State) (h : Order) : Except Nat (Layout × Nat × InFlight) :=
  match getLayout s (feOwner h) with
  | none => .error 0x02
  | some ly =>
    if ly.kind ≠ 1 then .error 0x02
    else if !fwOk s (feOwner h) ⟨false, 65536, true, false, false⟩ then .error 0x05
    else
      match (serveOf s h).bind serveSlot |>.orElse (fun _ => readableSlot ly (feVersion h)) with
      | none => .error 0x03
      | some v =>
        if fld h 28 4 ≠ descCrc ly ∨ fld h 32 8 ≠ slotBytes s ly then .error 0x04
        else
          match serveOf s h with
          | none => .error 0x01
          | some f => .ok (ly, v, f)

/-- A data message (Table VER-5). -/
def dataMsg (s : State) (h : Order) (ly : Layout) (off : Nat) (b : Bytes) : Order :=
  fetchHdr 0xB2 (feOwner h) (feVersion h) 0 (fePuller h) (feSlot h) off b.length (crc32c b).toNat (slotBytes s ly)

/-- Data messages of at most 16,384 bytes over a range, ascending. Data that cannot be read is not sent, and the serve
is noted as failed. -/
def sendRange (s : State) (node : BitVec 24) (h : Order) (ly : Layout) (v : Nat) (f : InFlight) (lo hi : Nat) : State :=
  (List.range (cdiv (hi - lo) 16384)).foldl (fun st i =>
    let x := lo + i * 16384
    let n := Nat.min 16384 (hi - x)
    let r := areaRead st (feOwner h) ly (v + 1) x n
    if rangeLost st ly (v + 1) x n then st
    else if !r.2 then
      match findInflight st f.ring f.idx with
      | some g =>
        let w := 32 * (ly.geo st).w
        let q := ((List.range (n / w + 2)).find? (fun i => !(areaRead st (feOwner h) ly (v + 1) ((x / w + i) * w) w).2)).getD 0
        putInflight st { g with bad := some (g.bad.getD (x / w + q)) }
      | none => st
    else
      let st1 := noteOpenReads st (missCols st (feOwner h) ly false (v + 1) x n)
      sendX (count st1 161 (64 + n)) node.toNat (.xch node (dataMsg st1 h ly x r.1) r.1)) s

/-- A serve notes what it has sent to a puller, and counts the puller once every byte has gone (R294). -/
def noteSent (s : State) (f : InFlight) (who : Nat × Nat) (lo hi total : Nat) : State :=
  match f.ctx with
  | .serve v counted sent =>
    let old := ((sent.find? (fun e => e.1 == who)).map (·.2)).getD []
    let new := if lo < hi then addRange old lo hi else old
    let sent1 := (who, new) :: sent.filter (fun e => e.1 != who)
    let counted1 := if new == [(0, total)] && !counted.contains who then counted ++ [who] else counted
    putInflight s { f with ctx := .serve v counted1 sent1 }
  | _ => s

/-- Answer a fetch request. -/
def answerFetch (s : State) (node : BitVec 24) (h : Order) : State :=
  match judgeFetch s h with
  | .error c =>
    let s1 := if c = 0x05 then fwDeny s (feOwner h) else s
    sendX (count s1 161 64) node.toNat (.xch node (fetchHdr 0xB3 (feOwner h) (feVersion h) c (fePuller h) (feSlot h)
      (feOffset h) (feLength h) (fld h 28 4) (fld h 32 8)) [])
  | .ok (ly, v, f) =>
    let total := slotBytes s ly
    let hi := Nat.min total (feOffset h + feLength h)
    let s1 := sendRange s node h ly v f (feOffset h) hi
    match findInflight s1 f.ring f.idx with
    | some g => noteSent s1 g (node.toNat, fePuller h) (feOffset h) hi total
    | none => s1

/-- FETCH_REQUEST. -/
def execFetchRequest (node : BitVec 24) (hdr : Order) (s : State) : Host.Outcome State Fault Refusal :=
  .next (if s.power.inReset.isNone && fld hdr 0 1 == 0xB1 && fld hdr 1 1 == 0x01 then
    answerFetch (fromNode s node []) node hdr else s)

/-! ### Data and refusals at the puller (R291-R293) -/

/-- The pull that a message answers: its node, layouts, version and target slot. -/
def pullOf (s : State) (node : BitVec 24) (h : Order) : Option InFlight :=
  s.inflight.find? (fun f => isPull f.order && epNode f.order 32 == node.toNat && fld f.order 18 2 == fePuller h
    && fld f.order 28 2 == feOwner h && fld f.order 20 5 == feVersion h && fld f.order 17 1 == feSlot h)

/-- A payload of a pull: written where its Crc matches, discarded otherwise. -/
def takeData (s : State) (f : InFlight) (h : Order) (payload : Bytes) : State :=
  let id := fld f.order 18 2
  match getLayout s id, f.ctx with
  | some ly, .pull got _ retry idle reason =>
    let x := feOffset h
    if (crc32c payload).toNat ≠ fld h 28 4 ∨ payload.length ≠ feLength h ∨ payload = []
        ∨ slotBytes s ly < x + payload.length then s
    else
      putInflight (areaWrite s id ly (fld f.order 17 1 + 1) x payload)
        { f with ctx := .pull (addRange got x (x + payload.length)) s.ts retry (if idle = 0 then 0 else 1) reason }
  | _, _ => s

/-- FETCH_DATA. -/
def execFetchData (node : BitVec 24) (hdr : Order) (payload : Bytes) (s : State) : Host.Outcome State Fault Refusal :=
  .next (if xchOpen s && fld hdr 0 1 == 0xB2 && fld hdr 1 1 == 0x01 && decide (payload.length ≤ 16384) then
    let s1 := fromNode s node payload
    match pullOf s1 node hdr with
    | some f => takeData s1 f hdr payload
    | none => s1
  else s)

/-- A pull ends with FAILED_DATA and a Reason of Table VER-4. -/
def endPull (s : State) (f : InFlight) (reason : Nat) : State :=
  endOrder s f (.fail 0x20 (failWhere reason 0) 0 (releaseTarget s f.order))

/-- A refusal of Table VER-6. -/
def takeRefusal (s : State) (f : InFlight) (code : Nat) : State :=
  if code = 0x01 then
    match f.ctx with
    | .pull got last _ idle reason => putInflight s { f with ctx := .pull got last true idle reason }
    | _ => s
  else if 0x02 ≤ code ∧ code ≤ 0x05 then endPull s f (0x10 + code)
  else s

/-- FETCH_REFUSAL. -/
def execFetchRefusal (node : BitVec 24) (hdr : Order) (s : State) : Host.Outcome State Fault Refusal :=
  .next (if s.power.inReset.isNone && fld hdr 0 1 == 0xB3 && fld hdr 1 1 == 0x01 then
    let s1 := fromNode s node []
    match pullOf s1 node hdr with
    | some f => takeRefusal s1 f (fld hdr 9 1)
    | none => s1
  else s)

/-- The pull of a ring and index. -/
def findPull (s : State) (r : RingId) (idx : Nat) : Option InFlight :=
  (findInflight s r.val idx).filter (fun f => isPull f.order)

/-- 20 µs after a NO_SERVE refusal the puller asks again (Table VER-6). -/
def retryPull (s : State) (r : RingId) (idx : Nat) : State :=
  match findPull s r idx with
  | none => s
  | some f =>
    match f.ctx with
    | .pull got last true idle reason =>
      let f1 := { f with ctx := .pull got last false idle reason }
      requestRanges (putInflight s f1) f.order (pullMissing s f)
    | _ => s

/-- FETCH_NO_SERVE_RETRY. -/
def execFetchNoServeRetry (r : RingId) (idx : Nat) (s : State) : Host.Outcome State Fault Refusal :=
  .next (retryPull s r idx)

/-- The link layer's grace period has passed since the last data: every missing range is asked for again (R292). -/
def rerequestPull (s : State) (r : RingId) (idx : Nat) : State :=
  match findPull s r idx with
  | none => s
  | some f =>
    match f.ctx with
    | .pull _ last _ _ _ =>
      if last + s.par.graceUs * 1000 ≤ s.ts then requestRanges s f.order (pullMissing s f) else s
    | _ => s

/-- FETCH_RANGE_RE_REQUEST. -/
def execFetchRangeReRequest (r : RingId) (idx : Nat) (s : State) : Host.Outcome State Fault Refusal :=
  .next (rerequestPull s r idx)

/-- 1,024 further beats without data end a pull whose due beat ended with none (R293). -/
def giveUpPull (s : State) (r : RingId) (idx : Nat) : State :=
  match findPull s r idx with
  | none => s
  | some f =>
    match f.ctx with
    | .pull _ _ _ idle _ => if 1025 ≤ idle then endPull s f 0x11 else s
    | _ => s

/-- FETCH_PULL_GIVE_UP. -/
def execFetchPullGiveUp (r : RingId) (idx : Nat) (s : State) : Host.Outcome State Fault Refusal :=
  .next (giveUpPull s r idx)

end Sys2Proof.Machine
end

