-- ==== Sys2Proof/Machine/Faults.lean ====
section
/-! DEFINITION. Hard faults, stack trips, fencing faults and the fatal stop (14 FLT, R440-R448; 15 PWR R487). -/

namespace Sys2Proof.Machine

/-! ### A window that a fault cuts (R443, R446, R487) -/

def placeOf : UnitId → Place
  | .stall st => Place.pair st.site.val st.ch.val st.pair.val
  | .relief x => Place.relief x.val

/-- The parcel of a unit is left as it stands: reseal will find it torn (R444). -/
def leaveOpen (s : State) (un : UnitId) (id q : Nat) : State :=
  ledAdd (modUpd s id (fun u => { u with cut := kvPut u.cut q true, disp := kvDel u.disp q })) 0x2A (placeOf un) id q

/-- A unit, in state `t`, stops after `n` of the writes of its window. Under guarded step, where the unit's site stays,
the parcel is restored and applied again (R204); otherwise it is left open. -/
def cutParcel (s : State) (un : UnitId) (t : Stall) (restores : Bool) (cutFrom : Nat) : State :=
  match t.parcel, getLayout s t.layout with
  | some q, some ly =>
    (match ly.shard.upd with
     | none => s
     | some up =>
       match ruleOf s up.ruleId with
       | none => s
       | some r =>
         let t1 := runParcel t (rowLoads (isReliefUnit un) s ly q)
         let len := (commitCols ly.stateLayout r.auxStore).length + 1
         let n := Config.cutAt s.fresh % len
         if n < cutFrom then bump s
         else
           let s1 := bump (commitWrites s ly up r q t1 (isReliefUnit un) n)
           if restores && up.guarded then
             modUpd s1 t.layout (fun u => { u with disp := u.disp.map (fun d =>
               if d.1 = q then (d.1, { d.2 with restore := true }) else d) })
           else leaveOpen s1 un t.layout q)
  | _, _ => s

/-- The unit drops its pass. -/
def dropPass (s : State) (k : Nat) : State := putUnit s k (getUnit s k).idle

/-- Faults of classes 3 and 4 since reset (Table FLT-10). -/
def countFault (s : State) : State := { s with regs := { s.regs with faults := sat16w s.regs.faults } }

/-! ### Stall hard faults (R443, R444) -/

/-- A stall stops in the cycle of the failed check, even inside a window, and its base die sets the pair's stall-fault
flag; it is fenced at once, its relief engine takes its parcels over, and a parcel that the stop cut is dealt with
(R444). The alert STK_ALERT_N is this command itself. -/
def stallFault (s : State) (st : StallId) : State :=
  let k := unitKey (.stall st)
  if !chanUp s st.site st.ch.val || !isFcs s st.site.val || stallFenced s st.site.val st.ch.val st.pair.val then s
  else batch s fun s =>
    let t := getUnit s k
    let s1 := ledAdd (countFault s) 0x20 (placeOf (.stall st)) 0 0
    let s2 := fenceStallNow (dropPass s1 k) st.site.val st.ch.val st.pair.val
    let s2 := putUnit s2 k { getUnit s2 k with fault := true }
    let s3 := if t.windowOpen then cutParcel s2 (.stall st) t true 0 else s2
    let s4 := { s3 with defer := s3.defer.filter (fun d =>
      d.ord.isSome || !((d.scope == 0 || d.scope == 3) && d.site == st.site.val && d.ch == st.ch.val && d.pair == st.pair.val)) }
    let s5 := if takeoverWaits s4 st.site then
        modSite s4 st.site (fun y => { y with stallFrom := some (y.stallFrom.getD s.ts) })
      else s4
    afterClose (if t.layout = 0 then s5 else closeIfDone s5 t.layout)

/-- STALL_HARD_FAULT. -/
def execStallHardFault (st : StallId) (s : State) : Host.Outcome State Fault Refusal := .next (stallFault s st)

/-! ### Relief engine hard faults (R446, R447) -/

/-- Is a relief engine in service? -/
def reliefUp (s : State) (x : SiteId) : Bool :=
  let y := s.sites[x]
  s.power.inReset.isNone && y.state == 2 && !y.fenced && !y.reliefDown

/-- The engine restarts: a parcel whose row write had begun is cut, every other of its parcels waits to be dispatched
again. -/
def restartRelief (s : State) (x : SiteId) : State :=
  let k := reliefKey x.val
  let t := getUnit s k
  let s1 := fltIrq (ledAdd s 0x22 (Place.relief x.val) 0 0) 3
  let s2 := if t.parcel.isSome then cutParcel s1 (.relief x) t true 1 else s1
  let s3 := modSite (dropPass s2 k) x (fun y =>
    { y with reliefDown := true, reliefRestarted := true, reliefFrom := some (y.reliefFrom.getD s.ts) })
  if t.layout = 0 then s3 else closeIfDone s3 t.layout

/-- Ticks of the suspect window of CONFIG key 0x0105. -/
def suspectNs (s : State) : Nat := s.cfg.suspectS * 1000000000

/-- A hard fault of a relief engine: the second within the suspect window fences the site. -/
def reliefFault (s : State) (x : SiteId) : State :=
  if !reliefUp s x then s
  else
    let recent := (s.sites[x]).reliefFaults.filter (fun t => decide (s.ts ≤ t + suspectNs s))
    let s1 := restartRelief (modSite (countFault s) x (fun y => { y with reliefFaults := recent ++ [s.ts] })) x
    if recent = [] then s1 else requestDeferred s1 ⟨2, x.val, 0, 0, [], none⟩

/-- RELIEF_ENGINE_HARD_FAULT. -/
def execReliefEngineHardFault (x : SiteId) (s : State) : Host.Outcome State Fault Refusal := .next (reliefFault s x)

/-- The restart ends: the interruption is charged to the engine's time (Table FLT-1). -/
def reliefDone (s : State) (x : SiteId) : State :=
  let y := s.sites[x]
  if !y.reliefDown || s.power.inReset.isSome then s
  else
    let s1 := match y.reliefFrom with
      | some t => charge s (.relief x) t
      | none => s
    modSite s1 x (fun z => { z with reliefDown := false, reliefFrom := none })

/-- RELIEF_ENGINE_RESTART_DONE. -/
def execReliefEngineRestartDone (x : SiteId) (s : State) : Host.Outcome State Fault Refusal := .next (reliefDone s x)

/-! ### Fencing faults (R448) -/

/-- Is a site populated, and the block out of reset? -/
def sitePresent (s : State) (x : SiteId) : Bool := s.power.inReset.isNone && kindOf s x.val != .none

/-- SITE_CONTROLLER_FAULT: the site is fenced, at the close of its open windows (R12). -/
def execSiteControllerFault (x : SiteId) (s : State) : Host.Outcome State Fault Refusal :=
  .next (if sitePresent s x then requestDeferred s ⟨2, x.val, 0, 0, [], none⟩ else s)

/-! ### Stack trips (R487) -/

/-- Units of a site whose window is open. -/
def openUnits (s : State) (x : SiteId) : List UnitId :=
  (s.units.filter (fun e => e.2.windowOpen && decide (e.1 < 5120) && e.1 / 256 == x.val)).map (fun e =>
    .stall ⟨x, chOf (e.1 / 8 % 32), pairOf (e.1 % 8)⟩)

/-- Every open window of a site is cut and its parcel left open; nothing waits for it. -/
def cutSite (s : State) (x : SiteId) : State :=
  (openUnits s x).foldl (fun st un => dropPass (cutParcel st un (getUnit st (unitKey un)) false 0) (unitKey un)) s

/-- A site that has not passed its self-test is marked in the SelfTest field (Table PWR-11). -/
def markUntested (s : State) (x : SiteId) : State := if (s.sites[x]).tested then s else selfTestBit s x.val

/-- The stack of a site loses its clock enable and its rails. -/
def powerOff (s : State) (x : SiteId) : State :=
  modSite s x (fun y => { y with powerEn := false, powerGood := false, cke := false, selfRefresh := false, shutdown := false })

/-- The response to STK_TRIP: the site is fenced at once, without waiting for a window, and its stack powered off
(DEDUCED, log 149). -/
def tripSite (s : State) (x : SiteId) : State := batch s fun s =>
  let s1 := pwrIrq (siteEvent (modSite s x (fun y => { y with trip := true })) x 3 (Place.site x.val) 0) 4
  let s2 := ledAdd s1 0x35 (Place.site x.val) 0 0
  let s3 := if (s.sites[x]).powerEn then markUntested s2 x else s2
  afterClose (powerOff (fenceSiteNow (cutSite s3 x) x false) x)

/-- STK_TRIP is asserted, whether or not the site controller runs (R399). The response comes at once, or as the block
leaves reset with the input asserted (DEDUCED, log 75). -/
def stackTrip (s : State) (x : SiteId) : State :=
  if kindOf s x.val == .none || (s.sites[x]).tripPin then s
  else
    let s1 := modSite s x (fun y => { y with tripPin := true })
    if sitePresent s x then tripSite s1 x else s1

/-- STACK_TRIP. -/
def execStackTrip (x : SiteId) (s : State) : Host.Outcome State Fault Refusal := .next (stackTrip s x)

/-! ### Sensor readings (R398, R399) -/

/-- 120 °C, in units of 0.125 °C. -/
def tripReading : Nat := 960

/-- The sensors of a stack are read (R398). The two channels of a core die have its sensor; a readout without one for
the die counts as the hottest. A reading of 120 °C or more trips the stack (R399; PRESUMED, log 82). -/
def readTemps (s : State) (x : SiteId) (r : List (BitVec 11)) : State :=
  let y := s.sites[x]
  if s.power.inReset.isSome || y.state != 2 || y.fenced || r.isEmpty then s
  else batch s fun s =>
    let h := hottest r
    let s1 := modSite s x (fun z => { z with temp := h.1, hotSensor := BitVec.ofNat 5 h.2, readings := r })
    let s2 := (liveCh y.live).foldl (fun st c => driftCheck st x c (r.getD (c / 2) h.1).toNat) s1
    let s3 := setLevel s2 x (nextLevel y.level h.1.toNat (8 * s.cfg.hyst) stackThr)
    if tripReading ≤ h.1.toNat then stackTrip s3 x else s3

/-- TEMPERATURE_READ. -/
def execTemperatureRead (x : SiteId) (r : List (BitVec 11)) (s : State) : Host.Outcome State Fault Refusal :=
  .next (readTemps s x r)

/-! ### The fatal stop (R442, R565) -/

/-- A fault of class 7: a Ledger entry where the Awning's control area can be written, then no further order or
receipt. -/
def fatalStop (s : State) (writable : Bool) : State :=
  if s.fatal || s.power.inReset.isSome then s
  else
    let s1 := if writable then ledAdd s 0x29 Place.none 0 0 else s
    { fltIrq s1 5 with fatal := true }

/-- FATAL_FAULT. -/
def execFatalFault (writable : Bool) (s : State) : Host.Outcome State Fault Refusal := .next (fatalStop s writable)

/-- CLOCK_LOSS: a fault of class 7 out of reset. -/
def execClockLoss (_clk : InClock) (writable : Bool) (s : State) : Host.Outcome State Fault Refusal :=
  .next (fatalStop s writable)

/-- FAULT_ALLOWANCE_EXCEEDED: the interruptions of an instance pass 40 µs in a span (R39, R41): an event of cause FAULT.
-/
def execFaultAllowanceExceeded (i : Inst) (s : State) : Host.Outcome State Fault Refusal :=
  let s1 := settle s
  .next (if overAllowance s1 i then lateCheck s1 1 else s)

end Sys2Proof.Machine
end

