-- ==== Sys2Proof/Machine/Spot.lean ====
section
/-! DEFINITION. Spot checks (07 NUM, R248-R256; 13 ITY, R430, R431): a rule body in binary64 (R170) on the kept row, and its
comparison with what the unit committed. -/

namespace Sys2Proof.Machine

/-! ### Binary64 (R170) -/

/-- A lane in FP64 mode: 32 bits as they were loaded or drawn, or a binary64 result. -/
inductive L64 where
  | bits (w : W32)
  | num (n : Num)
deriving DecidableEq, Repr

/-- A lane as a number: 32 bits are widened exactly. -/
def L64.val : L64 → Num
  | .bits w => num32 w
  | .num n => n

/-- A finite number rounded once to binary64. -/
def round64 (neg : Bool) (m : Nat) (e : Int) : Num := unpack fp64 (packIeee fp64 neg m e)

/-- Encoding of a binary64 number. -/
def code64 (n : Num) : BitVec 64 := BitVec.ofNat 64 (narrowInf fp64 n)

/-- A lane as 32 bits: a binary64 number rounded to FP32. -/
def L64.word : L64 → W32
  | .bits w => w
  | .num .nan => nanC
  | .num (.inf n) => inf32 n
  | .num (.fin n m e) => mk32 n m e

/-- Exact sum of two finite numbers, rounded once. -/
def sum64 (n1 : Bool) (m1 : Nat) (e1 : Int) (n2 : Bool) (m2 : Nat) (e2 : Int) : Num :=
  let e := Min.min e1 e2
  let a : Int := (m1 * 2 ^ (e1 - e).toNat : Nat)
  let b : Int := (m2 * 2 ^ (e2 - e).toNat : Nat)
  let s := (if n1 then -a else a) + (if n2 then -b else b)
  if s = 0 then .fin (n1 && n2) 0 0 else round64 (decide (s < 0)) s.natAbs e

def add64 (a b : Num) : Num :=
  match a, b with
  | .fin n1 m1 e1, .fin n2 m2 e2 => sum64 n1 m1 e1 n2 m2 e2
  | .inf x, .inf y => if x = y then .inf x else .nan
  | .inf x, .fin .. => .inf x
  | .fin .., .inf y => .inf y
  | _, _ => .nan

/-- Exact product, or the special result. -/
def prod64 (a b : Num) : Num :=
  match a, b with
  | .fin n1 m1 e1, .fin n2 m2 e2 => .fin (n1 != n2) (m1 * m2) (e1 + e2)
  | .inf x, .inf y => .inf (x != y)
  | .inf x, .fin y m _ => if m = 0 then .nan else .inf (x != y)
  | .fin x m _, .inf y => if m = 0 then .nan else .inf (x != y)
  | _, _ => .nan

/-- Round a finite number to binary64. -/
def rnd64 : Num → Num
  | .fin n m e => if m = 0 then .fin n 0 0 else round64 n m e
  | x => x

def mul64 (a b : Num) : Num := rnd64 (prod64 a b)
def fma64 (a b c : Num) : Num := add64 (prod64 a b) c

/-- Sign and magnitude on a common scale, for finite numbers. -/
def ltFin (n1 : Bool) (m1 : Nat) (e1 : Int) (n2 : Bool) (m2 : Nat) (e2 : Int) : Bool :=
  let e := Min.min e1 e2
  let a : Int := (m1 * 2 ^ (e1 - e).toNat : Nat)
  let b : Int := (m2 * 2 ^ (e2 - e).toNat : Nat)
  decide ((if n1 then -a else a) < (if n2 then -b else b))

/-- a < b as numbers; false with a NaN. -/
def lt64 (a b : Num) : Bool :=
  match a, b with
  | .fin n1 m1 e1, .fin n2 m2 e2 => ltFin n1 m1 e1 n2 m2 e2
  | .inf x, .inf y => x && !y
  | .inf x, .fin .. => x
  | .fin .., .inf y => !y
  | _, _ => false

def isNanN (a : Num) : Bool := a == .nan
def negN : Num → Bool
  | .fin n .. => n
  | .inf n => n
  | .nan => false

/-- a below b in the order of minimum and maximum: −0 is below +0. -/
def below64 (a b : Num) : Bool := lt64 a b || (!lt64 b a && negN a && !negN b)

/-- minimum and maximum, with whether the second operand was taken. -/
def min64 (a b : Num) : Num × Bool := if isNanN a || isNanN b then (.nan, false) else if below64 b a then (b, true) else (a, false)
def max64 (a b : Num) : Num × Bool := if isNanN a || isNanN b then (.nan, false) else if below64 a b then (b, true) else (a, false)

/-- The choice that MIN and MAX make on two words. -/
def min32Second (a b : W32) : Bool := (nanOf [a, b]).isNone && decide (key32 b < key32 a)
def max32Second (a b : W32) : Bool := (nanOf [a, b]).isNone && decide (key32 a < key32 b)

/-- CMP by mode. -/
def cmp64 (m : Nat) (a b : Num) : Bool :=
  let nan := isNanN a || isNanN b
  match m with
  | 0 => lt64 a b
  | 1 => !nan && !lt64 b a
  | 2 => !nan && !lt64 a b && !lt64 b a
  | _ => nan

/-- SIGN. -/
def sign64 : Num → Num
  | .nan => .nan
  | .inf n => .fin n 1 0
  | .fin n m _ => if m = 0 then .fin false 0 0 else .fin n 1 0

/-- CVT on a lane: narrowing codes round the value, widening codes read bits. -/
def cvt64 (code : Nat) (rd : Rounding) (a : L64) : L64 :=
  let nar (f : Fmt) : L64 := .bits (BitVec.ofNat 32 (narrow f rd a.val))
  match code with
  | 0x00 => nar bf16
  | 0x01 => nar fp16
  | 0x02 => nar e4m3
  | 0x03 => nar e5m2
  | 0x10 =>
    (match a.val with
     | .nan => .bits 0
     | .inf n => .bits (sat32 n (2 ^ 31))
     | .fin n m e => .bits (sat32 n (roundAt rd m e 0)))
  | 0x11 => let v := a.word.toInt; .num (.fin (decide (v < 0)) v.natAbs 0)
  | c => .bits ((cvt c rd a.word).getD 0)

/-! ### SFU functions to within 1 ulp of binary64 (R170; DEDUCED, log 8) -/

/-- One of the binary64 values within 1 ulp of an exact result, given by its magnitude rounded down as m × 2^e and by
whether that is the result itself: which of them is a free value. -/
def nearUlp (pick : Nat) (exact neg : Bool) (m : Nat) (e : Int) : Num :=
  let c := roundCode fp64 .zero m e
  let d := if exact then c + pick % 3 - 1 else c + pick % 2
  unpack fp64 (withSign fp64 neg (Nat.min d 0x7FF0000000000000))

/-- 1 / x for x = m × 2^e. -/
def rcpNear (pick : Nat) (neg : Bool) (m : Nat) (e : Int) : Num :=
  let k := 120 + Nat.log2 m
  nearUlp pick (2 ^ k % m == 0) neg (2 ^ k / m) (-e - k)

/-- 1 / √x for x = m × 2^e. -/
def rsqrtNear (pick : Nat) (m0 : Nat) (e0 : Int) : Num :=
  let m := if e0 % 2 = 0 then m0 else 2 * m0
  let e := if e0 % 2 = 0 then e0 else e0 - 1
  let k := 150 + Nat.log2 m
  let r := Nat.sqrt (2 ^ (2 * k) / m)
  nearUlp pick (r * r * m == 2 ^ (2 * k)) false r (-(e / 2) - k)

/-- ln 2 in units of 2^-200. -/
def ln2Fix : Nat := 1113844574712631719546256151097547306333272293549090750737802

/-- The sum of y^i / i! for i from `i` on, in units of 2^-200. -/
def expSum : Nat → Nat → Nat → Nat → Nat
  | 0, _, _, _ => 0
  | n + 1, i, y, term => term + expSum n (i + 1) y (term * y / 2 ^ 200 / (i + 1))

/-- 2^x for x = ±m × 2^e with |x| < 2^11. -/
def exp2Near (pick : Nat) (neg : Bool) (m : Nat) (e : Int) : Num :=
  let (a, rest, _) := shiftTo m (e + 200) 0
  let v : Int := if neg then -((a : Int) + (if rest = 0 then 0 else 1)) else a
  let n := v / (2 ^ 200 : Int)
  let f := (v % (2 ^ 200 : Int)).toNat
  let exact := f == 0 && rest == 0
  nearUlp pick exact false (if exact then 2 ^ 200 else expSum 60 0 (f * ln2Fix / 2 ^ 200) (2 ^ 200)) (n - 200)

/-- Bits of log2 of a number in [1, 2) given in units of 2^-300: `n` of them, by repeated squaring. -/
def log2Bits : Nat → Nat → Nat → Nat
  | 0, _, acc => acc
  | n + 1, x, acc =>
    let y := x * x / 2 ^ 300
    if 2 ^ 301 ≤ y then log2Bits n (y / 2) (2 * acc + 1) else log2Bits n y (2 * acc)

/-- log2 x for x = m × 2^e > 0. -/
def log2Near (pick : Nat) (m : Nat) (e : Int) : Num :=
  let k := Nat.log2 m
  let exact := m == 2 ^ k
  let v : Int := (e + k) * 2 ^ 140 + (if exact then 0 else (log2Bits 140 (m * 2 ^ 300 / 2 ^ k) 0 : Int))
  nearUlp pick exact (decide (v < 0)) (if v < 0 ∧ !exact then v.natAbs - 1 else v.natAbs) (-140)

/-- An SFU function on a binary64 operand, before the multiplication by B, with the special cases of Table STL-6. -/
def sfu64 (op : Nat) (x : Num) : Num :=
  let pick := Config.sfuPick op (code64 x)
  match op, x with
  | _, .nan => .nan
  | 0x20, .inf n => if n then .nan else .fin false 0 0
  | 0x21, .inf n => .fin n 0 0
  | 0x22, .inf n => if n then .fin false 0 0 else .inf false
  | _, .inf n => if n then .nan else .inf false
  | 0x20, .fin n m e => if m = 0 then .inf n else if n then .nan else rsqrtNear pick m e
  | 0x21, .fin n m e => if m = 0 then .inf n else rcpNear pick n m e
  | 0x22, .fin n m e =>
    if m = 0 then .fin false 1 0
    else if 11 ≤ (Nat.log2 m : Int) + e then (if n then .fin false 0 0 else .inf false)
    else exp2Near pick n m e
  | _, .fin n m e => if m = 0 then .inf true else if n then .nan else log2Near pick m e

/-- A lane instruction in FP64 mode, and whether its two evaluations of R250 differ (DEDUCED, log 97). -/
def lane64 (w : W32) (a b c : L64) : L64 × Bool :=
  let x := a.val
  let y := b.val
  let z := c.val
  match wOp w with
  | 0x10 => (.num (fma64 x y z), false)
  | 0x11 => (.num (add64 x y), false)
  | 0x12 => (.num (mul64 x y), false)
  | 0x13 => let r := min64 x y; (.num r.1, r.2 != min32Second a.word b.word)
  | 0x14 => let r := max64 x y; (.num r.1, r.2 != max32Second a.word b.word)
  | 0x15 =>
    (match x with
     | .fin _ m e => .num (.fin false m e)
     | .inf _ => .num (.inf false)
     | .nan => .num .nan, false)
  | 0x16 => (.num (sign64 x), L64.word (.num (sign64 x)) != L64.word (.num (sign64 (num32 a.word))))
  | 0x17 =>
    let nz := match c with
      | .bits v => v != 0
      | .num n => code64 n != 0
    (if nz then a else b, false)
  | 0x18 =>
    let t := cmp64 (w.extractLsb' 0 2).toNat x y
    (.bits (if t then 0xFFFFFFFF else 0), t != (fcmp (w.extractLsb' 0 2) a.word b.word != 0))
  | 0x19 =>
    let r := max64 x y
    let q := min64 r.1 z
    let nan := isNanN x || isNanN y || isNanN z
    (if nan then .num .nan else .num q.1,
      !nan && (r.2 != max32Second a.word b.word || q.2 != min32Second (fmax a.word b.word) c.word))
  | 0x1A => (cvt64 (wC w) (match wM w with | 0 => .rne | 1 => .zero | _ => .stoch b.word.toNat) a, false)
  | op => (.num (mul64 (sfu64 op x) y), false)

/-! ### A body in FP64 mode -/

/-- The engine in FP64 mode: a unit for what needs no arithmetic, its registers as lanes, the columns the body stores,
and whether some comparison was indecisive (R250). -/
structure Eng where
  u : Stall
  regs : KV (List L64)
  out : KV (List (Nat × Num))
  indec : Bool
deriving DecidableEq, Repr

/-- Lane `j` of a register: the pass registers are inputs, widened. -/
def Eng.lane (g : Eng) (r j : Nat) : L64 :=
  match kvGet g.regs (r % 64) with
  | some l => l.getD j (.bits 0)
  | none => .bits (Machine.lane (g.u.reg r) j)

def Eng.set (g : Eng) (r : Nat) (l : List L64) : Eng := { g with regs := kvPut g.regs (r % 64) l }

/-- Registers that an instruction without arithmetic wrote, as bits. -/
def Eng.copy (g : Eng) (u : Stall) (rs : List Nat) : Eng :=
  rs.foldl (fun a r => a.set r ((List.range 8).map (fun j => .bits (Machine.lane (u.reg r) j)))) { g with u := u }

/-- Elements of the parcel that a state column of the group's stores holds: place in the column and element. -/
def Eng.stored (g : Eng) (w : W32) : List (Nat × Num) :=
  let sl := g.u.stateLayout
  let e0 := g.u.group * groupElems sl
  let off := if sl = 2 ∧ wA w = 1 then 8 else 0
  let real (e : Nat) (n : Num) : Num := if e < g.u.realCount then n else .fin false 0 0
  if wM w = 1 ∨ wM w = 2 then
    (List.range 16).map (fun j => (j, real (e0 + j) (g.lane (wD w + j / 8) (j % 8)).val))
  else if wM w = 3 && isBfCol sl (wA w) then
    let c := ofLanes (fun j => (g.lane (wD w) j).word)
    (List.range 16).map (fun j => (j, real (e0 + j) (unpack bf16 (half c j).toNat)))
  else (List.range 8).map (fun j => (j, real (e0 + off + j) (g.lane (wD w) j).val))

/-- One instruction of the body in FP64 mode; it narrows nothing and writes nothing to the banks. -/
def Eng.word (g : Eng) (ld : Loads) (w : W32) : Eng :=
  let op := wOp w
  if op = 0 ∨ op = 4 then g
  else if op = 3 then
    if wG w then { g with out := kvPut g.out (wA w + groupStride g.u.stateLayout * g.u.group) (g.stored w) } else g
  else if isFmtM op then g.copy (doWord g.u ld w) (writesOf g.u.stateLayout w)
  else
    let r := (List.range 8).map (fun j => lane64 w (g.lane (wA w) j) (g.lane (wB w) j) (g.lane (wC w) j))
    { g.set (wD w) (r.map (·.1)) with indec := g.indec || r.any (·.2) }

/-- Run the body over every group of the parcel. -/
def Eng.run : Nat → Eng → Loads → Eng
  | 0, g, _ => g
  | n + 1, g, ld =>
    if groupCount g.u.stateLayout ≤ g.u.group then g
    else
      let h := g.word ld (g.u.body.getD g.u.cursor 0)
      Eng.run n { h with u := h.u.advance } ld

/-- The recomputation of a spot-check parcel on its kept row (R249). -/
def recompute (z : Spot) : Eng :=
  let ld : Loads := fun _ c => z.row.getD (c % 64) 0
  Eng.run (groupCount z.ctx.stateLayout * (z.ctx.nBody + 1)) ⟨z.ctx, [], [], false⟩ ld

/-! ### Comparison (R251-R253) -/

/-- A finite number as a rational. -/
def ratOf : Num → Rat
  | .fin n m e =>
    let a : Rat := if 0 ≤ e then ((m * 2 ^ e.toNat : Nat) : Rat) else (m : Rat) / ((2 ^ (-e).toNat : Nat) : Rat)
    if n then -a else a
  | _ => 0

def absRat (x : Rat) : Rat := if x < 0 then -x else x
def finN : Num → Bool
  | .fin .. => true
  | _ => false

/-- Disagreement d of one element, none for infinite, given s_col; s_col itself is none where some result is infinite.
-/
def disagree (scol : Option Rat) (x x64 : Num) : Option Rat :=
  if finN x && finN x64 then
    match scol with
    | none => some 0
    | some m =>
      let d := absRat (ratOf x - ratOf x64)
      if d = 0 then some 0 else if m = 0 then none else some (d / m)
  else if x == x64 then some 0 else none

/-- The larger of two disagreements. -/
def maxD : Option Rat → Option Rat → Option Rat
  | some a, some b => some (if a < b then b else a)
  | _, _ => none

/-- The largest d of a column: results by place, and the committed column. -/
def columnD (bf : Bool) (col : Col) (xs : List (Nat × Num)) : Option Rat :=
  let infs := xs.any (fun e => match e.2 with
    | .inf _ => true
    | _ => false)
  let m := xs.foldl (fun (a : Rat) e => let v := absRat (ratOf e.2); if a < v then v else a) 0
  let x (j : Nat) : Num := if bf then unpack bf16 (half col j).toNat else num32 (lane col j)
  xs.foldl (fun a e => maxD a (disagree (if infs then none else some m) (x e.1) e.2)) (some 0)

/-- Tolerance of a column (R251). -/
def tolerance (bf : Bool) : Rat := if bf then 1 / 64 else 1 / 65536

/-- Histogram bin of a largest d (R253); above 0 and below 2^-32 the spec gives none. -/
def binOf (fresh : Nat) : Option Rat → Nat
  | none => 31
  | some d =>
    if d = 0 then 0
    else if d < 1 / 2 ^ 32 then Config.smallBin fresh % 32
    else ((List.range 30).find? (fun j => decide (d < (2 : Rat) ^ (j + 1) / 2 ^ 32))).elim 31 (· + 1)

/-- The two codes a master may have on a grid: neighbours under stochastic rounding, the nearest otherwise (R241). -/
def allowedCodes (f : Fmt) (stoch neg : Bool) (m : Nat) (e : Int) : List Nat :=
  let c (rd : Rounding) : Nat := withSign f neg (Nat.min (roundCode f rd m e) f.maxCode)
  if stoch then
    let lo := roundCode f .zero m e
    let t := lastPlace f m e
    let cut := m != 0 && (shiftTo m e t).2.1 != 0
    [withSign f neg (Nat.min lo f.maxCode), withSign f neg (Nat.min (if cut then lo + 1 else lo) f.maxCode)]
  else [c .rne]

/-- Do a value and a set of codes of a grid scaled by 2^x have nothing in common? -/
def offGrid (f : Fmt) (x : Int) (codes : List Nat) (v : Num) : Bool :=
  !codes.any (fun c =>
    match unpack f c, v with
    | .fin n m e, .fin .. => ratOf (.fin n m (e + x)) == ratOf v
    | _, _ => false)

/-- The scale exponent that R238 gives a block of masters; none where a real one is not finite (R239). -/
def blockScale (emax : Int) (xs : List WIn) : Option Int :=
  if xs.any (fun x => x.2.2.1 && !isFin32 x.1) then none else some (mxScale emax xs)

/-- Does a short weight break R241 against its master? `scale` is the stored scale of its block, and `grid` the scale
exponent that the block's stored masters give (R252). A plain format has no scale (DEDUCED, log 98). -/
def breaks (wf : Nat) (stoch : Bool) (scale : Byte) (grid : Option Int) (code : Nat) (master : W32) : Bool :=
  match num32 master with
  | .fin n m e =>
    (match mxFmt wf, plainFmt wf with
     | some (f, _), _ =>
       (match grid with
        | none => false
        | some x =>
          let v := match unpack f code with
            | .fin n' m' e' => if scale = 0xFF then Num.nan else .fin n' m' (e' + (scale.toNat - 127))
            | z => z
          offGrid f x (allowedCodes f stoch n m (e - x)) v)
     | none, some f => !(allowedCodes f stoch n m e).contains code
     | none, none => false)
  | _ => false

/-- Is some short weight of the parcel in breach (R252)? `ver` are the bytes of its version columns, `ld` its committed
row. -/
def weightBreach (u : Stall) (ver : Bytes) (ld : Loads) : Bool :=
  let stoch := u.body.any (fun w => wOp w == 4 && wG w)
  let b := weightBits u.workFormat
  let n := parcelSize u.stateLayout
  let grid (k : Nat) : Option Int :=
    (mxFmt u.workFormat).bind (fun f => blockScale f.2 ((List.range 32).map (fun i =>
      (oldMaster u.stateLayout ld (32 * k + i), 0, decide (32 * k + i < u.realCount), stoch))))
  (List.range u.realCount).any (fun e =>
    breaks u.workFormat stoch ((ver.drop (n * b / 8 + e / 32)).headD 0) (grid (e / 32)) (codeOf b (ver.take (n * b / 8)) e)
      (oldMaster u.stateLayout ld e))

/-! ### The check -/

/-- The pending check of a parcel. -/
def findSpot (s : State) (x : SiteId) (id q : Nat) : Option Spot :=
  s.spots.find? (fun z => z.site == x.val && z.layout == id && z.parcel == q && z.committed)

def dropSpot (s : State) (z : Spot) : State := { s with spots := s.spots.filter (fun y => y != z) }

/-- A unit is a suspect of a silent fault; the second time within the window it is fenced, or its engine restarted
(R431, R445, R447). -/
def suspect (s : State) (z : Spot) : State :=
  let x := siteOf z.site
  let k := unitKey z.unit
  let recent := (s.sites[x]).suspects.filter (fun e => decide (s.ts ≤ e.2 + suspectNs s))
  let s1 := modSite s x (fun y => { y with suspects := recent ++ [(k, s.ts)] })
  if recent.any (fun e => e.1 == k) then
    let s2 := ityIrq (ledAdd s1 0x1A (placeOf z.unit) z.layout z.parcel) 3
    match z.unit with
    | .stall st => requestDeferred s2 ⟨0, st.site.val, st.ch.val, st.pair.val, [], none⟩
    | .relief r => if reliefUp s2 r then restartRelief s2 r else s2
  else s1

/-- A check that disagrees (R255, R430). -/
def reportSpot (s : State) (z : Spot) (pu : PUnit) (breach memErr : Bool) : State :=
  let x := siteOf z.site
  let pl := placeOf z.unit
  let s1 := ledAdd (ledAdd (count s (1545 + 16 * z.site) 1) 0x09 pl z.layout (z.parcel + if breach then 2 ^ 32 else 0))
    0x0E pl z.layout z.step
  if memErr then lastingEvent (ledAdd s1 0x19 (Place.chan z.site pu.ch) z.layout z.parcel) x pu.ch
  else suspect s1 z

/-- Compare the recomputation with what was committed (DEDUCED, log 95; DEDUCED, log 96). -/
def compareSpot (s : State) (z : Spot) (ly : Layout) (memErr : Bool) : State :=
  let q := z.parcel
  let g := recompute z
  let s0 := count (dropSpot s z) (1542 + 16 * z.site) 1
  if g.indec then count s0 (1543 + 16 * z.site) 1
  else
    let sl := z.ctx.stateLayout
    let slot := (parseSeal (rowCol s ly q 63)).slot
    let cols := (g.out.filter (fun e => decide (e.1 < stateCols sl))).map (fun e =>
      let bf := isBfCol sl (e.1 % groupStride sl)
      (columnD bf (rowCol s ly q e.1) e.2, bf))
    let s1 := bump (cols.foldl (fun st c => count st (2048 + 32 * z.site + binOf s.fresh c.1) 1) s0)
    let off := cols.any (fun c => match c.1 with
      | some d => decide (tolerance c.2 < d)
      | none => true)
    let breach := weightBreach z.ctx ((verCols s ly slot q).flatMap colBytes) (rowLoads true s ly q)
    if off || breach then reportSpot s1 z (ly.parcelUnit s q) breach memErr else s1

/-- May the relief engine run a spot check: in service, and between passes, where alone it switches mode (R168)? -/
def checkFree (s : State) (x : SiteId) : Bool := reliefUp s x && (getUnit s (reliefKey x.val)).parcel.isNone

/-- The engine leaves its pass for FP64 mode (R168). -/
def toFp64 (s : State) (x : SiteId) : State :=
  putUnit s (reliefKey x.val) { (getUnit s (reliefKey x.val)).idle with mode := .fp64 }

/-- A spot check runs: from unbooked capacity, in class 3 of its channel (R345), within 1 ms of the seal. Where the row
no longer holds the step's commit, it is skipped (Table NUM-10). -/
def spotCheck (s : State) (x : SiteId) (id q : Nat) (memErr : Bool) : State :=
  match findSpot s x id q, getLayout s id with
  | some z, some ly =>
    let pt := ArbPt.channel x (chOf (ly.parcelUnit s q).ch)
    if !checkFree s x || !bgTurn s pt || decide (z.sealedAt + 1000000 < s.ts) then s
    else if (parseSeal (rowCol s ly q 63)).step ≠ z.step then count (dropSpot s z) (1544 + 16 * x.val) 1
    else compareSpot (toFp64 (takeBg s pt (scrubNs true)) x) z ly memErr
  | _, _ => s

/-- SPOT_CHECK. -/
def execSpotCheck (x : SiteId) (layout parcel : Nat) (memErr : Bool) (s : State) : Host.Outcome State Fault Refusal :=
  .next (spotCheck s x layout parcel memErr)

/-- A check that has not run within 1 ms of its parcel's seal is skipped (R254). -/
def skipSpot (s : State) (x : SiteId) (id q : Nat) : State :=
  match findSpot s x id q with
  | some z => if z.sealedAt + 1000000 ≤ s.ts then count (dropSpot s z) (1544 + 16 * x.val) 1 else s
  | none => s

/-- SPOT_CHECK_SKIP. -/
def execSpotCheckSkip (x : SiteId) (layout parcel : Nat) (s : State) : Host.Outcome State Fault Refusal :=
  .next (skipSpot s x layout parcel)

end Sys2Proof.Machine
end

