-- ==== Sys2Proof/Machine/Power.lean ====
section
/-! DEFINITION. Resets, site power-up, self-test and the ready receipt, squall hold, ripple start and the peak limiter
(15 PWR, R85, R453, R466-R493, R555, R567). -/

namespace Sys2Proof.Machine

/-! ### Resets (R471, Table PWR-4) -/

/-- Does a stack keep its contents: its rails hold? -/
def railsHold (s : State) (site : Nat) : Bool := (s.sites.toList.getD site (Site.reset .none)).powerGood

/-- A site in a reset of the block: its enable latch and rails as they were (R490), STK_CKE low, and the stack in
self-refresh where its rails hold (R397; DEDUCED, log 143). -/
def Site.held (k : SiteKind) (y : Site) : Site :=
  { Site.reset k with powerEn := y.powerEn, powerGood := y.powerGood, selfRefresh := y.powerGood,
                       tripPin := y.tripPin && y.powerGood }

/-- The state of a block that enters a reset: registers at their reset values, and what lies outside the block as it
was: the queue, the boundary log, pins and the link (DEDUCED, log 137). -/
def enterReset (s : State) (k : ResetKind) (cause : W32) : State :=
  let b := State.resetWith s.par cause
  { b with
    pending := s.pending, ts := s.ts, out := s.out, fresh := s.fresh, link := s.link
    power := { b.power with inReset := some k, needPorst := s.power.needPorst, warn := s.power.warn,
                            rst48 := s.power.rst48, clearAt := s.power.clearAt } }

/-- What a block reset and a 48 V reset leave: each stack whose rails hold keeps its contents, its stall fences and its
row-remap tables (R453, Table PWR-4). The test logic is apart, but DebugLock is 1 again and closes it (R514; DEDUCED,
log 140). -/
def softReset (s : State) (k : ResetKind) (cause : W32) : State :=
  let b := enterReset s k cause
  { b with
    sites := Vector.ofFn (fun i => Site.held s.par.siteKind[i] s.sites[i])
    dram := s.dram.filter (fun c => railsHold s (keySite (c.1 / 32)))
    chk := s.chk.filter (fun c => railsHold s (keySite c.1))
    remap := s.remap.filter (fun e => railsHold s (e.1 / 512 / 512))
    fencedStalls := s.fencedStalls.filter (fun e => railsHold s (e.1 / 256))
    tap := if s.tap.ir = 0x01 then s.tap else ⟨0xFF, 0, none, false⟩ }

/-- Bits of HT_PWR_RESET_CAUSE on entry to a reset: its own, those of a reset it meets (Table ITG-5), and AfterFatal
(DEDUCED, log 136). -/
def causeBits (s : State) (own : W32) : W32 :=
  own ||| (if s.power.inReset.isSome then s.power.resetCause else 0) ||| (if s.fatal then 8 else 0)

/-- BLK_PORST_N asserts: nothing survives (DEDUCED, log 139). -/
def powerOnReset (s : State) : State :=
  let b := enterReset s .powerOn 1
  { b with
    sites := Vector.ofFn (fun i => { Site.reset s.par.siteKind[i] with powerEn := (s.sites[i]).powerEn })
    power := { b.power with needPorst := false } }

/-- POWER_ON_RESET. -/
def execPowerOnReset (s : State) : Host.Outcome State Fault Refusal := .next (powerOnReset s)

/-- RAIL_POWER_GOOD_LOSS: a power-on reset that only a new BLK_PORST_N cycle ends (R567). -/
def execRailPowerGoodLoss (s : State) : Host.Outcome State Fault Refusal :=
  .next (if s.power.inReset = some .powerOn then s
    else
      let b := powerOnReset s
      { b with power := { b.power with needPorst := true } })

/-- BLOCK_RESET: a power-on reset holds over it, and a 48 V reset takes it in (Table ITG-5). -/
def execBlockReset (s : State) : Host.Outcome State Fault Refusal :=
  .next (match s.power.inReset with
    | none => softReset s .block (causeBits s 2)
    | some .bus48 => { s with power := { s.power with resetCause := causeBits s 2 } }
    | _ => s)

/-- BUS48_RESET: a commit window still open is abandoned (R484), and a squall hold ends (R493). -/
def execBus48Reset (s : State) : Host.Outcome State Fault Refusal :=
  .next (match s.power.inReset with
    | some .powerOn => { s with power := { s.power with rst48 := true } }
    | some .bus48 => s
    | _ =>
      let b := softReset s .bus48 (causeBits s 4)
      { b with power := { b.power with rst48 := true } })

/-- The block leaves a reset: the timestamp counts from here (Table TEL-3), and the powered sites begin training. After
a power-on or 48 V reset a site without power is powered again under R466. A site whose STK_TRIP is asserted is dealt
with as on the trip (R399, R487). -/
def leaveReset (s : State) : State :=
  let s1 := { s with
    ts := 0
    sites := s.sites.map (fun y => { y with powerEn := y.powerEn && (y.powerGood || s.power.resetCause &&& 5 == 0) })
    power := { s.power with inReset := none, clearAt := s.power.clearAt.map (· - s.ts) } }
  (List.finRange 20).foldl (fun st x =>
    if (s.sites[x]).tripPin && kindOf s x.val != .none then tripSite st x else st) (startTraining s1)

/-- Does a parameter set pass the check of the boot ROM (R555: Table ITG-1, R553)? -/
def Params.ok (p : Params) : Bool :=
  decide (12 ≤ (p.siteKind.toList.filter (· != .none)).length)
    && decide (256 ≤ p.awnMib ∧ p.awnMib ≤ 1024) && p.awnMib % 64 == 0
    && p.regBase % 8192 == 0 && p.winLayout % 2 ^ 56 == 0 && p.winRing % 2 ^ 25 == 0 && p.winStage % 2 ^ 22 == 0
    && p.winTile % 2 ^ 20 == 0 && decide (p.xchNode < 2 ^ 24) && decide (10 ≤ p.graceUs ∧ p.graceUs ≤ 10000)

/-- BLK_PORST_N deasserts: start-up begins from unpowered sites; a parameter out of range fails it (R555). A 48 V reset
whose pin is still asserted goes on (DEDUCED, log 138; DEDUCED, log 141). -/
def powerOnRelease (s : State) : State :=
  if s.power.inReset ≠ some .powerOn ∨ s.power.needPorst then s
  else if s.power.rst48 then { s with power := { s.power with inReset := some .bus48 } }
  else
    let s1 := leaveReset s
    if s.par.ok then s1 else { s1 with power := { s1.power with phase := 6, paramOk := false } }

/-- POWER_ON_RESET_RELEASE. -/
def execPowerOnResetRelease (s : State) : Host.Outcome State Fault Refusal := .next (powerOnRelease s)

/-- BLOCK_RESET_RELEASE. -/
def execBlockResetRelease (s : State) : Host.Outcome State Fault Refusal :=
  .next (if s.power.inReset = some .block then leaveReset s else s)

/-- BUS48_RESET_RELEASE: BUS48_RST_N has deasserted, and BUS48_WARN_N has stayed deasserted for 50 µs (R472). -/
def execBus48ResetRelease (s : State) : Host.Outcome State Fault Refusal :=
  .next (if s.power.inReset = some .bus48 ∧ busQuiet s then
    leaveReset { s with power := { s.power with rst48 := false } } else s)

/-! ### Site power-up (R466, R467) -/

/-- The next site to be enabled: the lowest populated one whose enable is low and that is not fenced. After a block
reset alone no enable is driven anew (Table PWR-4, DEDUCED, log 40). -/
def nextEnable (s : State) : Option SiteId :=
  if s.power.resetCause &&& 5 = 0 then none
  else (List.finRange 20).find? (fun x => kindOf s x.val != .none && !(s.sites[x]).powerEn && !(s.sites[x]).fenced)

/-- SITE_ENABLE. -/
def execSiteEnable (s : State) : Host.Outcome State Fault Refusal :=
  .next (match s.power.inReset, nextEnable s with
    | none, some x => modSite s x (fun y => { y with powerEn := true })
    | _, _ => s)

/-- SITE_POWER_GOOD_TIMEOUT: the site is fenced, and its SelfTest bit set (R467). A site that a block reset found
without power has no enable to wait for (DEDUCED, log 40). -/
def execSitePowerGoodTimeout (x : SiteId) (s : State) : Host.Outcome State Fault Refusal :=
  let y := s.sites[x]
  .next (if sitePresent s x && (y.powerEn || nextEnable s == none) && !y.powerGood && !y.fenced then
    fenceSiteNow (selfTestBit s x.val) x false else s)

/-- What a stack holds is lost with its rails. -/
def dropStack (s : State) (x : SiteId) : State :=
  { s with
    dram := s.dram.filter (fun c => keySite (c.1 / 32) != x.val)
    chk := s.chk.filter (fun c => keySite c.1 != x.val)
    remap := s.remap.filter (fun e => e.1 / 512 / 512 != x.val)
    fencedStalls := s.fencedStalls.filter (fun e => e.1 / 256 != x.val) }

/-- PWR_GOOD_SITE falls. In operation the site is fenced and its enable deasserted (Table PWR-11); in a reset the stack
loses what the base die keeps (Table PWR-4; DEDUCED, log 144). -/
def powerGoodLoss (s : State) (x : SiteId) : State :=
  if !(s.sites[x]).powerGood then s
  else if s.power.inReset.isSome then
    modSite (dropStack s x) x (fun y => { y with powerGood := false, selfRefresh := false })
  else requestDeferred (powerOff (markUntested s x) x) ⟨2, x.val, 0, 0, [], none⟩

/-- SITE_POWER_GOOD_LOSS. -/
def execSitePowerGoodLoss (x : SiteId) (s : State) : Host.Outcome State Fault Refusal := .next (powerGoodLoss s x)

/-! ### Self-test and the ready receipt (R469, R470, R85) -/

/-- Every row of a site is written as sealed zeros (R417): a column that memory does not list is one. -/
def zeroSite (s : State) (x : SiteId) : State :=
  { s with dram := s.dram.filter (fun c => keySite (c.1 / 32) != x.val)
           chk := s.chk.filter (fun c => keySite c.1 != x.val) }

/-- May the self-test of a site end: the site is trained and Drielm verified (Table PWR-2), once for each reset? -/
def testable (s : State) (x : SiteId) : Bool :=
  let y := s.sites[x]
  s.power.inReset.isNone && y.state == 2 && !y.tested && !y.fenced && s.boot.verified && busQuiet s

/-- The self-test of a site ends (Table PWR-3). Stalls that the base die holds fenced stay so (R453). -/
def endSelfTest (s : State) (x : SiteId) (t : SelfTest) : State :=
  if !testable s x then s
  else batch s fun s =>
    let bad := if isFcs s x.val then t.badStalls.filter (fun e => (s.sites[x]).live.getLsbD e.1.val) else []
    let fails := !bad.isEmpty || !t.reliefOk || !t.sealerOk
    let s1 := modSite (zeroSite s x) x (fun y => { y with tested := true })
    let s2 := if fails then selfTestBit s1 x.val else s1
    let s3 := bad.foldl (fun st e => fenceStallNow st x.val e.1.val e.2.val) s2
    if t.reliefOk && t.sealerOk then s3 else fenceSiteNow s3 x true

/-- SELF_TEST_COMPLETE. -/
def execSelfTestComplete (x : SiteId) (t : SelfTest) (s : State) : Host.Outcome State Fault Refusal :=
  .next (endSelfTest s x t)


/-- Body of layout Y (Table ORD-6); Stepping is 0xB0 (R2). -/
def bodyY (s : State) : BitVec 192 :=
  BitVec.ofNat 192 (s.boot.major.toNat + 2 ^ 8 * s.boot.minor.toNat + 2 ^ 16 * 0xB0 + 2 ^ 24 * sitesPopulated s
    + 2 ^ 32 * s.power.selfTest.toNat + 2 ^ 64 * s.par.awnMib)

/-- Has the self-test of every populated site ended, or has the site been fenced? -/
def allTested (s : State) : Bool :=
  (List.finRange 20).all (fun x => kindOf s x.val == .none || (s.sites[x]).tested || (s.sites[x]).fenced)

/-- May start-up end (R85, Table PWR-2)? -/
def readyDue (s : State) : Bool :=
  s.power.inReset.isNone && !s.regs.ready && !s.fatal && s.boot.verified && s.power.phase != 6 && allTested s

/-- Does a site take a place in a ripple (R477, Table PWR-11)? -/
def inRipple (s : State) (x : SiteId) : Bool :=
  kindOf s x.val != .none && !(s.sites[x]).fenced && decide ((s.sites[x]).level < 3)

/-- The first site of a ripple from site `n` on. -/
def rippleFrom (s : State) (n : Nat) : Option (Nat × Nat) :=
  ((List.finRange 20).find? (fun x => decide (n ≤ x.val) && inRipple s x)).map (fun x => (x.val, 0))

/-- Begin a ripple; `paid` marks the sites to which no squall hold is charged (DEDUCED, log 146). -/
def beginRipple (s : State) (paid : State → SiteId → Bool) : State :=
  let s1 := (List.finRange 20).foldl (fun st x => modSite st x (fun y => { y with rippled := paid s x })) s
  { s1 with power := { s1.power with ripple := rippleFrom s1 0 } }

/-- Bits of a set of ports. -/
def portBits (l : List PortId) : BitVec 16 := l.foldl (fun m p => m ||| (1 <<< p.val)) 0

/-- READY: the ready receipt at index 0 of every receipt ring (R85); a part that fails stops start-up, and its message
carries a Seq that the spec does not give (R470; DESIGN CHOICE, log 145). -/
def ready (s : State) (t : ReadyTest) : State :=
  if !readyDue s then s
  else if !t.coreOk then
    addAnswer { failStart s with fresh := s.fresh + 1 } true 0x06 (Config.freeByte s.fresh)
  else
    let s1 := if t.badPorts.isEmpty then s else selfTestBit s 20
    let s2 := if t.xchOk then s1 else selfTestBit s1 21
    let s3 := { s2 with power := { s2.power with badPorts := portBits t.badPorts } }
    let s4 := (List.finRange 5).foldl (fun st r => putReceipt st r (word0 0x3F 0xF0 0 r.val 0 0) (bodyY s3) false) s3
    let s5 := { s4 with regs := { s4.regs with ready := true, drielmMajor := s.boot.major, drielmMinor := s.boot.minor } }
    beginRipple (beginPhase s5 5) (fun _ _ => true)

/-- READY. -/
def execReady (t : ReadyTest) (s : State) : Host.Outcome State Fault Refusal := .next (ready s t)

/-! ### Squall hold (R480-R483) -/

/-- BUS48_WARN_N asserts. A reassertion within a hold restarts the 50 µs within it (R481); in a reset only the pin is
noted. -/
def squallHold (s : State) : State :=
  let pin (s : State) : State := { s with power := { s.power with warn := true, clearAt := none } }
  if s.power.inReset.isSome || s.power.squall then pin s
  else
    let s1 := pin (settleSquall s)
    let s2 := { s1 with
      sites := s1.sites.map (fun y => { y with rippled := false })
      power := { s1.power with squall := true, squallStart := s1.ts, squallFrom := s1.ts, ripple := none,
                               squallCount := sat16w s1.power.squallCount } }
    ledAdd (pwrIrq s2 0) 0x30 Place.none 0 0

/-- SQUALL_HOLD. -/
def execSquallHold (s : State) : Host.Outcome State Fault Refusal := .next (squallHold s)

/-- BUS48_WARN_DEASSERT: the recovery of 50 µs begins. -/
def execBus48WarnDeassert (s : State) : Host.Outcome State Fault Refusal :=
  .next (if s.power.warn then
    { s with power := { s.power with warn := false, clearAt := some (s.ts + 50000) } } else s)

/-- The hold ends, its cost to the Cirrus path charged, and in-bank work resumes under R477. A site that takes no place
in the ripple is charged no further (Table PWR-11). -/
def endSquall (s : State) : State :=
  let s1 := settleSquall s
  let us := (s1.ts - s1.power.squallStart) / 1000
  let s2 := { s1 with power := { s1.power with squall := false, clearAt := none,
                                               lastUs := BitVec.ofNat 16 (Nat.min us 65535) } }
  beginRipple (ledAdd s2 0x32 Place.none 0 0) (fun st x => !inRipple st x)

/-- SQUALL_HOLD_END: 50 µs without the warning. After a block reset that met a hold, the sites begin their training here
(Table PWR-11). -/
def execSquallHoldEnd (s : State) : Host.Outcome State Fault Refusal :=
  .next (if s.power.inReset.isSome || !busQuiet s then s
    else if s.power.squall then endSquall s else startTraining s)

/-- Stall groups of a site: one for each of its channels; a JEDEC site starts in one step. -/
def rippleGroups (s : State) (x : Nat) : Nat := if isFcs s x then 32 else 1

/-- The next stall group of the ripple starts; a site's charge ends with its last group (R482; DEDUCED, log 147), and a
SEAL that the hold kept out follows. -/
def rippleStart (s : State) : State :=
  match s.power.ripple, s.power.inReset with
  | some (x, g), none =>
    let next (st : State) : State := { st with power := { st.power with ripple := rippleFrom st (x + 1) } }
    let done (st : State) : State :=
      afterClose (modSite (settleSquall st) (siteOf x) (fun y => { y with rippled := true, ranTs := st.ts }))
    if !inRipple s (siteOf x) then next (done s)
    else if g + 1 < rippleGroups s x then { s with power := { s.power with ripple := some (x, g + 1) } }
    else next (done s)
  | _, _ => s

/-- RIPPLE_START. -/
def execRippleStart (s : State) : Host.Outcome State Fault Refusal := .next (rippleStart s)

/-- SQUALL_LATE: what a hold charges to an instance beyond the unbooked share passes its allowance: a SUPPLY event
(R483; DEDUCED, log 150). -/
def execSquallLate (i : Inst) (s : State) : Host.Outcome State Fault Refusal :=
  let s1 := settle s
  .next (if s.power.inReset.isNone && s1.squallDebt.any (fun c => c.1 == i) && overAllowance s1 i then
    lateCheck (ledAdd (pwrIrq s1 1) 0x31 Place.none 0 0) 4 else s)

/-! ### The peak limiter (R475) -/

/-- PEAK_LIMITER: the estimate of a µs, which holds class 2 and class 3 requests while it exceeds the budget. -/
def execPeakLimiter (est : BitVec 11) (s : State) : Host.Outcome State Fault Refusal :=
  .next (if s.power.inReset.isSome then s
    else
      { s with power := { s.power with est := est, peak := if s.power.peak < est then est else s.power.peak,
                                       limiter := decide (s.cfg.budget < est.toNat) } })

end Sys2Proof.Machine
end

