-- ==== Sys2Proof/Machine/Tap.lean ====
section
/-! DEFINITION. The test access port (R571, Table ITG-4): an instruction takes effect when the instruction register is
updated, and its data register captures. -/

namespace Sys2Proof.Machine

def setTap (s : State) (ir : BitVec 8) (dr : W32) (wrap : Option SiteId) (dbg : Bool) : State :=
  { s with tap := { ir := ir, dr := dr, wrap := wrap, dbg := dbg } }

/-- The bypass register captures zero (IEEE 1149.1). -/
def tapBypass (s : State) : State := setTap s 0xFF 0 none false

/-- An instruction that DebugLock closes acts as BYPASS (R571, R514). -/
def tapLocked (s : State) (f : State → State) : State := if s.sec.debugLock then tapBypass s else f s

/-- The boundary register captures the pins; its layout is in the BSDL, not in the spec (DESIGN CHOICE, log 10). -/
def tapBoundary (ir : BitVec 8) (s : State) : State := bump (setTap s ir (Config.boundaryBits s.fresh) none false)

/-- EXTEST. -/
def execExtest (s : State) : Host.Outcome State Fault Refusal := .next (tapLocked s (tapBoundary 0x00))
/-- IDCODE reads version 0xB, part 0x0020, manufacturer field 0x649. -/
def execIdcode (s : State) : Host.Outcome State Fault Refusal := .next (setTap s 0x01 0xB0020C93 none false)
/-- SAMPLE_PRELOAD. -/
def execSamplePreload (s : State) : Host.Outcome State Fault Refusal := .next (tapLocked s (tapBoundary 0x02))
/-- WRAPSEL selects the IEEE 1500 wrapper of a site. -/
def execWrapsel (x : SiteId) (s : State) : Host.Outcome State Fault Refusal :=
  .next (tapLocked s (fun st => setTap st (BitVec.ofNat 8 (0x10 + x.val)) 0 (some x) false))
/-- DBGSEL reaches the debug module of the control cores. -/
def execDbgsel (s : State) : Host.Outcome State Fault Refusal := .next (tapLocked s (fun st => setTap st 0x30 0 none true))
/-- BYPASS. -/
def execBypass (s : State) : Host.Outcome State Fault Refusal := .next (tapBypass s)

/-- TEST_LOGIC_RESET resets only the test logic (R471). -/
def execTestLogicReset (s : State) : Host.Outcome State Fault Refusal := .next { s with tap := Tap.reset }

end Sys2Proof.Machine
end

