-- ==== Sys2Proof/Machine/Dispatch.lean ====
section
/-! DEFINITION. The dispatch of commands to their meanings: one arm per constructor of `Instr`. -/

namespace Sys2Proof.Machine

/-- The effect of a command on the state (its queue apart): one direct call of the command's meaning. -/
def exec (i : Instr) (s : State) : Host.Outcome State Fault Refusal :=
  match i with
  | .nop r => Sys2Proof.Machine.execNop r s
  | .config r => Sys2Proof.Machine.execConfig r s
  | .layoutDef r => Sys2Proof.Machine.execLayoutDef r s
  | .layoutFree r => Sys2Proof.Machine.execLayoutFree r s
  | .repack r => Sys2Proof.Machine.execRepack r s
  | .updOpen r => Sys2Proof.Machine.execUpdOpen r s
  | .updOpenAdmitAfterWait r => Sys2Proof.Machine.execUpdOpenAdmitAfterWait r s
  | .updAbort r => Sys2Proof.Machine.execUpdAbort r s
  | .ruleLoad r => Sys2Proof.Machine.execRuleLoad r s
  | .verRelease r => Sys2Proof.Machine.execVerRelease r s
  | .fetchPull r => Sys2Proof.Machine.execFetchPull r s
  | .fetchServe r => Sys2Proof.Machine.execFetchServe r s
  | .snapshot r => Sys2Proof.Machine.execSnapshot r s
  | .exportImage r => Sys2Proof.Machine.execExportImage r s
  | .importImage r => Sys2Proof.Machine.execImportImage r s
  | .ctxSave r => Sys2Proof.Machine.execCtxSave r s
  | .ctxRestore r => Sys2Proof.Machine.execCtxRestore r s
  | .push r => Sys2Proof.Machine.execPush r s
  | .tread r => Sys2Proof.Machine.execTread r s
  | .stashPut r => Sys2Proof.Machine.execStashPut r s
  | .stashGet r => Sys2Proof.Machine.execStashGet r s
  | .queueDefDefine r => Sys2Proof.Machine.execQueueDefDefine r s
  | .queueDefDelete r => Sys2Proof.Machine.execQueueDefDelete r s
  | .queueDefRelease r => Sys2Proof.Machine.execQueueDefRelease r s
  | .gather r => Sys2Proof.Machine.execGather r s
  | .scatter r => Sys2Proof.Machine.execScatter r s
  | .scatterAdd r => Sys2Proof.Machine.execScatterAdd r s
  | .ewAdd r => Sys2Proof.Machine.execEwAdd r s
  | .ewMul r => Sys2Proof.Machine.execEwMul r s
  | .ewFma r => Sys2Proof.Machine.execEwFma r s
  | .ewScale r => Sys2Proof.Machine.execEwScale r s
  | .ewRelu r => Sys2Proof.Machine.execEwRelu r s
  | .ewGelu r => Sys2Proof.Machine.execEwGelu r s
  | .ewSilu r => Sys2Proof.Machine.execEwSilu r s
  | .ewTanh r => Sys2Proof.Machine.execEwTanh r s
  | .ewConvert r => Sys2Proof.Machine.execEwConvert r s
  | .ewKeep r => Sys2Proof.Machine.execEwKeep r s
  | .ewMask r => Sys2Proof.Machine.execEwMask r s
  | .ewGumbelAdd r => Sys2Proof.Machine.execEwGumbelAdd r s
  | .ewGumbelMax r => Sys2Proof.Machine.execEwGumbelMax r s
  | .reduceSum r => Sys2Proof.Machine.execReduceSum r s
  | .reduceMax r => Sys2Proof.Machine.execReduceMax r s
  | .reduceMin r => Sys2Proof.Machine.execReduceMin r s
  | .reduceNoisymax r => Sys2Proof.Machine.execReduceNoisymax r s
  | .retireRow r => Sys2Proof.Machine.execRetireRow r s
  | .retireBankPair r => Sys2Proof.Machine.execRetireBankPair r s
  | .fenceStall r => Sys2Proof.Machine.execFenceStall r s
  | .fenceChannel r => Sys2Proof.Machine.execFenceChannel r s
  | .fenceSite r => Sys2Proof.Machine.execFenceSite r s
  | .zeroizeFreeRows r => Sys2Proof.Machine.execZeroizeFreeRows r s
  | .zeroizeLayout r => Sys2Proof.Machine.execZeroizeLayout r s
  | .tally r => Sys2Proof.Machine.execTally r s
  | .ledgerDrain r => Sys2Proof.Machine.execLedgerDrain r s
  | .drzSeed r => Sys2Proof.Machine.execDrzSeed r s
  | .drzSeedDelete r => Sys2Proof.Machine.execDrzSeedDelete r s
  | .timedOrderComplete r idx inp => Sys2Proof.Machine.execTimedOrderComplete r idx inp s
  | .lotStart r idx => Sys2Proof.Machine.execLotStart r idx s
  | .heldReceiptWrite r => Sys2Proof.Machine.execHeldReceiptWrite r s
  | .doorbell sec r v => Sys2Proof.Machine.execDoorbell sec r v s
  | .rcpHeadWrite sec r v => Sys2Proof.Machine.execRcpHeadWrite sec r v s
  | .ringEnable sec r depth => Sys2Proof.Machine.execRingEnable sec r depth s
  | .ringDisable sec r depth => Sys2Proof.Machine.execRingDisable sec r depth s
  | .ringDepthWrite sec r v => Sys2Proof.Machine.execRingDepthWrite sec r v s
  | .mbxNsInCommit sec d => Sys2Proof.Machine.execMbxNsInCommit sec d s
  | .mbxSInCommit sec d => Sys2Proof.Machine.execMbxSInCommit sec d s
  | .mbxNsOutD15Read sec => Sys2Proof.Machine.execMbxNsOutD15Read sec s
  | .mbxSOutD15Read sec => Sys2Proof.Machine.execMbxSOutD15Read sec s
  | .beatNowLoRead sec => Sys2Proof.Machine.execBeatNowLoRead sec s
  | .stepNowLoRead sec => Sys2Proof.Machine.execStepNowLoRead sec s
  | .talBeatLoRead sec => Sys2Proof.Machine.execTalBeatLoRead sec s
  | .talDataLoRead sec => Sys2Proof.Machine.execTalDataLoRead sec s
  | .cirPeakRead sec => Sys2Proof.Machine.execCirPeakRead sec s
  | .ityFirstRead sec => Sys2Proof.Machine.execItyFirstRead sec s
  | .secDenyRead sec => Sys2Proof.Machine.execSecDenyRead sec s
  | .pwrPeakRead sec => Sys2Proof.Machine.execPwrPeakRead sec s
  | .debugUnlock sec => Sys2Proof.Machine.execDebugUnlock sec s
  | .firewallEntryWrite sec e word v => Sys2Proof.Machine.execFirewallEntryWrite sec e word v s
  | .irqForceWrite sec v => Sys2Proof.Machine.execIrqForceWrite sec v s
  | .registerWrite sec addr strb v => Sys2Proof.Machine.execRegisterWrite sec addr strb v s
  | .imageDesc => Sys2Proof.Machine.execImageDesc s
  | .imageDigest => Sys2Proof.Machine.execImageDigest s
  | .digestCheckEnd fetchOk image => Sys2Proof.Machine.execDigestCheckEnd fetchOk image s
  | .keyLoad => Sys2Proof.Machine.execKeyLoad s
  | .keyClear => Sys2Proof.Machine.execKeyClear s
  | .mark => Sys2Proof.Machine.execMark s
  | .status sec => Sys2Proof.Machine.execStatus sec s
  | .beatStrobe n step => Sys2Proof.Machine.execBeatStrobe n step s
  | .sequencerStopped => Sys2Proof.Machine.execSequencerStopped s
  | .tilePacket src offset hdr payload => Sys2Proof.Machine.execTilePacket src offset hdr payload s
  | .tileContributionAdded layout tile contrib => Sys2Proof.Machine.execTileContributionAdded layout tile contrib s
  | .parcelDispatch site layout parcel => Sys2Proof.Machine.execParcelDispatch site layout parcel s
  | .passSwitch u => Sys2Proof.Machine.execPassSwitch u s
  | .parcelSealWritten u layout parcel => Sys2Proof.Machine.execParcelSealWritten u layout parcel s
  | .stallParityMismatch u layout parcel openCol first retry => Sys2Proof.Machine.execStallParityMismatch u layout parcel openCol first retry s
  | .resealComplete layout => Sys2Proof.Machine.execResealComplete layout s
  | .rollbackComplete layout => Sys2Proof.Machine.execRollbackComplete layout s
  | .queuePiece node hdr payload => Sys2Proof.Machine.execQueuePiece node hdr payload s
  | .fetchRequest node hdr => Sys2Proof.Machine.execFetchRequest node hdr s
  | .fetchData node hdr payload => Sys2Proof.Machine.execFetchData node hdr payload s
  | .fetchRefusal node hdr => Sys2Proof.Machine.execFetchRefusal node hdr s
  | .fetchNoServeRetry r idx => Sys2Proof.Machine.execFetchNoServeRetry r idx s
  | .fetchRangeReRequest r idx => Sys2Proof.Machine.execFetchRangeReRequest r idx s
  | .fetchPullGiveUp r idx => Sys2Proof.Machine.execFetchPullGiveUp r idx s
  | .close node epoch reason => Sys2Proof.Machine.execClose node epoch reason s
  | .sync node epoch reason => Sys2Proof.Machine.execSync node epoch reason s
  | .syncAck node epoch reason => Sys2Proof.Machine.execSyncAck node epoch reason s
  | .syncResend node => Sys2Proof.Machine.execSyncResend node s
  | .linkDown => Sys2Proof.Machine.execLinkDown s
  | .linkUp => Sys2Proof.Machine.execLinkUp s
  | .graceEnd => Sys2Proof.Machine.execGraceEnd s
  | .requesterRead p ns crit addr len => Sys2Proof.Machine.execRequesterRead p ns crit addr len s
  | .requesterWrite p ns posted addr data => Sys2Proof.Machine.execRequesterWrite p ns posted addr data s
  | .narrowRead o crit addr size => Sys2Proof.Machine.execNarrowRead o crit addr size s
  | .narrowWrite o addr data => Sys2Proof.Machine.execNarrowWrite o addr data s
  | .narrowHoldRelease => Sys2Proof.Machine.execNarrowHoldRelease s
  | .fadd32 p ns addr x => Sys2Proof.Machine.execFadd32 p ns addr x s
  | .fmax32 p ns addr x => Sys2Proof.Machine.execFmax32 p ns addr x s
  | .fmin32 p ns addr x => Sys2Proof.Machine.execFmin32 p ns addr x s
  | .iadd32 p ns addr x => Sys2Proof.Machine.execIadd32 p ns addr x s
  | .iadd64 p ns addr x => Sys2Proof.Machine.execIadd64 p ns addr x s
  | .swap32 p ns addr x => Sys2Proof.Machine.execSwap32 p ns addr x s
  | .swap64 p ns addr x => Sys2Proof.Machine.execSwap64 p ns addr x s
  | .cas32 p ns addr cmp x => Sys2Proof.Machine.execCas32 p ns addr cmp x s
  | .cas64 p ns addr cmp x => Sys2Proof.Machine.execCas64 p ns addr cmp x s
  | .requestCompletion id => Sys2Proof.Machine.execRequestCompletion id s
  | .arbitrationGrant pt ns => Sys2Proof.Machine.execArbitrationGrant pt ns s
  | .sitePowerGood site => Sys2Proof.Machine.execSitePowerGood site s
  | .trainingComplete site lanes => Sys2Proof.Machine.execTrainingComplete site lanes s
  | .retrainStart site c trig => Sys2Proof.Machine.execRetrainStart site c trig s
  | .retrainComplete site c ok => Sys2Proof.Machine.execRetrainComplete site c ok s
  | .laneRepairRequest site c lane => Sys2Proof.Machine.execLaneRepairRequest site c lane s
  | .laneRepairComplete site c => Sys2Proof.Machine.execLaneRepairComplete site c s
  | .commandParityAlert site c => Sys2Proof.Machine.execCommandParityAlert site c s
  | .stackTrip site => Sys2Proof.Machine.execStackTrip site s
  | .temperatureRead site readings => Sys2Proof.Machine.execTemperatureRead site readings s
  | .siteShutdownPowerOff site => Sys2Proof.Machine.execSiteShutdownPowerOff site s
  | .junctionRead readings => Sys2Proof.Machine.execJunctionRead readings s
  | .refreshDue site c k => Sys2Proof.Machine.execRefreshDue site c k s
  | .refp site c k => Sys2Proof.Machine.execRefp site c k s
  | .sfnc site c k => Sys2Proof.Machine.execSfnc site c k s
  | .rmap site c bank row entry valid => Sys2Proof.Machine.execRmap site c bank row entry valid s
  | .seal site c bank row count => Sys2Proof.Machine.execSeal site c bank row count s
  | .pause site c k => Sys2Proof.Machine.execPause site c k s
  | .resume site c k => Sys2Proof.Machine.execResume site c k s
  | .rstw site c k word data => Sys2Proof.Machine.execRstw site c k word data s
  | .passd site c k data => Sys2Proof.Machine.execPassd site c k data s
  | .latg site c k group data => Sys2Proof.Machine.execLatg site c k group data s
  | .statq site c k => Sys2Proof.Machine.execStatq site c k s
  | .tempq site c => Sys2Proof.Machine.execTempq site c s
  | .bdreg site idx write => Sys2Proof.Machine.execBdreg site idx write s
  | .stallNop st => Sys2Proof.Machine.execStallNop st s
  | .ld st f => Sys2Proof.Machine.execLd st f s
  | .ldg st f => Sys2Proof.Machine.execLdg st f s
  | .stc st f => Sys2Proof.Machine.execStc st f s
  | .stw st f => Sys2Proof.Machine.execStw st f s
  | .bcst st f => Sys2Proof.Machine.execBcst st f s
  | .draw st f => Sys2Proof.Machine.execDraw st f s
  | .fma st f => Sys2Proof.Machine.execFma st f s
  | .add st f => Sys2Proof.Machine.execAdd st f s
  | .mul st f => Sys2Proof.Machine.execMul st f s
  | .min st f => Sys2Proof.Machine.execMin st f s
  | .max st f => Sys2Proof.Machine.execMax st f s
  | .abs st f => Sys2Proof.Machine.execAbs st f s
  | .sign st f => Sys2Proof.Machine.execSign st f s
  | .sel st f => Sys2Proof.Machine.execSel st f s
  | .cmp st f => Sys2Proof.Machine.execCmp st f s
  | .clamp st f => Sys2Proof.Machine.execClamp st f s
  | .cvt st f => Sys2Proof.Machine.execCvt st f s
  | .rsqrt st f => Sys2Proof.Machine.execRsqrt st f s
  | .rcp st f => Sys2Proof.Machine.execRcp st f s
  | .exp2 st f => Sys2Proof.Machine.execExp2 st f s
  | .log2 st f => Sys2Proof.Machine.execLog2 st f s
  | .errorRetry site c bank row block first retry rd => Sys2Proof.Machine.execErrorRetry site c bank row block first retry rd s
  | .bucketLeakTick site c transient => Sys2Proof.Machine.execBucketLeakTick site c transient s
  | .scrubRow site c => Sys2Proof.Machine.execScrubRow site c s
  | .scrubPassLate site c => Sys2Proof.Machine.execScrubPassLate site c s
  | .spotCheck site layout parcel memErr => Sys2Proof.Machine.execSpotCheck site layout parcel memErr s
  | .spotCheckSkip site layout parcel => Sys2Proof.Machine.execSpotCheckSkip site layout parcel s
  | .stallHardFault st => Sys2Proof.Machine.execStallHardFault st s
  | .reliefEngineHardFault site => Sys2Proof.Machine.execReliefEngineHardFault site s
  | .reliefEngineRestartDone site => Sys2Proof.Machine.execReliefEngineRestartDone site s
  | .siteControllerFault site => Sys2Proof.Machine.execSiteControllerFault site s
  | .fatalFault writable => Sys2Proof.Machine.execFatalFault writable s
  | .clockLoss clk writable => Sys2Proof.Machine.execClockLoss clk writable s
  | .powerOnReset => Sys2Proof.Machine.execPowerOnReset s
  | .powerOnResetRelease => Sys2Proof.Machine.execPowerOnResetRelease s
  | .siteEnable => Sys2Proof.Machine.execSiteEnable s
  | .sitePowerGoodTimeout site => Sys2Proof.Machine.execSitePowerGoodTimeout site s
  | .selfTestComplete site t => Sys2Proof.Machine.execSelfTestComplete site t s
  | .ready t => Sys2Proof.Machine.execReady t s
  | .blockReset => Sys2Proof.Machine.execBlockReset s
  | .blockResetRelease => Sys2Proof.Machine.execBlockResetRelease s
  | .railPowerGoodLoss => Sys2Proof.Machine.execRailPowerGoodLoss s
  | .sitePowerGoodLoss site => Sys2Proof.Machine.execSitePowerGoodLoss site s
  | .squallHold => Sys2Proof.Machine.execSquallHold s
  | .bus48WarnDeassert => Sys2Proof.Machine.execBus48WarnDeassert s
  | .squallHoldEnd => Sys2Proof.Machine.execSquallHoldEnd s
  | .rippleStart => Sys2Proof.Machine.execRippleStart s
  | .squallLate x => Sys2Proof.Machine.execSquallLate x s
  | .bus48Reset => Sys2Proof.Machine.execBus48Reset s
  | .bus48ResetRelease => Sys2Proof.Machine.execBus48ResetRelease s
  | .peakLimiter est => Sys2Proof.Machine.execPeakLimiter est s
  | .axiPortReset => Sys2Proof.Machine.execAxiPortReset s
  | .testLogicReset => Sys2Proof.Machine.execTestLogicReset s
  | .extest => Sys2Proof.Machine.execExtest s
  | .idcode => Sys2Proof.Machine.execIdcode s
  | .samplePreload => Sys2Proof.Machine.execSamplePreload s
  | .wrapsel site => Sys2Proof.Machine.execWrapsel site s
  | .dbgsel => Sys2Proof.Machine.execDbgsel s
  | .bypass => Sys2Proof.Machine.execBypass s
  | .reservedEncodingOrder r => Sys2Proof.Machine.execReservedEncodingOrder r s
  | .mailboxMessageMalformed sec => Sys2Proof.Machine.execMailboxMessageMalformed sec s
  | .faultAllowanceExceeded x => Sys2Proof.Machine.execFaultAllowanceExceeded x s

end Sys2Proof.Machine
end

