-- ==== Sys2Proof/Machine/Step.lean ====
section
/-! DEFINITION. One step of the block: the command at the front of the queue, or a tick of the reference clock. -/

namespace Sys2Proof.Machine

/-- Take the front command and run it on the state with the rest of the queue; on an empty queue the 1 GHz
reference advances the timestamp by one tick and nothing else happens (DESIGN CHOICE, log 1). -/
def step (s : State) : Host.Outcome State Fault Refusal :=
  match s.pending with
  | [] => .next { s with ts := s.ts + 1 }
  | c :: rest => exec c { s with pending := rest }

/-- Put the command a table word spells at the front of the queue; no word spells one (DESIGN CHOICE, log 61). -/
def State.withFetchWord (s : State) (nbits w : Nat) : State :=
  match Sys2Proof.decodeTableWord nbits w with
  | some c => { s with pending := c :: s.pending }
  | none => s

end Sys2Proof.Machine
end

