-- ==== Sys2Proof/Safety.lean ====
section
/-! DEFINITION. What holds of every state the block can be in: memories in canonical form, registers within the ranges of
their fields, CONFIG settings within the ranges of Table ORD-4, counters within their widths. -/

namespace Sys2Proof.Machine

/-- Canonical form of a byte memory that an unlisted address reads as zero: addresses strictly rising, no listed zero.
-/
def Memory.wf (m : Mem) : Bool := memWf m

/-- Canonical form of the check fields: keys strictly rising, no listed zero field. -/
def chkWf (m : KV (BitVec 36)) : Bool := kvWf m && m.all (fun e => e.2 != 0)

/-- The registers of a ring hold what their fields can (Table ORD-1): a depth of 2^4 to 2^16, indices of 17 bits,
reserved bits of the interrupt register zero. -/
structure RingOk (g : RingSt) : Prop where
  depth : 4 ≤ g.depth ∧ g.depth ≤ 16
  head : g.head < 131072
  tail : g.tail < 131072
  rcpHead : g.rcpHead < 131072
  rcpTail : g.rcpTail < 131072
  irq : g.irq &&& 0x00007FF0#32 = 0

/-- Is a number in a range? -/
def inRange (lo hi x : Nat) : Prop := lo ≤ x ∧ x ≤ hi

/-- Every setting of CONFIG is in its range (Table ORD-4, Table ITY-4, Table PWR-8, R528, R496); the beat period is 0
until it is set. -/
structure CfgOk (awnMib : Nat) (c : Cfg) : Prop where
  period : c.period = 0 ∨ inRange 20000 100000000 c.period
  rho : inRange 60 90 c.rho
  budget : inRange 600 1300 c.budget
  spotLog : inRange 10 24 c.spotLog
  slots : inRange 256 (awnMib * 16) c.slots
  scrubS : inRange 60 86400 c.scrubS
  lastThr : inRange 1 65535 c.lastThr
  lastLeak : inRange 1 60000 c.lastLeak
  tranThr : inRange 1 255 c.tranThr
  tranLeak : inRange 10 1000000 c.tranLeak
  suspectS : inRange 1 86400 c.suspectS
  spareLow : inRange 0 458 c.spareLow
  cirPct : inRange 10 50 c.cirPct
  hyst : inRange 2 8 c.hyst
  ledRec : inRange 0 1 c.ledRec
  fillLevel : inRange 1024 65535 c.fillLevel
  fwDefault : inRange 0 1 c.fwDefault

/-- Tally counters and shadows are 48 bits wide (R518). -/
def TallyOk (t : Tally) : Prop := (∀ e ∈ t.ctr, e.2 < ctrMod) ∧ (∀ e ∈ t.shadow, e.2 < ctrMod)

/-- The Ledger holds at most 65,536 entries, and Seq counts modulo 65,536 (R525, R527). -/
def LedgerOk (l : Ledger) : Prop := l.entries.length ≤ 65536 ∧ l.head < 65536

/-- What holds of a state within a cycle too. -/
structure Sound (s : State) : Prop where
  par : 256 ≤ s.par.awnMib
  awn : Memory.wf s.awn
  stage : Memory.wf s.stage
  dram : Memory.wf s.dram
  chk : chkWf s.chk
  turn : s.turn < 4
  rings : ∀ r : RingId, RingOk s.rings[r]
  cfg : CfgOk s.par.awnMib s.cfg
  tally : TallyOk s.tally
  led : LedgerOk s.led
  link : s.link ≤ 2

/-- The invariant of the block: every field is sound, and no cycle's receipts are still to be written. -/
structure Inv (s : State) : Prop extends Sound s where
  calm : s.batching = false

/-! ### Terms the statements use -/

/-- The state in which an order taken off ring r is judged: the order is off its ring, and the receipts of the cycle
gather (R73, DESIGN CHOICE, log 41). -/
def begun (s : State) (r : RingId) : State := advanceHead { s with batching := true } r

/-- The order `o` at the head of ring r is the scheduler's next, is this opcode's, is well formed, and stands in the
world its opcode asks for (R58, R61, R73); `t` is the state in which it is judged. -/
structure Taken (c : Opcode) (s : State) (r : RingId) (o : Order) (t : State) : Prop where
  calm : s.batching = false
  next : nextIs s r c.is = true
  order : o = orderAt s r (s.rings[r]).head
  taken : t = begun s r
  header : headerMal o = []
  fields : c.mal t o = []
  world : secureOnly o = true → r = 4

/-- A taken order is done: the end of the cycle with its DONE or DONE_REPEAT receipt. -/
def doneNow (s : State) (r : RingId) (idx : Nat) (o : Order) (status result : Nat) : State :=
  endBatch (finishNow s r idx o status result)

/-- Does no ring but r hold a receipt that it has room for? -/
def othersQuiet (s : State) (r : RingId) : Prop :=
  ∀ q : RingId, q ≠ r → ∀ h ∈ (s.rings[q]).held.head?, heldRoom s.rings[q] h = false

/-- The ring index at which ring r's next order stands. -/
def headOf (s : State) (r : RingId) : Nat := (s.rings[r]).head

/-- The commands that complete at once or are booked, with what their opcode's chapter says. -/
def immediateOps (r : RingId) : List (Instr × Opcode) :=
  [(.nop r, opNop), (.config r, opConfig), (.layoutDef r, opLayoutDef), (.layoutFree r, opLayoutFree),
   (.updOpen r, opUpdOpen), (.ruleLoad r, opRuleLoad), (.verRelease r, opVerRelease),
   (.queueDefDefine r, opQueueDefine), (.queueDefDelete r, opQueueDelete), (.queueDefRelease r, opQueueRelease),
   (.fenceStall r, opFence 0), (.fenceChannel r, opFence 1), (.fenceSite r, opFence 2),
   (.drzSeed r, opDrzSeed), (.drzSeedDelete r, opDrzDelete)]

/-- The timed orders of Table ORD-3 that move or compute data, or act on the block, at their completion. -/
def timedOps (r : RingId) : List (Instr × Opcode) :=
  [(.repack r, opRepack), (.updAbort r, opUpdAbort), (.fetchPull r, opFetchPull), (.fetchServe r, opFetchServe),
   (.snapshot r, opSnapshot), (.exportImage r, opExport), (.importImage r, opImport), (.ctxSave r, opCtxSave),
   (.ctxRestore r, opCtxRestore), (.push r, opPush), (.tread r, opTread), (.stashPut r, opStashPut),
   (.stashGet r, opStashGet), (.gather r, opGather), (.scatter r, opScatter 0), (.scatterAdd r, opScatter 1),
   (.ewAdd r, opEw 1), (.ewMul r, opEw 2), (.ewFma r, opEw 3), (.ewScale r, opEw 4), (.ewRelu r, opEw 5),
   (.ewGelu r, opEw 6), (.ewSilu r, opEw 7), (.ewTanh r, opEw 8), (.ewConvert r, opEw 9), (.ewKeep r, opEw 10),
   (.ewMask r, opEw 11), (.ewGumbelAdd r, opEw 12), (.ewGumbelMax r, opEw 13), (.reduceSum r, opReduce 1),
   (.reduceMax r, opReduce 2), (.reduceMin r, opReduce 3), (.reduceNoisymax r, opReduce 4), (.retireRow r, opRetireRow),
   (.retireBankPair r, opRetirePair), (.zeroizeFreeRows r, opZeroFree), (.zeroizeLayout r, opZeroLayout),
   (.tally r, opTally), (.ledgerDrain r, opLedgerDrain)]

/-- Every command that takes an order. -/
def orderOps (r : RingId) : List (Instr × Opcode) :=
  immediateOps r ++ timedOps r ++ [(.reservedEncodingOrder r, opReserved)]

/-- A state with one firewall entry replaced. -/
def setFw (s : State) (i : Fin 64) (e : FwEntry) : State := { s with sec := { s.sec with fw := s.sec.fw.set i e } }

/-- First byte of the slot that the next receipt of ring r takes in the ring window. -/
def nextSlot (s : State) (r : RingId) : Nat := receiptAddr r.val (s.rings[r]).rcpTail (s.rings[r]).depth

/-- The state in which an access or a tile is judged: a node that sends has been heard. -/
def heardBy (s : State) : Origin → State
  | .node n => hearFrom s n.toNat
  | .port .. => s

/-- The record of an order admitted now. -/
def admitted (s : State) (r : RingId) (o : Order) (bk : List Booking) (ctx : OrderCtx) (idx : Nat) : InFlight :=
  { ring := r.val, idx := idx, order := o, due := ordDue o, admBeat := s.beat.now, seq := s.seq, booked := bk, late := none,
    lastEvent := 0, lotsTotal := lotsOf s o ctx, lotsStarted := 0, lotsDone := 0, stage := stageOf s o ctx, entries := [],
    bad := none, ctx := ctx }

/-- The nine atomics with their widths in bytes, their operand bytes, the access each makes, and the value each stores
(Table MEM-7). -/
def atomicOps (p : PortId) (ns : Bool) (addr : Nat) (x cx : BitVec 32) (y cy : BitVec 64) :
    List (Instr × Nat × Nat × (Nat → Nat → Nat → ReqOp) × (Nat → Nat)) :=
  [(.fadd32 p ns addr x, 4, 4, fun id a o => .atomic id a o 4 .fadd 0 x.toNat, fun old => (fadd (BitVec.ofNat 32 old) x).toNat),
   (.fmax32 p ns addr x, 4, 4, fun id a o => .atomic id a o 4 .fmax 0 x.toNat, fun old => (fmax (BitVec.ofNat 32 old) x).toNat),
   (.fmin32 p ns addr x, 4, 4, fun id a o => .atomic id a o 4 .fmin 0 x.toNat, fun old => (fmin (BitVec.ofNat 32 old) x).toNat),
   (.iadd32 p ns addr x, 4, 4, fun id a o => .atomic id a o 4 .iadd 0 x.toNat, fun old => (old + x.toNat) % 2 ^ 32),
   (.iadd64 p ns addr y, 8, 8, fun id a o => .atomic id a o 8 .iadd 0 y.toNat, fun old => (old + y.toNat) % 2 ^ 64),
   (.swap32 p ns addr x, 4, 4, fun id a o => .atomic id a o 4 .swap 0 x.toNat, fun _ => x.toNat),
   (.swap64 p ns addr y, 8, 8, fun id a o => .atomic id a o 8 .swap 0 y.toNat, fun _ => y.toNat),
   (.cas32 p ns addr cx x, 4, 8, fun id a o => .atomic id a o 4 .cas cx.toNat x.toNat,
     fun old => if old = cx.toNat then x.toNat else old),
   (.cas64 p ns addr cy y, 8, 16, fun id a o => .atomic id a o 8 .cas cy.toNat y.toNat,
     fun old => if old = cy.toNat then y.toNat else old)]

/-- The stall instructions on a stall, with the words that Table STL-3 gives them. -/
def stallWords (st : StallId) (m : FmtM) (v : FmtV) : List (Instr × W32) :=
  [(.stallNop st, 0), (.ld st m, wordM 1 m), (.ldg st m, wordM 2 m), (.stc st m, wordM 3 m), (.stw st m, wordM 4 m),
   (.bcst st m, wordM 5 m), (.draw st m, wordM 6 m), (.fma st v, wordV 0x10 v), (.add st v, wordV 0x11 v),
   (.mul st v, wordV 0x12 v), (.min st v, wordV 0x13 v), (.max st v, wordV 0x14 v), (.abs st v, wordV 0x15 v),
   (.sign st v, wordV 0x16 v), (.sel st v, wordV 0x17 v), (.cmp st v, wordV 0x18 v), (.clamp st v, wordV 0x19 v),
   (.cvt st v, wordV 0x1A v), (.rsqrt st v, wordV 0x20 v), (.rcp st v, wordV 0x21 v), (.exp2 st v, wordV 0x22 v),
   (.log2 st v, wordV 0x23 v)]

/-- What the Format V instructions compute on a lane of A, B and C (Table STL-4). -/
def laneFns (st : StallId) (v : FmtV) : List (Instr × W32 × (W32 → W32 → W32 → W32)) :=
  [(.fma st v, wordV 0x10 v, fun a b c => ffma a b c), (.add st v, wordV 0x11 v, fun a b _ => fadd a b),
   (.mul st v, wordV 0x12 v, fun a b _ => fmul a b), (.min st v, wordV 0x13 v, fun a b _ => fmin a b),
   (.max st v, wordV 0x14 v, fun a b _ => fmax a b), (.abs st v, wordV 0x15 v, fun a _ _ => fabs a),
   (.sign st v, wordV 0x16 v, fun a _ _ => fsign a), (.sel st v, wordV 0x17 v, fun a b c => if c = 0 then b else a),
   (.cmp st v, wordV 0x18 v, fun a b _ => fcmp v.m a b), (.clamp st v, wordV 0x19 v, fun a b c => fclamp a b c),
   (.cvt st v, wordV 0x1A v, fun a b _ => (cvt v.c.toNat (if v.m = 0 then .rne else if v.m = 1 then .zero
     else .stoch b.toNat) a).getD 0),
   (.rsqrt st v, wordV 0x20 v, fun a b _ => sfu 0x20 a b), (.rcp st v, wordV 0x21 v, fun a b _ => sfu 0x21 a b),
   (.exp2 st v, wordV 0x22 v, fun a b _ => sfu 0x22 a b), (.log2 st v, wordV 0x23 v, fun a b _ => sfu 0x23 a b)]

/-- The TAP instructions with their codes, what their data registers hold, and what they reach (R571, Table ITG-4):
open, and while DebugLock closes those that it closes. -/
def tapOps (s : State) (x : SiteId) : List (Instr × Bool × Tap) :=
  [(.extest, true, ⟨0x00, Config.boundaryBits s.fresh, none, false⟩), (.idcode, false, ⟨0x01, 0xB0020C93, none, false⟩),
   (.samplePreload, true, ⟨0x02, Config.boundaryBits s.fresh, none, false⟩),
   (.wrapsel x, true, ⟨BitVec.ofNat 8 (0x10 + x.val), 0, some x, false⟩), (.dbgsel, true, ⟨0x30, 0, none, true⟩),
   (.bypass, false, ⟨0xFF, 0, none, false⟩)]

end Sys2Proof.Machine
end

