-- ==== Sys2Proof/Certificates/Slice0/Obligations.lean ====
section
/-! DEFINITION. The statements for the provers. -/

open Sys2Proof Sys2Proof.Machine

/-! ### The machine as a whole -/

/-- The state after reset has the invariant: canonical memories, registers, settings and counters within their fields.
-/
def Obligations.InvAtReset : Prop := Inv State.reset

/-- Every step keeps the invariant, whatever command stands at the front of the queue. -/
def Obligations.StepKeepsInv : Prop :=
  ∀ s t : State, Inv s → step s = .next t → Inv t

/-- No command changes an integration parameter (R1, its second clause: register writes are commands too). -/
def Obligations.ParamsNeverChange : Prop :=
  ∀ s t : State, step s = .next t → t.par = s.par

/-- A step takes the command at the front of the queue and answers what exec answers with the queue's rest. -/
def Obligations.StepRunsFrontCommand : Prop :=
  ∀ (s : State) (i : Instr) (rest : List Instr), s.pending = i :: rest → step s = exec i { s with pending := rest }

/-- On an empty queue a step is one tick of the timestamp counter and nothing else (DESIGN CHOICE, log 1, the model's
choice). -/
def Obligations.IdleStepIsOneTick : Prop :=
  ∀ s : State, s.pending = [] → step s = .next { s with ts := s.ts + 1 }

/-! ### Orders -/

/-- A malformed order of any opcode gets one refusal receipt with status 0x10 whose Detail is the lowest offending byte,
and has no other effect; for a reserved Opcode, Action, Scope or Op that is all the command does. -/
def Obligations.MalformedOrderRefused : Prop :=
  ∀ (r : RingId) (s : State) (i : Instr) (c : Opcode) (b : Nat), (i, c) ∈ orderOps r → s.batching = false →
    nextIs s r c.is = true →
    leastOf (headerMal (orderAt s r (headOf s r)) ++ c.mal (begun s r) (orderAt s r (headOf s r))) = some b →
    exec i s = .next (endBatch (refuseOrder (begun s r) r (headOf s r) (orderAt s r (headOf s r)) 0x10 b s.beat.now))

/-- R61: an order marked Secure, or a CONFIG that names a secure key, taken from ring 0 to 3 is refused with
REFUSED_WORLD. -/
def Obligations.SecureOrderNeedsRing4 : Prop :=
  ∀ (r : RingId) (s : State) (i : Instr) (c : Opcode), (i, c) ∈ orderOps r → s.batching = false →
    nextIs s r c.is = true → headerMal (orderAt s r (headOf s r)) = [] →
    c.mal (begun s r) (orderAt s r (headOf s r)) = [] → secureOnly (orderAt s r (headOf s r)) = true → r.val < 4 →
    exec i s = .next (endBatch (refuseOrder (begun s r) r (headOf s r) (orderAt s r (headOf s r)) 0x14 0 s.beat.now))

/-- A taken order that is refused, as malformed, for its world or by its chapter, has no effect beyond its refusal
receipt: outside rings, receipts, counters and the interrupt bits nothing changes, no other ring changes, and of the
ring window only the receipt's 32 bytes can change. -/
def Obligations.RefusedOrderFrame : Prop :=
  ∀ (r : RingId) (s t u : State) (o : Order) (i : Instr) (c : Opcode), (i, c) ∈ orderOps r → othersQuiet s r →
    ((∃ st d, Taken c s r o t ∧ c.chk t r (headOf s r) o = .refuse st d ∧ isRefusal st = true) ∨
      (s.batching = false ∧ nextIs s r c.is = true ∧ (∃ b, leastOf (headerMal (orderAt s r (headOf s r))
        ++ c.mal (begun s r) (orderAt s r (headOf s r))) = some b)) ∨
      (s.batching = false ∧ nextIs s r c.is = true ∧ headerMal (orderAt s r (headOf s r)) = [] ∧
        c.mal (begun s r) (orderAt s r (headOf s r)) = [] ∧ secureOnly (orderAt s r (headOf s r)) = true ∧ r ≠ 4)) →
    exec i s = .next u →
    u = { s with rings := u.rings, turn := u.turn, awn := u.awn, tally := { s.tally with ctr := u.tally.ctr },
                 regs := { s.regs with ordIrq := u.regs.ordIrq, ordSirq := u.regs.ordSirq } }
      ∧ (∀ q : RingId, q ≠ r → u.rings[q] = s.rings[q])
      ∧ (Memory.wf s.awn = true → ∀ x, x < nextSlot s r ∨ nextSlot s r + 32 ≤ x → memRead u.awn x = memRead s.awn x)

/-- A receipt, a notice apart, that falls due alone on a ring with a free entry: its 32 bytes stand at the next slot,
with word 0, the phase bit and the body; the receipt tail advances by one modulo 2^17; every other byte of the ring
window and every other ring stay. -/
def Obligations.ReceiptWritten : Prop :=
  ∀ (s : State) (r : RingId) (st kind idx tag : Nat) (body : BitVec 192) (irq : Bool), Memory.wf s.awn = true →
    s.fatal = false → s.batching = false → (s.rings[r]).held = [] → st ≠ 0x30 → st ≠ 0x31 → 1 ≤ (s.rings[r]).freeRcp →
    let t := emitReceipt s r st kind idx tag body irq
    memReadN t.awn (nextSlot s r) 32 = leBytes 32 ((word0 st kind idx r.val 0 tag).toNat
        + 2 ^ 63 * (if (s.rings[r]).rcpTail.testBit (s.rings[r]).depth then 0 else 1) + 2 ^ 64 * body.toNat)
      ∧ (∀ x, x < nextSlot s r ∨ nextSlot s r + 32 ≤ x → memRead t.awn x = memRead s.awn x)
      ∧ (t.rings[r]).rcpTail = ((s.rings[r]).rcpTail + 1) % 131072
      ∧ (∀ q : RingId, q ≠ r → t.rings[q] = s.rings[q])

/-- NOP completes with DONE and has no other effect; CONFIG applies its four pairs, a later pair of one key over an
earlier one, and completes with DONE. -/
def Obligations.NopAndConfigComplete : Prop :=
  ∀ (r : RingId) (s t : State) (o : Order),
    (Taken opNop s r o t → exec (.nop r) s = .next (doneNow t r (headOf s r) o 0x01 0)) ∧
    (Taken opConfig s r o t → (∀ b ∈ cfgPairs, cfgForbidden t o b = false) →
      exec (.config r) s = .next (doneNow (trimCache { t with
        cfg := cfgSet (cfgSet (cfgSet (cfgSet t.cfg (fld o 16 2) (fld o 20 8)) (fld o 28 2) (fld o 32 8))
          (fld o 40 2) (fld o 44 8)) (fld o 52 2) (fld o 56 8) }) r (headOf s r) o 0x01 0))

/-- LAYOUT_DEF of an undefined LayoutId, with live sites and a permitted descriptor for which a row range is free,
defines the layout and answers its band; LAYOUT_FREE of a layout that nothing names undefines it. -/
def Obligations.LayoutOrdersComplete : Prop :=
  ∀ (r : RingId) (s t : State) (o : Order),
    (∀ (ly : Layout) (desc : Bytes), Taken opLayoutDef s r o t → desc = staged t (fld o 24 8) (fld o 20 4) →
      getLayout t (fld o 16 2) = none → (∀ i ∈ spanSites (parseDesc desc).span, foldMask t i ≠ 0) →
      descPolicy t (parseDesc desc) = false →
      placeLayout t (newLayout t (fld o 16 2) (parseDesc desc) desc) = some ly →
      fwOk t (fld o 16 2) (worldOnly r) = true →
      exec (.layoutDef r) s = .next (doneNow { t with layouts := kvPut t.layouts (fld o 16 2) ly } r (headOf s r) o 0x01
        (layoutResult t ly))) ∧
    (∀ ly : Layout, Taken opLayoutFree s r o t → getLayout t (fld o 16 2) = some ly → layoutNamed t (fld o 16 2) = false →
      ly.shard.upd = none → regionHeld t (fld o 16 2) = false → fwOk t (fld o 16 2) (worldOnly r) = true →
      exec (.layoutFree r) s = .next (doneNow (freeLayout t (fld o 16 2)) r (headOf s r) o 0x01 0))

/-- The band that LAYOUT_DEF allocates lies within the rows of its stacks and overlaps the band of no layout that shares
a channel with it (R103). -/
def Obligations.BandsAreDisjoint : Prop :=
  ∀ (s : State) (ly l : Layout), placeLayout s ly = some l →
    l.rowBase + l.bandRows ≤ rowLimit (ly.fcs s) ∧
    ∀ e ∈ s.layouts, ∀ x y : Nat × BitVec 32, x ∈ ly.masks → y ∈ e.2.masks → x.1 = y.1 → x.2 &&& y.2 ≠ 0 →
      l.rowBase + l.bandRows ≤ e.2.rowBase ∨ e.2.rowBase + e.2.bandRows ≤ l.rowBase

/-- RULE_LOAD defines or deletes a user rule that is not in use; VER_RELEASE releases a Readable slot that nothing
reads, or leaves it Draining. -/
def Obligations.RuleAndVersionOrdersComplete : Prop :=
  ∀ (r : RingId) (s t : State) (o : Order),
    (Taken opRuleLoad s r o t → ruleInUse t (fld o 16 1) = false →
      (fld o 18 1 + fld o 19 1 = 0 → (kvGet t.rules (fld o 16 1)).isSome = true →
        exec (.ruleLoad r) s = .next (doneNow { t with rules := kvDel t.rules (fld o 16 1) } r (headOf s r) o 0x01 0)) ∧
      (∀ (ws : List W32) (rule : Rule), fld o 18 1 + fld o 19 1 ≠ 0 →
        ws = stagedWords t (fld o 24 8) (fld o 18 1 + fld o 19 1) →
        checkRule (fld o 17 1) (fld o 18 1) (fld o 19 1) (fldBits o 20 0 3) ws = none →
        rule = { stateLayout := fld o 17 1, prologue := ws.take (fld o 18 1), body := ws.drop (fld o 18 1),
                 auxStore := fldBits o 20 0 3, mixMaster := o.getLsbD 163 } →
        exec (.ruleLoad r) s = .next (doneNow { t with rules := kvPut t.rules (fld o 16 1) rule } r (headOf s r) o 0x01
          (ruleResult (fld o 17 1) rule.body)))) ∧
    (∀ ly : Layout, Taken opVerRelease s r o t → fwOk t (fld o 16 2) (worldOnly r) = true →
      getLayout t (fld o 16 2) = some ly → ly.kind ≠ 3 → fld o 18 1 < ly.slots →
      ly.slotSt.getD (fld o 18 1) .released = .readable (fld o 20 5) →
      exec (.verRelease r) s = .next (doneNow
        (if hasReaders t (fld o 16 2) (fld o 18 1) then
          putLayout t (fld o 16 2) (setSlot ly (fld o 18 1) (.draining (fld o 20 5)))
         else releaseSlot t (fld o 16 2) (fld o 18 1)) r (headOf s r) o 0x01 0))

/-- QUEUE_DEF: Define records the queue, Delete clears it but for its interrupt enable, Release frees the slot of a
complete message. -/
def Obligations.QueueOrdersComplete : Prop :=
  ∀ (r : RingId) (s t : State) (o : Order),
    (∀ ly : Layout, Taken opQueueDefine s r o t → getLayout t (fld o 18 2) = some ly → ly.kind = 3 → ly.isOpen = false →
      (t.queues[queueId o]).defined = false → fld o 20 1 * entryBytes (partsOf o) ≤ ly.length →
      reserveLacks t (fld o 24 4) = none → fwOk t (fld o 18 2) (worldOnly r) = true →
      exec (.queueDefDefine r) s = .next (doneNow (setQueue t (queueId o) (fun x =>
        { defined := true, layout := fld o 18 2, depth := fld o 20 1, parts := partsOf o, reserve := fld o 24 4,
          since := t.beat.now, slots := [], irqEn := x.irqEn })) r (headOf s r) o 0x01 0)) ∧
    (Taken opQueueDelete s r o t → (t.queues[queueId o]).defined = true →
      exec (.queueDefDelete r) s = .next (doneNow (setQueue t (queueId o) (fun x =>
        { Queue.reset with irqEn := x.irqEn })) r (headOf s r) o 0x01 0)) ∧
    (∀ i : Nat, Taken opQueueRelease s r o t → (t.queues[queueId o]).defined = true →
      i = fld o 24 5 % (t.queues[queueId o]).depth →
      (kvGetD (t.queues[queueId o]).slots i QSlot.empty).occ = some (fld o 24 5) →
      exec (.queueDefRelease r) s = .next (doneNow (setQueue t (queueId o) (fun x =>
        { x with slots := kvPut x.slots i ⟨none, false, [], some (fld o 24 5)⟩ })) r (headOf s r) o 0x01 0))

/-- DRZ_SEED sets the seed and step of a stream that no order or update names; with Delete it removes the stream. -/
def Obligations.DrizzleOrdersComplete : Prop :=
  ∀ (r : RingId) (s t : State) (o : Order), streamNamed t (fld o 16 2) = false →
    (Taken opDrzSeed s r o t → (kvGet t.streams (fld o 16 2)).isSome = true ∨ t.streams.length < 1024 →
      exec (.drzSeed r) s = .next (doneNow
        { t with streams := kvPut t.streams (fld o 16 2) ⟨BitVec.ofNat 64 (fld o 24 8), fld o 32 5⟩ } r (headOf s r) o
        0x01 0)) ∧
    (Taken opDrzDelete s r o t → (kvGet t.streams (fld o 16 2)).isSome = true →
      exec (.drzSeedDelete r) s = .next (doneNow { t with streams := kvDel t.streams (fld o 16 2) } r (headOf s r) o
        0x01 0))

/-- FENCE of a stall, channel or site that is in service: with no open window in its scope the fence takes effect at
once, what it names is out of service, and the order is done; with one open it is noted, with its order, until the
close. Of one that is fenced already: DONE_REPEAT. -/
def Obligations.FenceOrdersComplete : Prop :=
  ∀ (r : RingId) (s t : State) (o : Order) (scope x c k : Nat) (i : Instr) (f : State → State),
    (scope, i, f) ∈ [(0, Instr.fenceStall r, fun u => fenceStallNow u x c k),
      (1, Instr.fenceChannel r, fun u => fenceChanNow u (siteOf x) c),
      (2, Instr.fenceSite r, fun u => fenceSiteNow u (siteOf x) true)] →
    Taken (opFence scope) s r o t → x = fld o 17 1 → c = fld o 18 1 → k = fld o 19 1 →
    kindOf t x ≠ .none → (scope = 0 → isFcs t x = true) →
    ((t.sites[siteOf x]).fenced = false → (scope < 2 → (foldMask t x).getLsbD c = true) →
      (scope = 0 → stallFenced t x c k = false) →
      (windowIn t scope x c k = false → exec i s = .next (doneNow (f t) r (headOf s r) o 0x01 0) ∧
        (scope = 0 → stallFenced (f t) x c k = true) ∧
        (scope = 1 → ((f t).sites[siteOf x]).live.getLsbD c = false) ∧
        (scope = 2 → ((f t).sites[siteOf x]).fenced = true ∧ ((f t).sites[siteOf x]).live = 0)) ∧
      (windowIn t scope x c k = true → exec i s = .next (endBatch { t with
        defer := t.defer ++ [⟨scope, x, c, k, [], some (r.val, headOf s r, o)⟩] }))) ∧
    (((t.sites[siteOf x]).fenced = true ∨ (scope < 2 ∧ (foldMask t x).getLsbD c = false) ∨
      (scope = 0 ∧ stallFenced t x c k = true)) → exec i s = .next (doneNow t r (headOf s r) o 0x02 0))

/-- A timed order that its chapter books and that the admission test accepts: the effect of admission on the state with
the order in flight, its bookings made, its first lots started, one more receipt owed and its ACCEPTED receipt due. An
order that the admission test refuses gets one refusal receipt, with the status and Detail of the test and the earliest
promisable beat in its body. -/
def Obligations.TimedOrderAnswered : Prop :=
  (∀ (r : RingId) (s t : State) (o : Order) (i : Instr) (c : Opcode) (work tail : List (Inst × Rat))
    (ctx : OrderCtx) (eff : State → State) (bk : List Booking), (i, c) ∈ (Instr.updOpen r, opUpdOpen) :: timedOps r →
    Taken c s r o t → c.chk t r (headOf s r) o = .book work tail ctx eff →
    admission t (ordDue o) work tail = .accept bk →
    exec i s = .next (endBatch (eff (admitOrder t r (headOf s r) o bk ctx)))) ∧
  (∀ (r : RingId) (t : State) (o : Order) (bk : List Booking) (ctx : OrderCtx) (idx : Nat), t.batching = true →
    t.fatal = false → findInflight t r.val idx = none →
    ∃ f, findInflight (admitOrder t r idx o bk ctx) r.val idx = some f ∧
      f = { admitted t r o bk ctx idx with lotsStarted := f.lotsStarted, entries := f.entries } ∧ f.lotsStarted ≤ 2 ∧
      (admitOrder t r idx o bk ctx).rings[r] = { t.rings[r] with
        owed := (t.rings[r]).owed + 1,
        held := insertHeld (t.rings[r]).head ⟨0, false, 0, 0, idx, word0 0x00 (ordOp o) idx r.val 0 (ordTag o),
          bodyG t.beat.now 0 0, false⟩ (t.rings[r]).held }) ∧
  (∀ (r : RingId) (s t : State) (o : Order) (i : Instr) (c : Opcode) (work tail : List (Inst × Rat))
    (ctx : OrderCtx) (eff : State → State) (st d b : Nat), (i, c) ∈ (Instr.updOpen r, opUpdOpen) :: timedOps r →
    Taken c s r o t → c.chk t r (headOf s r) o = .book work tail ctx eff →
    admission t (ordDue o) work tail = .refuse st d b →
    exec i s = .next (endBatch (refuseOrder t r (headOf s r) o st d b)) ∧ st ∈ [0x11, 0x12, 0x13])

/-- A timed order is never accepted with a due beat nearer than the promise span after the current beat, further than
65,535 beats on, or 0; every booking of an accepted order lies after the current beat and no later than its due beat. -/
def Obligations.AdmissionWithinBeats : Prop :=
  ∀ (s : State) (due : Nat) (work tail : List (Inst × Rat)) (bk : List Booking), admission s due work tail = .accept bk →
    s.beat.valid = true ∧ s.cfg.period ≠ 0 ∧ s.beat.now + spanK s.cfg.period ≤ due ∧ due ≤ s.beat.now + 65535
      ∧ ∀ k ∈ bk, s.beat.now < k.beat ∧ k.beat ≤ due

/-- An UPD_OPEN whose target slot is not ready waits without a receipt; when the slot is ready it goes to admission, and
is admitted: the slot is Filling and the update open, in flight with its ACCEPTED receipt. -/
def Obligations.UpdOpenWaitsThenOpens : Prop :=
  ∀ (r : RingId) (s t : State) (o : Order) (w : Waiting) (bk : List Booking) (ly : Layout),
    (Taken opUpdOpen s r o t → updOpenChk t r (headOf s r) o = .wait { t with waiting := t.waiting ++ [w] } →
      exec (.updOpen r) s = .next (endBatch { t with waiting := t.waiting ++ [w] })) ∧
    (s.waiting.find? (fun v => v.ring == r.val) = some w → slotReady s w.order = true →
      t = { s with waiting := s.waiting.filter (fun v => v.ring != r.val) } → getLayout t (uoLayout w.order) = some ly →
      updOpenState w.order ly.shard = false →
      admission t (ordDue w.order) (updOpenWork t w.order).1 (updOpenWork t w.order).2 = .accept bk →
      exec (.updOpenAdmitAfterWait r) s = .next (openUpdate w (newUpd t w) (admitOrder t r w.idx w.order bk .plain)))

/-- The end of an admitted order's work: its completion receipt with DONE and the Result, or with FAILED_DATA or
FAILED_LOST and, for an order cut into lots, the count of lots; then the slots whose last reader it was. The order is in
flight no more. A further lot of an admitted order starts when staging is granted for it, if need be after an earlier
one has ended; a held receipt is written when its ring has room for it: the first of the ring, and no other. -/
def Obligations.OrderProgressAndCompletion : Prop :=
  (∀ (r : RingId) (idx : Nat) (inp : EndpointInput) (s b t : State) (f : InFlight) (st res n : Nat),
    findInflight s r.val idx = some f → orderHeld s f = false → s.batching = false → b = { s with batching := true } →
    (perform (noteOrderReads b f) f inp = .done res t → f.lotsTotal ≤ f.lotsStarted →
      exec (.timedOrderComplete r idx inp) s = .next (endBatch (settleSlots (completeWith t f 0x01 (ordOp f.order)
        (bodyG t.beat.now 0 res))))) ∧
    (perform (noteOrderReads b f) f inp = .fail st res n t → st = 0x20 ∨ st = 0x21 →
      exec (.timedOrderComplete r idx inp) s = .next (endBatch (settleSlots (completeWith t { f with lotsDone := n } st
        (ordOp f.order) (bodyG t.beat.now 0
          (res + if cutOps.contains (ordOp f.order) then n + 2 ^ 32 * f.lotsTotal else 0))))))) ∧
  (∀ (t : State) (f : InFlight) (st kind : Nat) (body : BitVec 192), findInflight (completeWith t f st kind body) f.ring f.idx = none) ∧
  (∀ (r : RingId) (s : State),
    (∀ (idx : Nat) (f : InFlight), findInflight s r.val idx = some f → f.lotsStarted < f.lotsTotal →
      (lotGranted s f = true → ∃ t g, exec (.lotStart r idx) s = .next t ∧ findInflight t r.val idx = some g ∧
        g = { f with lotsStarted := f.lotsStarted + 1, entries := g.entries } ∧
        t = { s with inflight := t.inflight, regs := { s.regs with cirStatus := t.regs.cirStatus, cirPeak := t.regs.cirPeak } }) ∧
      (lotGranted s f = false → f.lotsDone < f.lotsStarted → exec (.lotStart r idx) s = .next (grantLot
        (putInflight s { f with lotsDone := f.lotsDone + 1, entries := f.entries.drop 1 }) r.val idx)) ∧
      (lotGranted s f = false → f.lotsStarted ≤ f.lotsDone → exec (.lotStart r idx) s = .next s)) ∧
    (∀ (h : Held) (rest : List Held), (s.rings[r]).held = h :: rest → s.fatal = false →
      (heldRoom s.rings[r] h = true → exec (.heldReceiptWrite r) s = .next (putReceipt
        (modRing s r (fun x => { x with held := rest, owed := if h.owes then x.owed - 1 else x.owed })) r h.word0 h.body
        h.irqDone)) ∧
      (heldRoom s.rings[r] h = false → exec (.heldReceiptWrite r) s = .next s)))

/-- The scheduler takes from ring 4 when it can, else from rings 0 to 3 in turn order, and no order of a ring whose
fence bit is set while an earlier order of the ring is incomplete; after an order of ring n below 4 the turn begins at n
+ 1. -/
def Obligations.SchedulerOrder : Prop :=
  ∀ (s : State) (r : RingId), nextRing s = some r →
    takable s r = true ∧ (takable s 4 = true → r = 4)
      ∧ (r.val < 4 → ∀ j, j < (r.val + 4 - s.turn % 4) % 4 → takable s ⟨(s.turn + j) % 4, by omega⟩ = false)
      ∧ (ordFence (orderAt s r (headOf s r)) = true → ringBusy s r.val = false)
      ∧ (s.rings[r]).owed + (if isTimed (ordOp (orderAt s r (headOf s r))) then 2 else 1) ≤ (s.rings[r]).freeRcp
      ∧ (r.val < 4 → (advanceHead s r).turn = (r.val + 1) % 4)
      ∧ ((advanceHead s r).rings[r]).head = ((s.rings[r]).head + 1) % 131072

/-! ### The register port -/

/-- R51: a non-secure access to a register of ring 4 or to a secure mailbox is answered with SLVERR, has no effect, and
a read returns zero. -/
def Obligations.NonSecureAccessRefused : Prop :=
  ∀ (s : State) (a : Nat) (strb : BitVec 4) (v : W32), s.power.inReset = none →
    (0x280 ≤ a ∧ a ≤ 0x29C ∨ a = 0x2A4 ∨ 0x300 ≤ a ∧ a ≤ 0x35C ∨ 0x500 ≤ a ∧ a ≤ 0x540 ∨ 0x580 ≤ a ∧ a ≤ 0x5C0) →
    exec (.registerWrite false a strb v) s = .next { s with regs := { s.regs with axiResp := 2, axiData := 0 } } ∧
      axiRead s false a = { s with regs := { s.regs with axiResp := 2, axiData := 0 } } ∧
      exec (.mbxSOutD15Read false) s = .next { s with regs := { s.regs with axiResp := 2, axiData := 0 } } ∧
      (∀ r : RingId, r = 4 → ∀ (d : BitVec 5) (i : Instr),
        i ∈ [Instr.doorbell false r v, .rcpHeadWrite false r v, .ringEnable false r d, .ringDisable false r d,
             .ringDepthWrite false r v, .mbxSInCommit false v] →
        exec i s = .next { s with regs := { s.regs with axiResp := 2, axiData := 0 } })

/-- R495: a non-secure access to a register of the security chapter is answered with SLVERR, has no effect, and reads
zero. -/
def Obligations.SecurityRegistersAreSecure : Prop :=
  ∀ (s : State), s.power.inReset = none →
    (∀ i : Instr, (i = .debugUnlock false ∨ i = .secDenyRead false ∨ (∃ e w v, i = .firewallEntryWrite false e w v)
        ∨ ∃ a strb v, i = .registerWrite false a strb v ∧ 0xF00 ≤ a ∧ a ≤ 0x13FC) →
      exec i s = .next { s with regs := { s.regs with axiResp := 2, axiData := 0 } }) ∧
    (∀ a, 0xF00 ≤ a → a ≤ 0x13FC → axiRead s false a = { s with regs := { s.regs with axiResp := 2, axiData := 0 } })

/-- A doorbell within the ring sets the tail, and any other sets BadDoorbell, leaves the indices and writes Ledger code
0x05; a receipt head within the unread receipts is taken, and any other sets BadRcpHead. No other ring changes. -/
def Obligations.DoorbellAndReceiptHead : Prop :=
  ∀ (sec : Bool) (r : RingId) (v : W32) (s : State), s.power.inReset = none → (r = 4 → sec = true) →
    (((v.toNat % 131072 + 131072 - (s.rings[r]).head) % 131072 ≤ 2 ^ (s.rings[r]).depth →
        (s.rings[r]).occupancy ≤ (v.toNat % 131072 + 131072 - (s.rings[r]).head) % 131072 →
        exec (.doorbell sec r v) s = .next (axiAnswer (modRing s r (fun g => { g with tail := v.toNat % 131072 })) 0 0)) ∧
      (2 ^ (s.rings[r]).depth < (v.toNat % 131072 + 131072 - (s.rings[r]).head) % 131072 ∨
          (v.toNat % 131072 + 131072 - (s.rings[r]).head) % 131072 < (s.rings[r]).occupancy →
        exec (.doorbell sec r v) s = .next (axiAnswer (ledAdd (modRing s r (fun g => { g with status := g.status ||| 1 }))
          0x05 (Place.ring r.val) 0 v.toNat) 0 0))) ∧
    ((v.toNat % 131072 + 131072 - (s.rings[r]).rcpHead) % 131072 ≤ (s.rings[r]).unread →
        exec (.rcpHeadWrite sec r v) s = .next (axiAnswer (modRing s r (fun g => { g with rcpHead := v.toNat % 131072 })) 0 0)) ∧
    ((s.rings[r]).unread < (v.toNat % 131072 + 131072 - (s.rings[r]).rcpHead) % 131072 →
        exec (.rcpHeadWrite sec r v) s = .next (axiAnswer (modRing s r (fun g => { g with status := g.status ||| 2 })) 0 0))

/-- Enabling a ring with no incomplete order sets its depth and its indices to 0 and its receipt ring to zero; one with
an incomplete order only sets EnableRefused. Disabling clears Enable. A depth outside 4 to 16, or one written while
enabled, only sets BadConfig. -/
def Obligations.RingConfiguration : Prop :=
  ∀ (sec : Bool) (r : RingId) (d : BitVec 5) (s : State), s.power.inReset = none → (r = 4 → sec = true) →
    Memory.wf s.awn = true →
    ((s.rings[r]).enable = false → ringIncomplete s r.val = false → 4 ≤ d.toNat → d.toNat ≤ 16 →
      ∃ t, exec (.ringEnable sec r d) s = .next t ∧
        t.rings[r] = { s.rings[r] with depth := d.toNat, enable := true, head := 0, tail := 0, rcpHead := 0, rcpTail := 0,
                                       held := [] } ∧
        (∀ q : RingId, q ≠ r → t.rings[q] = s.rings[q]) ∧
        t = { s with rings := t.rings, awn := t.awn, regs := { s.regs with axiResp := 0, axiData := 0 } } ∧
        (∀ x, x < receiptAddr r.val 0 0 ∨ receiptAddr r.val 0 0 + 32 * 2 ^ d.toNat ≤ x → memRead t.awn x = memRead s.awn x) ∧
        (∀ x, receiptAddr r.val 0 0 ≤ x → x < receiptAddr r.val 0 0 + 32 * 2 ^ d.toNat → memRead t.awn x = 0)) ∧
    ((s.rings[r]).enable = false → ringIncomplete s r.val = true →
      exec (.ringEnable sec r d) s = .next (axiAnswer (modRing s r (fun g => { g with status := g.status ||| 4 })) 0 0)) ∧
    (d.toNat = (s.rings[r]).depth →
      exec (.ringDisable sec r d) s = .next (axiAnswer (modRing s r (fun g => { g with enable := false })) 0 0)) ∧
    (d.toNat ≠ (s.rings[r]).depth → (s.rings[r]).enable = true →
      exec (.ringDisable sec r d) s
        = .next (axiAnswer (modRing s r (fun g => { g with status := g.status ||| 8, enable := false })) 0 0)) ∧
    (∀ v : W32, v.toNat % 32 ≠ (s.rings[r]).depth → v.getLsbD 8 = true → (s.rings[r]).enable = true →
      exec (.ringDepthWrite sec r v) s = .next (axiAnswer (modRing s r (fun g => { g with status := g.status ||| 8 })) 0 0)) ∧
    (∀ v : W32, v.getLsbD 8 = false → (s.rings[r]).enable = false → ringIncomplete s r.val = false → 4 ≤ v.toNat % 32 →
      v.toNat % 32 ≤ 16 → ∃ t, exec (.ringDepthWrite sec r v) s = .next t ∧
        t.rings[r] = { s.rings[r] with depth := v.toNat % 32 } ∧ (∀ q : RingId, q ≠ r → t.rings[q] = s.rings[q]) ∧
        t = { s with rings := t.rings, regs := { s.regs with axiResp := 0, axiData := 0 } })

/-- A write of the last payload word commits a message to an inbound mailbox that is not full; a write of any payload
word of a full one is answered with SLVERR and changes nothing (R90, R91); a read of the last word of an outbound
mailbox empties it. -/
def Obligations.MailboxWords : Prop :=
  ∀ (s : State) (sec : Bool) (v : W32), s.power.inReset = none →
    (s.mbxNsIn.full = false → exec (.mbxNsInCommit sec v) s = .next (axiAnswer
      { s with mbxNsIn := { s.mbxNsIn with d := s.mbxNsIn.d.set 15 v, full := true } } 0 0)) ∧
    (s.mbxNsIn.full = true → exec (.mbxNsInCommit sec v) s = .next (axiAnswer s 2 0)) ∧
    (s.mbxSIn.full = false → exec (.mbxSInCommit true v) s = .next (axiAnswer (noteImage
      { s with mbxSIn := { s.mbxSIn with d := s.mbxSIn.d.set 15 v, full := true } }) 0 0)) ∧
    (s.mbxSIn.full = true → exec (.mbxSInCommit true v) s = .next (axiAnswer s 2 0)) ∧
    (s.mbxNsIn.full = true → ∀ a, 0x400 ≤ a → a ≤ 0x43C → exec (.registerWrite sec a 15 v) s = .next (axiAnswer s 2 0)) ∧
    (s.mbxSIn.full = true → ∀ a, 0x500 ≤ a → a ≤ 0x53C → exec (.registerWrite true a 15 v) s = .next (axiAnswer s 2 0)) ∧
    exec (.mbxNsOutD15Read sec) s = .next (axiAnswer { s with mbxNsOut := { s.mbxNsOut with full := false } } 0
      (if s.mbxNsOut.full then s.mbxNsOut.d[15] else 0)) ∧
    exec (.mbxSOutD15Read true) s = .next (axiAnswer { s with mbxSOut := { s.mbxSOut with full := false } } 0
      (if s.mbxSOut.full then s.mbxSOut.d[15] else 0))

/-- The reads that latch a HI field give the low word and latch the high one for their world alone, so that the HI
register of that world then reads the same sample. The four registers that a read clears: the read gives the value, and
the register then reads zero. -/
def Obligations.ReadsThatLatchOrClear : Prop :=
  (∀ (s : State) (sec : Bool), s.power.inReset = none →
    (∃ t, exec (.beatNowLoRead sec) s = .next t ∧ t.regs.axiData = BitVec.ofNat 32 s.beat.now ∧
      (worldLat t sec).beatHi = BitVec.ofNat 16 (s.beat.now / 2 ^ 32) ∧ worldLat t (!sec) = worldLat s (!sec) ∧
      t = { s with latNs := t.latNs, latS := t.latS, regs := { s.regs with axiResp := 0, axiData := t.regs.axiData } }) ∧
    (∃ t, exec (.stepNowLoRead sec) s = .next t ∧ t.regs.axiData = BitVec.ofNat 32 s.beat.step ∧
      (worldLat t sec).stepHi = BitVec.ofNat 8 (s.beat.step / 2 ^ 32) ∧ worldLat t (!sec) = worldLat s (!sec) ∧
      t = { s with latNs := t.latNs, latS := t.latS, regs := { s.regs with axiResp := 0, axiData := t.regs.axiData } }) ∧
    (∃ t, exec (.talBeatLoRead sec) s = .next t ∧ t.regs.axiData = BitVec.ofNat 32 s.tally.latchBeat ∧
      (worldLat t sec).talBeatHi = BitVec.ofNat 16 (s.tally.latchBeat / 2 ^ 32) ∧ worldLat t (!sec) = worldLat s (!sec) ∧
      t = { s with latNs := t.latNs, latS := t.latS, regs := { s.regs with axiResp := 0, axiData := t.regs.axiData } }) ∧
    (∃ t, exec (.talDataLoRead sec) s = .next t ∧
      t.regs.axiData = BitVec.ofNat 32 (kvGetD s.tally.shadow s.tally.index.toNat 0) ∧
      (worldLat t sec).talDataHi = BitVec.ofNat 16 (kvGetD s.tally.shadow s.tally.index.toNat 0 / 2 ^ 32) ∧
      (worldLat t sec).talGen = BitVec.ofNat 16 (shadowGen s.tally s.tally.index.toNat) ∧
      worldLat t (!sec) = worldLat s (!sec) ∧
      t = { s with latNs := t.latNs, latS := t.latS, regs := { s.regs with axiResp := 0, axiData := t.regs.axiData } })) ∧
  (∀ (s : State) (sec : Bool), s.power.inReset = none →
    exec (.cirPeakRead sec) s = .next { s with
      regs := { s.regs with cirPeak := 0, axiResp := 0, axiData := s.regs.cirPeak.zeroExtend 32 } } ∧
    exec (.ityFirstRead sec) s = .next { s with
      regs := { s.regs with ityFirst := 0, axiResp := 0, axiData := s.regs.ityFirst } } ∧
    exec (.pwrPeakRead sec) s = .next { s with
      power := { s.power with peak := 0 },
      regs := { s.regs with axiResp := 0, axiData := BitVec.ofNat 32 s.power.peak.toNat } } ∧
    exec (.secDenyRead true) s = .next { s with
      sec := { s.sec with deny := 0 },
      regs := { s.regs with axiResp := 0, axiData := s.sec.deny } })

/-- Clearing DebugLock empties every key slot with the lock; a firewall entry's range and ports change only while the
entry is not valid, and a valid entry takes only its Valid bit; a non-secure write of HT_IRQ_FORCE leaves Pmc. -/
def Obligations.SecurityRegisterWrites : Prop :=
  ∀ (s : State) (v : W32) (sec : Bool), s.power.inReset = none →
    (s.sec.debugLock = true → exec (.debugUnlock true) s = .next (axiAnswer
      { s with sec := { s.sec with debugLock := false, keys := Vector.replicate 16 Key.empty } } 0 0)) ∧
    (s.sec.debugLock = false → exec (.debugUnlock true) s = .next (axiAnswer s 0 0)) ∧
    (∀ i : Fin 64, (s.sec.fw[i]).attr.getLsbD 0 = true →
      exec (.firewallEntryWrite true i 0 v) s = .next (axiAnswer s 0 0) ∧
      exec (.firewallEntryWrite true i 1 v) s = .next (axiAnswer s 0 0) ∧
      exec (.firewallEntryWrite true i 2 v) s = .next (axiAnswer (setFw s i { s.sec.fw[i] with attr := ((s.sec.fw[i]).attr &&& ~~~1#32) ||| (v &&& 1) }) 0 0)) ∧
    (∀ i : Fin 64, (s.sec.fw[i]).attr.getLsbD 0 = false →
      exec (.firewallEntryWrite true i 0 v) s = .next (axiAnswer (setFw s i { s.sec.fw[i] with range := v &&& 0x0FFF0FFF }) 0 0) ∧
      exec (.firewallEntryWrite true i 1 v) s = .next (axiAnswer (setFw s i { s.sec.fw[i] with ports := v &&& 0x0001FFFF }) 0 0)) ∧
    exec (.irqForceWrite sec v) s = .next { s with
      regs := { s.regs with
        axiResp := 0, axiData := 0, irqForce := if sec then v &&& 3 else (s.regs.irqForce &&& 1) ||| (v &&& 2) } }

/-- A register write that is not a full aligned word is answered with SLVERR and changes nothing; one to a register of
W1C type clears exactly the bits it sets; one to an address that no register has changes nothing and is answered OKAY.
-/
def Obligations.RegisterWriteTypes : Prop :=
  ∀ (s : State) (a : Nat) (strb : BitVec 4) (v : W32), s.power.inReset = none →
    (a % 4 ≠ 0 ∨ strb ≠ 15 → exec (.registerWrite true a strb v) s = .next (axiAnswer s 2 0)) ∧
    exec (.registerWrite true 0x118 15 v) s
      = .next (axiAnswer { s with beat := { s.beat with status := s.beat.status &&& ~~~v } } 0 0) ∧
    exec (.registerWrite true 0xC00 15 v) s
      = .next (axiAnswer { s with regs := { s.regs with ityIrq := s.regs.ityIrq &&& ~~~v } } 0 0) ∧
    exec (.registerWrite true 0xE04 15 v) s
      = .next (axiAnswer { s with power := { s.power with irq := s.power.irq &&& ~~~v } } 0 0) ∧
    (0x1460 ≤ a ∧ a % 4 = 0 → exec (.registerWrite true a 15 v) s = .next (axiAnswer s 0 0))

/-! ### Mailbox messages -/

/-- A message of a pair is taken when it is committed and no answer of the pair waits: Full clears, and the answer
follows: a malformed one 0x02; KEY_LOAD and KEY_CLEAR of a slot in use 0x05; KEY_LOAD of use 2 sets the slot; KEY_CLEAR
empties it; MARK writes Ledger code 0x0A. A STATUS answer that waits is placed in the outbound mailbox of its pair once
that is empty: type, Seq, length 4 and the code, the other words zero. -/
def Obligations.MailboxMessages : Prop :=
  (∀ s : State,
    (∀ sec : Bool, takableMsg s sec = true → (sec = true → s.power.paramOk = true) → msgBad sec (inbox s sec) = true →
      exec (.mailboxMessageMalformed sec) s = .next (addAnswer (takeMsg s sec) sec 0x02 (msgSeq (inbox s sec)))) ∧
    (takableMsg s true = true → s.power.paramOk = true → msgBad true s.mbxSIn = false →
      (msgType s.mbxSIn = 0x10 → keyBusy s (keyIdx s.mbxSIn).val = false → keyUseF s.mbxSIn = 2 →
        exec .keyLoad s = .next (addAnswer (setKey (takeMsg s true) (keyIdx s.mbxSIn) ⟨2, keyBits s.mbxSIn, 0, none⟩) true
          0x00 (msgSeq s.mbxSIn))) ∧
      (msgType s.mbxSIn = 0x10 → keyBusy s (keyIdx s.mbxSIn).val = true →
        exec .keyLoad s = .next (addAnswer (takeMsg s true) true 0x05 (msgSeq s.mbxSIn))) ∧
      (msgType s.mbxSIn = 0x11 → keyBusy s (keyIdx s.mbxSIn).val = false →
        exec .keyClear s = .next (addAnswer (setKey (takeMsg s true) (keyIdx s.mbxSIn) Key.empty) true 0x00
          (msgSeq s.mbxSIn)))) ∧
    (takableMsg s false = true → msgBad false s.mbxNsIn = false → msgType s.mbxNsIn = 0x20 →
      exec .mark s = .next (addAnswer (ledAdd (takeMsg s false) 0x0A Place.none 0 (word s.mbxNsIn 1 + 2 ^ 32 * word s.mbxNsIn 2))
        false 0x00 (msgSeq s.mbxNsIn)))) ∧
  (∀ (s : State) (a : Answer) (rest : List Answer), s.power.inReset = none →
    (s.ansS = a :: rest → s.mbxSOut.full = false → ∃ t, exec (.status true) s = .next t ∧
      t = { s with ansS := rest, mbxSOut := t.mbxSOut } ∧ t.mbxSOut.full = true ∧
      t.mbxSOut.d[0] = (0x81 + 2 ^ 8 * a.seq.toNat + 2 ^ 16 * 4 : Nat) ∧ t.mbxSOut.d[1] = (a.code.toNat + 2 ^ 8 * a.seq.toNat : Nat)) ∧
    (s.ansNs = a :: rest → s.mbxNsOut.full = false → ∃ t, exec (.status false) s = .next t ∧
      t = { s with ansNs := rest, mbxNsOut := t.mbxNsOut } ∧ t.mbxNsOut.full = true ∧
      t.mbxNsOut.d[0] = (0xA1 + 2 ^ 8 * a.seq.toNat + 2 ^ 16 * 4 : Nat) ∧ t.mbxNsOut.d[1] = (a.code.toNat + 2 ^ 8 * a.seq.toNat : Nat)))

/-- The Drielm image: its description and digest are kept; the first of the two messages is answered at once (the
model's choice), the check starts when both are there, and ends with Drielm verified only for an image of the described
length whose SHA-384 is the digest. -/
def Obligations.ImageMessages : Prop :=
  ∀ (s : State) (ok : Bool) (image : Bytes),
    (takableMsg s true = true → s.power.paramOk = true → msgBad true s.mbxSIn = false → bootOpen s = true →
      (msgType s.mbxSIn = 0x01 → ∃ t, exec .imageDesc s = .next t ∧
        t.boot.desc = some #v[s.mbxSIn.d[1], s.mbxSIn.d[2], s.mbxSIn.d[3], s.mbxSIn.d[4], s.mbxSIn.d[5]] ∧
        t.boot.checking = s.boot.digest.isSome ∧ t = { takeMsg s true with boot := t.boot, ansS := t.ansS } ∧
        t.ansS = if s.boot.digest.isSome then s.ansS else s.ansS ++ [⟨0x00, msgSeq s.mbxSIn⟩]) ∧
      (msgType s.mbxSIn = 0x02 → ∃ t, exec .imageDigest s = .next t ∧ t.boot.digest.isSome = true ∧
        t.boot.checking = s.boot.desc.isSome ∧ t = { takeMsg s true with boot := t.boot, ansS := t.ansS } ∧
        t.ansS = if s.boot.desc.isSome then s.ansS else s.ansS ++ [⟨0x00, msgSeq s.mbxSIn⟩])) ∧
    (∀ d g, s.boot.checking = true → s.boot.desc = some d → s.boot.digest = some g →
      image.length = (d[3]).toNat ∨ ok = false →
      ∃ t, exec (.digestCheckEnd ok image) s = .next t ∧ t.boot.checking = false ∧
        (t.boot.verified = (s.boot.verified || (ok && decide (sha384 image = g.toList.flatMap (fun w => leBytes 4 w.toNat))))) ∧
        t.ansS = s.ansS ++ [⟨if ok = false then 0x03 else if sha384 image = g.toList.flatMap (fun w => leBytes 4 w.toNat)
          then 0x00 else 0x01, s.boot.answerSeq⟩])

/-! ### Beats -/

/-- A strobe: the first one is adopted whatever its number; one that is not above the current beat is counted, recorded
with Ledger code 0x02 and changes no beat; one above it is adopted, and the length of the beat that ended is measured.
Sixteen beat periods without a strobe: SequencerStopped is set and Ledger code 0x03 written, and nothing else; before
that the command does nothing. -/
def Obligations.BeatStrobes : Prop :=
  (∀ (s : State) (n : BitVec 48) (step : Option (BitVec 40)), s.power.inReset = none → s.batching = false →
    (s.beat.valid = false → ∃ t, exec (.beatStrobe n step) s = .next t ∧ t.beat.valid = true ∧ t.beat.now = n.toNat ∧
      t.beat.start = s.ts ∧ (∀ x, step = some x → t.beat.step = x.toNat ∧ t.beat.stepValid = true)) ∧
    (s.beat.valid = true → n.toNat ≤ s.beat.now → exec (.beatStrobe n step) s = .next (endBatch (count (ledAdd
      { s with batching := true, beat := { s.beat with lastStrobe := s.ts, status := s.beat.status ||| 2 } } 0x02 Place.none
        0 n.toNat) 1 1))) ∧
    (s.beat.valid = true → s.beat.now < n.toNat → ∃ t, exec (.beatStrobe n step) s = .next t ∧ t.beat.now = n.toNat ∧
      t.beat.start = s.ts ∧ t.beat.measured = BitVec.ofNat 32 (Nat.min (s.ts - s.beat.start) 0xFFFFFFFF))) ∧
  (∀ s : State,
    (s.beat.valid = true → s.cfg.period ≠ 0 → 16 * s.cfg.period ≤ s.ts - s.beat.lastStrobe →
      exec .sequencerStopped s = .next (ledAdd { s with beat := { s.beat with status := s.beat.status ||| 8 } } 0x03
        Place.none 0 0)) ∧
    (s.beat.valid = false ∨ s.cfg.period = 0 ∨ s.ts - s.beat.lastStrobe < 16 * s.cfg.period →
      exec .sequencerStopped s = .next s))

/-! ### Tiles, parcels, steps -/

/-- A tile packet of a node, or of a requester port and well placed, is counted and answered by its classification: with
an acknowledgement code, or by the firewall's, or with those of the copy that is being added, or taken into its slot.
One that is not well placed in the window completes with UNMAPPED. -/
def Obligations.TilePackets : Prop :=
  ∀ (s t : State) (src : Origin) (off : Nat) (h : Order) (data : Bytes), accepts s src = true →
    t = countOrigin (heardBy s src) src (64 + data.length) →
    ((∃ p ns, src = .port p ns ∧ portBad s src = false ∧ off % 32768 = 0 ∧ off < 1048576) ∨
        (∃ n, src = .node n ∧ xchBad s = false) → data.length = 16384 →
      (∀ c, classifyTile t src h data = .ack c → exec (.tilePacket src off h data) s = .next (sendTileAck t src c h)) ∧
      (classifyTile t src h data = .denied →
        exec (.tilePacket src off h data) s = .next (sendTileAck (fwDeny t (tiLayout h)) src 0x16 h)) ∧
      (classifyTile t src h data = .await → exec (.tilePacket src off h data) s = .next (addDup t src h)) ∧
      (classifyTile t src h data = .take → exec (.tilePacket src off h data) s = .next (beginAdd t src h data))) ∧
    (∀ p ns, src = .port p ns → off % 32768 ≠ 0 ∨ 1048576 ≤ off ∨ data.length ≠ 16384 →
      exec (.tilePacket src off h data) s = .next (completeReq t src .unmapped []))

/-- The addition of the contribution that arrived first ends: every element of the slot is the FP32 sum of what it held
and the contribution's element, and it is acknowledged as new. -/
def Obligations.TileContributionAdded : Prop :=
  ∀ (s : State) (id tile c : Nat) (ly : Layout) (u : Upd) (x : Tile) (a : Adding),
    getLayout s id = some ly → ly.shard.upd = some u → kvGet u.tiles tile = some x →
    x.adding.head? = some a → a.contrib = c → (x.bits.length ≠ u.d ∨ (x.adding.filter (fun b => b.contrib != c)) ≠ []) →
    exec (.tileContributionAdded id tile c) s = .next (ackAdded (modUpd s id (fun _ => { u with
      tiles := kvPut u.tiles tile ⟨x.bits, x.adding.filter (fun b => b.contrib != c),
        addPayload ly (ly.geo s) tile x.acc a.payload⟩,
      gotLocal := u.gotLocal + (match a.src with
        | .node _ => 0
        | .port .. => 1),
      gotRemote := u.gotRemote + (match a.src with
        | .node _ => 1
        | .port .. => 0) })) a)

/-- A parcel that waits, of the pass its unit takes next, is dispatched when the unit may begin it and no lower parcel
of its tiles waits; one that was dispatched before keeps its gradient, and a cut row is restored first; a unit between
parcels enters its pass, with the program's prologue run. -/
def Obligations.ParcelDispatched : Prop :=
  ∀ (s : State) (x : SiteId) (u : UnitId) (id q : Nat) (ly : Layout) (up : Upd) (r : Rule) (grad : List (BitVec 16)),
    getLayout s id = some ly → ly.shard.upd = some up → ruleOf s up.ruleId = some r → bestPass s (unitKey u) = some id →
    (ly.shard.st = .isOpen → u = unitFor s ly q → unitSite u = x → (waitingParcels s id up).contains q = true →
      mayBegin s u (ly.parcelUnit s q).ch = true → lowerWaits s ly (ly.geo s) up q = false →
      (kvGet up.disp q = none → kvGet up.ready q = some grad →
        exec (.parcelDispatch x id q) s = .next (beginParcel (endTakeover s u) id q ly up r u grad 0)) ∧
      (∀ d, kvGet up.disp q = some d →
        (d.restore = false →
          exec (.parcelDispatch x id q) s = .next (beginParcel (endTakeover s u) id q ly up r u d.grad d.tries)) ∧
        (∀ t, d.restore = true → restoreCut (endTakeover s u) ly q d = some t →
          exec (.parcelDispatch x id q) s = .next (beginParcel t id q ly up r u d.grad d.tries)))) ∧
    ((getUnit s (unitKey u)).parcel = none → (getUnit s (unitKey u)).paused = false → (getUnit s (unitKey u)).fault = false →
      s.power.inReset = none →
      exec (.passSwitch u) s = .next (putUnit s (unitKey u) (enterNow s (getUnit s (unitKey u)) id ly up r)))

/-- A unit's parcel that may finish is committed, its loads having found no bad column: the rest of its program runs,
its version columns, its pre-image where the step is guarded, its state columns and last its seal are written, the step
closes with its last parcel, and what waited for the close of the window follows. -/
def Obligations.ParcelSealed : Prop :=
  ∀ (s b : State) (u : UnitId) (id q : Nat) (ly : Layout) (up : Upd) (r : Rule) (t v : Stall), t = getUnit s (unitKey u) →
    s.batching = false → b = { s with batching := true } →
    t.layout = id → t.parcel = some q → getLayout s id = some ly → ly.shard.upd = some up → ruleOf s up.ruleId = some r →
    mayFinish s u t (ly.parcelUnit s q).ch (ly.shard.st == .isOpen) = true →
    t.windowOpen = true ∨ loadsGood (isReliefUnit u) s ly q t = true →
    v = runParcel t (rowLoads (isReliefUnit u) b ly q) →
    exec (.parcelSealWritten u id q) s = .next (endBatch (afterClose (closeIfDone (parcelSealed
      ((writesBefore b ly up q v ++ writesInside b ly up r q v).foldl (unitWrite (isReliefUnit u)) b) u id q ly r v) id)))

/-- The close of a step: its receipt has kind 0x23 and the body of layout U, the target slot is Readable with the step's
number, the shard is at the step and Resealing. -/
def Obligations.StepClose : Prop :=
  ∀ (s t : State) (id : Nat) (ly : Layout) (u : Upd) (f : InFlight), kvWf s.layouts = true → getLayout s id = some ly →
    ly.shard.upd = some u → findInflight s u.ring u.idx = some f → t = closeStep s id →
    (∃ l, getLayout t id = some l ∧ l.shard.step = u.step ∧ l.shard.st = .resealing ∧
      (u.slot < ly.slotSt.length → l.slotSt.getD u.slot .released = .readable u.step) ∧
      l.shard.last = some ⟨bodyU u, true, u.attempt, u.ruleId, ((ruleOf s u.ruleId).map Rule.body).getD [], u.slot,
        u.guarded⟩) ∧
    (∃ a, a.rings = s.rings ∧ a.awn = s.awn ∧ a.inflight = s.inflight ∧ a.fatal = s.fatal ∧
      t = completeWith a f 0x01 0x23 (bodyU u))

/-- A parity mismatch in a parcel's loads: nothing of the parcel is written to its row, the wait of a retry is charged,
a corrected sealed block is written back, the error is recorded with its code, and the parcel is dispatched once more;
at the second mismatch, or a lasting uncorrectable error, the step ends for it. -/
def Obligations.ParityMismatch : Prop :=
  ∀ (s s1 s2 : State) (un : UnitId) (id q : Nat) (openCol : Bool) (first : Option FirstRead) (retry : RetryRead) (ly : Layout)
    (u u2 : Upd) (d : Disp) (t : Stall) (x : SiteId), t = getUnit s (unitKey un) → t.layout = id → t.parcel = some q →
    t.windowOpen = false → s.power.inReset = none → getLayout s id = some ly → ly.shard.upd = some u →
    kvGet u.disp q = some d → x = siteOf (ly.parcelUnit s q).site →
    s1 = putUnit s (unitKey un) { t with parcel := none, commit := [], wcodes := [], wscales := [], wpend := [] } →
    s2 = recordError (if openCol then chargeRetry s1 x
        else if (mismatchCode openCol first retry).2 then (if first = some .uncorrectable then chargeRetry s1 x else s1)
        else mendLoads (if first = some .uncorrectable then chargeRetry s1 x else s1) ly q t)
      x (ly.parcelUnit s q).ch (mismatchCode openCol first retry).1 →
    ((mismatchCode openCol first retry).2 = false → d.tries = 0 →
      exec (.stallParityMismatch un id q openCol first retry) s
        = .next (modUpd s2 id (fun v => { v with disp := kvPut v.disp q { d with tries := 1 } }))) ∧
    ((mismatchCode openCol first retry).2 = true ∨ 1 ≤ d.tries → (getLayout s2 id).bind (fun l => l.shard.upd) = some u2 →
      exec (.stallParityMismatch un id q openCol first retry) s = .next (uncorrectable s2 id q u2))

/-- The end of a reseal: the checks over every parcel, the columns of the step sealed, and the shard Idle, or Torn with
a TORN notice when a parcel failed. The end of a rollback of a closed or an open step restores the shard and answers. -/
def Obligations.ResealAndRollback : Prop :=
  (∀ (s : State) (id : Nat) (ly : Layout), getLayout s id = some ly → ly.shard.upd = none → ly.shard.st = .rolling →
    s.power.inReset = none → s.units.any (fun e => e.2.layout == id && e.2.windowOpen) = false →
    exec (.rollbackComplete id) s = .next (batch s fun b => rollClosed b id ly)) ∧
  ∀ (s : State) (id : Nat) (ly : Layout) (u : Upd), getLayout s id = some ly → ly.shard.upd = some u →
    (ly.shard.st = .resealing → sealersRun s ly = true →
      exec (.resealComplete id) s = .next (tornNotice (modShard (resealStep s id ly u).1 id (fun h =>
        { h with st := if (resealStep s id ly u).2 = [] then .idle else .torn })) u (resealStep s id ly u).2)) ∧
    (ly.shard.st = .rolling → s.power.inReset = none → s.units.any (fun e => e.2.layout == id && e.2.windowOpen) = false →
      (∀ reason cnt, u.ending = some (reason, cnt) →
        exec (.rollbackComplete id) s = .next (batch s fun b => rollOpen b id ly u reason cnt)) ∧
      (u.ending = none → sealersRun s ly = true →
        exec (.rollbackComplete id) s = .next (batch s fun b => rollClosed b id ly)))

/-! ### Exchange messages, streams and the link -/

/-- A micro-batch piece of a defined queue that the firewall lets in: a piece whose bit is set already is answered 0x01
and written nowhere; a new one is converted, written at its place and answered 0x00. A malformed header is answered
0x17. -/
def Obligations.QueuePieces : Prop :=
  ∀ (s s1 : State) (node : BitVec 24) (h : Order) (b : Bytes), xchOpen s = true → s1 = fromNode s node b →
    (fld h 0 1 ≠ 0xA5 ∨ fld h 1 1 ≠ 0x01 → exec (.queuePiece node h b) s = .next (sendPieceAck s1 node 0x17 h)) ∧
    (∀ (q : Fin 16) (ly : Layout) (p : QPart) (e : QSlot), fld h 0 1 = 0xA5 → fld h 1 1 = 0x01 →
      nonZero h (span 9 11 ++ span 28 63) = [] → (crc32c b).toNat = fld h 20 4 → qpQueue h = q.val →
      (s1.queues[q]).defined = true → getLayout s1 (s1.queues[q]).layout = some ly →
      fwOk s1 (s1.queues[q]).layout ⟨false, 65536, false, true, false⟩ = true →
      (s1.queues[q]).parts[qpPart h]? = some p → qpPiece h < partPieces p → b.length = fld h 24 4 →
      fld h 24 4 = pieceCount p (qpPiece h) * (if p.wire = 1 then 4 else 2) →
      e = kvGetD (s1.queues[q]).slots (qpBatch h % (s1.queues[q]).depth) QSlot.empty →
      (∀ g, e.highest = some g → g < qpBatch h) → (e.occ = none ∨ e.occ = some (qpBatch h)) →
      (e.bits.contains (qpPart h, qpPiece h) = true →
        exec (.queuePiece node h b) s = .next (sendPieceAck s1 node 0x01 h)) ∧
      (e.bits.contains (qpPart h, qpPiece h) = false →
        exec (.queuePiece node h b) s = .next (sendPieceAck
          (queueFull (setQueue
            (areaWrite s1 (s1.queues[q]).layout ly 0
              (piecePlace (s1.queues[q]) (qpBatch h % (s1.queues[q]).depth) (qpPart h) (qpPiece h) p)
              (pieceBytes p (pieceCount p (qpPiece h)) b)) q
            (fun y => { y with
              slots := kvPut y.slots (qpBatch h % (s1.queues[q]).depth)
                (addPiece (s1.queues[q]) e (qpBatch h) (qpPart h) (qpPiece h)) })) q
            (addPiece (s1.queues[q]) e (qpBatch h) (qpPart h) (qpPiece h)).full) node 0x00 h)))

/-- A fetch request that no serve can answer is answered by a refusal with its code; one that a serve answers is served
in data messages, and the serve notes what it has sent. Data of a pull is written into the target slot, counted as
received, and discarded where its CRC differs. A refusal 0x01 makes the pull ask again later, and 0x02 to 0x05 end it
with FAILED_DATA and Reason 0x12 to 0x15. A retry and a re-request ask for every missing range; a pull whose due beat
and 1,024 further beats passed without data ends with Reason 0x11. -/
def Obligations.Fetches : Prop :=
  (∀ (s s1 : State) (node : BitVec 24) (h : Order) (b : Bytes),
    (s.power.inReset = none → fld h 0 1 = 0xB1 → fld h 1 1 = 0x01 → s1 = fromNode s node [] →
      (∀ c, judgeFetch s1 h = .error c → c ≠ 0x05 → exec (.fetchRequest node h) s = .next (sendX (count s1 161 64) node.toNat
        (.xch node (fetchHdr 0xB3 (feOwner h) (feVersion h) c (fePuller h) (feSlot h) (feOffset h) (feLength h) (fld h 28 4)
          (fld h 32 8)) []))) ∧
      (∀ (ly : Layout) (v : Nat) (f g : InFlight) (t : State), judgeFetch s1 h = .ok (ly, v, f) →
        t = sendRange s1 node h ly v f (feOffset h) (Nat.min (slotBytes s1 ly) (feOffset h + feLength h)) →
        findInflight t f.ring f.idx = some g → exec (.fetchRequest node h) s = .next (noteSent t g (node.toNat, fePuller h)
          (feOffset h) (Nat.min (slotBytes s1 ly) (feOffset h + feLength h)) (slotBytes s1 ly)))) ∧
    (∀ (f : InFlight) (ly : Layout) (got : List (Nat × Nat)) (last idle reason : Nat) (retry : Bool), xchOpen s = true →
      fld h 0 1 = 0xB2 → fld h 1 1 = 0x01 → b.length ≤ 16384 → s1 = fromNode s node b → pullOf s1 node h = some f →
      getLayout s1 (fld f.order 18 2) = some ly → f.ctx = .pull got last retry idle reason →
      ((crc32c b).toNat = fld h 28 4 → b.length = feLength h → b ≠ [] → feOffset h + b.length ≤ slotBytes s1 ly →
        exec (.fetchData node h b) s = .next (putInflight
          (areaWrite s1 (fld f.order 18 2) ly (fld f.order 17 1 + 1) (feOffset h) b)
          { f with
            ctx := .pull (addRange got (feOffset h) (feOffset h + b.length)) s1.ts retry (if idle = 0 then 0 else 1) reason })) ∧
      ((crc32c b).toNat ≠ fld h 28 4 → exec (.fetchData node h b) s = .next s1))) ∧
  (∀ (s s1 : State) (node : BitVec 24) (h : Order) (r : RingId) (idx : Nat) (f : InFlight) (got : List (Nat × Nat))
    (last idle reason : Nat) (retry : Bool), f.ctx = .pull got last retry idle reason →
    (s.power.inReset = none → fld h 0 1 = 0xB3 → fld h 1 1 = 0x01 → s1 = fromNode s node [] → pullOf s1 node h = some f →
      (fld h 9 1 = 0x01 → exec (.fetchRefusal node h) s
        = .next (putInflight s1 { f with ctx := .pull got last true idle reason })) ∧
      (0x02 ≤ fld h 9 1 → fld h 9 1 ≤ 0x05 → exec (.fetchRefusal node h) s
        = .next (endOrder s1 f (.fail 0x20 (failWhere (0x10 + fld h 9 1) 0) 0 (releaseTarget s1 f.order))))) ∧
    (findPull s r idx = some f →
      (retry = true → exec (.fetchNoServeRetry r idx) s = .next (requestRanges
        (putInflight s { f with ctx := .pull got last false idle reason }) f.order (pullMissing s f))) ∧
      (last + s.par.graceUs * 1000 ≤ s.ts →
        exec (.fetchRangeReRequest r idx) s = .next (requestRanges s f.order (pullMissing s f))) ∧
      (1025 ≤ idle → exec (.fetchPullGiveUp r idx) s
        = .next (endOrder s f (.fail 0x20 (failWhere 0x11 0) 0 (releaseTarget s f.order))))))

/-- Stream messages of a known peer: CLOSE of an Up stream at its Epoch answers SYNC at the next one; SYNC of Reason
0x01, or at the Epoch of a Syncing stream or later, answers SYNC_ACK and the stream is Up at that Epoch; SYNC_ACK at its
Epoch makes a Syncing stream Up; and a Syncing stream sends its SYNC again. What a link event makes of a stream; a grace
period that is over when the link comes up ends first. -/
def Obligations.StreamsAndLink : Prop :=
  (∀ (s s1 : State) (node : BitVec 24) (epoch : BitVec 16) (reason : BitVec 8) (x : XStream), s1 = hearCtl s node.toNat →
    kvGet s1.xstreams node.toNat = some x → s.power.inReset = none →
    (x.st = .up → x.epoch = epoch → exec (.close node epoch reason) s = .next (sendCtl (putStream s1 node.toNat
      { x with epoch := epoch + 1, st := .syncing, unconfirmed := false, reason := 0 }) node.toNat 0x92 (epoch + 1) 0)) ∧
    (reason = 1 ∨ (x.st = .syncing ∧ (x.epoch = epoch ∨ laterEpoch epoch x.epoch = true)) →
      exec (.sync node epoch reason) s = .next (enterUp (sendCtl s1 node.toNat 0x93 epoch 0) node.toNat x epoch)) ∧
    (reason ≠ 1 → x.st = .up → x.epoch = epoch →
      exec (.sync node epoch reason) s = .next (sendCtl s1 node.toNat 0x93 epoch 0)) ∧
    (x.st = .syncing → x.epoch = epoch →
      exec (.syncAck node epoch reason) s = .next (enterUp s1 node.toNat x epoch)) ∧
    (∀ y, kvGet s.xstreams node.toNat = some y → y.st = .syncing →
      exec (.syncResend node) s = .next (sendCtl s node.toNat 0x92 y.epoch y.reason.toNat))) ∧
  (∀ s : State, kvWf s.xstreams = true →
    (s.link = 0 → ∃ t, exec .linkDown s = .next t ∧ t.link = 1 ∧ t.linkFrom = some s.ts ∧ t.linkAt = s.ts ∧
      t.regs = { s.regs with linkDowns := if s.regs.linkDowns = 0xFFFF then s.regs.linkDowns else s.regs.linkDowns + 1 } ∧
      t = { s with link := t.link, linkFrom := t.linkFrom, linkAt := t.linkAt, regs := t.regs, xstreams := t.xstreams, led := t.led } ∧
      ∀ n x, kvGet s.xstreams n = some x →
        kvGet t.xstreams n = some (if x.st = .up then { x with st := .down } else x)) ∧
    (s.link = 1 → ∃ t, exec .graceEnd s = .next t ∧ t.link = 2 ∧ t.linkFrom = none ∧
      ∀ n x, kvGet s.xstreams n = some x →
        kvGet t.xstreams n = some (if x.st = .down then { x with st := .closed } else x)) ∧
    (s.link = 2 ∨ (s.link = 1 ∧ s.ts < s.linkAt + s.par.graceUs * 1000) → s.xheld = [] →
      ∃ t, exec .linkUp s = .next t ∧ t.link = 0 ∧ t.linkFrom = none ∧
      ∀ n x, kvGet s.xstreams n = some x → kvGet t.xstreams n = some (
        if x.st = .down then { x with st := .up, lastUse := s.ts }
        else if x.st = .closed then { x with epoch := x.epoch + 1, st := .syncing, unconfirmed := false, reason := 0 }
        else x)) ∧
    (s.link = 1 → s.linkAt + s.par.graceUs * 1000 ≤ s.ts → exec .linkUp s = .next (batch s fun b => linkRise (graceEnd b))))

/-! ### Requesters -/

/-- A wide request whose access is permitted waits for its service, and one that is not completes with its status at
once; a denial is counted. An access that no open window and no earlier waiting access keeps out is performed at
acceptance, and one that something keeps out is not yet performed. A posted write to the staging window writes exactly
its bytes. -/
def Obligations.WideRequests : Prop :=
  (∀ (s s1 : State) (p : PortId) (ns crit posted : Bool) (addr len id a off : Nat) (data : Bytes) (c : Cpl),
    accepts s (.port p ns) = true → s1 = countOrigin s (.port p ns) data.length →
    (judgeAccess s (.port p ns) .read (wideOk addr len) true addr len = (some (.area id a off), .ok, false) →
      exec (.requesterRead p ns crit addr len) s = .next (awaitService s (.port p ns) (clsOf crit) false false false addr
        (.read id a off len))) ∧
    (judgeAccess s (.port p ns) .read (wideOk addr len) true addr len = (some (.ring off), .ok, false) →
      exec (.requesterRead p ns crit addr len) s
        = .next (awaitAwning s (.port p ns) (clsOf crit) false false addr (memReadN s.awn off len))) ∧
    (judgeAccess s (.port p ns) .read (wideOk addr len) true addr len = (none, c, false) →
      exec (.requesterRead p ns crit addr len) s = .next (refuseReq s (.port p ns) c)) ∧
    (judgeAccess s (.port p ns) .read (wideOk addr len) true addr len = (some (.area id a off), .denied, true) →
      exec (.requesterRead p ns crit addr len) s = .next (refuseReq (fwDeny s id) (.port p ns) .denied)) ∧
    (judgeAccess s1 (.port p ns) .write (wideOk addr data.length) true addr data.length
        = (some (.area id a off), .ok, false) →
      exec (.requesterWrite p ns posted addr data) s = .next (awaitService s1 (.port p ns) 2 false posted true addr
        (.write id a off data))) ∧
    (judgeAccess s1 (.port p ns) .write (wideOk addr data.length) true addr data.length = (none, c, false) →
      exec (.requesterWrite p ns posted addr data) s = .next (if posted then s1 else refuseReq s1 (.port p ns) c))) ∧
  (∀ (s : State) (o : Origin) (cls : Nat) (narrow posted write : Bool) (addr : Nat) (op : ReqOp) (cols : List Nat),
    cols = opCols s narrow op →
    (mustWait s s.outst cols = false →
      (awaitService s o cls narrow posted write addr op).dram = (performOp s narrow op).1.dram ∧
      (awaitService s o cls narrow posted write addr op).outst = (performOp s narrow op).1.outst ++
        (if posted then [] else [⟨s.nextReq, o, narrow, posted, (performOp s narrow op).2.2, (performOp s narrow op).2.1, false,
          cols, none⟩])) ∧
    (mustWait s s.outst cols = true →
      (awaitService s o cls narrow posted write addr op).dram = s.dram ∧
      (awaitService s o cls narrow posted write addr op).cache = s.cache ∧
      (awaitService s o cls narrow posted write addr op).outst
        = s.outst ++ [⟨s.nextReq, o, narrow, posted, .ok, [], false, cols, some op⟩])) ∧
  (∀ (s : State) (p : PortId) (ns : Bool) (addr off : Nat) (data : Bytes), s.power.inReset = none →
    Memory.wf s.stage = true → portBad s (.port p ns) = false → wideOk addr data.length = true →
    targetOf s true addr data.length = some (.stage off) →
      ∃ t, exec (.requesterWrite p ns true addr data) s = .next t ∧ memReadN t.stage off data.length = data ∧
        (∀ a, a < off ∨ off + data.length ≤ a → memRead t.stage a = memRead s.stage a) ∧
        t = { s with stage := t.stage, tally := t.tally, nextReq := t.nextReq, arb := t.arb })

/-- A narrow access takes a tracker entry when one is free and none waits before it, and otherwise waits at its ingress
with HT_CIR_STATUS.Held set; the one that has waited longest goes first. An access with an entry keeps it until it
completes, and one that is refused gives it back at once. A grant serves what the arbitration rule chooses: an order's
booking, which that point has then run, or a waiting request of a class, which leaves the point. An outstanding request
completes with its status and data unless something holds it. -/
def Obligations.NarrowAccessesAndService : Prop :=
  (∀ (s t : State) (o : Origin) (p : PortId) (ns crit : Bool) (addr n : Nat) (data : Bytes) (a : HeldNarrow)
    (rest : List HeldNarrow), t = heardBy s o →
    (accepts s o = true → entryFree t = true → t.heldNarrow = [] →
      exec (.narrowRead o crit addr n) s = .next (startNarrow t ⟨o, crit, addr, n, none⟩) ∧
      exec (.narrowWrite o addr data) s = .next (startNarrow t ⟨o, false, addr, data.length, some data⟩)) ∧
    (accepts s o = true → entryFree t = false ∨ t.heldNarrow ≠ [] →
      exec (.narrowRead o crit addr n) s = .next (count { t with
        heldNarrow := t.heldNarrow ++ [⟨o, crit, addr, n, none⟩],
        regs := { t.regs with cirStatus := t.regs.cirStatus ||| 1 } } 74 1) ∧
      exec (.narrowWrite o addr data) s = .next (count { t with
        heldNarrow := t.heldNarrow ++ [⟨o, false, addr, data.length, some data⟩],
        regs := { t.regs with cirStatus := t.regs.cirStatus ||| 1 } } 74 1)) ∧
    (s.heldNarrow = a :: rest → entryFree s = true → accepts s a.origin = true →
      exec .narrowHoldRelease s = .next (startNarrow { s with heldNarrow := rest } a)) ∧
    (∀ (id ar off : Nat), judgeAccess (takeEntry s) (.port p ns) .read (narrowOk addr n) false addr n
        = (some (.area id ar off), .ok, false) →
      (startNarrow s ⟨.port p ns, crit, addr, n, none⟩).tracker = s.tracker + 1 ∧
      (startNarrow s ⟨.port p ns, crit, addr, n, none⟩).outst.length = s.outst.length + 1) ∧
    (∀ (c : Cpl) (d : Bool), judgeAccess (takeEntry s) (.port p ns) .read (narrowOk addr n) false addr n = (none, c, d) →
      (startNarrow s ⟨.port p ns, crit, addr, n, none⟩).tracker = s.tracker ∧
      (startNarrow s ⟨.port p ns, crit, addr, n, none⟩).outst = s.outst)) ∧
  (∀ (s u v : State) (pt : ArbPt) (ns : Nat) (a : Arb), pointOpen s pt = true → a = arbNow s pt →
    (choose s pt a false = none → exec (.arbitrationGrant pt ns) s = .next s) ∧
    (∀ w, choose s pt a false = some (.work w) →
      exec (.arbitrationGrant pt ns) s = .next (count (serveWork s pt w) 70 ns)) ∧
    (∀ i, choose s pt a false = some (.item i) → u = drawAccess s pt i.id ns → v = { u with
        arb := kvPut u.arb (arbKey pt) ⟨s.beat.now, a.used0 + (if i.cls = 0 then ns else 0), a.used3, a.waiting.erase i⟩ } →
      exec (.arbitrationGrant pt ns) s = .next (noteGranted (count v (69 + i.cls) ns) i.id))) ∧
  (∀ (s : State) (id : Nat) (q : PendReq), s.outst.find? (fun z => z.id == id) = some q → reqHeld s q = false →
    (q.narrow = false → exec (.requestCompletion id) s = .next (sendCpl
      (leavePoints { s with outst := s.outst.filter (fun z => z.id != id) } id) q.origin id q.cpl q.data)) ∧
    (q.narrow = true → ∃ t, exec (.requestCompletion id) s = .next (sendCpl t q.origin id q.cpl q.data) ∧
      t.tracker = s.tracker - 1 ∧ t.outst = s.outst.filter (fun z => z.id != id)))

/-- An atomic on permitted bytes waits for its service. Performed, on bytes that read well it returns the old value and
stores the new one in one step; on bad bytes it stores nothing and completes with POISON. One that names no target is
refused. -/
def Obligations.Atomics : Prop :=
  ∀ (s s1 : State) (p : PortId) (ns : Bool) (addr : Nat) (x cx : BitVec 32) (y cy : BitVec 64) (i : Instr) (n k : Nat)
    (op : Nat → Nat → Nat → ReqOp) (f : Nat → Nat), (i, n, k, op, f) ∈ atomicOps p ns addr x cx y cy →
    accepts s (.port p ns) = true → s1 = countOrigin s (.port p ns) k →
    (∀ (id a off : Nat),
      judgeAccess s1 (.port p ns) .atomic (addr % n == 0) false addr n = (some (.area id a off), .ok, false) →
      exec i s = .next (awaitService s1 (.port p ns) 2 false false false addr (op id a off))) ∧
    (∀ c d, judgeAccess s1 (.port p ns) .atomic (addr % n == 0) false addr n = (none, c, d) →
      exec i s = .next (refuseReq s1 (.port p ns) c)) ∧
    (∀ (u : State) (id a off : Nat) (ly : Layout) (r : State × Bytes × Bool), getLayout u id = some ly →
      r = readPlace u false id a off n →
      (r.2.2 = true → performOp u false (op id a off)
        = (count (storeAtomic r.1 id a off (leBytes n (f (leNat r.2.1)))) 66 1, r.2.1, .ok)) ∧
      (r.2.2 = false → performOp u false (op id a off) = (r.1, r.2.1, .poison)))

/-! ### Stack sites -/

/-- The power-up of a site: the next site is enabled; with its power good it trains, and within a reset it waits; a site
whose power does not come is fenced; training that needs no more than two lanes of a channel ends with every channel
live; a clean self-test leaves every row of the site zero; and the ready receipt opens the rings. -/
def Obligations.SiteStartUp : Prop :=
  ∀ (s : State) (x : SiteId) (t : ReadyTest),
    (s.power.inReset = none → nextEnable s = some x →
      exec .siteEnable s = .next (modSite s x (fun y => { y with powerEn := true }))) ∧
    (kindOf s x.val ≠ .none → (s.sites[x]).powerEn = true → (s.sites[x]).powerGood = false → (s.sites[x]).fenced = false →
      (s.power.inReset ≠ none →
        exec (.sitePowerGood x) s = .next (modSite s x (fun y => { y with powerGood := true }))) ∧
      (s.power.inReset = none →
        exec (.sitePowerGood x) s = .next (startTraining (modSite s x (fun y => { y with powerGood := true }))) ∧
        exec (.sitePowerGoodTimeout x) s = .next (fenceSiteNow (selfTestBit s x.val) x false) ∧
        (busQuiet s = true → (s.sites[x]).state = 0 → ∃ u, exec (.sitePowerGood x) s = .next u ∧
          u.sites[x] = { s.sites[x] with powerGood := true, cke := true, selfRefresh := false, state := 1 }))) ∧
    (s.power.inReset = none → (s.sites[x]).state = 1 → exec (.trainingComplete x []) s = .next (noteSelfTest (modSite
      ((liveCh (s.sites[x]).live).foldl (fun st c => modChan (bump st) x.val c (fun y =>
        { y with spares := 0, tempRef := none, parity := [], scrubFrom := st.ts, laneMap := [] })) s) x
      (fun y => { y with state := 2 })))) ∧
    (testable s x = true → exec (.selfTestComplete x ⟨[], true, true⟩) s
      = .next (batch s fun b => modSite (zeroSite b x) x (fun y => { y with tested := true }))) ∧
    (readyDue s = true → t.coreOk = true → ∃ u, exec (.ready t) s = .next u ∧ u.regs.ready = true ∧
      u.regs.drielmMajor = s.boot.major ∧ u.regs.drielmMinor = s.boot.minor ∧
      ∀ r : RingId, (u.rings[r]).rcpTail = ((s.rings[r]).rcpTail + 1) % 131072 ∧ (u.rings[r]).enable = (s.rings[r]).enable) ∧
    (readyDue s = true → t.coreOk = false → exec (.ready t) s = .next { s with
      power := { s.power with phase := 6 }, fresh := s.fresh + 1, ansS := s.ansS ++ [⟨0x06, Config.freeByte s.fresh⟩] })

/-- Holds of a channel in service: a retrain trigger begins a retrain on a free channel, follows a running repair, goes
before one that has not begun earlier, and adds nothing to a running retrain; a repair begins on a free channel with a
spare lane, waits for a hold that runs, and with no spare lane the channel is fenced; a retrain that succeeds and a
repair end the hold where nothing follows. A third parity alert within 1 ms starts a retrain. -/
def Obligations.ChannelHolds : Prop :=
  ∀ (s s0 : State) (x : SiteId) (c : ChId) (g : RetrainTrig) (lane : BitVec 8), chanUp s x c.val = true →
    s.batching = false →
    ((getChan s x.val c.val).hold = none →
      exec (.retrainStart x c g) s = .next (beginHold s x c.val .retrain 0) ∧
      ((getChan s x.val c.val).spares < 2 →
        exec (.laneRepairRequest x c lane) s = .next (beginHold s x c.val .repair lane)) ∧
      (2 ≤ (getChan s x.val c.val).spares → exec (.laneRepairRequest x c lane) s
        = .next (requestDeferred (siteEvent s x 5 (Place.chan x.val c.val) 0) ⟨1, x.val, c.val, 0, [], none⟩))) ∧
    ((getChan s x.val c.val).hold = some .repair →
      ((getChan s x.val c.val).holdStart ≠ s.ts → (getChan s x.val c.val).waitWindow = false →
        exec (.retrainStart x c g) s = .next (modChan s x.val c.val (fun y => { y with pendRetrain := true }))) ∧
      ((getChan s x.val c.val).holdStart = s.ts ∨ (getChan s x.val c.val).waitWindow = true →
        exec (.retrainStart x c g) s = .next (modChan s x.val c.val (fun y =>
          { y with hold := some .retrain, pendRepair := y.lane :: y.pendRepair })))) ∧
    ((getChan s x.val c.val).hold = some .retrain → exec (.retrainStart x c g) s = .next s) ∧
    ((getChan s x.val c.val).hold ≠ none → exec (.laneRepairRequest x c lane) s
      = .next (modChan s x.val c.val (fun y => { y with pendRepair := y.pendRepair ++ [lane] }))) ∧
    (holding s x c.val .retrain = true → (getChan s x.val c.val).pendRepair = [] →
      (getChan s x.val c.val).pendRetrain = false → ∃ t, exec (.retrainComplete x c true) s = .next (endBatch (afterClose t)) ∧
        (getChan t x.val c.val).hold = none ∧ (getChan t x.val c.val).fails = 0 ∧
        (t.sites[x]).lastChannel = BitVec.ofNat 5 c.val ∧ (t.sites[x]).retrainCount = bump8 (s.sites[x]).retrainCount ∧
        (t.sites[x]).event = (s.sites[x]).event ||| 1) ∧
    (holding s x c.val .repair = true → (getChan s x.val c.val).pendRepair = [] →
      (getChan s x.val c.val).pendRetrain = false → ∃ t, exec (.laneRepairComplete x c) s = .next (endBatch (afterClose t)) ∧
        (getChan t x.val c.val).hold = none ∧ (getChan t x.val c.val).spares = (getChan s x.val c.val).spares + 1 ∧
        (getChan t x.val c.val).laneMap = (getChan s x.val c.val).laneMap ++ [(getChan s x.val c.val).lane] ∧
        (t.sites[x]).lane = (s.sites[x]).lane ||| (1 <<< c.val) ∧
        (t.sites[x]).repairCount = bump8 (s.sites[x]).repairCount) ∧
    (∀ l : List Nat, l = (getChan s x.val c.val).parity.filter (fun z => decide (s.ts ≤ z + 1000000)) →
      s0 = (if isFcs s x.val then
        bump (modSite s x (fun z => { z with die := { z.die with parity := Config.parityRecord c.val s.fresh } })) else s) →
      (l.length < 2 → exec (.commandParityAlert x c) s = .next (modChan (siteEvent s0 x 2 (Place.chan x.val c.val) 0) x.val
        c.val (fun z => { z with parity := l ++ [s.ts] }))) ∧
      (2 ≤ l.length → exec (.commandParityAlert x c) s = .next (startRetrain (modChan
        (siteEvent s0 x 2 (Place.chan x.val c.val) 0) x.val c.val (fun z => { z with parity := [] })) x c.val)))

/-- Heat: a stack reading and a junction reading set the registers and take the level that the thresholds and the
hysteresis give, and a stack reading of 120 °C trips the stack; a site that has shut down and is fenced loses its power;
a trip fences a site and powers it off. -/
def Obligations.HeatOfStacksAndJunction : Prop :=
  ∀ (s s0 s1 : State) (x : SiteId) (a : BitVec 11) (l : List (BitVec 11)), s.power.inReset = none → s.batching = false →
    ((s.sites[x]).state = 2 → (s.sites[x]).fenced = false →
      s0 = modSite { s with batching := true } x (fun z =>
        { z with temp := (hottest (a :: l)).1, hotSensor := BitVec.ofNat 5 (hottest (a :: l)).2, readings := a :: l }) →
      s1 = setLevel ((liveCh (s.sites[x]).live).foldl
          (fun st c => driftCheck st x c ((a :: l).getD (c / 2) (hottest (a :: l)).1).toNat) s0)
        x (nextLevel (s.sites[x]).level (hottest (a :: l)).1.toNat (8 * s.cfg.hyst) stackThr) →
      ((hottest (a :: l)).1.toNat < 960 → exec (.temperatureRead x (a :: l)) s = .next (endBatch s1)) ∧
      (960 ≤ (hottest (a :: l)).1.toNat → exec (.temperatureRead x (a :: l)) s = .next (endBatch (stackTrip s1 x)))) ∧
    (nextLevel s.power.juncLevel (hottest (a :: l)).1.toNat (8 * s.cfg.hyst) juncThr = s.power.juncLevel →
      exec (.junctionRead (a :: l)) s = .next { s with
        power := { s.power with junc := (hottest (a :: l)).1, juncSensor := BitVec.ofNat 3 (hottest (a :: l)).2 } }) ∧
    (∃ t, exec (.junctionRead (a :: l)) s = .next t ∧
      t.power.juncLevel = nextLevel s.power.juncLevel (hottest (a :: l)).1.toNat (8 * s.cfg.hyst) juncThr ∧
      t.power.junc = (hottest (a :: l)).1 ∧ t.dram = s.dram ∧ t.layouts = s.layouts ∧ t.sites = s.sites) ∧
    ((s.sites[x]).shutdown = true → (s.sites[x]).fenced = true → exec (.siteShutdownPowerOff x) s = .next (modSite s x (fun y =>
      { y with powerEn := false, powerGood := false, cke := false, selfRefresh := false, shutdown := false }))) ∧
    (kindOf s x.val ≠ .none → (s.sites[x]).fenced = false → (s.sites[x]).tripPin = false →
      ∃ t, exec (.stackTrip x) s = .next (endBatch (afterClose t)) ∧ (t.sites[x]).tripPin = true ∧
      (t.sites[x]).trip = true ∧ (t.sites[x]).fenced = true ∧ (t.sites[x]).powerEn = false ∧ (t.sites[x]).cke = false ∧
      (t.sites[x]).live = 0)

/-- Refresh: an interval owes one REFP more, and what is owed beyond four of an FCS-48 pair, or at all on a JEDEC
channel, goes out where it may enter; a REFP of a pair that it may enter refreshes the next six rows, up to four ahead,
and counts; where it may enter, the owed number stays between −4 and 4. -/
def Obligations.RefreshWithinFour : Prop :=
  ∀ (s s1 : State) (x : SiteId) (c : ChId) (k : PairId) (d : Int) (key : Nat), key = stallKey x.val c.val k.val →
    d = kvGetD s.refreshDebt key 0 → kvWf s.refreshDebt = true →
    (chanUp s x c.val = true → (s.sites[x]).selfRefresh = false →
      s1 = { s with refreshDebt := kvPut s.refreshDebt key (d + 1) } →
      (d + 1 ≤ refreshLimit s x ∨ refreshFree s x c.val k.val = false → exec (.refreshDue x c k) s = .next s1) ∧
      ((refreshLimit s x : Int) < d + 1 → refreshFree s x c.val k.val = true →
        exec (.refreshDue x c k) s = .next (sendRefp s1 x c.val k.val (d + 1 - refreshLimit s x).toNat)) ∧
      (refreshFree s x c.val k.val = true → -4 ≤ d → d ≤ 4 → ∃ t, exec (.refreshDue x c k) s = .next t ∧
        -4 ≤ kvGetD t.refreshDebt key 0 ∧ kvGetD t.refreshDebt key 0 ≤ 4)) ∧
    (reachable s x c.val = true →
      (deferReady s (stackDefer 7 x c.val k.val []) = true →
        (-4 < d → exec (.refp x c k) s = .next (sendRefp s x c.val k.val 1)) ∧
        (d ≤ -4 → exec (.refp x c k) s = .next s)) ∧
      (deferReady s (stackDefer 7 x c.val k.val []) = false →
        exec (.refp x c k) s = .next { s with defer := s.defer ++ [stackDefer 7 x c.val k.val []] })) ∧
    (∀ n : Nat, (sendRefp s x c.val k.val n).refreshDebt = kvPut s.refreshDebt key (d - n) ∧
      (sendRefp s x c.val k.val n).refreshPtr
        = kvPut s.refreshPtr key ((kvGetD s.refreshPtr key 0 + 6 * n) % 46234) ∧
      (sendRefp s x c.val k.val n).tally = (count s (1538 + 16 * x.val) n).tally)

/-- The other stack commands on a channel that the controller can send to, with the stall not fenced. RMAP and SEAL take
effect at once where they may, and otherwise at the parcel boundary that they wait for. -/
def Obligations.StackCommands : Prop :=
  ∀ (s : State) (x : SiteId) (c : ChId) (k : PairId) (data : Col) (key : Nat), canSend s x c.val = true →
    key = stallKey x.val c.val k.val →
    (stallFenced s x.val c.val k.val = false →
      exec (.sfnc x c k) s = .next (requestDeferred s ⟨0, x.val, c.val, k.val, [], none⟩) ∧
      exec (.pause x c k) s = .next (batch s fun b => afterClose (requestDeferred b ⟨3, x.val, c.val, k.val, [], none⟩)) ∧
      exec (.resume x c k) s = .next (putUnit { s with defer := s.defer.filter (fun d =>
        !(d.scope == 3 && d.site == x.val && d.ch == c.val && d.pair == k.val)) } key { getUnit s key with paused := false }) ∧
      (∀ w, exec (.rstw x c (some k) w data) s = .next (putUnit s key (storeWords (getUnit s key) w data))) ∧
      exec (.passd x c k data) s = .next (putUnit s key (loadPass (getUnit s key) data)) ∧
      (∀ g, g < groupCount (getUnit s key).stateLayout → latchFree (getUnit s key) g = true →
        exec (.latg x c k g data) s = .next (putUnit s key (loadGroup (getUnit s key) g data))) ∧
      (∃ b, exec (.statq x c k) s = .next (send s (.stack x b)))) ∧
    exec (.tempq x c) s = .next (send s (.stack x (Config.tempqBurst (s.sites[x]).readings))) ∧
    (∀ i v, i < 65536 → exec (.bdreg x i (some v)) s = .next (bdWrite s x i v) ∧
      exec (.bdreg x i none) s = .next (send s (.stack x ((bdRead s x i).zeroExtend 256)))) ∧
    (∀ (bank : Fin 16) (d : Deferred),
      (∀ (row : BitVec 16) (e : BitVec 9) (v : Bool), e.toNat < 458 →
        d = stackDefer 6 x c.val (bank.val / 2) [bank.val, row.toNat, e.toNat, if v then 1 else 0] →
        (deferReady s d = true →
          exec (.rmap x c bank row e v) s = .next (putRemap s (bankKey x.val c.val bank.val) e.toNat row.toNat v)) ∧
        (deferReady s d = false → exec (.rmap x c bank row e v) s = .next { s with defer := s.defer ++ [d] })) ∧
      (∀ r n, r + n ≤ 45776 → d = stackDefer 5 x c.val (bank.val / 2) [bank.val, r, n] →
        (deferReady s d = true → exec (.seal x c bank r n) s = .next (sealRows s x c.val bank.val r n)) ∧
        (deferReady s d = false → exec (.seal x c bank r n) s = .next { s with defer := s.defer ++ [d] })))

/-! ### Stall instructions -/

/-- A stall instruction with a reserved encoding stops the machine by name; on a stall that runs, any other has the
effect of its word on the unit and changes no other unit; unless it opens the commit window, which the writes of the
version columns and the pre-image precede, it changes no other state but the counter of free values; on a stall that
does not run it has no effect. A lane, SFU or CVT instruction writes D with its function of A, B and C in every lane,
and no other register. -/
def Obligations.StallInstructions : Prop :=
  (∀ (s : State) (st : StallId) (m : FmtM) (v : FmtV) (i : Instr) (w : W32) (u n : Stall), (i, w) ∈ stallWords st m v →
    (reservedWord w = true → exec i s = .fault .reservedEncoding) ∧
    (reservedWord w = false → stallRuns s st = false → exec i s = .next s) ∧
    (reservedWord w = false → stallRuns s st = true → u = getUnit s (unitKey (.stall st)) →
      n = nextCursor s u (doWord u (stallLoads s u) w) w → ∃ t, exec i s = .next t ∧
      getUnit t (unitKey (.stall st)) = n ∧ (∀ key, key ≠ unitKey (.stall st) → getUnit t key = getUnit s key) ∧
      (n.windowOpen = false ∨ u.windowOpen = true → t = { s with units := t.units, fresh := t.fresh }) ∧
      (n.windowOpen = true → u.windowOpen = false → t.dram = (writeBefore s n).dram ∧ t.chk = (writeBefore s n).chk))) ∧
  (∀ (s : State) (st : StallId) (v : FmtV) (i : Instr) (w : W32) (f : W32 → W32 → W32 → W32) (u : Stall),
    (i, w, f) ∈ laneFns st v → reservedWord w = false → stallRuns s st = true → u = getUnit s (unitKey (.stall st)) →
    ∃ t, exec i s = .next t ∧
      (getUnit t (unitKey (.stall st))).reg v.d.toNat = ofLanes (fun j =>
        f (lane (u.reg v.a.toNat) j) (lane (u.reg v.b.toNat) j) (lane (u.reg v.c.toNat) j)) ∧
      ∀ r, r < 64 → r ≠ v.d.toNat → (getUnit t (unitKey (.stall st))).reg r = u.reg r)

/-! ### Integrity -/

/-- A sealed block reads back clean; a single bad bit among its 584 is corrected, and two bad data bits are detected. -/
def Obligations.LatticeCode : Prop :=
  ∀ (a b : Col) (ka kb : BitVec 36), (ka, kb) = sealedChk a b →
    latticeDecode a b ka kb = (.clean, a, b) ∧
    (∀ i < 256, latticeDecode (a ^^^ (1 <<< i)) b ka kb = (.corrected, a, b) ∧
      latticeDecode a (b ^^^ (1 <<< i)) ka kb = (.corrected, a, b)) ∧
    (∀ i < 36, latticeDecode a b (ka ^^^ (1 <<< i)) kb = (.corrected, a, b) ∧
      latticeDecode a b ka (kb ^^^ (1 <<< i)) = (.corrected, a, b)) ∧
    (∀ i < 256, ∀ j < 256, (i ≠ j → (latticeDecode (a ^^^ (1 <<< i) ^^^ (1 <<< j)) b ka kb).1 = .bad ∧
        (latticeDecode a (b ^^^ (1 <<< i) ^^^ (1 <<< j)) ka kb).1 = .bad) ∧
      (latticeDecode (a ^^^ (1 <<< i)) (b ^^^ (1 <<< j)) ka kb).1 = .bad)

/-- Errors by their first read and retry: transient and lasting corrected errors, of which the lasting one is written
back, and uncorrectable ones, which reach their reader; those that the sealer reports; leak ticks; scrub in its turn,
and a scrub pass that is late; and spot checks that run or are skipped. -/
def Obligations.ErrorsAndScrub : Prop :=
  ∀ (s s1 : State) (x : SiteId) (c : ChId) (bank row blk p : Nat) (rd : Reader), chanUp s x c.val = true →
    p = blockKey s x c.val bank row blk →
    ((getChan s x.val c.val).held = false → rd ≠ .sealer →
      exec (.errorRetry x c bank row blk .corrected .clean rd) s = .next (recordError s x c.val 0x10) ∧
      exec (.errorRetry x c bank row blk .corrected .corrected rd) s = .next (writeBack (recordError s x c.val 0x11) p) ∧
      exec (.errorRetry x c bank row blk .uncorrectable .clean rd) s
        = .next (recordError (chargeRetry s x) x c.val 0x12) ∧
      exec (.errorRetry x c bank row blk .uncorrectable .bad rd) s
        = .next (poisonReader (recordError (chargeRetry s x) x c.val 0x13) p rd) ∧
      exec (.errorRetry x c bank row blk .parityOpen .bad rd) s
        = .next (poisonReader (recordError (chargeRetry s x) x c.val 0x14) p rd)) ∧
    ((getChan s x.val c.val).held = false →
      (sealerVerdict (chargeRetry s x) p = some true → exec (.errorRetry x c bank row blk .parityOpen .bad .sealer) s
        = .next (recordError (sealBlock (chargeRetry s x) p) x c.val 0x11)) ∧
      (sealerVerdict (chargeRetry s x) p ≠ some true → exec (.errorRetry x c bank row blk .parityOpen .bad .sealer) s
        = .next (recordError (chargeRetry s x) x c.val 0x14))) ∧
    (s.ts % (s.cfg.tranLeak * 1000) = 0 → exec (.bucketLeakTick x c true) s = .next (modChan s x.val c.val (fun y =>
      { y with tran := y.tran - 1, tranOver := y.tranOver && decide (s.cfg.tranThr ≤ 2 * (y.tran - 1)) }))) ∧
    (s.ts % (s.cfg.lastLeak * 1000000) = 0 → exec (.bucketLeakTick x c false) s = .next (modChan s x.val c.val (fun y =>
      { y with lasting := y.lasting - 1, lastOver := y.lastOver && decide (s.cfg.lastThr ≤ 2 * (y.lasting - 1)) }))) ∧
    (∀ b r, bgTurn s (.channel x c) = true →
      scrubAt s x c.val (List.range (banksOf s x.val)) (getChan s x.val c.val).scrubPos = some (b, r) →
      (rowFree s x c.val b r = false → exec (.scrubRow x c) s = .next s) ∧
      (rowFree s x c.val b r = true → s1 = (if scrubReads s x c.val b r then
          drawPair s x (stallKey x.val c.val (b / 2)) (scrubNs true) else s) →
        exec (.scrubRow x c) s = .next (nextScrub (scrubRow (takeBg s1 (.channel x c) (scrubNs (scrubReads s x c.val b r)))
          x c.val b r) x c.val))) ∧
    ((getChan s x.val c.val).scrubFrom + s.cfg.scrubS * 1000000000 ≤ s.ts →
      exec (.scrubPassLate x c) s = .next (ityIrq (ledAdd (modChan s x.val c.val (fun z =>
        { z with scrubPos := 0, scrubFrom := s.ts })) 0x18 (Place.chan x.val c.val) 0 0) 5)) ∧
    (s.ts < (getChan s x.val c.val).scrubFrom + s.cfg.scrubS * 1000000000 → exec (.scrubPassLate x c) s = .next s) ∧
    (∀ (id q : Nat) (me : Bool) (z : Spot) (ly : Layout) (pt : ArbPt), findSpot s x id q = some z →
      getLayout s id = some ly → pt = .channel x (chOf (ly.parcelUnit s q).ch) →
      (checkFree s x = true → bgTurn s pt = true → s.ts ≤ z.sealedAt + 1000000 →
        (parseSeal (rowCol s ly q 63)).step = z.step →
        exec (.spotCheck x id q me) s = .next (compareSpot (toFp64 (takeBg s pt (scrubNs true)) x) z ly me)) ∧
      (z.sealedAt + 1000000 ≤ s.ts →
        exec (.spotCheckSkip x id q) s = .next (count (dropSpot s z) (1544 + 16 * x.val) 1)))

/-! ### Faults -/

/-- A hard fault of a stall fences it at once and sets its stall-fault flag; one of a relief engine restarts it, and the
second within the suspect window fences its site; the end of a restart puts it back in service; a controller fault
fences its site. Interruptions that pass the allowance of an instance are an event: of cause FAULT, and in a squall hold
of cause SUPPLY with the Late interrupt and Ledger code 0x31; below the allowance they are none. -/
def Obligations.HardFaults : Prop :=
  (∀ (s : State) (x : SiteId) (st : StallId), s.power.inReset = none →
    (chanUp s st.site st.ch.val = true → isFcs s st.site.val = true →
      stallFenced s st.site.val st.ch.val st.pair.val = false → s.batching = false →
      ∃ t, exec (.stallHardFault st) s = .next (endBatch (afterClose t)) ∧
        stallFenced t st.site.val st.ch.val st.pair.val = true ∧ (getUnit t (unitKey (.stall st))).fault = true ∧
        t.regs.faults = sat16w s.regs.faults) ∧
    (reliefUp s x = true →
      ((s.sites[x]).reliefFaults = [] → exec (.reliefEngineHardFault x) s = .next (restartRelief (modSite (countFault s) x
        (fun y => { y with reliefFaults := [s.ts] })) x)) ∧
      (∀ t0 ∈ (s.sites[x]).reliefFaults, s.ts ≤ t0 + suspectNs s → exec (.reliefEngineHardFault x) s = .next (requestDeferred
        (restartRelief (modSite (countFault s) x (fun y => { y with
          reliefFaults := y.reliefFaults.filter (fun z => decide (s.ts ≤ z + suspectNs s)) ++ [s.ts] })) x) ⟨2, x.val, 0, 0, [], none⟩))) ∧
    ((s.sites[x]).reliefDown = true → ∃ t, exec (.reliefEngineRestartDone x) s = .next t ∧
      (t.sites[x]).reliefDown = false ∧ t = { s with sites := t.sites, charges := t.charges }) ∧
    (kindOf s x.val ≠ .none →
      exec (.siteControllerFault x) s = .next (requestDeferred s ⟨2, x.val, 0, 0, [], none⟩))) ∧
  (∀ (s : State) (i : Inst), s.power.inReset = none →
    (overAllowance (settle s) i = true → exec (.faultAllowanceExceeded i) s = .next (lateCheck (settle s) 1) ∧
      ((settle s).squallDebt.any (fun c => c.1 == i) = true → exec (.squallLate i) s = .next (lateCheck
        (ledAdd (pwrIrq (settle s) 1) 0x31 Place.none 0 0) 4))) ∧
    (overAllowance (settle s) i = false →
      exec (.faultAllowanceExceeded i) s = .next s ∧ exec (.squallLate i) s = .next s))

/-- A fatal fault or the loss of a clock stops the block: Fatal is set with its Ledger entry where that can be written,
no order is taken and no receipt written from then on. -/
def Obligations.FatalStop : Prop :=
  ∀ (s : State) (w : Bool) (k : InClock) (i : Instr), s.power.inReset = none → s.fatal = false →
    i ∈ [Instr.fatalFault w, .clockLoss k w] →
    ∃ t, exec i s = .next t ∧ t.fatal = true ∧ t.regs.fltIrq.getLsbD 5 = true ∧
      t.led = (if w then (ledAdd s 0x29 Place.none 0 0).led else s.led) ∧
      t = { s with fatal := true, regs := { s.regs with fltIrq := t.regs.fltIrq }, led := t.led } ∧
      (∀ r, takable t r = false) ∧
      ∀ r a b c d body e, emitReceipt t r a b c d body e = t

/-! ### Power -/

/-- A power-on reset leaves nothing of the block's state; a rail's loss is one that only a new power-on cycle ends.
The releases of the resets and the loss of a site's power. -/
def Obligations.PowerOnResetAndReleases : Prop :=
  (∀ s : State, ∃ t, exec .powerOnReset s = .next t ∧ t.power.inReset = some .powerOn ∧ t.power.needPorst = false ∧
    t.power.resetCause = 1 ∧ t.dram = [] ∧ t.chk = [] ∧ t.awn = [] ∧ t.stage = [] ∧ t.layouts = [] ∧ t.rules = [] ∧
    t.rings = Vector.replicate 5 RingSt.reset ∧ t.cfg = Cfg.reset s.par.awnMib ∧ t.sec.debugLock = true ∧
    t.sec.keys = Vector.replicate 16 Key.empty ∧ t.par = s.par ∧ t.pending = s.pending ∧ t.fatal = false ∧
    (s.power.inReset ≠ some .powerOn →
      exec .railPowerGoodLoss s = .next { t with power := { t.power with needPorst := true } } ∧
      exec .powerOnResetRelease { t with power := { t.power with needPorst := true } }
        = .next { t with power := { t.power with needPorst := true } })) ∧
  (∀ (s : State) (x : SiteId),
    (s.power.inReset = some .powerOn → s.power.needPorst = false → s.power.rst48 = false →
      (s.par.ok = true → exec .powerOnResetRelease s = .next (leaveReset s)) ∧
      (s.par.ok = false → ∃ t, exec .powerOnResetRelease s = .next t ∧ t.power.phase = 6 ∧ t.power.paramOk = false)) ∧
    (s.power.inReset = some .powerOn → s.power.needPorst = false → s.power.rst48 = true →
      exec .powerOnResetRelease s = .next { s with power := { s.power with inReset := some .bus48 } }) ∧
    ((s.sites[x]).powerGood = true → s.power.inReset ≠ none → ∃ t, exec (.sitePowerGoodLoss x) s = .next t ∧
      t = { s with sites := t.sites, dram := t.dram, chk := t.chk, remap := t.remap, fencedStalls := t.fencedStalls } ∧
      t.sites[x] = { s.sites[x] with powerGood := false, selfRefresh := false } ∧
      (∀ e ∈ t.dram, keySite (e.1 / 32) ≠ x.val)) ∧
    ((s.sites[x]).powerGood = true → s.power.inReset = none →
      exec (.sitePowerGoodLoss x) s = .next (requestDeferred (powerOff (markUntested s x) x) ⟨2, x.val, 0, 0, [], none⟩)))

/-- A block reset and a 48 V reset leave what stands on the stacks whose rails hold, and nothing of any other stack;
every order, layout, rule, key and setting is gone; and each release starts the block again. -/
def Obligations.SoftResets : Prop :=
  ∀ (s : State) (i : Instr), Memory.wf s.dram = true → s.power.inReset = none → i ∈ [Instr.blockReset, .bus48Reset] →
    ∃ t, exec i s = .next t ∧ t.power.inReset = some (if i = .blockReset then .block else .bus48) ∧
      (∀ a, memRead t.dram a = if railsHold s (keySite (a / 32)) then memRead s.dram a else 0) ∧
      t.cfg = Cfg.reset s.par.awnMib ∧ t.rings = Vector.replicate 5 RingSt.reset ∧ t.inflight = [] ∧ t.layouts = [] ∧
      t.rules = [] ∧ t.awn = [] ∧ t.sec.keys = Vector.replicate 16 Key.empty ∧ t.sec.debugLock = true ∧ t.par = s.par ∧
      (i = .blockReset → exec .blockResetRelease t = .next (leaveReset t)) ∧
      (i = .bus48Reset → busQuiet t = true →
        exec .bus48ResetRelease t = .next (leaveReset { t with power := { t.power with rst48 := false } }))

/-- The 48 V warning: it begins a squall hold in which requests of classes 2 and 3 wait, and the hold ends 50 µs after
its deassertion. Stall groups then start one by one. The peak limiter holds the same classes while the estimate exceeds
the budget. -/
def Obligations.SquallAndLimiter : Prop :=
  ∀ (s : State) (e : BitVec 11), s.power.inReset = none →
    (s.power.squall = false → ∃ t, exec .squallHold s = .next t ∧ t.power.squall = true ∧ t.power.warn = true ∧
      t.power.squallStart = s.ts ∧ t.power.squallCount = sat16w s.power.squallCount ∧ t.power.irq = s.power.irq ||| 1 ∧
      classHeld t 2 = true ∧ classHeld t 3 = true ∧ classHeld t 0 = false) ∧
    (s.power.squall = true → exec .squallHold s = .next { s with power := { s.power with warn := true, clearAt := none } }) ∧
    (s.power.warn = true → exec .bus48WarnDeassert s = .next { s with
      power := { s.power with warn := false, clearAt := some (s.ts + 50000) } }) ∧
    (s.power.squall = true → busQuiet s = false → exec .squallHoldEnd s = .next s) ∧
    (s.power.squall = true → busQuiet s = true → ∃ t, exec .squallHoldEnd s = .next t ∧ t.power.squall = false ∧
      t.power.lastUs = BitVec.ofNat 16 (Nat.min ((s.ts - s.power.squallStart) / 1000) 65535)) ∧
    (∀ x g, s.power.ripple = some (x, g) → inRipple s (siteOf x) = true → g + 1 < rippleGroups s x →
      exec .rippleStart s = .next { s with power := { s.power with ripple := some (x, g + 1) } }) ∧
    exec (.peakLimiter e) s = .next { s with power := { s.power with
      est := e, peak := if s.power.peak < e then e else s.power.peak, limiter := decide (s.cfg.budget < e.toNat) } }

/-- The TAP instructions with their data registers; those that DebugLock closes act as BYPASS while it is set. A
test-logic reset and a reset of the register port (R568) change nothing else of the block. -/
def Obligations.TapAndPortReset : Prop :=
  ∀ (s : State) (x : SiteId),
    (∀ e ∈ tapOps s x, ∃ t, exec e.1 s = .next t ∧ t = { s with tap := t.tap, fresh := t.fresh } ∧
      t.tap = if e.2.1 && s.sec.debugLock then ⟨0xFF, 0, none, false⟩ else e.2.2) ∧
    exec .testLogicReset s = .next { s with tap := Tap.reset } ∧ exec .axiPortReset s = .next s

/-! ### Ledger and Tally -/

/-- The Ledger is a ring of at most 65,536 entries in Seq order (R525, R526): a new entry is the last one; a full ring
loses its oldest entry, or the new entry where a LEDGER_DRAIN has entries still to copy (R527), and Lost marks the gap; at
FillLevel unread entries Fill is set (R528; what sets it is the model's choice, log 167). Codes 0x10 and 0x12 are not
recorded where key 0x0300 is 0. The latch of a beat (R522, R524): every TALLY that is due takes part in one latch of the
union of their groups, with one increment of the generation. Every counter of those groups copies its value into its
shadow; the shadows of the other groups stay, and so do all counters but the two levels of group 1. -/
def Obligations.LedgerAndTallyLatch : Prop :=
  (∀ (s t : State) (code : Nat) (pl : Place) (layout arg : Nat), s.led.entries.length ≤ 65536 → code < 256 →
    t = ledAdd s code pl layout arg →
    t = { s with led := t.led } ∧ t.led.entries.length ≤ 65536 ∧
    (s.cfg.ledRec = 0 → code = 0x10 ∨ code = 0x12 → t = s) ∧
    ((∀ (i : Nat) (h : i < s.led.entries.length), (s.led.entries[i]).extractLsb' 160 16 = BitVec.ofNat 16 (s.led.head + i)) →
      ∀ (i : Nat) (h : i < t.led.entries.length), (t.led.entries[i]).extractLsb' 160 16 = BitVec.ofNat 16 (t.led.head + i)) ∧
    ((s.cfg.ledRec = 0 → code ≠ 0x10 ∧ code ≠ 0x12) →
      (s.led.entries.length < 65536 → s.cfg.fillLevel ≤ t.led.entries.length → t.led.irq.getLsbD 0 = true) ∧
      (s.led.entries.length < 65536 → t.led.head = s.led.head ∧ t.led.lost = s.led.lost ∧ t.led.lostNext = false ∧
        t.led.entries = s.led.entries ++
          [ledEntry s.ts s.beat.now s.beat.step code (s.led.head + s.led.entries.length) s.led.lostNext pl layout arg]) ∧
      (s.led.entries.length = 65536 → t.led.irq.getLsbD 1 = true ∧
        t.led.lost.toNat = Nat.min (s.led.lost.toNat + 1) 0xFFFFFFFF) ∧
      (s.led.entries.length = 65536 → drainPending s = true →
        t.led.entries = s.led.entries ∧ t.led.head = s.led.head ∧ t.led.lostNext = true) ∧
      (s.led.entries.length = 65536 → drainPending s = false →
        t.led.head = (s.led.head + 1) % 65536 ∧ t.led.lostNext = false ∧ t.led.entries.length = 65536 ∧
        (t.led.entries.head?).map (fun e => e.getLsbD 176) = some true ∧
        t.led.entries.getLast? = some (ledEntry s.ts s.beat.now s.beat.step code (s.led.head + 65536) s.led.lostNext pl
          layout arg) ∧
        ∀ i : Nat, 0 < i → i < 65535 → t.led.entries[i]? = s.led.entries[i + 1]?))) ∧
  (∀ s t : State, kvWf s.tally.ctr = true → kvWf s.tally.shadow = true → kvWf s.tally.groupGen = true →
    t = latchTallies s →
    t = { s with tally := t.tally, inflight := t.inflight } ∧ t.inflight.length = s.inflight.length ∧
    kvWf t.tally.shadow = true ∧
    (s.inflight.any (toLatch s) = false → t = s) ∧
    (s.inflight.any (toLatch s) = true → t.tally.gen = (s.tally.gen + 1) % 65536 ∧ t.tally.latchBeat = s.beat.now) ∧
    (∀ f ∈ s.inflight, toLatch s f = true → { f with ctx := .tally (some (s.beat.now, t.tally.gen)) } ∈ t.inflight) ∧
    (∀ f ∈ s.inflight, toLatch s f = false → f ∈ t.inflight) ∧
    (∀ i : Nat, (∃ f ∈ s.inflight, toLatch s f = true ∧ (fld f.order 16 2).testBit (groupOf i) = true) →
      kvGet t.tally.shadow i = kvGet s.tally.ctr i ∧ kvGet t.tally.groupGen (groupOf i) = some t.tally.gen) ∧
    (∀ i : Nat, (∀ f ∈ s.inflight, toLatch s f = true → (fld f.order 16 2).testBit (groupOf i) = false) →
      kvGet t.tally.shadow i = kvGet s.tally.shadow i ∧
      kvGet t.tally.groupGen (groupOf i) = kvGet s.tally.groupGen (groupOf i)) ∧
    (∀ i : Nat, i ≠ 68 → i ≠ 75 → kvGet t.tally.ctr i = kvGet s.tally.ctr i))
end

