-- ==== Sys2Proof/Laws/Memory.lean ====
section
/-! SUPPORT. Maps and byte memories: what a read gives after a write, and that every operation keeps the canonical form. -/

namespace Sys2Proof.Machine

/-! ### Maps -/

/-- Every key of a list is above `a`. -/
def keysAbove {α : Type} (a : Nat) (m : KV α) : Prop := ∀ e ∈ m, a < e.1

theorem kvWf_cons {α : Type} (a : Nat) (x : α) (m : KV α) : kvWf ((a, x) :: m) = true ↔ keysAbove a m ∧ kvWf m = true := by
  induction m generalizing a x with
  | nil => simp [kvWf, keysAbove]
  | cons e r ih =>
    obtain ⟨b, y⟩ := e
    simp only [kvWf, Bool.and_eq_true, decide_eq_true_eq]
    constructor
    · rintro ⟨hab, hw⟩
      refine ⟨?_, hw⟩
      intro e he
      rcases List.mem_cons.mp he with rfl | he
      · exact hab
      · have h := ((ih b y).mp hw).1 e he
        omega
    · rintro ⟨ha, hw⟩
      exact ⟨ha (b, y) (by simp), hw⟩

theorem kvWf_nil {α : Type} : kvWf ([] : KV α) = true := rfl

theorem mem_kvPut {α : Type} {m : KV α} {a : Nat} {x : α} {e : Nat × α} (h : e ∈ kvPut m a x) : e = (a, x) ∨ e ∈ m := by
  induction m with
  | nil => simpa [kvPut] using h
  | cons f r ih =>
    obtain ⟨k, v⟩ := f
    simp only [kvPut] at h
    split at h
    · simpa using h
    · split at h
      · rcases List.mem_cons.mp h with h | h
        · exact .inl h
        · exact .inr (List.mem_cons_of_mem _ h)
      · rcases List.mem_cons.mp h with h | h
        · exact .inr (h ▸ List.mem_cons_self ..)
        · rcases ih h with h | h
          · exact .inl h
          · exact .inr (List.mem_cons_of_mem _ h)

theorem mem_kvDel {α : Type} {m : KV α} {a : Nat} {e : Nat × α} (h : e ∈ kvDel m a) : e ∈ m := by
  induction m with
  | nil => simp [kvDel] at h
  | cons f r ih =>
    obtain ⟨k, v⟩ := f
    simp only [kvDel] at h
    split at h
    · exact List.mem_cons_of_mem _ h
    · rcases List.mem_cons.mp h with h | h
      · exact h ▸ List.mem_cons_self ..
      · exact List.mem_cons_of_mem _ (ih h)

theorem kvPut_wf {α : Type} {m : KV α} (h : kvWf m = true) (a : Nat) (x : α) : kvWf (kvPut m a x) = true := by
  induction m with
  | nil => rfl
  | cons f r ih =>
    obtain ⟨k, v⟩ := f
    have hk := (kvWf_cons k v r).mp h
    simp only [kvPut]
    split
    · rename_i hlt
      refine (kvWf_cons _ _ _).mpr ⟨?_, h⟩
      intro e he
      rcases List.mem_cons.mp he with rfl | he
      · exact hlt
      · have := hk.1 e he; omega
    · split
      · rename_i heq
        subst heq
        exact (kvWf_cons _ _ _).mpr hk
      · refine (kvWf_cons _ _ _).mpr ⟨?_, ih hk.2⟩
        intro e he
        rcases mem_kvPut he with rfl | he
        · simp only; omega
        · exact hk.1 e he

theorem kvDel_wf {α : Type} {m : KV α} (h : kvWf m = true) (a : Nat) : kvWf (kvDel m a) = true := by
  induction m with
  | nil => rfl
  | cons f r ih =>
    obtain ⟨k, v⟩ := f
    have hk := (kvWf_cons k v r).mp h
    simp only [kvDel]
    split
    · exact hk.2
    · exact (kvWf_cons _ _ _).mpr ⟨fun e he => hk.1 e (mem_kvDel he), ih hk.2⟩

theorem kvFilter_wf {α : Type} {m : KV α} (h : kvWf m = true) (p : Nat × α → Bool) : kvWf (m.filter p) = true := by
  induction m with
  | nil => rfl
  | cons f r ih =>
    obtain ⟨k, v⟩ := f
    have hk := (kvWf_cons k v r).mp h
    simp only [List.filter]
    split
    · exact (kvWf_cons _ _ _).mpr ⟨fun e he => hk.1 e (List.mem_of_mem_filter he), ih hk.2⟩
    · exact ih hk.2

theorem kvGet_above {α : Type} {m : KV α} {a b : Nat} (h : keysAbove b m) (hab : a ≤ b) : kvGet m a = none := by
  cases m with
  | nil => rfl
  | cons f r =>
    obtain ⟨k, v⟩ := f
    have hk : b < k := h (k, v) (List.mem_cons_self ..)
    simp only [kvGet]
    rw [if_neg (by omega), if_pos (by omega)]

/-- A read of the key that was put. -/
theorem kvGet_put_same {α : Type} (m : KV α) (a : Nat) (x : α) : kvGet (kvPut m a x) a = some x := by
  induction m with
  | nil => simp [kvPut, kvGet]
  | cons f r ih =>
    obtain ⟨k, v⟩ := f
    simp only [kvPut]
    split
    · simp [kvGet]
    · split
      · simp [kvGet]
      · simp only [kvGet]
        rw [if_neg (by assumption), if_neg (by assumption)]
        exact ih

/-- A read of any other key. -/
theorem kvGet_put_other {α : Type} (m : KV α) {a b : Nat} (x : α) (h : b ≠ a) : kvGet (kvPut m a x) b = kvGet m b := by
  induction m with
  | nil => simp [kvPut, kvGet, h]
  | cons f r ih =>
    obtain ⟨k, v⟩ := f
    simp only [kvPut]
    split
    · simp only [kvGet]
      rw [if_neg h]
      split
      · rw [if_neg (by omega), if_pos (by omega)]
      · rfl
    · split
      · rename_i heq
        subst heq
        simp [kvGet, h]
      · simp only [kvGet, ih]

/-- A removed key is absent. -/
theorem kvGet_del_same {α : Type} {m : KV α} (hw : kvWf m = true) (a : Nat) : kvGet (kvDel m a) a = none := by
  induction m with
  | nil => rfl
  | cons f r ih =>
    obtain ⟨k, v⟩ := f
    have hk := (kvWf_cons k v r).mp hw
    simp only [kvDel]
    split
    · rename_i heq
      subst heq
      exact kvGet_above hk.1 (Nat.le_refl _)
    · simp only [kvGet]
      rw [if_neg (by assumption)]
      split
      · rfl
      · exact ih hk.2

theorem kvGet_del_other {α : Type} {m : KV α} (hw : kvWf m = true) {a b : Nat} (h : b ≠ a) :
    kvGet (kvDel m a) b = kvGet m b := by
  induction m with
  | nil => rfl
  | cons f r ih =>
    obtain ⟨k, v⟩ := f
    have hk := (kvWf_cons k v r).mp hw
    simp only [kvDel]
    split
    · rename_i heq
      subst heq
      simp only [kvGet]
      rw [if_neg h]
      split
      · exact kvGet_above hk.1 (by omega)
      · rfl
    · simp only [kvGet, ih hk.2]

/-- What a map holds at a key is one of its entries. -/
theorem mem_of_kvGet {α : Type} {m : KV α} {a : Nat} {x : α} (h : kvGet m a = some x) : (a, x) ∈ m := by
  induction m with
  | nil => simp [kvGet] at h
  | cons f r ih =>
    obtain ⟨k, v⟩ := f
    simp only [kvGet] at h
    split at h
    · rename_i heq
      subst heq
      exact (Option.some.inj h) ▸ List.mem_cons_self ..
    · split at h
      · cases h
      · exact List.mem_cons_of_mem _ (ih h)

/-! ### Byte memories -/

theorem memWf_iff (m : Mem) : memWf m = true ↔ kvWf m = true ∧ ∀ e ∈ m, e.2 ≠ 0 := by
  simp [memWf]

theorem memWrite_wf {m : Mem} (h : memWf m = true) (a : Nat) (b : Byte) : memWf (memWrite m a b) = true := by
  rw [memWf_iff] at h ⊢
  unfold memWrite
  split
  · exact ⟨kvDel_wf h.1 a, fun e he => h.2 e (mem_kvDel he)⟩
  · refine ⟨kvPut_wf h.1 a b, fun e he => ?_⟩
    rcases mem_kvPut he with rfl | he
    · assumption
    · exact h.2 e he

theorem memWriteN_wf {m : Mem} (h : memWf m = true) (a : Nat) (d : Bytes) : memWf (memWriteN m a d) = true := by
  induction d generalizing m a with
  | nil => exact h
  | cons b r ih => exact ih (memWrite_wf h a b) (a + 1)

theorem memFilter_wf {m : Mem} (h : memWf m = true) (p : Nat × Byte → Bool) : memWf (m.filter p) = true := by
  rw [memWf_iff] at h ⊢
  exact ⟨kvFilter_wf h.1 p, fun e he => h.2 e (List.mem_of_mem_filter he)⟩

/-- The byte written is the byte read. -/
theorem memRead_write_same {m : Mem} (h : memWf m = true) (a : Nat) (b : Byte) : memRead (memWrite m a b) a = b := by
  unfold memWrite memRead kvGetD
  split
  · rename_i hb
    rw [kvGet_del_same ((memWf_iff m).mp h).1]
    exact hb.symm
  · rw [kvGet_put_same]; rfl

/-- Every other byte reads as before. -/
theorem memRead_write_other {m : Mem} (h : memWf m = true) {a c : Nat} (b : Byte) (hc : c ≠ a) :
    memRead (memWrite m a b) c = memRead m c := by
  unfold memWrite memRead kvGetD
  split
  · rw [kvGet_del_other ((memWf_iff m).mp h).1 hc]
  · rw [kvGet_put_other m b hc]

/-- Bytes outside a written range read as before. -/
theorem memRead_writeN_outside {m : Mem} (h : memWf m = true) (a : Nat) (d : Bytes) {c : Nat}
    (hc : c < a ∨ a + d.length ≤ c) : memRead (memWriteN m a d) c = memRead m c := by
  induction d generalizing m a with
  | nil => rfl
  | cons b r ih =>
    simp only [List.length_cons] at hc
    simp only [memWriteN]
    rw [ih (memWrite_wf h a b) (a + 1) (by omega), memRead_write_other h b (by omega)]

/-- Bytes of a written range read as written. -/
theorem memRead_writeN_inside {m : Mem} (h : memWf m = true) (a : Nat) (d : Bytes) {i : Nat} (hi : i < d.length) :
    memRead (memWriteN m a d) (a + i) = d[i] := by
  induction d generalizing m a i with
  | nil => simp at hi
  | cons b r ih =>
    simp only [memWriteN]
    cases i with
    | zero =>
      have := memRead_writeN_outside (memWrite_wf h a b) (a + 1) r (c := a) (by omega)
      simpa [memRead_write_same h] using this
    | succ j =>
      have hj : j < r.length := by simpa using hi
      have := ih (memWrite_wf h a b) (a + 1) hj
      rw [show a + (j + 1) = a + 1 + j by omega, this]
      rfl

/-- A read of as many bytes as were written gives them. -/
theorem memReadN_writeN {m : Mem} (h : memWf m = true) (a : Nat) (d : Bytes) :
    memReadN (memWriteN m a d) a d.length = d := by
  have key : ∀ (n k : Nat), k + n = d.length → memReadN (memWriteN m a d) (a + k) n = d.drop k := by
    intro n
    induction n with
    | zero => intro k hk; rw [List.drop_of_length_le (by omega)]; rfl
    | succ n ih =>
      intro k hk
      have hlt : k < d.length := by omega
      simp only [memReadN]
      rw [memRead_writeN_inside h a d hlt, Nat.add_assoc, ih (k + 1) (by omega), List.drop_eq_getElem_cons hlt]
  simpa using key d.length 0 (by omega)

/-- A read of bytes outside a written range gives what it gave. -/
theorem memReadN_writeN_outside {m : Mem} (h : memWf m = true) (a : Nat) (d : Bytes) (c n : Nat)
    (hc : c + n ≤ a ∨ a + d.length ≤ c) : memReadN (memWriteN m a d) c n = memReadN m c n := by
  induction n generalizing c with
  | zero => rfl
  | succ n ih =>
    simp only [memReadN]
    rw [memRead_writeN_outside h a d (by omega), ih (c + 1) (by omega)]

/-- The bytes of a number are as many as asked for. -/
@[simp] theorem length_leBytes (n x : Nat) : (leBytes n x).length = n := by
  induction n generalizing x with
  | zero => rfl
  | succ n ih => simp [leBytes, ih]

/-! ### Check fields -/

theorem chkWf_iff (m : KV (BitVec 36)) : chkWf m = true ↔ kvWf m = true ∧ ∀ e ∈ m, e.2 ≠ 0 := by
  simp [chkWf]

theorem chkDel_wf {m : KV (BitVec 36)} (h : chkWf m = true) (a : Nat) : chkWf (kvDel m a) = true := by
  rw [chkWf_iff] at h ⊢
  exact ⟨kvDel_wf h.1 a, fun e he => h.2 e (mem_kvDel he)⟩

theorem chkPut_wf {m : KV (BitVec 36)} (h : chkWf m = true) (a : Nat) {x : BitVec 36} (hx : x ≠ 0) :
    chkWf (kvPut m a x) = true := by
  rw [chkWf_iff] at h ⊢
  refine ⟨kvPut_wf h.1 a x, fun e he => ?_⟩
  rcases mem_kvPut he with rfl | he
  · exact hx
  · exact h.2 e he

theorem chkFilter_wf {m : KV (BitVec 36)} (h : chkWf m = true) (p : Nat × BitVec 36 → Bool) :
    chkWf (m.filter p) = true := by
  rw [chkWf_iff] at h ⊢
  exact ⟨kvFilter_wf h.1 p, fun e he => h.2 e (List.mem_of_mem_filter he)⟩

end Sys2Proof.Machine
end

