-- ==== Sys2Proof/Laws/Keep.lean ====
section
/-! SUPPORT. What no operation undoes: the integration parameters stay, no cycle's receipts are left to be written, and what
is sound stays so. One lemma per operation; a composite one follows from those it calls. -/

namespace Sys2Proof.Machine

/-- From `s` to `t` the parameters stay, no cycle is left open, and soundness is kept. -/
structure Keeps (s t : State) : Prop where
  par : t.par = s.par
  calm : s.batching = false → t.batching = false
  sound : Sound s → Sound t

theorem Keeps.refl (s : State) : Keeps s s := ⟨rfl, id, id⟩

theorem Keeps.trans {a b c : State} (h1 : Keeps a b) (h2 : Keeps b c) : Keeps a c :=
  ⟨h2.par.trans h1.par, fun h => h2.calm (h1.calm h), fun h => h2.sound (h1.sound h)⟩

/-- An operation that keeps keeps the invariant. -/
theorem Keeps.inv {s t : State} (h : Keeps s t) (i : Inv s) : Inv t :=
  { h.sound i.toSound with calm := h.calm i.calm }

/-- A change of fields that the invariant does not name. -/
theorem Keeps.eqs {a s t : State} (h : Keeps a s) (h1 : t.par = s.par) (h2 : t.awn = s.awn) (h3 : t.stage = s.stage)
    (h4 : t.dram = s.dram) (h5 : t.chk = s.chk) (h6 : t.turn = s.turn) (h7 : t.rings = s.rings) (h8 : t.cfg = s.cfg)
    (h9 : t.tally = s.tally) (h10 : t.led = s.led) (h11 : t.link = s.link) (h12 : t.batching = s.batching) : Keeps a t := by
  refine h.trans ⟨h1, h12.trans, fun i => ?_⟩
  exact ⟨h1 ▸ i.par, h2 ▸ i.awn, h3 ▸ i.stage, h4 ▸ i.dram, h5 ▸ i.chk, h6 ▸ i.turn, h7 ▸ i.rings,
    by rw [h1, h8]; exact i.cfg, h9 ▸ i.tally, h10 ▸ i.led, h11 ▸ i.link⟩

theorem Keeps.ite {a s t : State} {c : Prop} [Decidable c] (h1 : Keeps a s) (h2 : Keeps a t) :
    Keeps a (if c then s else t) := by split <;> assumption

theorem Keeps.foldl {α : Type} {a : State} {g : State → α → State} (l : List α) {s : State} (h : Keeps a s)
    (hg : ∀ t x, Keeps a t → Keeps a (g t x)) : Keeps a (l.foldl g s) := by
  induction l generalizing s with
  | nil => exact h
  | cons x r ih => exact ih (hg s x h)

/-! ### Primitive updates -/

theorem setAwn_keeps {a s : State} (h : Keeps a s) {m : Mem} (hm : memWf s.awn = true → memWf m = true) :
    Keeps a { s with awn := m } :=
  h.trans ⟨rfl, id, fun i => { i with awn := hm i.awn }⟩

theorem setStage_keeps {a s : State} (h : Keeps a s) {m : Mem} (hm : memWf s.stage = true → memWf m = true) :
    Keeps a { s with stage := m } :=
  h.trans ⟨rfl, id, fun i => { i with stage := hm i.stage }⟩

theorem setTally_keeps {a s : State} (h : Keeps a s) {t : Tally} (ht : TallyOk s.tally → TallyOk t) :
    Keeps a { s with tally := t } :=
  h.trans ⟨rfl, id, fun i => { i with tally := ht i.tally }⟩

theorem setLed_keeps {a s : State} (h : Keeps a s) {l : Ledger} (hl : LedgerOk s.led → LedgerOk l) :
    Keeps a { s with led := l } :=
  h.trans ⟨rfl, id, fun i => { i with led := hl i.led }⟩

theorem modRing_keeps {a s : State} (h : Keeps a s) (r : RingId) (f : RingSt → RingSt)
    (hf : ∀ g, RingOk g → RingOk (f g)) : Keeps a (modRing s r f) := by
  refine h.trans ⟨rfl, id, fun i => { i with rings := fun q => ?_ }⟩
  show RingOk (updV s.rings r f)[q]
  unfold updV
  by_cases hq : r.val = q.val
  · have : r = q := Fin.ext hq
    subst this
    simpa using hf _ (i.rings r)
  · have := i.rings q
    simpa [Vector.getElem_set, hq] using this

theorem count_keeps {a s : State} (h : Keeps a s) (i n : Nat) : Keeps a (count s i n) := by
  refine setTally_keeps h fun ht => ⟨fun e he => ?_, ht.2⟩
  rcases mem_kvPut he with rfl | he
  · exact Nat.mod_lt _ (by decide)
  · exact ht.1 e he

theorem countHigh_keeps {a s : State} (h : Keeps a s) (i v : Nat) : Keeps a (countHigh s i v) := by
  refine setTally_keeps h fun ht => ⟨fun e he => ?_, ht.2⟩
  rcases mem_kvPut he with rfl | he
  · have h0 : kvGetD s.tally.ctr i 0 < ctrMod := by
      unfold kvGetD
      cases hg : kvGet s.tally.ctr i with
      | none => decide
      | some x => exact ht.1 _ (mem_of_kvGet hg)
    have h1 : Nat.min v (ctrMod - 1) < ctrMod := by
      have : ctrMod - 1 < ctrMod := by decide
      exact Nat.lt_of_le_of_lt (Nat.min_le_right ..) this
    exact Nat.max_lt.mpr ⟨h0, h1⟩
  · exact ht.1 e he

theorem ledAdd_keeps {a s : State} (h : Keeps a s) (code : Nat) (pl : Place) (layout arg : Nat) :
    Keeps a (ledAdd s code pl layout arg) := by
  unfold ledAdd
  split
  · exact h
  · dsimp only
    split
    · rename_i hn
      exact setLed_keeps h fun hl => ⟨by simpa using hn, hl.2⟩
    · split
      · exact setLed_keeps h fun hl => hl
      · refine setLed_keeps h fun hl => ⟨?_, Nat.mod_lt _ (by decide)⟩
        have h2 : (s.led.entries.drop 1 ++ [ledEntry s.ts s.beat.now s.beat.step code (s.led.head + s.led.entries.length)
            s.led.lostNext pl layout arg]).length ≤ 65536 := by
          have := hl.1
          simp only [List.length_append, List.length_drop, List.length_cons, List.length_nil]
          omega
        revert h2
        dsimp only
        split <;> simp_all

end Sys2Proof.Machine
end

