-- ==== Sys2Proof/Laws/KeepOps1.lean ====
section
/-! SUPPORT. One lemma per operation of the machine, part 1 of 4: started from a state that keeps the integration parameters and
the soundness of a state `a`, it ends in one that does. -/

namespace Sys2Proof.Machine

theorem Keeps.mk_eqs {a s : State} (x_pending : List Instr) (x_ts : ℕ) (x_beat : BeatSt) (x_latNs : Latches)
    (x_latS : Latches) (x_inflight : List InFlight) (x_waiting : List Waiting) (x_seq : ℕ)
    (x_charges : List (Inst × ℕ × ℕ)) (x_squallDebt : List (Inst × ℕ × ℕ)) (x_pairSpent : KV (ℕ × ℕ)) (x_regs : Regs)
    (x_mbxNsIn : Mbx) (x_mbxNsOut : Mbx) (x_mbxSIn : Mbx) (x_mbxSOut : Mbx) (x_ansNs : List Answer)
    (x_ansS : List Answer) (x_layouts : KV Layout) (x_rules : KV Rule) (x_streams : KV Stream) (x_stash : KV Stash)
    (x_queues : Vector Queue 16) (x_remap : KV (ℕ × Bool)) (x_cache : KV Line) (x_units : KV Stall)
    (x_fencedStalls : KV Bool) (x_refreshDebt : KV ℤ) (x_refreshPtr : KV ℕ) (x_sites : Vector Site 20)
    (x_chans : KV Chan) (x_spots : List Spot) (x_defer : List Deferred) (x_outst : List PendReq) (x_nextReq : ℕ)
    (x_tracker : ℕ) (x_heldNarrow : List HeldNarrow) (x_arb : KV Arb) (x_xstreams : KV XStream)
    (x_linkFrom : Option ℕ) (x_linkAt : ℕ) (x_xheld : List (ℕ × Emit)) (x_power : Power) (x_boot : Boot) (x_sec : Sec)
    (x_tap : Tap) (x_bdregs : KV W32) (x_fatal : Bool) (x_out : List Emit) (x_fresh : ℕ) : Keeps a
    ⟨x_pending, s.par, x_ts, x_beat, x_latNs, x_latS, s.cfg, s.rings, s.turn, s.awn, s.stage, x_inflight, x_waiting, x_seq, x_charges, x_squallDebt, x_pairSpent, x_regs, x_mbxNsIn, x_mbxNsOut, x_mbxSIn, x_mbxSOut, x_ansNs, x_ansS, x_layouts, x_rules, x_streams, x_stash, x_queues, s.dram, s.chk, x_remap, x_cache, x_units, x_fencedStalls, x_refreshDebt, x_refreshPtr, x_sites, x_chans, x_spots, x_defer, x_outst, x_nextReq, x_tracker, x_heldNarrow, x_arb, x_xstreams, s.link, x_linkFrom, x_linkAt, x_xheld, x_power, x_boot, x_sec, s.tally, s.led, x_tap, x_bdregs, x_fatal, s.batching, x_out, x_fresh⟩
    ↔ Keeps a s :=
  ⟨fun h => h.eqs rfl rfl rfl rfl rfl rfl rfl rfl rfl rfl rfl rfl, fun h => h.eqs rfl rfl rfl rfl rfl rfl rfl rfl rfl rfl rfl rfl⟩

theorem keeps_fst {α : Type} {a t : State} {x : α} {p : State × α} (e : p = (t, x)) (h : Keeps a p.1) : Keeps a t := by
  subst e; exact h
theorem keeps_snd {α : Type} {a t : State} {x : α} {p : α × State} (e : p = (x, t)) (h : Keeps a p.2) : Keeps a t := by
  subst e; exact h
/-- What a verdict leaves to do keeps the invariant. -/
def VKeeps (a : State) : Verdict → Prop
  | .finish _ _ t => Keeps a t
  | .wait t => Keeps a t
  | .book _ _ _ eff => ∀ t, Keeps a t → Keeps a (eff t)
  | _ => True
theorem vk_refuse {a : State} (x y : Nat) : VKeeps a (.refuse x y) := True.intro
theorem vk_refuseWith {a : State} (x y z w : Nat) : VKeeps a (.refuseWith x y z w) := True.intro
theorem vk_deny {a : State} (x : Nat) : VKeeps a (.deny x) := True.intro
theorem vk_finishBody {a : State} (x y : Nat) (b : BitVec 192) : VKeeps a (.finishBody x y b) := True.intro
theorem vk_finish {a t : State} (h : Keeps a t) (x y : Nat) : VKeeps a (.finish x y t) := h
theorem vk_wait {a t : State} (h : Keeps a t) : VKeeps a (.wait t) := h
theorem vk_book {a : State} {f : State → State} (h : ∀ t, Keeps a t → Keeps a (f t)) {w t : List (Inst × Rat)}
    {c : OrderCtx} : VKeeps a (.book w t c f) := h
theorem vk_book_id {a : State} {w t : List (Inst × Rat)} {c : OrderCtx} : VKeeps a (.book w t c id) :=
  fun _ h => h
/-- The state of a performed order keeps the invariant. -/
def PKeeps (a : State) : Perf → Prop
  | .done _ t => Keeps a t
  | .fail _ _ _ t => Keeps a t
  | .notYet => True
theorem pk_done {a t : State} (h : Keeps a t) (x : Nat) : PKeeps a (.done x t) := h
theorem pk_fail {a t : State} (h : Keeps a t) (x y z : Nat) : PKeeps a (.fail x y z t) := h
theorem pk_of_done {a t : State} {x : Nat} {p : Perf} (e : p = .done x t) (h : PKeeps a p) : Keeps a t := by
  subst e; exact h
theorem pk_of_fail {a t : State} {x y z : Nat} {p : Perf} (e : p = .fail x y z t) (h : PKeeps a p) : Keeps a t := by
  subst e; exact h
theorem pk_notYet {a : State} : PKeeps a .notYet := True.intro
/-- The next state of an outcome, where there is one, keeps the invariant. -/
def OKeeps (a : State) (o : Host.Outcome State Fault Refusal) : Prop := ∀ t, o = .next t → Keeps a t
theorem ok_next {a s : State} (h : Keeps a s) : OKeeps a (.next s) := by
  intro t e; cases e; exact h
theorem ok_fault {a : State} (f : Fault) : OKeeps a (.fault f) := by
  intro t e; cases e

theorem ringOk_mod {f : RingSt → RingSt} {g : RingSt} (hg : RingOk g) (h1 : (f g).depth = g.depth)
    (h2 : (f g).head < 131072) (h3 : (f g).tail < 131072) (h4 : (f g).rcpHead < 131072) (h5 : (f g).rcpTail < 131072)
    (h6 : (f g).irq = g.irq) : RingOk (f g) :=
  ⟨h1 ▸ hg.depth, h2, h3, h4, h5, h6 ▸ hg.irq⟩

theorem mod17 (n : Nat) : n % 131072 < 131072 := Nat.mod_lt _ (by decide)

theorem setDramChk_keeps {a s : State} (h : Keeps a s) {m : Mem} {k : KV (BitVec 36)}
    (hm : Memory.wf s.dram = true → Memory.wf m = true) (hk : chkWf s.chk = true → chkWf k = true) :
    Keeps a { s with dram := m, chk := k } :=
  h.trans ⟨rfl, id, fun i => { i with dram := hm i.dram, chk := hk i.chk }⟩

theorem setTurn_keeps {a s : State} (h : Keeps a s) {n : Nat} (hn : n < 4) : Keeps a { s with turn := n } :=
  h.trans ⟨rfl, id, fun i => { i with turn := hn }⟩

theorem setLink_keeps {a s : State} (h : Keeps a s) {n : Nat} (hn : n ≤ 2) : Keeps a { s with link := n } :=
  h.trans ⟨rfl, id, fun i => { i with link := hn }⟩

theorem Keeps.foldl_fst {α β : Type} {a : State} {g : State × β → α → State × β} (l : List α) {p : State × β}
    (h : Keeps a p.1) (hg : ∀ p x, Keeps a p.1 → Keeps a (g p x).1) : Keeps a (l.foldl g p).1 := by
  induction l generalizing p with
  | nil => exact h
  | cons x r ih => exact ih (hg p x h)

theorem resetWith_inv (p : Params) (c : W32) (hp : 256 ≤ p.awnMib) : Inv (State.resetWith p c) where
  par := hp
  awn := rfl
  stage := rfl
  dram := rfl
  chk := rfl
  turn := Nat.zero_lt_succ 3
  rings r := by
    have : (State.resetWith p c).rings[r] = RingSt.reset := by
      show (Vector.replicate 5 RingSt.reset)[r] = _
      simp
    rw [this]
    exact ⟨by decide, by decide, by decide, by decide, by decide, by decide⟩
  cfg := by
    constructor <;> simp [State.resetWith, Cfg.reset, inRange]
    omega
  tally := ⟨fun e he => absurd he List.not_mem_nil, fun e he => absurd he List.not_mem_nil⟩
  led := ⟨Nat.zero_le _, Nat.zero_lt_succ 65535⟩
  link := Nat.zero_le 2
  calm := rfl

theorem cfgSet_ok {w : ℕ} {c : Cfg} (hc : CfgOk w c) {key v lo hi : ℕ} (hr : cfgRange w key = some (lo, hi))
    (h1 : lo ≤ v)
    (h2 : v ≤ hi) : CfgOk w (cfgSet c key v) := by
  unfold cfgRange at hr
  split at hr <;> simp only [Option.some.injEq, Prod.mk.injEq, reduceCtorEq] at hr <;> obtain ⟨rfl, rfl⟩ := hr <;>
    first
      | exact { hc with period := .inr ⟨h1, h2⟩ }
      | exact { hc with rho := ⟨h1, h2⟩ }
      | exact { hc with budget := ⟨h1, h2⟩ }
      | exact { hc with spotLog := ⟨h1, h2⟩ }
      | exact { hc with slots := ⟨h1, h2⟩ }
      | exact { hc with scrubS := ⟨h1, h2⟩ }
      | exact { hc with lastThr := ⟨h1, h2⟩ }
      | exact { hc with lastLeak := ⟨h1, h2⟩ }
      | exact { hc with tranThr := ⟨h1, h2⟩ }
      | exact { hc with tranLeak := ⟨h1, h2⟩ }
      | exact { hc with suspectS := ⟨h1, h2⟩ }
      | exact { hc with spareLow := ⟨h1, h2⟩ }
      | exact { hc with cirPct := ⟨h1, h2⟩ }
      | exact { hc with hyst := ⟨h1, h2⟩ }
      | exact { hc with ledRec := ⟨h1, h2⟩ }
      | exact { hc with fillLevel := ⟨h1, h2⟩ }
      | exact { hc with fwDefault := ⟨h1, h2⟩ }
      | exact hc

theorem cfgFold_ok {s : State} {o : Order} (l : List ℕ) (hm : ∀ b ∈ l, cfgPairMal s o b = []) {c : Cfg}
    (hc : CfgOk s.par.awnMib c) : CfgOk s.par.awnMib (l.foldl (fun c b => cfgSet c (fld o b 2) (fld o (b + 4) 8)) c) := by
  induction l generalizing c with
  | nil => exact hc
  | cons b r ih =>
    refine ih (fun x hx => hm x (List.mem_cons_of_mem _ hx)) ?_
    have h := (List.append_eq_nil_iff.mp (hm b List.mem_cons_self)).2
    split at h
    · cases h
    · rename_i lo hi e
      have hb : ¬(fld o (b + 4) 8 < lo ∨ hi < fld o (b + 4) 8) := by
        intro hx
        simp [badIf, hx] at h
      exact cfgSet_ok hc e (by omega) (by omega)

theorem leastOf_none {l : List ℕ} (h : leastOf l = none) : l = [] := by
  cases l with
  | nil => rfl
  | cons x r =>
    unfold leastOf at h
    split at h <;> cases h

theorem putJedecChk_wf {m : Mem} (h : memWf m = true) (p : ℕ) (c : BitVec 36) : memWf (putJedecChk m p c) = true := by
  unfold putJedecChk
  exact memWriteN_wf (memWriteN_wf h _ _) _ _

theorem putRaw_keeps {a s : State} (h : Keeps a s) (p : ℕ) (c : Col) (chk : BitVec 36) : Keeps a (putRaw s p c chk) :=
    by
  unfold putRaw
  dsimp only
  split
  · refine setDramChk_keeps h (fun hm => memWriteN_wf hm _ _) fun hk => ?_
    split
    · exact chkDel_wf hk _
    · exact chkPut_wf hk _ ‹_›
  · exact setDramChk_keeps h (fun hm => putJedecChk_wf (memWriteN_wf hm _ _) _ _) id

theorem writeOpen_keeps {a s : State} (h : Keeps a s) (k : ℕ) (c : Col) : Keeps a (writeOpen s k c) := by
  unfold writeOpen
  repeat' first
    | with_reducible assumption
    | with_reducible apply putRaw_keeps

theorem writeSealed_keeps {a s : State} (h : Keeps a s) (k : ℕ) (c : Col) : Keeps a (writeSealed s k c) := by
  unfold writeSealed
  repeat' first
    | with_reducible assumption
    | with_reducible apply putRaw_keeps
    | simp -zeta only
    | split
    | extract_lets

theorem writeBlockSealed_keeps {a s : State} (h : Keeps a s) (k : ℕ) (a3 : Col) (b : Col) : Keeps a
    (writeBlockSealed s k a3 b) := by
  unfold writeBlockSealed
  repeat' first
    | with_reducible assumption
    | with_reducible apply putRaw_keeps

theorem sealBlock_keeps {a s : State} (h : Keeps a s) (p : ℕ) : Keeps a (sealBlock s p) := by
  unfold sealBlock
  repeat' first
    | with_reducible assumption
    | with_reducible apply putRaw_keeps

theorem writeColAs_keeps {a s : State} (h : Keeps a s) (x1 : Bool) (k : ℕ) (c : Col) : Keeps a (writeColAs x1 s k c)
    := by
  unfold writeColAs
  repeat' first
    | with_reducible assumption
    | with_reducible apply writeOpen_keeps
    | with_reducible apply writeSealed_keeps
    | split

theorem writeArea_keeps {a : State} (x1 : Bool) (f : ℕ → ℕ) (n : ℕ) {s : State} (h : Keeps a s) (x : ℕ) (b : Bytes) :
    Keeps a (writeArea x1 f n s x b) := by
  induction n generalizing s x b with
  | zero => exact h
  | succ n ih =>
    cases b with
    | nil => exact h
    | cons b r => exact ih (writeColAs_keeps h ..) ..

theorem writeBytes_keeps {a s : State} (h : Keeps a s) (x1 : Bool) (f : ℕ → ℕ) (x : ℕ) (b : Bytes) : Keeps a
    (writeBytes x1 s f x b) := by
  unfold writeBytes
  repeat' first
    | with_reducible assumption
    | with_reducible apply writeArea_keeps

theorem freeBytes_keeps {a s : State} (h : Keeps a s) (n : ℕ) : Keeps a (freeBytes s n).2 := by
  unfold freeBytes
  repeat' first
    | with_reducible assumption
    | simp -zeta only [Keeps.mk_eqs]

theorem send_keeps {a s : State} (h : Keeps a s) (e : Emit) : Keeps a (send s e) := by
  unfold send
  repeat' first
    | with_reducible assumption
    | simp -zeta only [Keeps.mk_eqs]

theorem ringIrq_keeps {a s : State} (h : Keeps a s) (r : RingId) : Keeps a (ringIrq s r) := by
  unfold ringIrq
  repeat' first
    | with_reducible assumption
    | simp -zeta only [Keeps.mk_eqs]
    | split

theorem putReceipt_keeps {a s : State} (h : Keeps a s) (r : RingId) (w0 : BitVec 64) (body : BitVec 192)
    (irqDone : Bool) :
    Keeps a (putReceipt s r w0 body irqDone) := by
  unfold putReceipt
  extract_lets g phase bits st s1 s2 s3 notice cause s4 unread q hit
  have h1 : Keeps a s1 := setAwn_keeps h fun hm => memWriteN_wf hm _ _
  have h2 : Keeps a s2 := modRing_keeps h1 _ _ fun g hg => ⟨hg.depth, hg.head, hg.tail, hg.rcpHead, mod17 _, hg.irq⟩
  have h3 : Keeps a s3 := count_keeps h2 _ _
  have h4 : Keeps a s4 := by
    clear_value s3
    dsimp only [s4]
    split
    · refine ledAdd_keeps ?_ ..
      split
      · exact count_keeps h3 ..
      · exact h3
    · split
      · exact count_keeps h3 ..
      · split
        · exact count_keeps h3 ..
        · exact h3
  split
  · exact ringIrq_keeps h4 _
  · exact h4

theorem writeFirst_keeps {a s : State} (h : Keeps a s) (r : RingId) (x : Held) (rest : List Held) :
    Keeps a (writeFirst s r x rest) := by
  unfold writeFirst
  refine putReceipt_keeps (modRing_keeps h r _ fun g hg => ?_) ..
  exact ⟨hg.depth, hg.head, hg.tail, hg.rcpHead, hg.rcpTail, hg.irq⟩

theorem drainRing_keeps {a : State} (n : ℕ) {s : State} (h : Keeps a s) (r : RingId) : Keeps a (drainRing n s r) := by
  induction n generalizing s with
  | zero => exact h
  | succ n ih =>
    unfold drainRing
    split
    · exact h
    · split
      · exact ih (writeFirst_keeps h ..)
      · exact h

theorem dueReceipt_keeps {a s : State} (h : Keeps a s) (r : RingId) (h3 : Held) : Keeps a (dueReceipt s r h3) := by
  unfold dueReceipt
  repeat' first
    | with_reducible assumption
    | with_reducible apply modRing_keeps
    | with_reducible apply drainRing_keeps
    | split
    | extract_lets
    | exact fun g hg => ⟨hg.depth, hg.head, hg.tail, hg.rcpHead, hg.rcpTail, hg.irq⟩

theorem emitReceipt_keeps {a s : State} (h : Keeps a s) (r : RingId) (status : ℕ) (kind : ℕ) (idx : ℕ) (tag : ℕ)
    (body : BitVec 192) (irqDone : Bool) : Keeps a (emitReceipt s r status kind idx tag body irqDone) := by
  unfold emitReceipt
  repeat' first
    | with_reducible assumption
    | with_reducible apply dueReceipt_keeps

theorem dropNotice_keeps {a s : State} (h : Keeps a s) (r : RingId) (idx : ℕ) : Keeps a (dropNotice s r idx) := by
  unfold dropNotice
  repeat' first
    | with_reducible assumption
    | with_reducible apply modRing_keeps
    | extract_lets
    | exact fun g hg => ⟨hg.depth, hg.head, hg.tail, hg.rcpHead, hg.rcpTail, hg.irq⟩

theorem emitNotice_keeps {a s : State} (h : Keeps a s) (r : RingId) (status : ℕ) (kind : ℕ) (idx : ℕ) (cause : ℕ)
    (tag : ℕ) (due : ℕ) (seq : ℕ) (body : BitVec 192) : Keeps a
    (emitNotice s r status kind idx cause tag due seq body) := by
  unfold emitNotice
  repeat' first
    | with_reducible assumption
    | with_reducible apply dueReceipt_keeps
    | with_reducible apply dropNotice_keeps

theorem flushReceipts_keeps {a : State} (n : ℕ) {s : State} (h : Keeps a s) : Keeps a (flushReceipts n s) := by
  induction n generalizing s with
  | zero => exact h
  | succ n ih =>
    unfold flushReceipts
    split
    · exact ih (writeFirst_keeps h ..)
    · exact h

theorem batch_keeps {a s : State} (h : Keeps a s) {f : State → State} (hf : ∀ b t, Keeps b t → Keeps b (f t)) :
    Keeps a (batch s f) := by
  unfold batch endBatch
  split
  · exact hf _ _ h
  · rename_i hb
    have h1 := hf _ _ (Keeps.refl { s with batching := true })
    have h2 := flushReceipts_keeps (((f { s with batching := true }).rings.toList.map (fun g => g.held.length)).sum)
      (Keeps.refl { f { s with batching := true } with batching := false })
    refine h.trans ⟨h2.par.trans h1.par, fun _ => h2.calm rfl, fun i => h2.sound ?_⟩
    have j := h1.sound { i with }
    exact { j with }

theorem advanceHead_keeps {a s : State} (h : Keeps a s) (r : RingId) : Keeps a (advanceHead s r) := by
  unfold advanceHead
  have h1 : Keeps a (modRing s r (fun g => { g with head := (g.head + 1) % 131072 })) :=
    modRing_keeps h r _ fun g hg => ⟨hg.depth, mod17 _, hg.tail, hg.rcpHead, hg.rcpTail, hg.irq⟩
  refine count_keeps ?_ _ _
  split
  · exact h1
  · exact setTurn_keeps h1 (Nat.mod_lt _ (by decide))

theorem refuseOrder_keeps {a s : State} (h : Keeps a s) (r : RingId) (idx : ℕ) (o : Order) (status : ℕ) (detail : ℕ)
    (beat : ℕ) : Keeps a (refuseOrder s r idx o status detail beat) := by
  unfold refuseOrder
  repeat' first
    | with_reducible assumption
    | with_reducible apply emitReceipt_keeps

theorem finishNow_keeps {a s : State} (h : Keeps a s) (r : RingId) (idx : ℕ) (o : Order) (status : ℕ) (result : ℕ) :
    Keeps a (finishNow s r idx o status result) := by
  unfold finishNow
  repeat' first
    | with_reducible assumption
    | with_reducible apply emitReceipt_keeps

theorem dropInflight_keeps {a s : State} (h : Keeps a s) (ring : ℕ) (idx : ℕ) : Keeps a (dropInflight s ring idx) := by
  unfold dropInflight
  repeat' first
    | with_reducible assumption
    | simp -zeta only [Keeps.mk_eqs]

theorem putInflight_keeps {a s : State} (h : Keeps a s) (f : InFlight) : Keeps a (putInflight s f) := by
  unfold putInflight
  repeat' first
    | with_reducible assumption
    | simp -zeta only [Keeps.mk_eqs]

theorem completeWith_keeps {a s : State} (h : Keeps a s) (f : InFlight) (status : ℕ) (kind : ℕ) (body : BitVec 192) :
    Keeps a (completeWith s f status kind body) := by
  unfold completeWith
  repeat' first
    | with_reducible assumption
    | with_reducible apply dueReceipt_keeps
    | with_reducible apply dropNotice_keeps
    | with_reducible apply dropInflight_keeps

theorem completeG_keeps {a s : State} (h : Keeps a s) (f : InFlight) (status : ℕ) (result : ℕ) : Keeps a
    (completeG s f status result) := by
  unfold completeG
  repeat' first
    | with_reducible assumption
    | with_reducible apply completeWith_keeps

theorem putLayout_keeps {a s : State} (h : Keeps a s) (id : ℕ) (l : Layout) : Keeps a (putLayout s id l) := by
  unfold putLayout
  repeat' first
    | with_reducible assumption
    | simp -zeta only [Keeps.mk_eqs]

theorem modLayout_keeps {a s : State} (h : Keeps a s) (id : ℕ) (f : Layout → Layout) : Keeps a (modLayout s id f) := by
  unfold modLayout
  repeat' first
    | with_reducible assumption
    | with_reducible apply putLayout_keeps
    | split

theorem modShard_keeps {a s : State} (h : Keeps a s) (id : ℕ) (f : Shard → Shard) : Keeps a (modShard s id f) := by
  unfold modShard
  repeat' first
    | with_reducible assumption
    | with_reducible apply modLayout_keeps

theorem fwDeny_keeps {a s : State} (h : Keeps a s) (layout : ℕ) : Keeps a (fwDeny s layout) := by
  unfold fwDeny
  repeat' first
    | with_reducible assumption
    | simp -zeta only [Keeps.mk_eqs]
    | split
    | extract_lets

theorem notePeak_keeps {a s : State} (h : Keeps a s) : Keeps a (notePeak s) := by
  unfold notePeak
  repeat' first
    | with_reducible assumption
    | simp -zeta only [Keeps.mk_eqs]

theorem takeLotEntries_keeps {a s : State} (h : Keeps a s) (f : InFlight) : Keeps a (takeLotEntries s f).1 := by
  unfold takeLotEntries
  repeat' first
    | with_reducible assumption
    | simp -zeta only [Keeps.mk_eqs]
    | split
    | extract_lets

theorem grantLot_keeps {a s : State} (h : Keeps a s) (ring : ℕ) (idx : ℕ) : Keeps a (grantLot s ring idx) := by
  unfold grantLot
  repeat' first
    | with_reducible assumption
    | with_reducible apply takeLotEntries_keeps
    | with_reducible apply notePeak_keeps
    | with_reducible apply putInflight_keeps
    | split

theorem admitOrder_keeps {a s : State} (h : Keeps a s) (r : RingId) (idx : ℕ) (o : Order) (bk : List Booking)
    (ctx : OrderCtx) : Keeps a (admitOrder s r idx o bk ctx) := by
  unfold admitOrder
  repeat' first
    | with_reducible assumption
    | with_reducible apply grantLot_keeps
    | with_reducible apply modRing_keeps
    | with_reducible apply emitReceipt_keeps
    | simp -zeta only [Keeps.mk_eqs]
    | extract_lets
    | exact fun g hg => ⟨hg.depth, hg.head, hg.tail, hg.rcpHead, hg.rcpTail, hg.irq⟩

theorem sendLate_keeps {a s : State} (h : Keeps a s) (f : InFlight) (expected : ℕ) (cause : ℕ) : Keeps a
    (sendLate s f expected cause) := by
  unfold sendLate
  repeat' first
    | with_reducible assumption
    | with_reducible apply putInflight_keeps
    | with_reducible apply emitNotice_keeps

theorem lateCheck_keeps {a s : State} (h : Keeps a s) (cause : ℕ) : Keeps a (lateCheck s cause) := by
  unfold lateCheck
  repeat' first
    | with_reducible assumption
    | with_reducible apply sendLate_keeps
    | simp -zeta only [Keeps.mk_eqs]
    | with_reducible refine Keeps.foldl _ ?_ (fun t x ht => ?_)
    | split
    | extract_lets

theorem lateAtStrobe_keeps {a s : State} (h : Keeps a s) : Keeps a (lateAtStrobe s) := by
  unfold lateAtStrobe
  repeat' first
    | with_reducible assumption
    | with_reducible apply sendLate_keeps
    | simp -zeta only [Keeps.mk_eqs]
    | with_reducible refine Keeps.foldl _ ?_ (fun t x ht => ?_)
    | split
    | extract_lets
    | dsimp +zetaDelta only

theorem charge_keeps {a s : State} (h : Keeps a s) (i : Inst) (start : ℕ) : Keeps a (charge s i start) := by
  unfold charge
  repeat' first
    | with_reducible assumption
    | simp -zeta only [Keeps.mk_eqs]
    | split
    | extract_lets

theorem putStream_keeps {a s : State} (h : Keeps a s) (node : ℕ) (x : XStream) : Keeps a (putStream s node x) := by
  unfold putStream
  repeat' first
    | with_reducible assumption
    | simp -zeta only [Keeps.mk_eqs]

theorem sendCtl_keeps {a s : State} (h : Keeps a s) (node : ℕ) (kind : ℕ) (epoch : BitVec 16) (reason : ℕ) : Keeps a
    (sendCtl s node kind epoch reason) := by
  unfold sendCtl
  repeat' first
    | with_reducible assumption
    | with_reducible apply send_keeps

theorem newStream_keeps {a s : State} (h : Keeps a s) (node : ℕ) : Keeps a (newStream s node) := by
  unfold newStream
  repeat' first
    | with_reducible assumption
    | with_reducible apply sendCtl_keeps
    | with_reducible apply putStream_keeps

theorem ensureStream_keeps {a s : State} (h : Keeps a s) (node : ℕ) : ∀ t, ensureStream s node = some t → Keeps a t :=
    by
  intro t e
  unfold ensureStream at e
  split at e
  · cases e; exact h
  split at e
  · cases e; exact newStream_keeps h _
  split at e
  · cases e
  · cases e
    refine newStream_keeps (ledAdd_keeps ?_ ..) _
    simp only [Keeps.mk_eqs]; exact h

theorem sendOn_keeps {a s : State} (h : Keeps a s) (node : ℕ) (e : Emit) : Keeps a (sendOn s node e) := by
  unfold sendOn
  repeat' first
    | with_reducible assumption
    | with_reducible apply send_keeps
    | with_reducible apply putStream_keeps
    | split

theorem heardOn_keeps {a s : State} (h : Keeps a s) (node : ℕ) (data : Bool) : Keeps a (heardOn s node data) := by
  unfold heardOn
  repeat' first
    | with_reducible assumption
    | with_reducible apply putStream_keeps
    | split

theorem sendX_keeps {a s : State} (h : Keeps a s) (node : ℕ) (e : Emit) : Keeps a (sendX s node e) := by
  unfold sendX
  repeat' first
    | with_reducible assumption
    | with_reducible refine ensureStream_keeps ?_ _ _ (by assumption)
    | with_reducible apply sendOn_keeps
    | with_reducible apply lateCheck_keeps
    | simp -zeta only [Keeps.mk_eqs]
    | split

theorem drainHeld_keeps {a s : State} (h : Keeps a s) : Keeps a (drainHeld s) := by
  unfold drainHeld
  repeat' first
    | with_reducible assumption
    | with_reducible refine ensureStream_keeps ?_ _ _ (by assumption)
    | with_reducible apply sendOn_keeps
    | simp -zeta only [Keeps.mk_eqs]
    | with_reducible refine Keeps.foldl _ ?_ (fun t x ht => ?_)
    | split

theorem hearFrom_keeps {a s : State} (h : Keeps a s) (node : ℕ) : Keeps a (hearFrom s node) := by
  unfold hearFrom
  repeat' first
    | with_reducible assumption
    | with_reducible refine ensureStream_keeps ?_ _ _ (by assumption)
    | with_reducible apply heardOn_keeps
    | split

theorem hearCtl_keeps {a s : State} (h : Keeps a s) (node : ℕ) : Keeps a (hearCtl s node) := by
  unfold hearCtl
  repeat' first
    | with_reducible assumption
    | with_reducible refine ensureStream_keeps ?_ _ _ (by assumption)
    | with_reducible apply heardOn_keeps
    | split

theorem modChan_keeps {a s : State} (h : Keeps a s) (site : ℕ) (ch : ℕ) (f : Chan → Chan) : Keeps a
    (modChan s site ch f) := by
  unfold modChan
  repeat' first
    | with_reducible assumption
    | simp -zeta only [Keeps.mk_eqs]

theorem modSite_keeps {a s : State} (h : Keeps a s) (site : SiteId) (f : Site → Site) : Keeps a (modSite s site f) := by
  unfold modSite
  repeat' first
    | with_reducible assumption
    | simp -zeta only [Keeps.mk_eqs]

theorem putUnit_keeps {a s : State} (h : Keeps a s) (k : ℕ) (u : Stall) : Keeps a (putUnit s k u) := by
  unfold putUnit
  repeat' first
    | with_reducible assumption
    | simp -zeta only [Keeps.mk_eqs]

theorem drawPair_keeps {a s : State} (h : Keeps a s) (x : SiteId) (k : ℕ) (ns : ℕ) : Keeps a (drawPair s x k ns) := by
  unfold drawPair
  repeat' first
    | with_reducible assumption
    | simp -zeta only [Keeps.mk_eqs]
    | split
    | extract_lets

theorem fltIrq_keeps {a s : State} (h : Keeps a s) (bit : ℕ) : Keeps a (fltIrq s bit) := by
  unfold fltIrq
  repeat' first
    | with_reducible assumption
    | simp -zeta only [Keeps.mk_eqs]

theorem ityIrq_keeps {a s : State} (h : Keeps a s) (bit : ℕ) : Keeps a (ityIrq s bit) := by
  unfold ityIrq
  repeat' first
    | with_reducible assumption
    | simp -zeta only [Keeps.mk_eqs]

theorem syncHold_keeps {a s : State} (h : Keeps a s) (site : SiteId) : Keeps a (syncHold s site) := by
  unfold syncHold
  repeat' first
    | with_reducible assumption
    | with_reducible apply modSite_keeps
    | with_reducible apply charge_keeps
    | split

theorem addShardCounts_keeps {a s : State} (h : Keeps a s) (id : ℕ) (u : Upd) : Keeps a (addShardCounts s id u) := by
  unfold addShardCounts
  repeat' first
    | with_reducible assumption
    | with_reducible apply count_keeps
    | split

theorem sendTileAck_keeps {a s : State} (h : Keeps a s) (src : Origin) (code : ℕ) (hdr : Order) : Keeps a
    (sendTileAck s src code hdr) := by
  unfold sendTileAck
  repeat' first
    | with_reducible assumption
    | with_reducible apply send_keeps
    | with_reducible apply count_keeps
    | with_reducible apply sendX_keeps
    | split

theorem ackAdded_keeps {a s : State} (h : Keeps a s) (a2 : Adding) : Keeps a (ackAdded s a2) := by
  unfold ackAdded
  repeat' first
    | with_reducible assumption
    | with_reducible apply sendTileAck_keeps
    | with_reducible refine Keeps.foldl _ ?_ (fun t x ht => ?_)

theorem flushTiles_keeps {a s : State} (h : Keeps a s) (u : Upd) : Keeps a (flushTiles s u) := by
  unfold flushTiles
  repeat' first
    | with_reducible assumption
    | with_reducible apply ackAdded_keeps
    | with_reducible refine Keeps.foldl _ ?_ (fun t x ht => ?_)

theorem dropSpots_keeps {a s : State} (h : Keeps a s) (p : Spot → Bool) : Keeps a (dropSpots s p) := by
  unfold dropSpots
  repeat' first
    | with_reducible assumption
    | with_reducible apply count_keeps
    | simp -zeta only [Keeps.mk_eqs]
    | with_reducible refine Keeps.foldl _ ?_ (fun t x ht => ?_)
    | split

theorem endCounts_keeps {a s : State} (h : Keeps a s) (status : ℕ) (id : ℕ) (u : Upd) : Keeps a
    (endCounts s status id u) := by
  unfold endCounts
  repeat' first
    | with_reducible assumption
    | with_reducible apply addShardCounts_keeps
    | split

theorem endUpdate_keeps {a s : State} (h : Keeps a s) (id : ℕ) (status : ℕ) (reason : ℕ) (cnt : ℕ) (st : ShardSt) :
    Keeps a (endUpdate s id status reason cnt st) := by
  unfold endUpdate
  repeat' first
    | with_reducible assumption
    | with_reducible apply modShard_keeps
    | with_reducible apply dropSpots_keeps
    | with_reducible apply flushTiles_keeps
    | with_reducible apply modLayout_keeps
    | with_reducible apply endCounts_keeps
    | with_reducible apply completeWith_keeps
    | simp -zeta only [Keeps.mk_eqs]
    | split
    | extract_lets
    | dsimp +zetaDelta only

theorem damageShard_keeps {a s : State} (h : Keeps a s) (id : ℕ) : Keeps a (damageShard s id) := by
  unfold damageShard
  repeat' first
    | with_reducible assumption
    | with_reducible apply endUpdate_keeps
    | with_reducible apply modShard_keeps
    | split

theorem damageLayouts_keeps {a s : State} (h : Keeps a s) (p : Machine.PUnit → Bool) : Keeps a (damageLayouts s p) := by
  unfold damageLayouts
  repeat' first
    | with_reducible assumption
    | with_reducible apply fltIrq_keeps
    | with_reducible apply ledAdd_keeps
    | with_reducible apply damageShard_keeps
    | simp -zeta only [Keeps.mk_eqs]
    | with_reducible refine Keeps.foldl _ ?_ (fun t x ht => ?_)
    | split
    | extract_lets

theorem loseRequests_keeps {a s : State} (h : Keeps a s) (p : ℕ → Bool) : Keeps a (loseRequests s p) := by
  unfold loseRequests
  repeat' first
    | with_reducible assumption
    | simp -zeta only [Keeps.mk_eqs]

theorem reliefTakeover_keeps {a s : State} (h : Keeps a s) (site : ℕ) (ch : ℕ) (pair : ℕ) : Keeps a
    (reliefTakeover s site ch pair) := by
  unfold reliefTakeover
  repeat' first
    | with_reducible assumption
    | with_reducible apply putUnit_keeps
    | simp -zeta only [Keeps.mk_eqs]

theorem fenceStallNow_keeps {a s : State} (h : Keeps a s) (site : ℕ) (ch : ℕ) (pair : ℕ) : Keeps a
    (fenceStallNow s site ch pair) := by
  unfold fenceStallNow
  repeat' first
    | with_reducible assumption
    | with_reducible refine batch_keeps ?_ (fun b t ht => ?_)
    | with_reducible apply fltIrq_keeps
    | with_reducible apply ledAdd_keeps
    | with_reducible apply lateCheck_keeps
    | with_reducible apply reliefTakeover_keeps
    | simp -zeta only [Keeps.mk_eqs]
    | split

theorem setLive_keeps {a s : State} (h : Keeps a s) (site : SiteId) (m : BitVec 32) : Keeps a (setLive s site m) := by
  unfold setLive
  repeat' first
    | with_reducible assumption
    | with_reducible apply modSite_keeps
    | simp -zeta only [Keeps.mk_eqs]
    | split
    | extract_lets

theorem idleUnits_keeps {a s : State} (h : Keeps a s) (p : ℕ → Bool) : Keeps a (idleUnits s p) := by
  unfold idleUnits
  repeat' first
    | with_reducible assumption
    | simp -zeta only [Keeps.mk_eqs]

theorem fenceChanNow_keeps {a s : State} (h : Keeps a s) (site : SiteId) (ch : ℕ) : Keeps a (fenceChanNow s site ch)
    := by
  unfold fenceChanNow
  repeat' first
    | with_reducible assumption
    | with_reducible refine batch_keeps ?_ (fun b t ht => ?_)
    | with_reducible apply syncHold_keeps
    | with_reducible apply modChan_keeps
    | with_reducible apply setLive_keeps
    | with_reducible apply fltIrq_keeps
    | with_reducible apply ledAdd_keeps
    | with_reducible apply loseRequests_keeps
    | with_reducible apply idleUnits_keeps
    | with_reducible apply lateCheck_keeps
    | with_reducible apply damageLayouts_keeps
    | split

theorem fenceSiteNow_keeps {a s : State} (h : Keeps a s) (site : SiteId) (responds : Bool) : Keeps a
    (fenceSiteNow s site responds) := by
  unfold fenceSiteNow
  repeat' first
    | with_reducible assumption
    | with_reducible refine batch_keeps ?_ (fun b t ht => ?_)
    | with_reducible apply syncHold_keeps
    | with_reducible apply modSite_keeps
    | with_reducible apply setLive_keeps
    | with_reducible apply fltIrq_keeps
    | with_reducible apply ledAdd_keeps
    | with_reducible apply loseRequests_keeps
    | with_reducible apply idleUnits_keeps
    | with_reducible apply lateCheck_keeps
    | with_reducible apply damageLayouts_keeps
    | simp -zeta only [Keeps.mk_eqs]
    | split

theorem applyDeferred_keeps {a s : State} (h : Keeps a s) (d : Deferred) : Keeps a (applyDeferred s d) := by
  unfold applyDeferred
  repeat' first
    | with_reducible assumption
    | with_reducible refine batch_keeps ?_ (fun b t ht => ?_)
    | with_reducible apply fenceStallNow_keeps
    | with_reducible apply fenceChanNow_keeps
    | with_reducible apply fenceSiteNow_keeps
    | with_reducible apply damageShard_keeps
    | with_reducible apply putUnit_keeps
    | with_reducible apply finishNow_keeps
    | split

theorem requestDeferred_keeps {a s : State} (h : Keeps a s) (d : Deferred) : Keeps a (requestDeferred s d) := by
  unfold requestDeferred
  repeat' first
    | with_reducible assumption
    | with_reducible apply applyDeferred_keeps
    | simp -zeta only [Keeps.mk_eqs]
    | split

theorem bump_keeps {a s : State} (h : Keeps a s) : Keeps a (bump s) := by
  unfold bump
  repeat' first
    | with_reducible assumption
    | simp -zeta only [Keeps.mk_eqs]

theorem cipherWrite_keeps {a : State} (id : ℕ) (ly : Layout) (k : BitVec 256 × BitVec 256) (area n : ℕ) {s : State}
    (h : Keeps a s) (x : ℕ) (b : Bytes) : Keeps a (cipherWrite id ly k area n s x b) := by
  induction n generalizing s x b with
  | zero => exact h
  | succ n ih =>
    cases b with
    | nil => exact h
    | cons b r => exact ih (writeBytes_keeps h ..) ..

theorem stackWrite_keeps {a s : State} (h : Keeps a s) (id : ℕ) (ly : Layout) (area : ℕ) (x : ℕ) (b : Bytes) : Keeps a
    (stackWrite s id ly area x b) := by
  unfold stackWrite
  repeat' first
    | with_reducible assumption
    | with_reducible apply writeBytes_keeps
    | with_reducible apply cipherWrite_keeps
    | split

theorem evict_keeps {a s : State} (h : Keeps a s) (k : ℕ) : Keeps a (evict s k) := by
  unfold evict
  repeat' first
    | with_reducible assumption
    | with_reducible apply stackWrite_keeps
    | simp -zeta only [Keeps.mk_eqs]
    | split
    | extract_lets
    | dsimp +zetaDelta only

theorem discardLines_keeps {a s : State} (h : Keeps a s) (id : ℕ) (area : Option ℕ) : Keeps a (discardLines s id area)
    := by
  unfold discardLines
  repeat' first
    | with_reducible assumption
    | simp -zeta only [Keeps.mk_eqs]

theorem cleanLine_keeps {a s : State} (h : Keeps a s) (k : ℕ) : Keeps a (cleanLine s k) := by
  unfold cleanLine
  repeat' first
    | with_reducible assumption
    | with_reducible apply stackWrite_keeps
    | simp -zeta only [Keeps.mk_eqs]
    | split

theorem cleanRow_keeps {a s : State} (h : Keeps a s) (x : ℕ) (c : ℕ) (bank : ℕ) (row : ℕ) : Keeps a
    (cleanRow s x c bank row) := by
  unfold cleanRow
  repeat' first
    | with_reducible assumption
    | with_reducible apply cleanLine_keeps
    | with_reducible refine Keeps.foldl _ ?_ (fun t x ht => ?_)

theorem makeRoom_keeps {a s : State} (h : Keeps a s) : Keeps a (makeRoom s) := by
  unfold makeRoom
  repeat' first
    | with_reducible assumption
    | with_reducible apply bump_keeps
    | with_reducible apply evict_keeps
    | split
    | extract_lets

theorem getLine_keeps {a s : State} (h : Keeps a s) (id : ℕ) (ly : Layout) (area x : ℕ) :
    ∀ t l, getLine s id ly area x = some (t, l) → Keeps a t := by
  intro t l e
  unfold getLine at e
  dsimp only at e
  split at e
  · cases e; exact count_keeps h _ _
  · split at e
    · cases e
      simp only [Keeps.mk_eqs]
      exact makeRoom_keeps (count_keeps h _ _)
    · cases e

theorem reqRead_keeps {a s : State} (h : Keeps a s) (id : ℕ) (ly : Layout) (area x n : ℕ) :
    Keeps a (reqRead s id ly area x n).1 := by
  unfold reqRead
  split
  · refine Keeps.foldl_fst _ h fun p x hp => ?_
    split
    · exact getLine_keeps hp _ _ _ _ _ _ ‹_›
    · exact hp
  · exact h

theorem reqWrite_keeps {a s : State} (h : Keeps a s) (id : ℕ) (ly : Layout) (area x : ℕ) (b : Bytes) :
    Keeps a (reqWrite s id ly area x b) := by
  unfold reqWrite
  split
  · refine Keeps.foldl _ h fun t p ht => ?_
    dsimp only
    split
    · have h1 := getLine_keeps ht _ _ _ _ _ _ ‹_›
      split
      · simp only [Keeps.mk_eqs]; exact h1
      · exact stackWrite_keeps h1 ..
    · exact stackWrite_keeps ht ..
  · exact stackWrite_keeps h ..

theorem areaWrite_keeps {a s : State} (h : Keeps a s) (id : ℕ) (ly : Layout) (area : ℕ) (x : ℕ) (b : Bytes) : Keeps a
    (areaWrite s id ly area x b) := by
  unfold areaWrite
  repeat' first
    | with_reducible assumption
    | with_reducible apply stackWrite_keeps
    | simp -zeta only [Keeps.mk_eqs]
    | with_reducible refine Keeps.foldl _ ?_ (fun t x ht => ?_)
    | split
    | extract_lets

theorem noteOpenReads_keeps {a s : State} (h : Keeps a s) (cols : List ℕ) : Keeps a (noteOpenReads s cols) := by
  unfold noteOpenReads
  repeat' first
    | with_reducible assumption
    | with_reducible apply modChan_keeps
    | with_reducible refine Keeps.foldl _ ?_ (fun t x ht => ?_)

theorem releaseSlot_keeps {a s : State} (h : Keeps a s) (id : ℕ) (v : ℕ) : Keeps a (releaseSlot s id v) := by
  unfold releaseSlot
  repeat' first
    | with_reducible assumption
    | with_reducible apply discardLines_keeps
    | with_reducible apply modLayout_keeps

theorem giveUpSlot_keeps {a s : State} (h : Keeps a s) (id : ℕ) (v : ℕ) (ver : ℕ) : Keeps a (giveUpSlot s id v ver) :=
    by
  unfold giveUpSlot
  repeat' first
    | with_reducible assumption
    | with_reducible apply modLayout_keeps
    | with_reducible apply releaseSlot_keeps
    | split

theorem settleSlots_keeps {a s : State} (h : Keeps a s) : Keeps a (settleSlots s) := by
  unfold settleSlots
  repeat' first
    | with_reducible assumption
    | with_reducible apply releaseSlot_keeps
    | with_reducible refine Keeps.foldl _ ?_ (fun t x ht => ?_)
    | split

theorem requestRanges_keeps {a s : State} (h : Keeps a s) (o : Order) (rs : List (ℕ × ℕ)) : Keeps a
    (requestRanges s o rs) := by
  unfold requestRanges
  repeat' first
    | with_reducible assumption
    | with_reducible apply sendX_keeps
    | with_reducible refine Keeps.foldl _ ?_ (fun t x ht => ?_)
    | split

theorem rerequest_keeps {a s : State} (h : Keeps a s) (node : ℕ) : Keeps a (rerequest s node) := by
  unfold rerequest
  repeat' first
    | with_reducible assumption
    | with_reducible apply requestRanges_keeps
    | with_reducible refine Keeps.foldl _ ?_ (fun t x ht => ?_)

theorem resumeDeliveries_keeps {a s : State} (h : Keeps a s) (node : ℕ) (es : List Emit) : Keeps a
    (resumeDeliveries s node es) := by
  unfold resumeDeliveries
  repeat' first
    | with_reducible assumption
    | with_reducible apply sendOn_keeps
    | with_reducible refine Keeps.foldl _ ?_ (fun t x ht => ?_)

theorem enterUp_keeps {a s : State} (h : Keeps a s) (node : ℕ) (x : XStream) (epoch : BitVec 16) : Keeps a
    (enterUp s node x epoch) := by
  unfold enterUp
  repeat' first
    | with_reducible assumption
    | with_reducible apply putStream_keeps
    | with_reducible apply ledAdd_keeps
    | with_reducible apply drainHeld_keeps
    | with_reducible apply rerequest_keeps
    | with_reducible apply resumeDeliveries_keeps
    | split

theorem onClose_keeps {a s : State} (h : Keeps a s) (node : ℕ) (epoch : BitVec 16) : Keeps a (onClose s node epoch) :=
    by
  unfold onClose
  repeat' first
    | with_reducible assumption
    | with_reducible apply sendCtl_keeps
    | with_reducible apply putStream_keeps
    | split

theorem onSync_keeps {a s : State} (h : Keeps a s) (node : ℕ) (epoch : BitVec 16) (reason : BitVec 8) : Keeps a
    (onSync s node epoch reason) := by
  unfold onSync
  repeat' first
    | with_reducible assumption
    | with_reducible apply enterUp_keeps
    | with_reducible apply sendCtl_keeps
    | split

theorem onSyncAck_keeps {a s : State} (h : Keeps a s) (node : ℕ) (epoch : BitVec 16) : Keeps a
    (onSyncAck s node epoch) := by
  unfold onSyncAck
  repeat' first
    | with_reducible assumption
    | with_reducible apply enterUp_keeps
    | split

theorem execClose_keeps {a s : State} (h : Keeps a s) (node : BitVec 24) (epoch : BitVec 16) (x3 : BitVec 8) : OKeeps
    a (execClose node epoch x3 s) := by
  unfold execClose
  repeat' first
    | with_reducible assumption
    | with_reducible apply onClose_keeps
    | with_reducible apply hearCtl_keeps
    | with_reducible apply ok_next
    | split

theorem execSync_keeps {a s : State} (h : Keeps a s) (node : BitVec 24) (epoch : BitVec 16) (reason : BitVec 8) :
    OKeeps a (execSync node epoch reason s) := by
  unfold execSync
  repeat' first
    | with_reducible assumption
    | with_reducible apply onSync_keeps
    | with_reducible apply hearCtl_keeps
    | with_reducible apply ok_next
    | split

theorem execSyncAck_keeps {a s : State} (h : Keeps a s) (node : BitVec 24) (epoch : BitVec 16) (x3 : BitVec 8) :
    OKeeps a (execSyncAck node epoch x3 s) := by
  unfold execSyncAck
  repeat' first
    | with_reducible assumption
    | with_reducible apply onSyncAck_keeps
    | with_reducible apply hearCtl_keeps
    | with_reducible apply ok_next
    | split

theorem execSyncResend_keeps {a s : State} (h : Keeps a s) (node : BitVec 24) : OKeeps a (execSyncResend node s) := by
  unfold execSyncResend
  repeat' first
    | with_reducible assumption
    | with_reducible apply sendCtl_keeps
    | with_reducible apply ok_next
    | split

theorem chargeLink_keeps {a s : State} (h : Keeps a s) : Keeps a (chargeLink s) := by
  unfold chargeLink
  repeat' first
    | with_reducible assumption
    | with_reducible apply charge_keeps
    | simp -zeta only [Keeps.mk_eqs]
    | split
    | extract_lets

theorem linkDown_keeps {a s : State} (h : Keeps a s) : Keeps a (linkDown s) := by
  unfold linkDown
  split
  · exact h
  · dsimp only
    refine Keeps.foldl _ ?_ fun t e ht => ?_
    · exact (setLink_keeps h (n := 1) (by decide)).eqs rfl rfl rfl rfl rfl rfl rfl rfl rfl rfl rfl rfl
    · split
      · exact ledAdd_keeps (putStream_keeps ht ..) ..
      · exact ht

theorem graceEnd_keeps {a s : State} (h : Keeps a s) : Keeps a (graceEnd s) := by
  unfold graceEnd
  split
  · exact h
  · dsimp only
    refine lateCheck_keeps (Keeps.foldl _ (setLink_keeps (chargeLink_keeps h) (by decide)) fun t e ht => ?_) _
    split
    · exact fltIrq_keeps (ledAdd_keeps (putStream_keeps ht ..) ..) _
    · exact ht

theorem linkRise_keeps {a s : State} (h : Keeps a s) : Keeps a (linkRise s) := by
  unfold linkRise
  split
  · exact h
  · extract_lets known s1
    have hk : ∀ t, Keeps a t → Keeps a (known t) := fun t ht => by
      dsimp only [known]
      split
      · exact lateCheck_keeps ht _
      · exact ht
    refine hk _ (drainHeld_keeps (Keeps.foldl _ (setLink_keeps (chargeLink_keeps h) (by decide)) fun t e ht => ?_))
    dsimp only
    split
    · exact putStream_keeps ht ..
    · exact sendCtl_keeps (sendCtl_keeps (putStream_keeps ht ..) ..) ..
    · exact ht

theorem linkUp_keeps {a s : State} (h : Keeps a s) : Keeps a (linkUp s) := by
  unfold linkUp
  repeat' first
    | with_reducible assumption
    | with_reducible refine batch_keeps ?_ (fun b t ht => ?_)
    | with_reducible apply linkRise_keeps
    | with_reducible apply graceEnd_keeps
    | split

theorem execLinkDown_keeps {a s : State} (h : Keeps a s) : OKeeps a (execLinkDown s) := by
  unfold execLinkDown
  repeat' first
    | with_reducible assumption
    | with_reducible apply linkDown_keeps
    | with_reducible apply ok_next

theorem execLinkUp_keeps {a s : State} (h : Keeps a s) : OKeeps a (execLinkUp s) := by
  unfold execLinkUp
  repeat' first
    | with_reducible assumption
    | with_reducible apply linkUp_keeps
    | with_reducible apply ok_next

theorem execGraceEnd_keeps {a s : State} (h : Keeps a s) : OKeeps a (execGraceEnd s) := by
  unfold execGraceEnd
  repeat' first
    | with_reducible assumption
    | with_reducible apply graceEnd_keeps
    | with_reducible apply ok_next

theorem Verdict.whole_keeps {a : State} (s : State) (o : Order) (ctx : OrderCtx) {eff : State → State}
    (h : ∀ t, Keeps a t → Keeps a (eff t)) : VKeeps a (Verdict.whole s o ctx eff) := h

theorem answer_keeps {a s : State} (h : Keeps a s) (r : RingId) (idx : ℕ) (o : Order) (v : Verdict) (hv : VKeeps a v) :
    Keeps a (answer s r idx o v) := by
  unfold answer
  split
  · exact refuseOrder_keeps h ..
  · exact emitReceipt_keeps h ..
  · exact refuseOrder_keeps (fwDeny_keeps h _) ..
  · exact finishNow_keeps hv ..
  · exact emitReceipt_keeps h ..
  · exact hv
  · split
    · exact hv _ (admitOrder_keeps h ..)
    · exact refuseOrder_keeps h ..

theorem fwGuard_keeps {a s : State} (id : ℕ) (n : Need) {v : Verdict} (hv : VKeeps a v) : VKeeps a (fwGuard s id n v)
    := by
  unfold fwGuard
  split
  · exact True.intro
  · exact True.intro
  · exact True.intro
  · split
    · exact hv
    · exact True.intro

theorem judge_keeps {a s : State} (h : Keeps a s) (c : Opcode) (r : RingId) (idx : ℕ) (o : Order)
    (hc : leastOf (headerMal o ++ c.mal s o) = none → VKeeps a (c.chk s r idx o)) : Keeps a (judge c s r idx o) := by
  unfold judge
  split
  · exact refuseOrder_keeps h ..
  · split
    · exact refuseOrder_keeps h ..
    · exact answer_keeps h _ _ _ _ (hc ‹_›)

theorem takeOrder_keeps {a s : State} (h : Keeps a s) (c : Opcode) (r : RingId)
    (hc : ∀ b t i o, Keeps b t → leastOf (headerMal o ++ c.mal t o) = none → VKeeps b (c.chk t r i o)) :
    Keeps a (takeOrder c s r) := by
  unfold takeOrder
  split
  · refine batch_keeps h fun b t ht => ?_
    exact judge_keeps (advanceHead_keeps ht _) _ _ _ _ (hc _ _ _ _ (advanceHead_keeps ht _))
  · exact h

theorem opNop_keeps {a s : State} (h : Keeps a s) : ∀ r i o, leastOf (headerMal o ++ (opNop).mal s o) = none → VKeeps
    a ((opNop).chk s r i o) := by
  intro r i o hmal
  unfold opNop
  repeat' first
    | with_reducible assumption
    | simp -zeta only
    | with_reducible apply vk_finish

theorem execNop_keeps {a s : State} (h : Keeps a s) (r : RingId) : OKeeps a (execNop r s) := by
  unfold execNop
  repeat' first
    | with_reducible assumption
    | refine takeOrder_keeps ?_ _ _ (fun b t i o ht hm => ?_)
    | with_reducible apply opNop_keeps
    | with_reducible apply ok_next

theorem trimCache_keeps {a s : State} (h : Keeps a s) : Keeps a (trimCache s) := by
  unfold trimCache
  repeat' first
    | with_reducible assumption
    | with_reducible apply bump_keeps
    | with_reducible apply evict_keeps
    | with_reducible refine Keeps.foldl _ ?_ (fun t x ht => ?_)
    | split

theorem cfgApply_keeps {a s : State} (h : Keeps a s) (o : Order) (hm : ∀ b ∈ cfgPairs, cfgPairMal s o b = []) :
    Keeps a (cfgApply s o) := by
  unfold cfgApply
  refine trimCache_keeps ?_
  refine h.trans ⟨rfl, id, fun i => ?_⟩
  exact { i with cfg := cfgFold_ok _ hm i.cfg }

theorem opConfig_keeps {a s : State} (h : Keeps a s) : ∀ r i o, leastOf (headerMal o ++ opConfig.mal s o) = none →
    VKeeps a (opConfig.chk s r i o) := by
  intro r i o hm
  unfold opConfig
  dsimp only
  split
  · exact True.intro
  · refine cfgApply_keeps h o fun b hb => ?_
    have h1 := (List.append_eq_nil_iff.mp (leastOf_none hm)).2
    have h2 : cfgPairs.flatMap (cfgPairMal s o) = [] := h1
    exact List.flatMap_eq_nil_iff.mp h2 b hb

theorem execConfig_keeps {a s : State} (h : Keeps a s) (r : RingId) : OKeeps a (execConfig r s) := by
  unfold execConfig
  repeat' first
    | with_reducible assumption
    | refine takeOrder_keeps ?_ _ _ (fun b t i o ht hm => ?_)
    | with_reducible apply opConfig_keeps
    | with_reducible apply ok_next

theorem opLayoutDef_keeps {a s : State} (h : Keeps a s) : ∀ r i o, leastOf (headerMal o ++ (opLayoutDef).mal s o) =
    none → VKeeps a ((opLayoutDef).chk s r i o) := by
  intro r i o hmal
  unfold opLayoutDef
  repeat' first
    | with_reducible assumption
    | with_reducible apply fwGuard_keeps
    | with_reducible apply putLayout_keeps
    | simp -zeta only
    | simp only
    | with_reducible apply vk_refuse
    | with_reducible apply vk_finish
    | split

theorem execLayoutDef_keeps {a s : State} (h : Keeps a s) (r : RingId) : OKeeps a (execLayoutDef r s) := by
  unfold execLayoutDef
  repeat' first
    | with_reducible assumption
    | refine takeOrder_keeps ?_ _ _ (fun b t i o ht hm => ?_)
    | with_reducible apply opLayoutDef_keeps
    | with_reducible apply ok_next

theorem freeLayout_keeps {a s : State} (h : Keeps a s) (id : ℕ) : Keeps a (freeLayout s id) := by
  unfold freeLayout
  repeat' first
    | with_reducible assumption
    | with_reducible apply discardLines_keeps
    | with_reducible apply dropSpots_keeps
    | simp -zeta only [Keeps.mk_eqs]

theorem opLayoutFree_keeps {a s : State} (h : Keeps a s) : ∀ r i o, leastOf (headerMal o ++ (opLayoutFree).mal s o) =
    none → VKeeps a ((opLayoutFree).chk s r i o) := by
  intro r i o hmal
  unfold opLayoutFree
  repeat' first
    | with_reducible assumption
    | with_reducible apply fwGuard_keeps
    | with_reducible apply freeLayout_keeps
    | simp -zeta only
    | simp only
    | with_reducible apply vk_refuse
    | with_reducible apply vk_finish
    | split

theorem execLayoutFree_keeps {a s : State} (h : Keeps a s) (r : RingId) : OKeeps a (execLayoutFree r s) := by
  unfold execLayoutFree
  repeat' first
    | with_reducible assumption
    | refine takeOrder_keeps ?_ _ _ (fun b t i o ht hm => ?_)
    | with_reducible apply opLayoutFree_keeps
    | with_reducible apply ok_next

theorem opRuleLoad_keeps {a s : State} (h : Keeps a s) : ∀ r i o, leastOf (headerMal o ++ (opRuleLoad).mal s o) = none
    → VKeeps a ((opRuleLoad).chk s r i o) := by
  intro r i o hmal
  unfold opRuleLoad
  repeat' first
    | with_reducible assumption
    | simp -zeta only [Keeps.mk_eqs]
    | simp only
    | with_reducible apply vk_refuse
    | with_reducible apply vk_refuseWith
    | with_reducible apply vk_finish
    | split

theorem execRuleLoad_keeps {a s : State} (h : Keeps a s) (r : RingId) : OKeeps a (execRuleLoad r s) := by
  unfold execRuleLoad
  repeat' first
    | with_reducible assumption
    | refine takeOrder_keeps ?_ _ _ (fun b t i o ht hm => ?_)
    | with_reducible apply opRuleLoad_keeps
    | with_reducible apply ok_next

theorem verRelease_keeps {a s : State} (h : Keeps a s) (id : ℕ) (slot : ℕ) (v : ℕ) : VKeeps a (verRelease s id slot v)
    := by
  unfold verRelease
  repeat' first
    | with_reducible assumption
    | with_reducible apply giveUpSlot_keeps
    | with_reducible apply vk_refuse
    | with_reducible apply vk_finish
    | split

theorem opVerRelease_keeps {a s : State} (h : Keeps a s) : ∀ r i o, leastOf (headerMal o ++ (opVerRelease).mal s o) =
    none → VKeeps a ((opVerRelease).chk s r i o) := by
  intro r i o hmal
  unfold opVerRelease
  repeat' first
    | with_reducible assumption
    | with_reducible apply fwGuard_keeps
    | with_reducible apply verRelease_keeps

theorem execVerRelease_keeps {a s : State} (h : Keeps a s) (r : RingId) : OKeeps a (execVerRelease r s) := by
  unfold execVerRelease
  repeat' first
    | with_reducible assumption
    | refine takeOrder_keeps ?_ _ _ (fun b t i o ht hm => ?_)
    | with_reducible apply opVerRelease_keeps
    | with_reducible apply ok_next

theorem opDrzSeed_keeps {a s : State} (h : Keeps a s) : ∀ r i o, leastOf (headerMal o ++ (opDrzSeed).mal s o) = none →
    VKeeps a ((opDrzSeed).chk s r i o) := by
  intro r i o hmal
  unfold opDrzSeed
  repeat' first
    | with_reducible assumption
    | simp -zeta only [Keeps.mk_eqs]
    | simp only
    | with_reducible apply vk_refuse
    | with_reducible apply vk_finish
    | split

theorem opDrzDelete_keeps {a s : State} (h : Keeps a s) : ∀ r i o, leastOf (headerMal o ++ (opDrzDelete).mal s o) =
    none → VKeeps a ((opDrzDelete).chk s r i o) := by
  intro r i o hmal
  unfold opDrzDelete
  repeat' first
    | with_reducible assumption
    | simp -zeta only [Keeps.mk_eqs]
    | simp only
    | with_reducible apply vk_refuse
    | with_reducible apply vk_finish
    | split

theorem execDrzSeed_keeps {a s : State} (h : Keeps a s) (r : RingId) : OKeeps a (execDrzSeed r s) := by
  unfold execDrzSeed
  repeat' first
    | with_reducible assumption
    | refine takeOrder_keeps ?_ _ _ (fun b t i o ht hm => ?_)
    | with_reducible apply opDrzSeed_keeps
    | with_reducible apply ok_next

theorem execDrzSeedDelete_keeps {a s : State} (h : Keeps a s) (r : RingId) : OKeeps a (execDrzSeedDelete r s) := by
  unfold execDrzSeedDelete
  repeat' first
    | with_reducible assumption
    | refine takeOrder_keeps ?_ _ _ (fun b t i o ht hm => ?_)
    | with_reducible apply opDrzDelete_keeps
    | with_reducible apply ok_next

theorem setQueue_keeps {a s : State} (h : Keeps a s) (q : Fin 16) (f : Queue → Queue) : Keeps a (setQueue s q f) := by
  unfold setQueue
  repeat' first
    | with_reducible assumption
    | simp -zeta only [Keeps.mk_eqs]

theorem opQueueDefine_keeps {a s : State} (h : Keeps a s) : ∀ r i o, leastOf (headerMal o ++ (opQueueDefine).mal s o)
    = none → VKeeps a ((opQueueDefine).chk s r i o) := by
  intro r i o hmal
  unfold opQueueDefine
  repeat' first
    | with_reducible assumption
    | with_reducible apply fwGuard_keeps
    | with_reducible apply setQueue_keeps
    | simp -zeta only
    | simp only
    | with_reducible apply vk_refuse
    | with_reducible apply vk_refuseWith
    | with_reducible apply vk_finish
    | split

theorem opQueueDelete_keeps {a s : State} (h : Keeps a s) : ∀ r i o, leastOf (headerMal o ++ (opQueueDelete).mal s o)
    = none → VKeeps a ((opQueueDelete).chk s r i o) := by
  intro r i o hmal
  unfold opQueueDelete
  repeat' first
    | with_reducible assumption
    | with_reducible apply setQueue_keeps
    | simp -zeta only
    | simp only
    | with_reducible apply vk_refuse
    | with_reducible apply vk_finish
    | split

theorem opQueueRelease_keeps {a s : State} (h : Keeps a s) : ∀ r i o, leastOf
    (headerMal o ++ (opQueueRelease).mal s o) = none → VKeeps a ((opQueueRelease).chk s r i o) := by
  intro r i o hmal
  unfold opQueueRelease
  repeat' first
    | with_reducible assumption
    | with_reducible apply setQueue_keeps
    | simp -zeta only
    | simp only
    | with_reducible apply vk_refuse
    | with_reducible apply vk_finish
    | split

theorem execQueueDefDefine_keeps {a s : State} (h : Keeps a s) (r : RingId) : OKeeps a (execQueueDefDefine r s) := by
  unfold execQueueDefDefine
  repeat' first
    | with_reducible assumption
    | refine takeOrder_keeps ?_ _ _ (fun b t i o ht hm => ?_)
    | with_reducible apply opQueueDefine_keeps
    | with_reducible apply ok_next

theorem execQueueDefDelete_keeps {a s : State} (h : Keeps a s) (r : RingId) : OKeeps a (execQueueDefDelete r s) := by
  unfold execQueueDefDelete
  repeat' first
    | with_reducible assumption
    | refine takeOrder_keeps ?_ _ _ (fun b t i o ht hm => ?_)
    | with_reducible apply opQueueDelete_keeps
    | with_reducible apply ok_next

theorem execQueueDefRelease_keeps {a s : State} (h : Keeps a s) (r : RingId) : OKeeps a (execQueueDefRelease r s) := by
  unfold execQueueDefRelease
  repeat' first
    | with_reducible assumption
    | refine takeOrder_keeps ?_ _ _ (fun b t i o ht hm => ?_)
    | with_reducible apply opQueueRelease_keeps
    | with_reducible apply ok_next

theorem opRetireRow_keeps {a s : State} (_h : Keeps a s) : ∀ r i o, leastOf (headerMal o ++ (opRetireRow).mal s o) =
    none → VKeeps a ((opRetireRow).chk s r i o) := by
  intro r i o hmal
  unfold opRetireRow
  repeat' first
    | with_reducible assumption
    | with_reducible refine Verdict.whole_keeps _ _ _ (fun t ht => ?_)
    | simp -zeta only
    | simp only [id_eq]
    | with_reducible apply vk_refuse
    | split

theorem opRetirePair_keeps {a s : State} (h : Keeps a s) : ∀ r i o, leastOf (headerMal o ++ (opRetirePair).mal s o) =
    none → VKeeps a ((opRetirePair).chk s r i o) := by
  intro r i o hmal
  unfold opRetirePair
  repeat' first
    | with_reducible assumption
    | with_reducible refine Verdict.whole_keeps _ _ _ (fun t ht => ?_)
    | simp -zeta only
    | simp only [id_eq]
    | with_reducible apply vk_refuse
    | with_reducible apply vk_finish
    | split

theorem execRetireRow_keeps {a s : State} (h : Keeps a s) (r : RingId) : OKeeps a (execRetireRow r s) := by
  unfold execRetireRow
  repeat' first
    | with_reducible assumption
    | refine takeOrder_keeps ?_ _ _ (fun b t i o ht hm => ?_)
    | with_reducible apply opRetireRow_keeps
    | with_reducible apply ok_next

end Sys2Proof.Machine
end

