-- ==== Sys2Proof/Laws/KeepOps2.lean ====
section
/-! SUPPORT. One lemma per operation of the machine, part 2 of 4: started from a state that keeps the integration parameters and
the soundness of a state `a`, it ends in one that does. -/

namespace Sys2Proof.Machine

theorem execRetireBankPair_keeps {a s : State} (h : Keeps a s) (r : RingId) : OKeeps a (execRetireBankPair r s) := by
  unfold execRetireBankPair
  repeat' first
    | with_reducible assumption
    | refine takeOrder_keeps ?_ _ _ (fun b t i o ht hm => ?_)
    | with_reducible apply opRetirePair_keeps
    | with_reducible apply ok_next

theorem fenceChk_keeps {a s : State} (h : Keeps a s) (scope : ℕ) (r : RingId) (idx : ℕ) (o : Order) : VKeeps a
    (fenceChk scope s r idx o) := by
  unfold fenceChk
  repeat' first
    | with_reducible assumption
    | with_reducible apply requestDeferred_keeps
    | simp only
    | with_reducible apply vk_refuse
    | with_reducible apply vk_finish
    | with_reducible apply vk_wait
    | split

theorem opFence_keeps {a s : State} (h : Keeps a s) (scope : ℕ) : ∀ r i o, leastOf
    (headerMal o ++ (opFence scope).mal s o) = none → VKeeps a ((opFence scope).chk s r i o) := by
  intro r i o hmal
  unfold opFence
  repeat' first
    | with_reducible assumption
    | with_reducible apply fenceChk_keeps

theorem execFenceStall_keeps {a s : State} (h : Keeps a s) (r : RingId) : OKeeps a (execFenceStall r s) := by
  unfold execFenceStall
  repeat' first
    | with_reducible assumption
    | refine takeOrder_keeps ?_ _ _ (fun b t i o ht hm => ?_)
    | with_reducible apply opFence_keeps
    | with_reducible apply ok_next

theorem execFenceChannel_keeps {a s : State} (h : Keeps a s) (r : RingId) : OKeeps a (execFenceChannel r s) := by
  unfold execFenceChannel
  repeat' first
    | with_reducible assumption
    | refine takeOrder_keeps ?_ _ _ (fun b t i o ht hm => ?_)
    | with_reducible apply opFence_keeps
    | with_reducible apply ok_next

theorem execFenceSite_keeps {a s : State} (h : Keeps a s) (r : RingId) : OKeeps a (execFenceSite r s) := by
  unfold execFenceSite
  repeat' first
    | with_reducible assumption
    | refine takeOrder_keeps ?_ _ _ (fun b t i o ht hm => ?_)
    | with_reducible apply opFence_keeps
    | with_reducible apply ok_next

theorem opZeroFree_keeps {a s : State} (_h : Keeps a s) : ∀ r i o, leastOf (headerMal o ++ (opZeroFree).mal s o) = none
    → VKeeps a ((opZeroFree).chk s r i o) := by
  intro r i o hmal
  unfold opZeroFree
  repeat' first
    | with_reducible assumption
    | with_reducible refine Verdict.whole_keeps _ _ _ (fun t ht => ?_)
    | simp only [id_eq]

theorem opZeroLayout_keeps {a s : State} (_h : Keeps a s) : ∀ r i o, leastOf (headerMal o ++ (opZeroLayout).mal s o) =
    none → VKeeps a ((opZeroLayout).chk s r i o) := by
  intro r i o hmal
  unfold opZeroLayout
  repeat' first
    | with_reducible assumption
    | with_reducible refine Verdict.whole_keeps _ _ _ (fun t ht => ?_)
    | simp -zeta only
    | simp only
    | with_reducible apply vk_refuse
    | with_reducible apply vk_deny
    | split

theorem execZeroizeFreeRows_keeps {a s : State} (h : Keeps a s) (r : RingId) : OKeeps a (execZeroizeFreeRows r s) := by
  unfold execZeroizeFreeRows
  repeat' first
    | with_reducible assumption
    | refine takeOrder_keeps ?_ _ _ (fun b t i o ht hm => ?_)
    | with_reducible apply opZeroFree_keeps
    | with_reducible apply ok_next

theorem execZeroizeLayout_keeps {a s : State} (h : Keeps a s) (r : RingId) : OKeeps a (execZeroizeLayout r s) := by
  unfold execZeroizeLayout
  repeat' first
    | with_reducible assumption
    | refine takeOrder_keeps ?_ _ _ (fun b t i o ht hm => ?_)
    | with_reducible apply opZeroLayout_keeps
    | with_reducible apply ok_next

theorem opTally_keeps {a s : State} (_h : Keeps a s) : ∀ r i o, leastOf (headerMal o ++ (opTally).mal s o) = none →
    VKeeps a ((opTally).chk s r i o) := by
  intro r i o hmal
  unfold opTally
  repeat' first
    | simp -zeta only
    | simp only
    | with_reducible apply vk_refuse
    | with_reducible apply vk_deny
    | with_reducible exact vk_book_id
    | split

theorem execTally_keeps {a s : State} (h : Keeps a s) (r : RingId) : OKeeps a (execTally r s) := by
  unfold execTally
  repeat' first
    | with_reducible assumption
    | refine takeOrder_keeps ?_ _ _ (fun b t i o ht hm => ?_)
    | with_reducible apply opTally_keeps
    | with_reducible apply ok_next

theorem opLedgerDrain_keeps {a s : State} (_h : Keeps a s) : ∀ r i o, leastOf (headerMal o ++ opLedgerDrain.mal s o) =
    none →
    VKeeps a (opLedgerDrain.chk s r i o) := by
  intro r i o _
  unfold opLedgerDrain
  dsimp only
  split
  · exact True.intro
  · intro t ht
    exact setLed_keeps ht fun hl => ⟨hl.1, hl.2⟩

theorem execLedgerDrain_keeps {a s : State} (h : Keeps a s) (r : RingId) : OKeeps a (execLedgerDrain r s) := by
  unfold execLedgerDrain
  repeat' first
    | with_reducible assumption
    | refine takeOrder_keeps ?_ _ _ (fun b t i o ht hm => ?_)
    | with_reducible apply opLedgerDrain_keeps
    | with_reducible apply ok_next

theorem openUpdate_keeps {a s : State} (h : Keeps a s) (w : Waiting) (u : Upd) : Keeps a (openUpdate w u s) := by
  unfold openUpdate
  repeat' first
    | with_reducible assumption
    | with_reducible apply modLayout_keeps

theorem bookOpen_keeps {a s : State} (_h : Keeps a s) (w : Waiting) : VKeeps a (bookOpen s w) := by
  unfold bookOpen
  repeat' first
    | with_reducible assumption
    | with_reducible apply openUpdate_keeps
    | simp only
    | with_reducible refine vk_book (fun t ht => ?_)

theorem updOpenChk_keeps {a s : State} (h : Keeps a s) (r : RingId) (idx : ℕ) (o : Order) : VKeeps a
    (updOpenChk s r idx o) := by
  unfold updOpenChk
  repeat' first
    | with_reducible assumption
    | with_reducible apply bookOpen_keeps
    | simp -zeta only [Keeps.mk_eqs]
    | simp only
    | with_reducible apply vk_refuse
    | with_reducible apply vk_deny
    | with_reducible apply vk_finishBody
    | with_reducible apply vk_wait
    | split

theorem opUpdOpen_keeps {a s : State} (h : Keeps a s) : ∀ r i o, leastOf (headerMal o ++ (opUpdOpen).mal s o) = none →
    VKeeps a ((opUpdOpen).chk s r i o) := by
  intro r i o hmal
  unfold opUpdOpen
  repeat' first
    | with_reducible assumption
    | with_reducible apply updOpenChk_keeps

theorem execUpdOpen_keeps {a s : State} (h : Keeps a s) (r : RingId) : OKeeps a (execUpdOpen r s) := by
  unfold execUpdOpen
  repeat' first
    | with_reducible assumption
    | refine takeOrder_keeps ?_ _ _ (fun b t i o ht hm => ?_)
    | with_reducible apply opUpdOpen_keeps
    | with_reducible apply ok_next

theorem openAfterWait_keeps {a s : State} (h : Keeps a s) (r : RingId) : Keeps a (openAfterWait s r) := by
  unfold openAfterWait
  repeat' first
    | with_reducible assumption
    | refine answer_keeps ?_ _ _ _ _ ?_
    | with_reducible apply bookOpen_keeps
    | simp -zeta only [Keeps.mk_eqs]
    | with_reducible apply vk_refuse
    | split
    | extract_lets
    | dsimp +zetaDelta only

theorem execUpdOpenAdmitAfterWait_keeps {a s : State} (h : Keeps a s) (r : RingId) : OKeeps a
    (execUpdOpenAdmitAfterWait r s) := by
  unfold execUpdOpenAdmitAfterWait
  repeat' first
    | with_reducible assumption
    | with_reducible apply openAfterWait_keeps
    | with_reducible apply ok_next

theorem stopUpdate_keeps {a s : State} (h : Keeps a s) (id : ℕ) (reason : ℕ) (cnt : ℕ) : Keeps a
    (stopUpdate id reason cnt s) := by
  unfold stopUpdate
  repeat' first
    | with_reducible assumption
    | with_reducible apply flushTiles_keeps
    | with_reducible apply modShard_keeps
    | simp -zeta only [Keeps.mk_eqs]
    | split

theorem abortOpen_keeps {a s : State} (h : Keeps a s) (id : ℕ) : Keeps a (abortOpen id s) := by
  unfold abortOpen
  repeat' first
    | with_reducible assumption
    | with_reducible apply stopUpdate_keeps

theorem abortClosed_keeps {a s : State} (h : Keeps a s) (id : ℕ) (att : ℕ) : Keeps a (abortClosed id att s) := by
  unfold abortClosed
  repeat' first
    | with_reducible assumption
    | with_reducible apply modShard_keeps

theorem updAbortChk_keeps {a s : State} (h : Keeps a s) (x2 : RingId) (x3 : ℕ) (o : Order) : VKeeps a
    (updAbortChk s x2 x3 o) := by
  unfold updAbortChk
  repeat' first
    | with_reducible assumption
    | with_reducible refine Verdict.whole_keeps _ _ _ (fun t ht => ?_)
    | with_reducible apply abortOpen_keeps
    | with_reducible apply abortClosed_keeps
    | simp only
    | with_reducible apply vk_refuse
    | with_reducible apply vk_finish
    | split

theorem opUpdAbort_keeps {a s : State} (h : Keeps a s) : ∀ r i o, leastOf (headerMal o ++ (opUpdAbort).mal s o) = none
    → VKeeps a ((opUpdAbort).chk s r i o) := by
  intro r i o hmal
  unfold opUpdAbort
  repeat' first
    | with_reducible assumption
    | with_reducible apply fwGuard_keeps
    | with_reducible apply updAbortChk_keeps

theorem execUpdAbort_keeps {a s : State} (h : Keeps a s) (r : RingId) : OKeeps a (execUpdAbort r s) := by
  unfold execUpdAbort
  repeat' first
    | with_reducible assumption
    | refine takeOrder_keeps ?_ _ _ (fun b t i o ht hm => ?_)
    | with_reducible apply opUpdAbort_keeps
    | with_reducible apply ok_next

theorem opFetchPull_keeps {a s : State} (_h : Keeps a s) : ∀ r i o, leastOf (headerMal o ++ (opFetchPull).mal s o) =
    none → VKeeps a ((opFetchPull).chk s r i o) := by
  intro r i o hmal
  unfold opFetchPull
  repeat' first
    | with_reducible assumption
    | with_reducible refine Verdict.whole_keeps _ _ _ (fun t ht => ?_)
    | with_reducible apply requestRanges_keeps
    | with_reducible apply modLayout_keeps
    | simp -zeta only
    | simp only
    | with_reducible apply vk_refuse
    | with_reducible apply vk_deny
    | split

theorem execFetchPull_keeps {a s : State} (h : Keeps a s) (r : RingId) : OKeeps a (execFetchPull r s) := by
  unfold execFetchPull
  repeat' first
    | with_reducible assumption
    | refine takeOrder_keeps ?_ _ _ (fun b t i o ht hm => ?_)
    | with_reducible apply opFetchPull_keeps
    | with_reducible apply ok_next

theorem opFetchServe_keeps {a s : State} (_h : Keeps a s) : ∀ r i o, leastOf (headerMal o ++ (opFetchServe).mal s o) =
    none → VKeeps a ((opFetchServe).chk s r i o) := by
  intro r i o hmal
  unfold opFetchServe
  repeat' first
    | with_reducible assumption
    | with_reducible refine Verdict.whole_keeps _ _ _ (fun t ht => ?_)
    | simp -zeta only
    | simp only
    | with_reducible apply vk_refuse
    | with_reducible apply vk_deny
    | split

theorem execFetchServe_keeps {a s : State} (h : Keeps a s) (r : RingId) : OKeeps a (execFetchServe r s) := by
  unfold execFetchServe
  repeat' first
    | with_reducible assumption
    | refine takeOrder_keeps ?_ _ _ (fun b t i o ht hm => ?_)
    | with_reducible apply opFetchServe_keeps
    | with_reducible apply ok_next

theorem opSnapshot_keeps {a s : State} (_h : Keeps a s) : ∀ r i o, leastOf (headerMal o ++ (opSnapshot).mal s o) = none
    → VKeeps a ((opSnapshot).chk s r i o) := by
  intro r i o hmal
  unfold opSnapshot
  repeat' first
    | with_reducible assumption
    | with_reducible refine Verdict.whole_keeps _ _ _ (fun t ht => ?_)
    | simp -zeta only
    | simp only
    | with_reducible apply vk_refuse
    | with_reducible apply vk_deny
    | split

theorem execSnapshot_keeps {a s : State} (h : Keeps a s) (r : RingId) : OKeeps a (execSnapshot r s) := by
  unfold execSnapshot
  repeat' first
    | with_reducible assumption
    | refine takeOrder_keeps ?_ _ _ (fun b t i o ht hm => ?_)
    | with_reducible apply opSnapshot_keeps
    | with_reducible apply ok_next

theorem opExport_keeps {a s : State} (_h : Keeps a s) : ∀ r i o, leastOf (headerMal o ++ (opExport).mal s o) = none →
    VKeeps a ((opExport).chk s r i o) := by
  intro r i o hmal
  unfold opExport
  repeat' first
    | with_reducible assumption
    | with_reducible refine Verdict.whole_keeps _ _ _ (fun t ht => ?_)
    | simp -zeta only
    | simp only [id_eq]
    | with_reducible apply vk_refuse
    | with_reducible apply vk_deny
    | split

theorem execExportImage_keeps {a s : State} (h : Keeps a s) (r : RingId) : OKeeps a (execExportImage r s) := by
  unfold execExportImage
  repeat' first
    | with_reducible assumption
    | refine takeOrder_keeps ?_ _ _ (fun b t i o ht hm => ?_)
    | with_reducible apply opExport_keeps
    | with_reducible apply ok_next

theorem opImport_keeps {a s : State} (_h : Keeps a s) : ∀ r i o, leastOf (headerMal o ++ (opImport).mal s o) = none →
    VKeeps a ((opImport).chk s r i o) := by
  intro r i o hmal
  unfold opImport
  repeat' first
    | with_reducible assumption
    | with_reducible refine Verdict.whole_keeps _ _ _ (fun t ht => ?_)
    | simp -zeta only
    | simp only
    | with_reducible apply vk_refuse
    | with_reducible apply vk_deny
    | split

theorem execImportImage_keeps {a s : State} (h : Keeps a s) (r : RingId) : OKeeps a (execImportImage r s) := by
  unfold execImportImage
  repeat' first
    | with_reducible assumption
    | refine takeOrder_keeps ?_ _ _ (fun b t i o ht hm => ?_)
    | with_reducible apply opImport_keeps
    | with_reducible apply ok_next

theorem opRepack_keeps {a s : State} (_h : Keeps a s) : ∀ r i o, leastOf (headerMal o ++ (opRepack).mal s o) = none →
    VKeeps a ((opRepack).chk s r i o) := by
  intro r i o hmal
  unfold opRepack
  repeat' first
    | with_reducible assumption
    | with_reducible refine Verdict.whole_keeps _ _ _ (fun t ht => ?_)
    | with_reducible apply fwGuard_keeps
    | simp -zeta only
    | simp only
    | with_reducible apply vk_refuse
    | with_reducible apply vk_deny
    | split

theorem execRepack_keeps {a s : State} (h : Keeps a s) (r : RingId) : OKeeps a (execRepack r s) := by
  unfold execRepack
  repeat' first
    | with_reducible assumption
    | refine takeOrder_keeps ?_ _ _ (fun b t i o ht hm => ?_)
    | with_reducible apply opRepack_keeps
    | with_reducible apply ok_next

theorem opCtxSave_keeps {a s : State} (_h : Keeps a s) : ∀ r i o, leastOf (headerMal o ++ (opCtxSave).mal s o) = none →
    VKeeps a ((opCtxSave).chk s r i o) := by
  intro r i o hmal
  unfold opCtxSave
  repeat' first
    | with_reducible assumption
    | with_reducible refine Verdict.whole_keeps _ _ _ (fun t ht => ?_)
    | simp -zeta only
    | simp only [id_eq]
    | with_reducible apply vk_refuse
    | split

theorem execCtxSave_keeps {a s : State} (h : Keeps a s) (r : RingId) : OKeeps a (execCtxSave r s) := by
  unfold execCtxSave
  repeat' first
    | with_reducible assumption
    | refine takeOrder_keeps ?_ _ _ (fun b t i o ht hm => ?_)
    | with_reducible apply opCtxSave_keeps
    | with_reducible apply ok_next

theorem opCtxRestore_keeps {a s : State} (_h : Keeps a s) : ∀ r i o, leastOf (headerMal o ++ (opCtxRestore).mal s o) =
    none → VKeeps a ((opCtxRestore).chk s r i o) := by
  intro r i o hmal
  unfold opCtxRestore
  repeat' first
    | with_reducible assumption
    | with_reducible refine Verdict.whole_keeps _ _ _ (fun t ht => ?_)
    | simp only [id_eq]

theorem execCtxRestore_keeps {a s : State} (h : Keeps a s) (r : RingId) : OKeeps a (execCtxRestore r s) := by
  unfold execCtxRestore
  repeat' first
    | with_reducible assumption
    | refine takeOrder_keeps ?_ _ _ (fun b t i o ht hm => ?_)
    | with_reducible apply opCtxRestore_keeps
    | with_reducible apply ok_next

theorem opPush_keeps {a s : State} (_h : Keeps a s) : ∀ r i o, leastOf (headerMal o ++ (opPush).mal s o) = none →
    VKeeps a ((opPush).chk s r i o) := by
  intro r i o hmal
  unfold opPush
  repeat' first
    | with_reducible assumption
    | with_reducible refine Verdict.whole_keeps _ _ _ (fun t ht => ?_)
    | simp -zeta only
    | simp only
    | with_reducible apply vk_refuse
    | with_reducible apply vk_deny
    | split

theorem execPush_keeps {a s : State} (h : Keeps a s) (r : RingId) : OKeeps a (execPush r s) := by
  unfold execPush
  repeat' first
    | with_reducible assumption
    | refine takeOrder_keeps ?_ _ _ (fun b t i o ht hm => ?_)
    | with_reducible apply opPush_keeps
    | with_reducible apply ok_next

theorem opTread_keeps {a s : State} (_h : Keeps a s) : ∀ r i o, leastOf (headerMal o ++ (opTread).mal s o) = none →
    VKeeps a ((opTread).chk s r i o) := by
  intro r i o hmal
  unfold opTread
  repeat' first
    | with_reducible assumption
    | with_reducible refine Verdict.whole_keeps _ _ _ (fun t ht => ?_)
    | simp -zeta only
    | simp only
    | with_reducible apply vk_refuse
    | with_reducible apply vk_deny
    | split

theorem execTread_keeps {a s : State} (h : Keeps a s) (r : RingId) : OKeeps a (execTread r s) := by
  unfold execTread
  repeat' first
    | with_reducible assumption
    | refine takeOrder_keeps ?_ _ _ (fun b t i o ht hm => ?_)
    | with_reducible apply opTread_keeps
    | with_reducible apply ok_next

theorem opStashPut_keeps {a s : State} (_h : Keeps a s) : ∀ r i o, leastOf (headerMal o ++ (opStashPut).mal s o) = none
    → VKeeps a ((opStashPut).chk s r i o) := by
  intro r i o hmal
  unfold opStashPut
  repeat' first
    | with_reducible assumption
    | with_reducible refine Verdict.whole_keeps _ _ _ (fun t ht => ?_)
    | simp -zeta only [Keeps.mk_eqs]
    | simp only
    | with_reducible apply vk_refuse
    | with_reducible apply vk_deny
    | split

theorem execStashPut_keeps {a s : State} (h : Keeps a s) (r : RingId) : OKeeps a (execStashPut r s) := by
  unfold execStashPut
  repeat' first
    | with_reducible assumption
    | refine takeOrder_keeps ?_ _ _ (fun b t i o ht hm => ?_)
    | with_reducible apply opStashPut_keeps
    | with_reducible apply ok_next

theorem opStashGet_keeps {a s : State} (_h : Keeps a s) : ∀ r i o, leastOf (headerMal o ++ (opStashGet).mal s o) = none
    → VKeeps a ((opStashGet).chk s r i o) := by
  intro r i o hmal
  unfold opStashGet
  repeat' first
    | with_reducible assumption
    | with_reducible refine Verdict.whole_keeps _ _ _ (fun t ht => ?_)
    | simp -zeta only [Keeps.mk_eqs]
    | simp only
    | with_reducible apply vk_refuse
    | with_reducible apply vk_deny
    | split

theorem execStashGet_keeps {a s : State} (h : Keeps a s) (r : RingId) : OKeeps a (execStashGet r s) := by
  unfold execStashGet
  repeat' first
    | with_reducible assumption
    | refine takeOrder_keeps ?_ _ _ (fun b t i o ht hm => ?_)
    | with_reducible apply opStashGet_keeps
    | with_reducible apply ok_next

theorem gatherChk_keeps {a s : State} (_h : Keeps a s) (gather : Bool) (r : RingId) (o : Order) : VKeeps a
    (gatherChk gather s r o) := by
  unfold gatherChk
  repeat' first
    | with_reducible assumption
    | with_reducible refine Verdict.whole_keeps _ _ _ (fun t ht => ?_)
    | simp only
    | with_reducible apply vk_refuse
    | with_reducible apply vk_deny
    | split

theorem opGather_keeps {a s : State} (h : Keeps a s) : ∀ r i o, leastOf (headerMal o ++ (opGather).mal s o) = none →
    VKeeps a ((opGather).chk s r i o) := by
  intro r i o hmal
  unfold opGather
  repeat' first
    | with_reducible assumption
    | with_reducible apply gatherChk_keeps

theorem opScatter_keeps {a s : State} (h : Keeps a s) (op : ℕ) : ∀ r i o, leastOf
    (headerMal o ++ (opScatter op).mal s o) = none → VKeeps a ((opScatter op).chk s r i o) := by
  intro r i o hmal
  unfold opScatter
  repeat' first
    | with_reducible assumption
    | with_reducible apply gatherChk_keeps

theorem execGather_keeps {a s : State} (h : Keeps a s) (r : RingId) : OKeeps a (execGather r s) := by
  unfold execGather
  repeat' first
    | with_reducible assumption
    | refine takeOrder_keeps ?_ _ _ (fun b t i o ht hm => ?_)
    | with_reducible apply opGather_keeps
    | with_reducible apply ok_next

theorem execScatter_keeps {a s : State} (h : Keeps a s) (r : RingId) : OKeeps a (execScatter r s) := by
  unfold execScatter
  repeat' first
    | with_reducible assumption
    | refine takeOrder_keeps ?_ _ _ (fun b t i o ht hm => ?_)
    | with_reducible apply opScatter_keeps
    | with_reducible apply ok_next

theorem execScatterAdd_keeps {a s : State} (h : Keeps a s) (r : RingId) : OKeeps a (execScatterAdd r s) := by
  unfold execScatterAdd
  repeat' first
    | with_reducible assumption
    | refine takeOrder_keeps ?_ _ _ (fun b t i o ht hm => ?_)
    | with_reducible apply opScatter_keeps
    | with_reducible apply ok_next

theorem ewChk_keeps {a s : State} (_h : Keeps a s) (r : RingId) (o : Order) : VKeeps a (ewChk s r o) := by
  unfold ewChk
  repeat' first
    | with_reducible assumption
    | with_reducible refine Verdict.whole_keeps _ _ _ (fun t ht => ?_)
    | simp -zeta only [Keeps.mk_eqs]
    | simp only
    | with_reducible apply vk_refuse
    | with_reducible apply vk_deny
    | split

theorem opEw_keeps {a s : State} (h : Keeps a s) (op : ℕ) : ∀ r i o, leastOf (headerMal o ++ (opEw op).mal s o) = none
    → VKeeps a ((opEw op).chk s r i o) := by
  intro r i o hmal
  unfold opEw
  repeat' first
    | with_reducible assumption
    | with_reducible apply ewChk_keeps

theorem execEwAdd_keeps {a s : State} (h : Keeps a s) (r : RingId) : OKeeps a (execEwAdd r s) := by
  unfold execEwAdd
  repeat' first
    | with_reducible assumption
    | refine takeOrder_keeps ?_ _ _ (fun b t i o ht hm => ?_)
    | with_reducible apply opEw_keeps
    | with_reducible apply ok_next

theorem execEwMul_keeps {a s : State} (h : Keeps a s) (r : RingId) : OKeeps a (execEwMul r s) := by
  unfold execEwMul
  repeat' first
    | with_reducible assumption
    | refine takeOrder_keeps ?_ _ _ (fun b t i o ht hm => ?_)
    | with_reducible apply opEw_keeps
    | with_reducible apply ok_next

theorem execEwFma_keeps {a s : State} (h : Keeps a s) (r : RingId) : OKeeps a (execEwFma r s) := by
  unfold execEwFma
  repeat' first
    | with_reducible assumption
    | refine takeOrder_keeps ?_ _ _ (fun b t i o ht hm => ?_)
    | with_reducible apply opEw_keeps
    | with_reducible apply ok_next

theorem execEwScale_keeps {a s : State} (h : Keeps a s) (r : RingId) : OKeeps a (execEwScale r s) := by
  unfold execEwScale
  repeat' first
    | with_reducible assumption
    | refine takeOrder_keeps ?_ _ _ (fun b t i o ht hm => ?_)
    | with_reducible apply opEw_keeps
    | with_reducible apply ok_next

theorem execEwRelu_keeps {a s : State} (h : Keeps a s) (r : RingId) : OKeeps a (execEwRelu r s) := by
  unfold execEwRelu
  repeat' first
    | with_reducible assumption
    | refine takeOrder_keeps ?_ _ _ (fun b t i o ht hm => ?_)
    | with_reducible apply opEw_keeps
    | with_reducible apply ok_next

theorem execEwGelu_keeps {a s : State} (h : Keeps a s) (r : RingId) : OKeeps a (execEwGelu r s) := by
  unfold execEwGelu
  repeat' first
    | with_reducible assumption
    | refine takeOrder_keeps ?_ _ _ (fun b t i o ht hm => ?_)
    | with_reducible apply opEw_keeps
    | with_reducible apply ok_next

theorem execEwSilu_keeps {a s : State} (h : Keeps a s) (r : RingId) : OKeeps a (execEwSilu r s) := by
  unfold execEwSilu
  repeat' first
    | with_reducible assumption
    | refine takeOrder_keeps ?_ _ _ (fun b t i o ht hm => ?_)
    | with_reducible apply opEw_keeps
    | with_reducible apply ok_next

theorem execEwTanh_keeps {a s : State} (h : Keeps a s) (r : RingId) : OKeeps a (execEwTanh r s) := by
  unfold execEwTanh
  repeat' first
    | with_reducible assumption
    | refine takeOrder_keeps ?_ _ _ (fun b t i o ht hm => ?_)
    | with_reducible apply opEw_keeps
    | with_reducible apply ok_next

theorem execEwConvert_keeps {a s : State} (h : Keeps a s) (r : RingId) : OKeeps a (execEwConvert r s) := by
  unfold execEwConvert
  repeat' first
    | with_reducible assumption
    | refine takeOrder_keeps ?_ _ _ (fun b t i o ht hm => ?_)
    | with_reducible apply opEw_keeps
    | with_reducible apply ok_next

theorem execEwKeep_keeps {a s : State} (h : Keeps a s) (r : RingId) : OKeeps a (execEwKeep r s) := by
  unfold execEwKeep
  repeat' first
    | with_reducible assumption
    | refine takeOrder_keeps ?_ _ _ (fun b t i o ht hm => ?_)
    | with_reducible apply opEw_keeps
    | with_reducible apply ok_next

theorem execEwMask_keeps {a s : State} (h : Keeps a s) (r : RingId) : OKeeps a (execEwMask r s) := by
  unfold execEwMask
  repeat' first
    | with_reducible assumption
    | refine takeOrder_keeps ?_ _ _ (fun b t i o ht hm => ?_)
    | with_reducible apply opEw_keeps
    | with_reducible apply ok_next

theorem execEwGumbelAdd_keeps {a s : State} (h : Keeps a s) (r : RingId) : OKeeps a (execEwGumbelAdd r s) := by
  unfold execEwGumbelAdd
  repeat' first
    | with_reducible assumption
    | refine takeOrder_keeps ?_ _ _ (fun b t i o ht hm => ?_)
    | with_reducible apply opEw_keeps
    | with_reducible apply ok_next

theorem execEwGumbelMax_keeps {a s : State} (h : Keeps a s) (r : RingId) : OKeeps a (execEwGumbelMax r s) := by
  unfold execEwGumbelMax
  repeat' first
    | with_reducible assumption
    | refine takeOrder_keeps ?_ _ _ (fun b t i o ht hm => ?_)
    | with_reducible apply opEw_keeps
    | with_reducible apply ok_next

theorem redChk_keeps {a s : State} (_h : Keeps a s) (r : RingId) (o : Order) : VKeeps a (redChk s r o) := by
  unfold redChk
  repeat' first
    | with_reducible assumption
    | with_reducible refine Verdict.whole_keeps _ _ _ (fun t ht => ?_)
    | with_reducible apply fwGuard_keeps
    | simp only
    | with_reducible apply vk_refuse
    | with_reducible apply vk_deny
    | split

theorem opReduce_keeps {a s : State} (h : Keeps a s) (op : ℕ) : ∀ r i o, leastOf
    (headerMal o ++ (opReduce op).mal s o) = none → VKeeps a ((opReduce op).chk s r i o) := by
  intro r i o hmal
  unfold opReduce
  repeat' first
    | with_reducible assumption
    | with_reducible apply redChk_keeps

theorem execReduceSum_keeps {a s : State} (h : Keeps a s) (r : RingId) : OKeeps a (execReduceSum r s) := by
  unfold execReduceSum
  repeat' first
    | with_reducible assumption
    | refine takeOrder_keeps ?_ _ _ (fun b t i o ht hm => ?_)
    | with_reducible apply opReduce_keeps
    | with_reducible apply ok_next

theorem execReduceMax_keeps {a s : State} (h : Keeps a s) (r : RingId) : OKeeps a (execReduceMax r s) := by
  unfold execReduceMax
  repeat' first
    | with_reducible assumption
    | refine takeOrder_keeps ?_ _ _ (fun b t i o ht hm => ?_)
    | with_reducible apply opReduce_keeps
    | with_reducible apply ok_next

theorem execReduceMin_keeps {a s : State} (h : Keeps a s) (r : RingId) : OKeeps a (execReduceMin r s) := by
  unfold execReduceMin
  repeat' first
    | with_reducible assumption
    | refine takeOrder_keeps ?_ _ _ (fun b t i o ht hm => ?_)
    | with_reducible apply opReduce_keeps
    | with_reducible apply ok_next

theorem execReduceNoisymax_keeps {a s : State} (h : Keeps a s) (r : RingId) : OKeeps a (execReduceNoisymax r s) := by
  unfold execReduceNoisymax
  repeat' first
    | with_reducible assumption
    | refine takeOrder_keeps ?_ _ _ (fun b t i o ht hm => ?_)
    | with_reducible apply opReduce_keeps
    | with_reducible apply ok_next

theorem opReserved_keeps {a s : State} (_h : Keeps a s) : ∀ r i o, leastOf (headerMal o ++ (opReserved).mal s o) = none
    → VKeeps a ((opReserved).chk s r i o) := by
  intro r i o hmal
  unfold opReserved
  repeat' first
    | simp -zeta only
    | with_reducible apply vk_refuse

theorem execReservedEncodingOrder_keeps {a s : State} (h : Keeps a s) (r : RingId) : OKeeps a
    (execReservedEncodingOrder r s) := by
  unfold execReservedEncodingOrder
  repeat' first
    | with_reducible assumption
    | refine takeOrder_keeps ?_ _ _ (fun b t i o ht hm => ?_)
    | with_reducible apply opReserved_keeps
    | with_reducible apply ok_next

theorem writeCols_keeps {a s : State} (h : Keeps a s) (key : ℕ → ℕ) (cs : List Col) : Keeps a (writeCols s key cs) := by
  unfold writeCols
  repeat' first
    | with_reducible assumption
    | with_reducible apply writeSealed_keeps
    | with_reducible refine Keeps.foldl _ ?_ (fun t x ht => ?_)

theorem sendEnd_keeps {a s : State} (h : Keeps a s) (path : ℕ) (node : ℕ) (addr : ℕ) (b : Bytes) : Keeps a
    (sendEnd s path node addr b) := by
  unfold sendEnd
  repeat' first
    | with_reducible assumption
    | with_reducible apply sendX_keeps
    | with_reducible apply count_keeps
    | with_reducible apply send_keeps
    | split

theorem sendTo_keeps {a s : State} (h : Keeps a s) (o : Order) (e : ℕ) (off : ℕ) (b : Bytes) : Keeps a
    (sendTo s o e off b) := by
  unfold sendTo
  repeat' first
    | with_reducible assumption
    | with_reducible apply sendEnd_keeps
    | split

theorem countIn_keeps {a s : State} (h : Keeps a s) (path : ℕ) (n : ℕ) : Keeps a (countIn s path n) := by
  unfold countIn
  repeat' first
    | with_reducible assumption
    | with_reducible apply count_keeps
    | split

theorem sendStream_keeps {a s : State} (h : Keeps a s) (f : InFlight) (e : ℕ) (lot : ℕ) (result : ℕ) (ver : Bool)
    (ps : List Piece) : PKeeps a (sendStream s f e lot result ver ps) := by
  unfold sendStream
  repeat' first
    | with_reducible assumption
    | with_reducible apply sendTo_keeps
    | with_reducible apply bump_keeps
    | with_reducible apply pk_done
    | with_reducible apply pk_fail
    | split
    | extract_lets

theorem scramble_keeps {a s : State} (h : Keeps a s) (ly : Layout) : Keeps a (scramble s ly) := by
  unfold scramble
  repeat' first
    | with_reducible assumption
    | with_reducible apply bump_keeps
    | with_reducible apply writeBlockSealed_keeps
    | simp -zeta only
    | with_reducible refine Keeps.foldl _ ?_ (fun t x ht => ?_)

theorem spoilTarget_keeps {a s : State} (h : Keeps a s) (id : ℕ) : Keeps a (spoilTarget s id) := by
  unfold spoilTarget
  repeat' first
    | with_reducible assumption
    | with_reducible apply modLayout_keeps
    | with_reducible apply discardLines_keeps
    | with_reducible apply scramble_keeps
    | split

theorem toEw_keeps {a s : State} (h : Keeps a s) (xs : List SiteId) : Keeps a (toEw s xs) := by
  unfold toEw
  repeat' first
    | with_reducible assumption
    | with_reducible apply putUnit_keeps
    | with_reducible refine Keeps.foldl _ ?_ (fun t x ht => ?_)

theorem ewPerf_keeps {a s : State} (h : Keeps a s) (f : InFlight) : PKeeps a (ewPerf s f) := by
  unfold ewPerf
  repeat' first
    | with_reducible assumption
    | with_reducible apply toEw_keeps
    | with_reducible apply areaWrite_keeps
    | simp -zeta only
    | with_reducible apply pk_done
    | with_reducible apply pk_fail
    | with_reducible exact pk_notYet
    | split
    | extract_lets

theorem redWrite_keeps {a s : State} (h : Keeps a s) (o : Order) (off : ℕ) (b : Bytes) : Keeps a (redWrite s o off b)
    := by
  unfold redWrite
  repeat' first
    | with_reducible assumption
    | with_reducible apply areaWrite_keeps
    | with_reducible apply sendTo_keeps
    | split

theorem redLots_keeps {a : State} (s0 : State) (o : Order) (srcs : List (ℕ × ℕ × ℕ)) (per limit : ℕ) (bad : Bool)
    (n k : ℕ)
    {s : State} (h : Keeps a s) : Keeps a (redLots s0 o srcs per limit bad n k s).1 := by
  induction n generalizing k s with
  | zero => exact h
  | succ n ih =>
    have h1 := fun x b y => ih (k + 1) (count_keeps (redWrite_keeps h o x b) 67 y)
    unfold redLots
    dsimp only
    repeat' first
      | exact h
      | exact h1 _ _ _
      | split

theorem reducePerf_keeps {a s : State} (h : Keeps a s) (f : InFlight) : PKeeps a (reducePerf s f) := by
  unfold reducePerf
  repeat' first
    | with_reducible assumption
    | with_reducible apply count_keeps
    | with_reducible apply redWrite_keeps
    | with_reducible apply redLots_keeps
    | simp -zeta only
    | with_reducible apply pk_done
    | with_reducible apply pk_fail
    | with_reducible exact pk_notYet
    | split
    | extract_lets
    | dsimp only
    | dsimp +zetaDelta only

theorem noteNarrow_keeps {a s : State} (h : Keeps a s) (id : ℕ) (ly : Layout) (x : ℕ) (n : ℕ) : Keeps a
    (noteNarrow s id ly x n) := by
  unfold noteNarrow
  repeat' first
    | with_reducible assumption
    | with_reducible apply noteOpenReads_keeps
    | with_reducible apply count_keeps
    | split

theorem scatterAll_keeps {a : State} (o : Order) (id : ℕ) (ly : Layout) (adds : Bool) (l : List (Access × Bytes))
    {s : State}
    (h : Keeps a s) : Keeps a (scatterAll o id ly adds l s) := by
  induction l generalizing s with
  | nil => exact h
  | cons p r ih =>
    obtain ⟨p, d⟩ := p
    unfold scatterAll
    split
    · rename_i e; cases e
    · rename_i e; cases e; exact ih (areaWrite_keeps (noteNarrow_keeps h ..) ..)
    · rename_i e; cases e; exact ih h

theorem gatherPerf_keeps {a s : State} (h : Keeps a s) (f : InFlight) (inp : EndpointInput) (adds : Option Bool) :
    PKeeps a (gatherPerf s f inp adds) := by
  unfold gatherPerf
  repeat' first
    | with_reducible assumption
    | with_reducible apply countIn_keeps
    | with_reducible apply noteNarrow_keeps
    | with_reducible apply sendTo_keeps
    | with_reducible apply scatterAll_keeps
    | simp -zeta only
    | with_reducible apply pk_done
    | with_reducible apply pk_fail
    | with_reducible exact pk_notYet
    | with_reducible refine Keeps.foldl _ ?_ (fun t x ht => ?_)
    | split
    | extract_lets

theorem treadPerf_keeps {a s : State} (h : Keeps a s) (f : InFlight) : PKeeps a (treadPerf s f) := by
  unfold treadPerf
  repeat' first
    | with_reducible assumption
    | with_reducible apply sendTo_keeps
    | with_reducible apply pk_done
    | with_reducible apply pk_fail
    | with_reducible exact pk_notYet
    | with_reducible refine Keeps.foldl _ ?_ (fun t x ht => ?_)
    | split
    | extract_lets

theorem dropStash_keeps {a s : State} (h : Keeps a s) (id : ℕ) : Keeps a (dropStash s id) := by
  unfold dropStash
  repeat' first
    | with_reducible assumption
    | simp -zeta only [Keeps.mk_eqs]

theorem putChunks_keeps {a : State} (id : ℕ) (ly : Layout) (src fmt per base n k : ℕ) (xs : List W32) (fl : Flags3)
    {s : State}
    (h : Keeps a s) : Keeps a (putChunks id ly src fmt per base n k xs fl s).1 := by
  induction n generalizing k xs fl s with
  | zero => exact h
  | succ n ih =>
    unfold putChunks
    exact ih _ _ _ (areaWrite_keeps h ..)

theorem stashPutPerf_keeps {a s : State} (h : Keeps a s) (f : InFlight) (inp : EndpointInput) : PKeeps a
    (stashPutPerf s f inp) := by
  unfold stashPutPerf
  repeat' first
    | with_reducible assumption
    | with_reducible apply countIn_keeps
    | with_reducible apply putChunks_keeps
    | with_reducible apply dropStash_keeps
    | simp -zeta only [Keeps.mk_eqs]
    | with_reducible apply pk_done
    | with_reducible apply pk_fail
    | with_reducible exact pk_notYet
    | split
    | extract_lets
    | dsimp +zetaDelta only

theorem stashGetPerf_keeps {a s : State} (h : Keeps a s) (f : InFlight) : PKeeps a (stashGetPerf s f) := by
  unfold stashGetPerf
  repeat' first
    | with_reducible assumption
    | with_reducible apply dropStash_keeps
    | with_reducible apply sendStream_keeps
    | simp -zeta only
    | with_reducible apply pk_done
    | with_reducible apply pk_fail
    | with_reducible exact pk_notYet
    | with_reducible refine pk_of_done (by assumption) ?_
    | with_reducible refine pk_of_fail (by assumption) ?_
    | split
    | extract_lets
    | dsimp +zetaDelta only

theorem pushPerf_keeps {a s : State} (h : Keeps a s) (f : InFlight) : PKeeps a (pushPerf s f) := by
  unfold pushPerf
  repeat' first
    | with_reducible assumption
    | with_reducible apply sendStream_keeps
    | with_reducible exact pk_notYet
    | split
    | extract_lets

theorem releaseTarget_keeps {a s : State} (h : Keeps a s) (o : Order) : Keeps a (releaseTarget s o) := by
  unfold releaseTarget
  repeat' first
    | with_reducible assumption
    | with_reducible apply releaseSlot_keeps

theorem pullPerf_keeps {a s : State} (h : Keeps a s) (f : InFlight) : PKeeps a (pullPerf s f) := by
  unfold pullPerf
  repeat' first
    | with_reducible assumption
    | with_reducible apply bump_keeps
    | with_reducible apply releaseTarget_keeps
    | with_reducible apply modLayout_keeps
    | with_reducible apply pk_done
    | with_reducible apply pk_fail
    | with_reducible exact pk_notYet
    | split
    | extract_lets

theorem servePerf_keeps {a s : State} (h : Keeps a s) (f : InFlight) (ended : Bool) : PKeeps a (servePerf s f ended)
    := by
  unfold servePerf
  repeat' first
    | with_reducible assumption
    | with_reducible apply bump_keeps
    | simp -zeta only
    | with_reducible apply pk_done
    | with_reducible apply pk_fail
    | with_reducible exact pk_notYet
    | split
    | extract_lets

theorem snapshotPerf_keeps {a s : State} (h : Keeps a s) (f : InFlight) : PKeeps a (snapshotPerf s f) := by
  unfold snapshotPerf
  repeat' first
    | with_reducible assumption
    | with_reducible apply sendStream_keeps
    | with_reducible exact pk_notYet
    | split
    | extract_lets

theorem exportPerf_keeps {a s : State} (h : Keeps a s) (f : InFlight) : PKeeps a (exportPerf s f) := by
  unfold exportPerf
  repeat' first
    | with_reducible assumption
    | with_reducible apply sendStream_keeps
    | simp -zeta only
    | with_reducible exact pk_notYet
    | split

theorem fillFail_keeps {a s : State} (h : Keeps a s) (id : ℕ) (status : ℕ) (result : ℕ) : PKeeps a
    (fillFail s id status result) := by
  unfold fillFail
  repeat' first
    | with_reducible assumption
    | with_reducible apply spoilTarget_keeps
    | with_reducible apply pk_fail

theorem writeRow_keeps {a s : State} (h : Keeps a s) (ly : Layout) (q : ℕ) (row : ℕ → Col) : Keeps a
    (writeRow s ly q row) := by
  unfold writeRow
  repeat' first
    | with_reducible assumption
    | with_reducible apply writeSealed_keeps
    | with_reducible refine Keeps.foldl _ ?_ (fun t x ht => ?_)

theorem writeFoot_keeps {a s : State} (h : Keeps a s) (ly : Layout) (v : ℕ) (q : ℕ) (b : Bytes) : Keeps a
    (writeFoot s ly v q b) := by
  unfold writeFoot
  repeat' first
    | with_reducible assumption
    | with_reducible apply writeSealed_keeps
    | with_reducible refine Keeps.foldl _ ?_ (fun t x ht => ?_)

theorem fillFrom_keeps {a s : State} (h : Keeps a s) (ly : Layout) (m : Image) : Keeps a (fillFrom s ly m) := by
  unfold fillFrom
  repeat' first
    | with_reducible assumption
    | with_reducible apply writeFoot_keeps
    | with_reducible apply writeRow_keeps
    | with_reducible refine Keeps.foldl _ ?_ (fun t x ht => ?_)

theorem finishFill_keeps {a s : State} (h : Keeps a s) (id : ℕ) (step : ℕ) (closeSlot : ℕ) (ruleId : ℕ) (attempt : ℕ)
    (vs : List (ℕ × ℕ)) : Keeps a (finishFill s id step closeSlot ruleId attempt vs) := by
  unfold finishFill
  repeat' first
    | with_reducible assumption
    | with_reducible apply modLayout_keeps
    | with_reducible apply discardLines_keeps

theorem importPerf_keeps {a s : State} (h : Keeps a s) (f : InFlight) (inp : EndpointInput) : PKeeps a
    (importPerf s f inp) := by
  unfold importPerf
  repeat' first
    | with_reducible assumption
    | with_reducible apply fillFail_keeps
    | with_reducible apply fillFrom_keeps
    | with_reducible apply countIn_keeps
    | with_reducible apply finishFill_keeps
    | with_reducible apply pk_done
    | with_reducible exact pk_notYet
    | split
    | extract_lets

theorem repackParcel_keeps {a s : State} (h : Keeps a s) (ly : Layout) (ms : List Image) (vs : List (ℕ × ℕ)) (q : ℕ) :
    Keeps a (repackParcel s ly ms vs q) := by
  unfold repackParcel
  repeat' first
    | with_reducible assumption
    | with_reducible apply writeFoot_keeps
    | with_reducible apply writeRow_keeps
    | with_reducible refine Keeps.foldl _ ?_ (fun t x ht => ?_)
    | split
    | extract_lets
    | dsimp only
    | dsimp +zetaDelta only

theorem repackPerf_keeps {a s : State} (h : Keeps a s) (f : InFlight) (inp : EndpointInput) : PKeeps a
    (repackPerf s f inp) := by
  unfold repackPerf
  repeat' first
    | with_reducible assumption
    | with_reducible apply fillFail_keeps
    | with_reducible apply countIn_keeps
    | with_reducible apply repackParcel_keeps
    | with_reducible apply finishFill_keeps
    | with_reducible apply pk_done
    | with_reducible exact pk_notYet
    | with_reducible refine Keeps.foldl _ ?_ (fun t x ht => ?_)
    | split
    | extract_lets

theorem ctxSavePerf_keeps {a s : State} (h : Keeps a s) (f : InFlight) : PKeeps a (ctxSavePerf s f) := by
  unfold ctxSavePerf
  repeat' first
    | with_reducible assumption
    | with_reducible apply sendStream_keeps

theorem restoreLayouts_keeps {a : State} (b : Bytes) (span n : ℕ) {s : State} (h : Keeps a s) (x : ℕ) :
    ∀ t y, restoreLayouts b span n s x = .ok (t, y) → Keeps a t := by
  induction n generalizing s x with
  | zero => intro t y e; cases e; exact h
  | succ n ih =>
    intro t y e
    unfold restoreLayouts at e
    dsimp only at e
    repeat' split at e
    all_goals first | (exact ih (putLayout_keeps h ..) _ _ _ e) | cases e

theorem restoreStreams_keeps {a : State} (b : Bytes) (n : ℕ) {s : State} (h : Keeps a s) (x : ℕ) :
    ∀ t y, restoreStreams b n s x = .ok (t, y) → Keeps a t := by
  induction n generalizing s x with
  | zero => intro t y e; cases e; exact h
  | succ n ih =>
    intro t y e
    unfold restoreStreams at e
    dsimp only at e
    repeat' split at e
    all_goals first | (refine ih ?_ _ _ _ e; simp only [Keeps.mk_eqs]; exact h) | cases e

theorem ctxRestorePerf_keeps {a s : State} (h : Keeps a s) (f : InFlight) (inp : EndpointInput) :
    PKeeps a (ctxRestorePerf s f inp) := by
  unfold ctxRestorePerf
  dsimp only
  repeat' first
    | exact True.intro
    | exact h
    | exact countIn_keeps (restoreStreams_keeps _ _ (restoreLayouts_keeps _ _ _ h _ _ _ ‹_›) _ _ _ ‹_›) _ _
    | split

theorem copyBlock_keeps {a s : State} (h : Keeps a s) (src : ℕ) (dst : ℕ) : Keeps a (copyBlock s src dst).1 := by
  unfold copyBlock
  repeat' first
    | with_reducible assumption
    | with_reducible apply putRaw_keeps
    | split
    | extract_lets

theorem putRemap_keeps {a s : State} (h : Keeps a s) (bank : ℕ) (entry : ℕ) (row : ℕ) (valid : Bool) : Keeps a
    (putRemap s bank entry row valid) := by
  unfold putRemap
  repeat' first
    | with_reducible assumption
    | simp -zeta only [Keeps.mk_eqs]
    | split

theorem retireRowPerf_keeps {a s0 : State} (h : Keeps a s0) (f : InFlight) : PKeeps a (retireRowPerf s0 f) := by
  unfold retireRowPerf
  extract_lets o x c bank row s src
  split
  · split
    · exact True.intro
    · split
      · exact h
      · extract_lets dst r s1 s2 left s3
        have h0 : Keeps a s := drawPair_keeps (cleanRow_keeps h ..) ..
        have h1 : Keeps a r.1 := Keeps.foldl_fst _ h0 fun p j hp => copyBlock_keeps hp ..
        have h2 : Keeps a s2 := ledAdd_keeps (putRemap_keeps (Keeps.foldl _ h1 fun t y ht => by
          split
          · exact putRemap_keeps ht ..
          · exact ht) ..) ..
        refine pk_done ?_ _
        clear_value s2
        dsimp only [s3]
        split
        · exact ityIrq_keeps (ledAdd_keeps h2 ..) _
        · exact h2
  · exact True.intro

theorem retirePairPerf_keeps {a s : State} (h : Keeps a s) (f : InFlight) : PKeeps a (retirePairPerf s f) := by
  unfold retirePairPerf
  repeat' first
    | with_reducible assumption
    | with_reducible apply ledAdd_keeps
    | with_reducible apply fenceStallNow_keeps
    | with_reducible apply pk_done
    | with_reducible exact pk_notYet
    | split
    | extract_lets

theorem zeroBlock_keeps {a s : State} (h : Keeps a s) (x1 : Bool) (k : ℕ) : Keeps a (zeroBlock x1 s k) := by
  unfold zeroBlock
  repeat' first
    | with_reducible assumption
    | with_reducible apply writeOpen_keeps
    | with_reducible apply writeBlockSealed_keeps
    | split

theorem zeroRows_keeps {a s : State} (h : Keeps a s) (x1 : Bool) (rows : List (ℕ × ℕ × ℕ)) : Keeps a
    (zeroRows x1 s rows) := by
  unfold zeroRows
  repeat' first
    | with_reducible assumption
    | with_reducible apply zeroBlock_keeps
    | with_reducible refine Keeps.foldl _ ?_ (fun t x ht => ?_)
    | split

theorem zeroFreePerf_keeps {a s : State} (h : Keeps a s) (f : InFlight) : PKeeps a (zeroFreePerf s f) := by
  unfold zeroFreePerf
  repeat' first
    | with_reducible assumption
    | with_reducible apply zeroRows_keeps
    | with_reducible apply pk_done
    | with_reducible exact pk_notYet
    | split

theorem zeroLayoutPerf_keeps {a s : State} (h : Keeps a s) (f : InFlight) : PKeeps a (zeroLayoutPerf s f) := by
  unfold zeroLayoutPerf
  repeat' first
    | with_reducible assumption
    | with_reducible apply discardLines_keeps
    | with_reducible apply zeroRows_keeps
    | with_reducible apply pk_done
    | with_reducible apply pk_fail
    | with_reducible exact pk_notYet
    | split
    | extract_lets

theorem tallyPerf_keeps {a s : State} (h : Keeps a s) (f : InFlight) : PKeeps a (tallyPerf s f) := by
  unfold tallyPerf
  repeat' first
    | with_reducible assumption
    | with_reducible apply sendTo_keeps
    | simp -zeta only
    | with_reducible apply pk_done
    | with_reducible exact pk_notYet
    | split

theorem drainPerf_keeps {a s : State} (h : Keeps a s) (f : InFlight) : PKeeps a (drainPerf s f) := by
  unfold drainPerf
  dsimp only
  split
  · have h1 := fun e b d => sendTo_keeps h f.order e b d
    refine pk_done ?_ _
    split
    · exact h1 _ _ _
    · refine setLed_keeps (h1 _ _ _) fun hl => ⟨?_, Nat.mod_lt _ (by decide)⟩
      simp only [List.length_drop]
      have := hl.1
      omega
  · exact True.intro

theorem perform_keeps {a s : State} (h : Keeps a s) (f : InFlight) (inp : EndpointInput) : PKeeps a (perform s f inp)
    := by
  unfold perform
  repeat' first
    | with_reducible assumption
    | with_reducible apply repackPerf_keeps
    | with_reducible apply pullPerf_keeps
    | with_reducible apply servePerf_keeps
    | with_reducible apply snapshotPerf_keeps
    | with_reducible apply exportPerf_keeps
    | with_reducible apply importPerf_keeps
    | with_reducible apply ctxSavePerf_keeps
    | with_reducible apply ctxRestorePerf_keeps
    | with_reducible apply pushPerf_keeps
    | with_reducible apply treadPerf_keeps
    | with_reducible apply stashPutPerf_keeps
    | with_reducible apply stashGetPerf_keeps
    | with_reducible apply gatherPerf_keeps
    | with_reducible apply ewPerf_keeps
    | with_reducible apply reducePerf_keeps
    | with_reducible apply retireRowPerf_keeps
    | with_reducible apply retirePairPerf_keeps
    | with_reducible apply zeroFreePerf_keeps
    | with_reducible apply zeroLayoutPerf_keeps
    | with_reducible apply tallyPerf_keeps
    | with_reducible apply drainPerf_keeps
    | with_reducible exact pk_notYet
    | split
    | extract_lets

theorem endOrder_keeps {a s : State} (h : Keeps a s) (f : InFlight) (p : Perf) (hp : PKeeps a p) :
    Keeps a (endOrder s f p) := by
  unfold endOrder
  split
  · exact settleSlots_keeps (completeG_keeps hp ..)
  · exact settleSlots_keeps (completeG_keeps hp ..)
  · exact h

theorem noteOrderReads_keeps {a s : State} (h : Keeps a s) (f : InFlight) : Keeps a (noteOrderReads s f) := by
  unfold noteOrderReads
  repeat' first
    | with_reducible assumption
    | with_reducible apply noteOpenReads_keeps
    | with_reducible refine Keeps.foldl _ ?_ (fun t x ht => ?_)
    | split

theorem completeOrder_keeps {a s : State} (h : Keeps a s) (r : RingId) (idx : ℕ) (inp : EndpointInput) : Keeps a
    (completeOrder s r idx inp) := by
  unfold completeOrder
  repeat' first
    | with_reducible assumption
    | with_reducible refine batch_keeps ?_ (fun b t ht => ?_)
    | with_reducible apply perform_keeps
    | with_reducible apply noteOrderReads_keeps
    | refine endOrder_keeps ?_ _ _ ?_
    | with_reducible apply pk_done
    | with_reducible refine pk_of_done (by assumption) ?_
    | split

theorem execTimedOrderComplete_keeps {a s : State} (h : Keeps a s) (r : RingId) (idx : ℕ) (inp : EndpointInput) :
    OKeeps a (execTimedOrderComplete r idx inp s) := by
  unfold execTimedOrderComplete
  repeat' first
    | with_reducible assumption
    | with_reducible apply completeOrder_keeps
    | with_reducible apply ok_next

theorem startLot_keeps {a s : State} (h : Keeps a s) (r : RingId) (idx : ℕ) : Keeps a (startLot s r idx) := by
  unfold startLot
  repeat' first
    | with_reducible assumption
    | with_reducible apply grantLot_keeps
    | with_reducible apply putInflight_keeps
    | split

theorem execLotStart_keeps {a s : State} (h : Keeps a s) (r : RingId) (idx : ℕ) : OKeeps a (execLotStart r idx s) := by
  unfold execLotStart
  repeat' first
    | with_reducible assumption
    | with_reducible apply startLot_keeps
    | with_reducible apply ok_next

theorem writeHeld_keeps {a s : State} (h : Keeps a s) (r : RingId) : Keeps a (writeHeld s r) := by
  unfold writeHeld
  repeat' first
    | with_reducible assumption
    | with_reducible apply writeFirst_keeps
    | split

theorem execHeldReceiptWrite_keeps {a s : State} (h : Keeps a s) (r : RingId) : OKeeps a (execHeldReceiptWrite r s) :=
    by
  unfold execHeldReceiptWrite
  repeat' first
    | with_reducible assumption
    | with_reducible apply writeHeld_keeps
    | with_reducible apply ok_next

theorem addSquall_keeps {a s : State} (h : Keeps a s) (i : Inst) (ns : ℕ) : Keeps a (addSquall s i ns) := by
  unfold addSquall
  repeat' first
    | with_reducible assumption
    | simp -zeta only [Keeps.mk_eqs]
    | extract_lets

theorem squallSite_keeps {a s : State} (h : Keeps a s) (x : SiteId) : Keeps a (squallSite s x) := by
  unfold squallSite
  repeat' first
    | with_reducible assumption
    | with_reducible apply addSquall_keeps

theorem squallCirrus_keeps {a s : State} (h : Keeps a s) : Keeps a (squallCirrus s) := by
  unfold squallCirrus
  repeat' first
    | with_reducible assumption
    | with_reducible apply addSquall_keeps

theorem settleSquall_keeps {a s : State} (h : Keeps a s) : Keeps a (settleSquall s) := by
  unfold settleSquall
  repeat' first
    | with_reducible assumption
    | with_reducible apply squallSite_keeps
    | with_reducible apply squallCirrus_keeps
    | simp -zeta only [Keeps.mk_eqs]
    | with_reducible refine Keeps.foldl _ ?_ (fun t x ht => ?_)
    | split
    | extract_lets
    | dsimp +zetaDelta only

theorem restartAt_keeps {a s : State} (h : Keeps a s) (i : Inst) (x3 : Option ℕ) : Keeps a (restartAt s i x3) := by
  unfold restartAt
  repeat' first
    | with_reducible assumption
    | with_reducible apply charge_keeps
    | split

theorem settleSite_keeps {a s0 : State} (h : Keeps a s0) (x : SiteId) : Keeps a (settleSite s0 x) := by
  unfold settleSite
  repeat' first
    | with_reducible assumption
    | with_reducible apply modSite_keeps
    | with_reducible apply restartAt_keeps
    | split

theorem settle_keeps {a s : State} (h : Keeps a s) : Keeps a (settle s) := by
  unfold settle
  repeat' first
    | with_reducible assumption
    | with_reducible apply settleSite_keeps
    | with_reducible apply restartAt_keeps
    | with_reducible apply settleSquall_keeps
    | simp -zeta only [Keeps.mk_eqs]
    | with_reducible refine Keeps.foldl _ ?_ (fun t x ht => ?_)

theorem siteEvent_keeps {a s : State} (h : Keeps a s) (x : SiteId) (bit : ℕ) (pl : Place) (arg : ℕ) : Keeps a
    (siteEvent s x bit pl arg) := by
  unfold siteEvent
  repeat' first
    | with_reducible assumption
    | with_reducible apply ledAdd_keeps
    | with_reducible apply modSite_keeps

theorem beginHold_keeps {a s : State} (h : Keeps a s) (x : SiteId) (c : ℕ) (k : HoldKind) (lane : BitVec 8) : Keeps a
    (beginHold s x c k lane) := by
  unfold beginHold
  repeat' first
    | with_reducible assumption
    | with_reducible apply syncHold_keeps
    | with_reducible apply modChan_keeps

theorem noSpare_keeps {a s : State} (h : Keeps a s) (x : SiteId) (c : ℕ) : Keeps a (noSpare s x c) := by
  unfold noSpare
  repeat' first
    | with_reducible assumption
    | with_reducible apply requestDeferred_keeps
    | with_reducible apply siteEvent_keeps

theorem startRetrain_keeps {a s : State} (h : Keeps a s) (x : SiteId) (c : ℕ) : Keeps a (startRetrain s x c) := by
  unfold startRetrain
  repeat' first
    | with_reducible assumption
    | with_reducible apply beginHold_keeps
    | with_reducible apply modChan_keeps
    | split

theorem requestRepair_keeps {a s : State} (h : Keeps a s) (x : SiteId) (c : ℕ) (lane : BitVec 8) : Keeps a
    (requestRepair s x c lane) := by
  unfold requestRepair
  repeat' first
    | with_reducible assumption
    | with_reducible apply noSpare_keeps
    | with_reducible apply beginHold_keeps
    | with_reducible apply modChan_keeps
    | split
    | extract_lets

theorem nextHold_keeps {a s : State} (h : Keeps a s) (x : SiteId) (c : ℕ) (repairFirst : Bool) : Keeps a
    (nextHold s x c repairFirst) := by
  unfold nextHold
  repeat' first
    | with_reducible assumption
    | with_reducible apply syncHold_keeps
    | with_reducible apply modChan_keeps
    | with_reducible apply noSpare_keeps
    | split
    | extract_lets
    | dsimp +zetaDelta only

theorem endRetrain_keeps {a s : State} (h : Keeps a s) (x : SiteId) (c : ℕ) (ok : Bool) : Keeps a
    (endRetrain s x c ok) := by
  unfold endRetrain
  repeat' first
    | with_reducible assumption
    | with_reducible apply modSite_keeps
    | with_reducible apply siteEvent_keeps
    | with_reducible apply modChan_keeps
    | with_reducible apply count_keeps
    | with_reducible apply nextHold_keeps
    | with_reducible apply requestDeferred_keeps
    | split
    | extract_lets

theorem endRepair_keeps {a s : State} (h : Keeps a s) (x : SiteId) (c : ℕ) : Keeps a (endRepair s x c) := by
  unfold endRepair
  repeat' first
    | with_reducible assumption
    | with_reducible apply modSite_keeps
    | with_reducible apply siteEvent_keeps
    | with_reducible apply nextHold_keeps
    | with_reducible apply modChan_keeps
    | with_reducible apply count_keeps
    | split

theorem execRetrainStart_keeps {a s : State} (h : Keeps a s) (x : SiteId) (c : ChId) (x3 : RetrainTrig) : OKeeps a
    (execRetrainStart x c x3 s) := by
  unfold execRetrainStart
  repeat' first
    | with_reducible assumption
    | with_reducible apply startRetrain_keeps
    | with_reducible apply ok_next

theorem execLaneRepairRequest_keeps {a s : State} (h : Keeps a s) (x : SiteId) (c : ChId) (lane : BitVec 8) : OKeeps a
    (execLaneRepairRequest x c lane s) := by
  unfold execLaneRepairRequest
  repeat' first
    | with_reducible assumption
    | with_reducible apply requestRepair_keeps
    | with_reducible apply ok_next

theorem setLat_keeps {a s : State} (h : Keeps a s) (sec : Bool) (l : Latches) : Keeps a (setLat s sec l) := by
  unfold setLat
  repeat' first
    | with_reducible assumption
    | simp -zeta only [Keeps.mk_eqs]
    | split

end Sys2Proof.Machine
end

