-- ==== Sys2Proof/Laws/KeepOps3.lean ====
section
/-! SUPPORT. One lemma per operation of the machine, part 3 of 4: started from a state that keeps the integration parameters and
the soundness of a state `a`, it ends in one that does. -/

namespace Sys2Proof.Machine

theorem axiAnswer_keeps {a s : State} (h : Keeps a s) (resp : BitVec 2) (d : W32) : Keeps a (axiAnswer s resp d) := by
  unfold axiAnswer
  repeat' first
    | with_reducible assumption
    | simp -zeta only [Keeps.mk_eqs]

theorem readEffect_keeps {a s : State} (h : Keeps a s) (sec : Bool) (a3 : ℕ) : Keeps a (readEffect s sec a3) := by
  unfold readEffect
  repeat' first
    | with_reducible assumption
    | with_reducible apply setLat_keeps
    | simp -zeta only [Keeps.mk_eqs]
    | split

theorem axiRead_keeps {a s : State} (h : Keeps a s) (sec : Bool) (a3 : ℕ) : Keeps a (axiRead s sec a3) := by
  unfold axiRead
  repeat' first
    | with_reducible assumption
    | with_reducible apply axiAnswer_keeps
    | with_reducible apply readEffect_keeps
    | split

theorem restartRing_keeps {a s : State} (h : Keeps a s) (r : RingId) : Keeps a (restartRing s r) := by
  unfold restartRing
  have h0 : 0 < 131072 := by decide
  refine setAwn_keeps (modRing_keeps h r _ fun g hg => ?_) fun hm => memFilter_wf hm _
  exact ⟨hg.depth, h0, h0, h0, h0, hg.irq⟩

theorem ringStatus_keeps {a s : State} (h : Keeps a s) (r : RingId) (bits : W32) : Keeps a (ringStatus s r bits) := by
  unfold ringStatus
  repeat' first
    | with_reducible assumption
    | with_reducible apply modRing_keeps
    | extract_lets
    | exact fun g hg => ⟨hg.depth, hg.head, hg.tail, hg.rcpHead, hg.rcpTail, hg.irq⟩

theorem writeDepth_keeps {a s : State} (h : Keeps a s) (r : RingId) (d : ℕ) (b : Bool) : Keeps a (writeDepth s r d b)
    := by
  unfold writeDepth
  split
  · exact h
  · split
    · rename_i hd
      exact modRing_keeps h r _ fun g hg => ⟨⟨hd.1, hd.2.1⟩, hg.head, hg.tail, hg.rcpHead, hg.rcpTail, hg.irq⟩
    · exact ringStatus_keeps h ..

theorem writeCfg_keeps {a s : State} (h : Keeps a s) (r : RingId) (v : W32) : Keeps a (writeCfg s r v) := by
  unfold writeCfg
  repeat' first
    | with_reducible assumption
    | with_reducible apply writeDepth_keeps
    | with_reducible apply ringStatus_keeps
    | with_reducible apply restartRing_keeps
    | with_reducible apply modRing_keeps
    | split
    | extract_lets
    | exact fun g hg => ⟨hg.depth, hg.head, hg.tail, hg.rcpHead, hg.rcpTail, hg.irq⟩

theorem writeTail_keeps {a s : State} (h : Keeps a s) (r : RingId) (v : W32) : Keeps a (writeTail s r v) := by
  unfold writeTail
  dsimp only
  split
  · exact ledAdd_keeps (ringStatus_keeps h ..) ..
  · exact modRing_keeps h r _ fun g hg => ⟨hg.depth, hg.head, mod17 _, hg.rcpHead, hg.rcpTail, hg.irq⟩

theorem writeRcpHead_keeps {a s : State} (h : Keeps a s) (r : RingId) (v : W32) : Keeps a (writeRcpHead s r v) := by
  unfold writeRcpHead
  dsimp only
  split
  · exact ringStatus_keeps h ..
  · exact modRing_keeps h r _ fun g hg => ⟨hg.depth, hg.head, hg.tail, mod17 _, hg.rcpTail, hg.irq⟩

theorem ringWrite_keeps {a s : State} (h : Keeps a s) (r : RingId) (k : ℕ) (v : W32) : Keeps a (ringWrite s r k v) := by
  unfold ringWrite
  split
  · exact writeCfg_keeps h ..
  · exact writeTail_keeps h ..
  · exact writeRcpHead_keeps h ..
  · exact modRing_keeps h r _ fun g hg => ⟨hg.depth, hg.head, hg.tail, hg.rcpHead, hg.rcpTail, hg.irq⟩
  · exact modRing_keeps h r _ fun g hg => ⟨hg.depth, hg.head, hg.tail, hg.rcpHead, hg.rcpTail,
      by show v &&& _ &&& _ = _; rw [BitVec.and_assoc]; exact BitVec.and_zero⟩
  · exact h

theorem beginPhase_keeps {a s : State} (h : Keeps a s) (p : ℕ) : Keeps a (beginPhase s p) := by
  unfold beginPhase
  repeat' first
    | with_reducible assumption
    | simp -zeta only [Keeps.mk_eqs]
    | split

theorem noteImage_keeps {a s : State} (h : Keeps a s) : Keeps a (noteImage s) := by
  unfold noteImage
  repeat' first
    | with_reducible assumption
    | with_reducible apply beginPhase_keeps
    | split

theorem fwWrite_keeps {a s : State} (h : Keeps a s) (i : Fin 64) (k : ℕ) (v : W32) : Keeps a (fwWrite s i k v) := by
  unfold fwWrite
  repeat' first
    | with_reducible assumption
    | simp -zeta only [Keeps.mk_eqs]
    | split
    | extract_lets
    | dsimp +zetaDelta only

theorem emptyKeys_keeps {a s : State} (h : Keeps a s) : Keeps a (emptyKeys s) := by
  unfold emptyKeys
  repeat' first
    | with_reducible assumption
    | simp -zeta only [Keeps.mk_eqs]

theorem writeSecCtrl_keeps {a s : State} (h : Keeps a s) (v : W32) : Keeps a (writeSecCtrl s v) := by
  unfold writeSecCtrl
  repeat' first
    | with_reducible assumption
    | with_reducible apply emptyKeys_keeps
    | simp -zeta only [Keeps.mk_eqs]
    | split
    | extract_lets

theorem writeForce_keeps {a s : State} (h : Keeps a s) (sec : Bool) (v : W32) : Keeps a (writeForce s sec v) := by
  unfold writeForce
  repeat' first
    | with_reducible assumption
    | simp -zeta only [Keeps.mk_eqs]
    | split
    | extract_lets

theorem pokeLow_keeps {a s : State} (h : Keeps a s) (sec : Bool) (x : ℕ) (v : W32) : Keeps a (pokeLow s sec x v) := by
  unfold pokeLow
  repeat' with_reducible refine Keeps.ite ?_ ?_
  all_goals first
    | with_reducible exact h
    | with_reducible exact writeForce_keeps h ..
    | with_reducible exact ringWrite_keeps h ..
    | with_reducible exact setAwn_keeps h fun hm => memWriteN_wf hm _ _
    | (with_reducible refine noteImage_keeps ?_; simp only [Keeps.mk_eqs]; exact h)
    | (simp only [Keeps.mk_eqs]; exact h)

theorem pokeHigh_keeps {a s : State} (h : Keeps a s) (x : ℕ) (v : W32) : Keeps a (pokeHigh s x v) := by
  unfold pokeHigh
  extract_lets g
  repeat' with_reducible refine Keeps.ite ?_ ?_
  all_goals first
    | with_reducible exact h
    | with_reducible exact setQueue_keeps h ..
    | with_reducible exact modSite_keeps h ..
    | with_reducible exact writeSecCtrl_keeps h ..
    | with_reducible exact fwWrite_keeps h ..
    | exact setTally_keeps h fun ht => ⟨ht.1, ht.2⟩
    | exact setLed_keeps h fun hl => ⟨hl.1, hl.2⟩
    | (simp only [Keeps.mk_eqs]; exact h)

theorem regPoke_keeps {a s : State} (h : Keeps a s) (sec : Bool) (a3 : ℕ) (v : W32) : Keeps a (regPoke s sec a3 v) := by
  unfold regPoke
  repeat' first
    | with_reducible assumption
    | with_reducible apply pokeLow_keeps
    | with_reducible apply pokeHigh_keeps
    | split

theorem axiWrite_keeps {a s : State} (h : Keeps a s) (sec : Bool) (a3 : ℕ) (strb : BitVec 4) (v : W32) : Keeps a
    (axiWrite s sec a3 strb v) := by
  unfold axiWrite
  repeat' first
    | with_reducible assumption
    | with_reducible apply axiAnswer_keeps
    | with_reducible apply regPoke_keeps
    | split

theorem execDoorbell_keeps {a s : State} (h : Keeps a s) (sec : Bool) (r : RingId) (v : W32) : OKeeps a
    (execDoorbell sec r v s) := by
  unfold execDoorbell
  repeat' first
    | with_reducible assumption
    | with_reducible apply axiWrite_keeps
    | with_reducible apply ok_next

theorem execRcpHeadWrite_keeps {a s : State} (h : Keeps a s) (sec : Bool) (r : RingId) (v : W32) : OKeeps a
    (execRcpHeadWrite sec r v s) := by
  unfold execRcpHeadWrite
  repeat' first
    | with_reducible assumption
    | with_reducible apply axiWrite_keeps
    | with_reducible apply ok_next

theorem execRingEnable_keeps {a s : State} (h : Keeps a s) (sec : Bool) (r : RingId) (depth : BitVec 5) : OKeeps a
    (execRingEnable sec r depth s) := by
  unfold execRingEnable
  repeat' first
    | with_reducible assumption
    | with_reducible apply axiWrite_keeps
    | with_reducible apply ok_next

theorem execRingDisable_keeps {a s : State} (h : Keeps a s) (sec : Bool) (r : RingId) (depth : BitVec 5) : OKeeps a
    (execRingDisable sec r depth s) := by
  unfold execRingDisable
  repeat' first
    | with_reducible assumption
    | with_reducible apply axiWrite_keeps
    | with_reducible apply ok_next

theorem execRingDepthWrite_keeps {a s : State} (h : Keeps a s) (sec : Bool) (r : RingId) (v : W32) : OKeeps a
    (execRingDepthWrite sec r v s) := by
  unfold execRingDepthWrite
  repeat' first
    | with_reducible assumption
    | with_reducible apply axiWrite_keeps
    | with_reducible apply ok_next

theorem execMbxNsInCommit_keeps {a s : State} (h : Keeps a s) (sec : Bool) (d : W32) : OKeeps a
    (execMbxNsInCommit sec d s) := by
  unfold execMbxNsInCommit
  repeat' first
    | with_reducible assumption
    | with_reducible apply axiWrite_keeps
    | with_reducible apply ok_next

theorem execMbxSInCommit_keeps {a s : State} (h : Keeps a s) (sec : Bool) (d : W32) : OKeeps a
    (execMbxSInCommit sec d s) := by
  unfold execMbxSInCommit
  repeat' first
    | with_reducible assumption
    | with_reducible apply axiWrite_keeps
    | with_reducible apply ok_next

theorem execMbxNsOutD15Read_keeps {a s : State} (h : Keeps a s) (sec : Bool) : OKeeps a (execMbxNsOutD15Read sec s) :=
    by
  unfold execMbxNsOutD15Read
  repeat' first
    | with_reducible assumption
    | with_reducible apply axiRead_keeps
    | with_reducible apply ok_next

theorem execMbxSOutD15Read_keeps {a s : State} (h : Keeps a s) (sec : Bool) : OKeeps a (execMbxSOutD15Read sec s) := by
  unfold execMbxSOutD15Read
  repeat' first
    | with_reducible assumption
    | with_reducible apply axiRead_keeps
    | with_reducible apply ok_next

theorem execBeatNowLoRead_keeps {a s : State} (h : Keeps a s) (sec : Bool) : OKeeps a (execBeatNowLoRead sec s) := by
  unfold execBeatNowLoRead
  repeat' first
    | with_reducible assumption
    | with_reducible apply axiRead_keeps
    | with_reducible apply ok_next

theorem execStepNowLoRead_keeps {a s : State} (h : Keeps a s) (sec : Bool) : OKeeps a (execStepNowLoRead sec s) := by
  unfold execStepNowLoRead
  repeat' first
    | with_reducible assumption
    | with_reducible apply axiRead_keeps
    | with_reducible apply ok_next

theorem execTalBeatLoRead_keeps {a s : State} (h : Keeps a s) (sec : Bool) : OKeeps a (execTalBeatLoRead sec s) := by
  unfold execTalBeatLoRead
  repeat' first
    | with_reducible assumption
    | with_reducible apply axiRead_keeps
    | with_reducible apply ok_next

theorem execTalDataLoRead_keeps {a s : State} (h : Keeps a s) (sec : Bool) : OKeeps a (execTalDataLoRead sec s) := by
  unfold execTalDataLoRead
  repeat' first
    | with_reducible assumption
    | with_reducible apply axiRead_keeps
    | with_reducible apply ok_next

theorem execCirPeakRead_keeps {a s : State} (h : Keeps a s) (sec : Bool) : OKeeps a (execCirPeakRead sec s) := by
  unfold execCirPeakRead
  repeat' first
    | with_reducible assumption
    | with_reducible apply axiRead_keeps
    | with_reducible apply ok_next

theorem execItyFirstRead_keeps {a s : State} (h : Keeps a s) (sec : Bool) : OKeeps a (execItyFirstRead sec s) := by
  unfold execItyFirstRead
  repeat' first
    | with_reducible assumption
    | with_reducible apply axiRead_keeps
    | with_reducible apply ok_next

theorem execSecDenyRead_keeps {a s : State} (h : Keeps a s) (sec : Bool) : OKeeps a (execSecDenyRead sec s) := by
  unfold execSecDenyRead
  repeat' first
    | with_reducible assumption
    | with_reducible apply axiRead_keeps
    | with_reducible apply ok_next

theorem execPwrPeakRead_keeps {a s : State} (h : Keeps a s) (sec : Bool) : OKeeps a (execPwrPeakRead sec s) := by
  unfold execPwrPeakRead
  repeat' first
    | with_reducible assumption
    | with_reducible apply axiRead_keeps
    | with_reducible apply ok_next

theorem execDebugUnlock_keeps {a s : State} (h : Keeps a s) (sec : Bool) : OKeeps a (execDebugUnlock sec s) := by
  unfold execDebugUnlock
  repeat' first
    | with_reducible assumption
    | with_reducible apply axiWrite_keeps
    | with_reducible apply ok_next

theorem execFirewallEntryWrite_keeps {a s : State} (h : Keeps a s) (sec : Bool) (i : Fin 64) (word : Fin 3) (v : W32)
    : OKeeps a (execFirewallEntryWrite sec i word v s) := by
  unfold execFirewallEntryWrite
  repeat' first
    | with_reducible assumption
    | with_reducible apply axiWrite_keeps
    | with_reducible apply ok_next

theorem execIrqForceWrite_keeps {a s : State} (h : Keeps a s) (sec : Bool) (v : W32) : OKeeps a
    (execIrqForceWrite sec v s) := by
  unfold execIrqForceWrite
  repeat' first
    | with_reducible assumption
    | with_reducible apply axiWrite_keeps
    | with_reducible apply ok_next

theorem execRegisterWrite_keeps {a s : State} (h : Keeps a s) (sec : Bool) (addr : ℕ) (strb : BitVec 4) (v : W32) :
    OKeeps a (execRegisterWrite sec addr strb v s) := by
  unfold execRegisterWrite
  repeat' first
    | with_reducible assumption
    | with_reducible apply axiWrite_keeps
    | with_reducible apply ok_next

theorem execAxiPortReset_keeps {a s : State} (h : Keeps a s) : OKeeps a (execAxiPortReset s) := by
  unfold execAxiPortReset
  repeat' first
    | with_reducible assumption
    | with_reducible apply ok_next

theorem takeMsg_keeps {a s : State} (h : Keeps a s) (sec : Bool) : Keeps a (takeMsg s sec) := by
  unfold takeMsg
  repeat' first
    | with_reducible assumption
    | simp -zeta only [Keeps.mk_eqs]
    | split

theorem addAnswer_keeps {a s : State} (h : Keeps a s) (sec : Bool) (code : BitVec 8) (seq : BitVec 8) : Keeps a
    (addAnswer s sec code seq) := by
  unfold addAnswer
  repeat' first
    | with_reducible assumption
    | simp -zeta only [Keeps.mk_eqs]
    | split

theorem placeStatus_keeps {a s : State} (h : Keeps a s) (sec : Bool) : Keeps a (placeStatus s sec) := by
  unfold placeStatus
  repeat' first
    | with_reducible assumption
    | simp -zeta only [Keeps.mk_eqs]
    | split

theorem handleMsg_keeps {a s : State} (h : Keeps a s) (sec : Bool) (act : State → Mbx → State × Option (BitVec 8))
    (hact : ∀ t m, Keeps a t → Keeps a (act t m).1) : Keeps a (handleMsg s sec act) := by
  unfold handleMsg
  have h1 := takeMsg_keeps h sec
  dsimp only
  split
  · refine addAnswer_keeps ?_ ..
    simp only [Keeps.mk_eqs]; exact h1
  · split
    · exact addAnswer_keeps h1 ..
    · have h2 := hact _ (inbox s sec) h1
      split
      · rename_i e; rw [e] at h2; exact addAnswer_keeps h2 ..
      · rename_i e; rw [e] at h2; exact h2

theorem onMsg_keeps {a s : State} (h : Keeps a s) (sec : Bool) (ty : ℕ) (act : State → Mbx → State × Option (BitVec 8))
    (hact : ∀ t m, Keeps a t → Keeps a (act t m).1) : Keeps a (onMsg s sec ty act) := by
  unfold onMsg
  split
  · exact handleMsg_keeps h _ _ hact
  · exact h

theorem startCheck_keeps {a s : State} (h : Keeps a s) (seq : BitVec 8) : Keeps a (startCheck s seq).1 := by
  unfold startCheck
  repeat' first
    | with_reducible assumption
    | simp -zeta only [Keeps.mk_eqs]
    | split

theorem onImageDesc_keeps {a s : State} (h : Keeps a s) (m : Mbx) : Keeps a (onImageDesc s m).1 := by
  unfold onImageDesc
  repeat' first
    | with_reducible assumption
    | with_reducible apply startCheck_keeps
    | simp -zeta only [Keeps.mk_eqs]
    | split

theorem onImageDigest_keeps {a s : State} (h : Keeps a s) (m : Mbx) : Keeps a (onImageDigest s m).1 := by
  unfold onImageDigest
  repeat' first
    | with_reducible assumption
    | with_reducible apply startCheck_keeps
    | simp -zeta only [Keeps.mk_eqs]
    | split

theorem noteSelfTest_keeps {a s : State} (h : Keeps a s) : Keeps a (noteSelfTest s) := by
  unfold noteSelfTest
  repeat' first
    | with_reducible assumption
    | with_reducible apply beginPhase_keeps
    | split

theorem failStart_keeps {a s : State} (h : Keeps a s) : Keeps a (failStart s) := by
  unfold failStart
  repeat' first
    | with_reducible assumption
    | simp -zeta only [Keeps.mk_eqs]

theorem endCheck_keeps {a s : State} (h : Keeps a s) (fetchOk : Bool) (image : Bytes) : Keeps a
    (endCheck s fetchOk image) := by
  unfold endCheck
  repeat' first
    | with_reducible assumption
    | with_reducible apply addAnswer_keeps
    | with_reducible apply failStart_keeps
    | with_reducible apply noteSelfTest_keeps
    | simp -zeta only [Keeps.mk_eqs]
    | split

theorem setKey_keeps {a s : State} (h : Keeps a s) (k : Fin 16) (x : Key) : Keeps a (setKey s k x) := by
  unfold setKey
  repeat' first
    | with_reducible assumption
    | simp -zeta only [Keeps.mk_eqs]

theorem onKeyLoad_keeps {a s : State} (h : Keeps a s) (m : Mbx) : Keeps a (onKeyLoad s m).1 := by
  unfold onKeyLoad
  repeat' first
    | with_reducible assumption
    | with_reducible apply setKey_keeps
    | split
    | extract_lets

theorem onKeyClear_keeps {a s : State} (h : Keeps a s) (m : Mbx) : Keeps a (onKeyClear s m).1 := by
  unfold onKeyClear
  repeat' first
    | with_reducible assumption
    | with_reducible apply setKey_keeps
    | split
    | extract_lets

theorem onMark_keeps {a s : State} (h : Keeps a s) (m : Mbx) : Keeps a (onMark s m).1 := by
  unfold onMark
  repeat' first
    | with_reducible assumption
    | with_reducible apply ledAdd_keeps

theorem execImageDesc_keeps {a s : State} (h : Keeps a s) : OKeeps a (execImageDesc s) := by
  unfold execImageDesc
  repeat' first
    | with_reducible assumption
    | refine onMsg_keeps ?_ _ _ _ (fun t m ht => ?_)
    | with_reducible apply onImageDesc_keeps
    | with_reducible apply ok_next

theorem execImageDigest_keeps {a s : State} (h : Keeps a s) : OKeeps a (execImageDigest s) := by
  unfold execImageDigest
  repeat' first
    | with_reducible assumption
    | refine onMsg_keeps ?_ _ _ _ (fun t m ht => ?_)
    | with_reducible apply onImageDigest_keeps
    | with_reducible apply ok_next

theorem execDigestCheckEnd_keeps {a s : State} (h : Keeps a s) (fetchOk : Bool) (image : Bytes) : OKeeps a
    (execDigestCheckEnd fetchOk image s) := by
  unfold execDigestCheckEnd
  repeat' first
    | with_reducible assumption
    | with_reducible apply endCheck_keeps
    | with_reducible apply ok_next

theorem execKeyLoad_keeps {a s : State} (h : Keeps a s) : OKeeps a (execKeyLoad s) := by
  unfold execKeyLoad
  repeat' first
    | with_reducible assumption
    | refine onMsg_keeps ?_ _ _ _ (fun t m ht => ?_)
    | with_reducible apply onKeyLoad_keeps
    | with_reducible apply ok_next

theorem execKeyClear_keeps {a s : State} (h : Keeps a s) : OKeeps a (execKeyClear s) := by
  unfold execKeyClear
  repeat' first
    | with_reducible assumption
    | refine onMsg_keeps ?_ _ _ _ (fun t m ht => ?_)
    | with_reducible apply onKeyClear_keeps
    | with_reducible apply ok_next

theorem execMark_keeps {a s : State} (h : Keeps a s) : OKeeps a (execMark s) := by
  unfold execMark
  repeat' first
    | with_reducible assumption
    | refine onMsg_keeps ?_ _ _ _ (fun t m ht => ?_)
    | with_reducible apply onMark_keeps
    | with_reducible apply ok_next

theorem execStatus_keeps {a s : State} (h : Keeps a s) (sec : Bool) : OKeeps a (execStatus sec s) := by
  unfold execStatus
  repeat' first
    | with_reducible assumption
    | with_reducible apply placeStatus_keeps
    | with_reducible apply ok_next

theorem takeBad_keeps {a s : State} (h : Keeps a s) (sec : Bool) : Keeps a (takeBad s sec) := by
  unfold takeBad
  repeat' first
    | with_reducible assumption
    | refine handleMsg_keeps ?_ _ _ (fun t m ht => ?_)
    | split

theorem execMailboxMessageMalformed_keeps {a s : State} (h : Keeps a s) (sec : Bool) : OKeeps a
    (execMailboxMessageMalformed sec s) := by
  unfold execMailboxMessageMalformed
  repeat' first
    | with_reducible assumption
    | with_reducible apply takeBad_keeps
    | with_reducible apply ok_next

theorem latchGroups_keeps {a s : State} (h : Keeps a s) (g : ℕ) : Keeps a (latchGroups s g) := by
  unfold latchGroups
  dsimp only
  refine setTally_keeps h fun ht => ⟨fun e he => ?_, fun e he => ?_⟩
  · dsimp only at he
    split at he
    · rcases mem_kvPut he with rfl | he
      · exact Nat.mod_lt _ (by decide)
      · rcases mem_kvPut he with rfl | he
        · exact Nat.mod_lt _ (by decide)
        · exact ht.1 e he
    · exact ht.1 e he
  · dsimp only at he
    obtain ⟨q, -, hq⟩ := List.mem_flatMap.mp he
    have := List.mem_of_mem_filter hq
    split at this
    · exact ht.1 e this
    · exact ht.2 e this

theorem latchTallies_keeps {a s : State} (h : Keeps a s) : Keeps a (latchTallies s) := by
  unfold latchTallies
  repeat' first
    | with_reducible assumption
    | with_reducible apply latchGroups_keeps
    | simp -zeta only [Keeps.mk_eqs]
    | split
    | extract_lets

theorem refuseWaiting_keeps {a s : State} (h : Keeps a s) : Keeps a (refuseWaiting s) := by
  unfold refuseWaiting
  repeat' first
    | with_reducible assumption
    | with_reducible apply ledAdd_keeps
    | with_reducible apply refuseOrder_keeps
    | simp -zeta only [Keeps.mk_eqs]
    | with_reducible refine Keeps.foldl _ ?_ (fun t x ht => ?_)
    | split

theorem endServes_keeps {a s : State} (h : Keeps a s) (n : ℕ) : Keeps a (endServes s n) := by
  unfold endServes
  repeat' first
    | with_reducible assumption
    | refine endOrder_keeps ?_ _ _ ?_
    | with_reducible apply servePerf_keeps
    | with_reducible refine Keeps.foldl _ ?_ (fun t x ht => ?_)

theorem recordStep_keeps {a s : State} (h : Keeps a s) (x2 : Option (BitVec 40)) : Keeps a (recordStep s x2) := by
  unfold recordStep
  repeat' first
    | with_reducible assumption
    | with_reducible apply ledAdd_keeps
    | simp -zeta only [Keeps.mk_eqs]
    | split
    | extract_lets
    | dsimp +zetaDelta only

theorem adoptBeat_keeps {a s : State} (h : Keeps a s) (n : ℕ) : Keeps a (adoptBeat s n) := by
  unfold adoptBeat
  repeat' first
    | with_reducible assumption
    | with_reducible apply count_keeps
    | simp -zeta only [Keeps.mk_eqs]

theorem beatStatus_keeps {a s : State} (h : Keeps a s) (bits : W32) : Keeps a (beatStatus s bits) := by
  unfold beatStatus
  repeat' first
    | with_reducible assumption
    | simp -zeta only [Keeps.mk_eqs]

theorem nextBeat_keeps {a s : State} (h : Keeps a s) (n : ℕ) (step : Option (BitVec 40)) : Keeps a (nextBeat s n step)
    := by
  unfold nextBeat
  repeat' first
    | with_reducible assumption
    | with_reducible apply endServes_keeps
    | with_reducible apply settle_keeps
    | with_reducible apply adoptBeat_keeps
    | with_reducible apply ledAdd_keeps
    | with_reducible apply beatStatus_keeps
    | with_reducible apply recordStep_keeps
    | with_reducible apply lateCheck_keeps
    | with_reducible apply refuseWaiting_keeps
    | with_reducible apply lateAtStrobe_keeps
    | with_reducible apply latchTallies_keeps
    | simp -zeta only [Keeps.mk_eqs]
    | split

theorem strobe_keeps {a s : State} (h : Keeps a s) (n : ℕ) (step : Option (BitVec 40)) : Keeps a (strobe s n step) := by
  unfold strobe
  repeat' first
    | with_reducible assumption
    | with_reducible refine batch_keeps ?_ (fun b t ht => ?_)
    | with_reducible apply refuseWaiting_keeps
    | with_reducible apply latchTallies_keeps
    | with_reducible apply recordStep_keeps
    | with_reducible apply adoptBeat_keeps
    | with_reducible apply count_keeps
    | with_reducible apply ledAdd_keeps
    | with_reducible apply beatStatus_keeps
    | with_reducible apply nextBeat_keeps
    | simp -zeta only [Keeps.mk_eqs]
    | split

theorem execBeatStrobe_keeps {a s : State} (h : Keeps a s) (n : BitVec 48) (step : Option (BitVec 40)) : OKeeps a
    (execBeatStrobe n step s) := by
  unfold execBeatStrobe
  repeat' first
    | with_reducible assumption
    | with_reducible apply strobe_keeps
    | with_reducible apply ok_next

theorem stopped_keeps {a s : State} (h : Keeps a s) : Keeps a (stopped s) := by
  unfold stopped
  repeat' first
    | with_reducible assumption
    | with_reducible apply ledAdd_keeps
    | with_reducible apply beatStatus_keeps
    | split

theorem execSequencerStopped_keeps {a s : State} (h : Keeps a s) : OKeeps a (execSequencerStopped s) := by
  unfold execSequencerStopped
  repeat' first
    | with_reducible assumption
    | with_reducible apply stopped_keeps
    | with_reducible apply ok_next

theorem selfTestBit_keeps {a s : State} (h : Keeps a s) (b : ℕ) : Keeps a (selfTestBit s b) := by
  unfold selfTestBit
  repeat' first
    | with_reducible assumption
    | simp -zeta only [Keeps.mk_eqs]

theorem startTraining_keeps {a s : State} (h : Keeps a s) : Keeps a (startTraining s) := by
  unfold startTraining
  repeat' first
    | with_reducible assumption
    | with_reducible apply beginPhase_keeps
    | with_reducible apply modSite_keeps
    | with_reducible refine Keeps.foldl _ ?_ (fun t x ht => ?_)
    | split
    | extract_lets

theorem powerGood_keeps {a s : State} (h : Keeps a s) (x : SiteId) : Keeps a (powerGood s x) := by
  unfold powerGood
  repeat' first
    | with_reducible assumption
    | with_reducible apply modSite_keeps
    | with_reducible apply startTraining_keeps
    | split
    | extract_lets

theorem execSitePowerGood_keeps {a s : State} (h : Keeps a s) (x : SiteId) : OKeeps a (execSitePowerGood x s) := by
  unfold execSitePowerGood
  repeat' first
    | with_reducible assumption
    | with_reducible apply powerGood_keeps
    | with_reducible apply ok_next

theorem endTraining_keeps {a s : State} (h : Keeps a s) (x : SiteId) (lanes : List (ChId × ℕ)) : Keeps a
    (endTraining s x lanes) := by
  unfold endTraining
  repeat' first
    | with_reducible assumption
    | with_reducible apply siteEvent_keeps
    | with_reducible apply modChan_keeps
    | with_reducible apply bump_keeps
    | with_reducible apply modSite_keeps
    | with_reducible apply setLive_keeps
    | with_reducible apply selfTestBit_keeps
    | with_reducible apply noteSelfTest_keeps
    | with_reducible refine Keeps.foldl _ ?_ (fun t x ht => ?_)
    | split
    | extract_lets
    | dsimp +zetaDelta only

theorem execTrainingComplete_keeps {a s : State} (h : Keeps a s) (x : SiteId) (lanes : List (ChId × ℕ)) : OKeeps a
    (execTrainingComplete x lanes s) := by
  unfold execTrainingComplete
  repeat' first
    | with_reducible assumption
    | with_reducible apply endTraining_keeps
    | with_reducible apply ok_next

theorem parityAlert_keeps {a s : State} (h : Keeps a s) (x : SiteId) (c : ℕ) : Keeps a (parityAlert s x c) := by
  unfold parityAlert
  repeat' first
    | with_reducible assumption
    | with_reducible apply bump_keeps
    | with_reducible apply modSite_keeps
    | with_reducible apply siteEvent_keeps
    | with_reducible apply startRetrain_keeps
    | with_reducible apply modChan_keeps
    | split
    | extract_lets

theorem execCommandParityAlert_keeps {a s : State} (h : Keeps a s) (x : SiteId) (c : ChId) : OKeeps a
    (execCommandParityAlert x c s) := by
  unfold execCommandParityAlert
  repeat' first
    | with_reducible assumption
    | with_reducible apply parityAlert_keeps
    | with_reducible apply ok_next

theorem pwrIrq_keeps {a s : State} (h : Keeps a s) (bit : ℕ) : Keeps a (pwrIrq s bit) := by
  unfold pwrIrq
  repeat' first
    | with_reducible assumption
    | simp -zeta only [Keeps.mk_eqs]

theorem thermalCheck_keeps {a : State} (old : State) {new : State} (h : Keeps a new) (l : List Inst) :
    Keeps a (thermalCheck old new l) := by
  unfold thermalCheck
  dsimp only
  split
  · exact lateCheck_keeps h _
  · exact h

theorem setLevel_keeps {a s : State} (h : Keeps a s) (x : SiteId) (new : ℕ) : Keeps a (setLevel s x new) := by
  unfold setLevel
  repeat' first
    | with_reducible assumption
    | with_reducible apply ledAdd_keeps
    | with_reducible apply modSite_keeps
    | with_reducible apply pwrIrq_keeps
    | with_reducible apply thermalCheck_keeps
    | with_reducible apply requestDeferred_keeps
    | split
    | extract_lets
    | dsimp +zetaDelta only

theorem driftCheck_keeps {a s : State} (h : Keeps a s) (x : SiteId) (c : ℕ) (t : ℕ) : Keeps a (driftCheck s x c t) := by
  unfold driftCheck
  repeat' first
    | with_reducible assumption
    | with_reducible apply modChan_keeps
    | with_reducible apply startRetrain_keeps
    | split

theorem shutdownOff_keeps {a s : State} (h : Keeps a s) (x : SiteId) : Keeps a (shutdownOff s x) := by
  unfold shutdownOff
  repeat' first
    | with_reducible assumption
    | with_reducible apply modSite_keeps
    | split

theorem execSiteShutdownPowerOff_keeps {a s : State} (h : Keeps a s) (x : SiteId) : OKeeps a
    (execSiteShutdownPowerOff x s) := by
  unfold execSiteShutdownPowerOff
  repeat' first
    | with_reducible assumption
    | with_reducible apply shutdownOff_keeps
    | with_reducible apply ok_next

theorem readJunction_keeps {a s : State} (h : Keeps a s) (r : List (BitVec 11)) : Keeps a (readJunction s r) := by
  unfold readJunction
  repeat' first
    | with_reducible assumption
    | with_reducible apply ledAdd_keeps
    | with_reducible apply pwrIrq_keeps
    | with_reducible apply thermalCheck_keeps
    | simp -zeta only [Keeps.mk_eqs]
    | split
    | extract_lets
    | dsimp +zetaDelta only

theorem execJunctionRead_keeps {a s : State} (h : Keeps a s) (r : List (BitVec 11)) : OKeeps a (execJunctionRead r s)
    := by
  unfold execJunctionRead
  repeat' first
    | with_reducible assumption
    | with_reducible apply readJunction_keeps
    | with_reducible apply ok_next

theorem execSfnc_keeps {a s : State} (h : Keeps a s) (x : SiteId) (c : ChId) (k : PairId) : OKeeps a
    (execSfnc x c k s) := by
  unfold execSfnc
  repeat' first
    | with_reducible assumption
    | with_reducible apply requestDeferred_keeps
    | with_reducible apply ok_next
    | split

theorem sealStep_keeps {a s : State} (h : Keeps a s) (force : Bool) (p : ℕ) : Keeps a (sealStep force s p) := by
  unfold sealStep
  repeat' first
    | with_reducible assumption
    | with_reducible apply sealBlock_keeps
    | with_reducible apply putRaw_keeps
    | split
    | extract_lets

theorem execRstw_keeps {a s : State} (h : Keeps a s) (x : SiteId) (c : ChId) (k : Option PairId) (word : ℕ)
    (data : Col) : OKeeps a (execRstw x c k word data s) := by
  unfold execRstw
  repeat' first
    | with_reducible assumption
    | with_reducible apply putUnit_keeps
    | with_reducible apply ok_next
    | with_reducible refine Keeps.foldl _ ?_ (fun t x ht => ?_)
    | split

theorem execPassd_keeps {a s : State} (h : Keeps a s) (x : SiteId) (c : ChId) (k : PairId) (data : Col) : OKeeps a
    (execPassd x c k data s) := by
  unfold execPassd
  repeat' first
    | with_reducible assumption
    | with_reducible apply putUnit_keeps
    | with_reducible apply ok_next
    | split

theorem execLatg_keeps {a s : State} (h : Keeps a s) (x : SiteId) (c : ChId) (k : PairId) (group : ℕ) (data : Col) :
    OKeeps a (execLatg x c k group data s) := by
  unfold execLatg
  repeat' first
    | with_reducible assumption
    | with_reducible apply putUnit_keeps
    | with_reducible apply ok_next
    | split

theorem execStatq_keeps {a s : State} (h : Keeps a s) (x : SiteId) (c : ChId) (k : PairId) : OKeeps a
    (execStatq x c k s) := by
  unfold execStatq
  repeat' first
    | with_reducible assumption
    | with_reducible apply send_keeps
    | simp -zeta only
    | with_reducible apply ok_next
    | split

theorem execTempq_keeps {a s : State} (h : Keeps a s) (x : SiteId) (c : ChId) : OKeeps a (execTempq x c s) := by
  unfold execTempq
  repeat' first
    | with_reducible assumption
    | with_reducible apply send_keeps
    | with_reducible apply ok_next
    | split

theorem bdWrite_keeps {a s : State} (h : Keeps a s) (x : SiteId) (idx : ℕ) (v : W32) : Keeps a (bdWrite s x idx v) := by
  unfold bdWrite
  repeat' first
    | with_reducible assumption
    | with_reducible apply modSite_keeps
    | simp -zeta only [Keeps.mk_eqs]
    | split

theorem execBdreg_keeps {a s : State} (h : Keeps a s) (x : SiteId) (idx : ℕ) (write : Option W32) : OKeeps a
    (execBdreg x idx write s) := by
  unfold execBdreg
  repeat' first
    | with_reducible assumption
    | with_reducible apply bdWrite_keeps
    | with_reducible apply send_keeps
    | with_reducible apply ok_next
    | split

theorem countOrigin_keeps {a s : State} (h : Keeps a s) (o : Origin) (n : ℕ) : Keeps a (countOrigin s o n) := by
  unfold countOrigin
  repeat' first
    | with_reducible assumption
    | with_reducible apply count_keeps
    | split

theorem completeReq_keeps {a s : State} (h : Keeps a s) (o : Origin) (c : Cpl) (data : Bytes) : Keeps a
    (completeReq s o c data) := by
  unfold completeReq
  repeat' first
    | with_reducible assumption
    | with_reducible apply send_keeps
    | simp -zeta only [Keeps.mk_eqs]
    | extract_lets

theorem modUpd_keeps {a s : State} (h : Keeps a s) (id : ℕ) (f : Upd → Upd) : Keeps a (modUpd s id f) := by
  unfold modUpd
  repeat' first
    | with_reducible assumption
    | with_reducible apply modShard_keeps

theorem beginAdd_keeps {a s : State} (h : Keeps a s) (src : Origin) (h3 : Order) (payload : Bytes) : Keeps a
    (beginAdd s src h3 payload) := by
  unfold beginAdd
  repeat' first
    | with_reducible assumption
    | with_reducible apply modUpd_keeps
    | with_reducible apply countHigh_keeps
    | split

theorem addDup_keeps {a s : State} (h : Keeps a s) (src : Origin) (h3 : Order) : Keeps a (addDup s src h3) := by
  unfold addDup
  repeat' first
    | with_reducible assumption
    | with_reducible apply modUpd_keeps

theorem takeTile_keeps {a s : State} (h : Keeps a s) (src : Origin) (h3 : Order) (payload : Bytes) : Keeps a
    (takeTile s src h3 payload) := by
  unfold takeTile
  repeat' first
    | with_reducible assumption
    | with_reducible apply sendTileAck_keeps
    | with_reducible apply fwDeny_keeps
    | with_reducible apply addDup_keeps
    | with_reducible apply beginAdd_keeps
    | split

theorem tileArrives_keeps {a s : State} (h : Keeps a s) (src : Origin) (offset : ℕ) (h4 : Order) (payload : Bytes) :
    Keeps a (tileArrives s src offset h4 payload) := by
  unfold tileArrives
  repeat' first
    | with_reducible assumption
    | with_reducible apply countOrigin_keeps
    | with_reducible apply completeReq_keeps
    | with_reducible apply takeTile_keeps
    | with_reducible apply hearFrom_keeps
    | split

theorem execTilePacket_keeps {a s : State} (h : Keeps a s) (src : Origin) (offset : ℕ) (hdr : Order) (payload : Bytes)
    : OKeeps a (execTilePacket src offset hdr payload s) := by
  unfold execTilePacket
  repeat' first
    | with_reducible assumption
    | with_reducible apply tileArrives_keeps
    | with_reducible apply ok_next

theorem ripen_keeps {a s : State} (h : Keeps a s) (id : ℕ) (t : ℕ) (ly : Layout) (u : Upd) (x : Tile) : Keeps a
    (ripen s id t ly u x) := by
  unfold ripen
  repeat' first
    | with_reducible assumption
    | with_reducible apply stopUpdate_keeps
    | with_reducible apply modUpd_keeps
    | with_reducible apply countHigh_keeps
    | split
    | extract_lets

theorem finishAdd_keeps {a s : State} (h : Keeps a s) (id : ℕ) (t : ℕ) (c : ℕ) : Keeps a (finishAdd s id t c) := by
  unfold finishAdd
  repeat' first
    | with_reducible assumption
    | with_reducible apply ackAdded_keeps
    | with_reducible apply modUpd_keeps
    | with_reducible apply ripen_keeps
    | split
    | extract_lets

theorem execTileContributionAdded_keeps {a s : State} (h : Keeps a s) (layout : ℕ) (tile : ℕ) (contrib : ℕ) : OKeeps a
    (execTileContributionAdded layout tile contrib s) := by
  unfold execTileContributionAdded
  repeat' first
    | with_reducible assumption
    | with_reducible apply finishAdd_keeps
    | with_reducible apply ok_next

theorem countOut_keeps {a s : State} (h : Keeps a s) (o : Origin) (n : ℕ) : Keeps a (countOut s o n) := by
  unfold countOut
  repeat' first
    | with_reducible assumption
    | with_reducible apply count_keeps
    | split

theorem sendCpl_keeps {a s : State} (h : Keeps a s) (o : Origin) (id : ℕ) (c : Cpl) (data : Bytes) : Keeps a
    (sendCpl s o id c data) := by
  unfold sendCpl
  repeat' first
    | with_reducible assumption
    | with_reducible apply countOut_keeps
    | with_reducible apply send_keeps
    | with_reducible apply sendX_keeps
    | split

theorem refuseReq_keeps {a s : State} (h : Keeps a s) (o : Origin) (c : Cpl) : Keeps a (refuseReq s o c) := by
  unfold refuseReq
  repeat' first
    | with_reducible assumption
    | with_reducible apply sendCpl_keeps
    | simp -zeta only [Keeps.mk_eqs]

theorem enqueue_keeps {a s : State} (h : Keeps a s) (k : ℕ) (cls : ℕ) (id : ℕ) : Keeps a (enqueue s k cls id) := by
  unfold enqueue
  repeat' first
    | with_reducible assumption
    | simp -zeta only [Keeps.mk_eqs]
    | extract_lets

theorem lookup_keeps {a s : State} (h : Keeps a s) (id : ℕ) (ly : Layout) (area : ℕ) (off : ℕ) : Keeps a
    (lookup s id ly area off) := by
  unfold lookup
  repeat' first
    | with_reducible assumption
    | with_reducible apply count_keeps
    | split

theorem readPlace_keeps {a s : State} (h : Keeps a s) (narrow : Bool) (id : ℕ) (a4 : ℕ) (off : ℕ) (n : ℕ) : Keeps a
    (readPlace s narrow id a4 off n).1 := by
  unfold readPlace
  repeat' first
    | with_reducible assumption
    | with_reducible apply bump_keeps
    | with_reducible apply noteOpenReads_keeps
    | with_reducible apply lookup_keeps
    | with_reducible apply reqRead_keeps
    | split

theorem writePlace_keeps {a s : State} (h : Keeps a s) (narrow : Bool) (id : ℕ) (a4 : ℕ) (off : ℕ) (d : Bytes) : Keeps
    a (writePlace s narrow id a4 off d) := by
  unfold writePlace
  repeat' first
    | with_reducible assumption
    | with_reducible apply noteOpenReads_keeps
    | with_reducible apply areaWrite_keeps
    | with_reducible apply lookup_keeps
    | with_reducible apply reqWrite_keeps
    | split

theorem storeAtomic_keeps {a s : State} (h : Keeps a s) (id : ℕ) (area : ℕ) (off : ℕ) (b : Bytes) : Keeps a
    (storeAtomic s id area off b) := by
  unfold storeAtomic
  repeat' first
    | with_reducible assumption
    | with_reducible apply stackWrite_keeps
    | simp -zeta only [Keeps.mk_eqs]
    | split
    | extract_lets

theorem atomicPlace_keeps {a s : State} (h : Keeps a s) (id : ℕ) (a3 : ℕ) (off : ℕ) (n : ℕ) (k : AtomKind) (cmp : ℕ)
    (x : ℕ) : Keeps a (atomicPlace s id a3 off n k cmp x).1 := by
  unfold atomicPlace
  repeat' first
    | with_reducible assumption
    | with_reducible apply readPlace_keeps
    | with_reducible apply count_keeps
    | with_reducible apply storeAtomic_keeps
    | split
    | extract_lets

theorem performOp_keeps {a s : State} (h : Keeps a s) (narrow : Bool) (p : ReqOp) : Keeps a (performOp s narrow p).1
    := by
  unfold performOp
  repeat' first
    | with_reducible assumption
    | with_reducible apply readPlace_keeps
    | with_reducible apply writePlace_keeps
    | with_reducible apply atomicPlace_keeps
    | split

theorem awaitService_keeps {a s : State} (h : Keeps a s) (o : Origin) (cls : ℕ) (narrow : Bool) (posted : Bool)
    (write : Bool) (addr : ℕ) (p : ReqOp) : Keeps a (awaitService s o cls narrow posted write addr p) := by
  unfold awaitService
  repeat' first
    | with_reducible assumption
    | with_reducible apply performOp_keeps
    | with_reducible apply enqueue_keeps
    | simp -zeta only [Keeps.mk_eqs]
    | with_reducible refine Keeps.foldl _ ?_ (fun t x ht => ?_)
    | split
    | extract_lets
    | dsimp +zetaDelta only

theorem awaitAwning_keeps {a s : State} (h : Keeps a s) (o : Origin) (cls : ℕ) (posted : Bool) (write : Bool)
    (addr : ℕ) (data : Bytes) : Keeps a (awaitAwning s o cls posted write addr data) := by
  unfold awaitAwning
  repeat' first
    | with_reducible assumption
    | with_reducible apply enqueue_keeps
    | simp -zeta only [Keeps.mk_eqs]
    | with_reducible refine Keeps.foldl _ ?_ (fun t x ht => ?_)
    | split
    | extract_lets

theorem performOne_keeps {a : State} {p : State × List PendReq} (h : Keeps a p.1) (r : PendReq) :
    Keeps a (performOne p r).1 := by
  unfold performOne
  repeat' first
    | exact h
    | exact performOp_keeps h ..
    | split

theorem performPending_keeps {a s : State} (h : Keeps a s) : Keeps a (performPending s) := by
  unfold performPending
  dsimp only
  simp only [Keeps.mk_eqs]
  refine Keeps.foldl_fst _ ?_ fun p r hp => performOne_keeps hp r
  exact h.eqs rfl rfl rfl rfl rfl rfl rfl rfl rfl rfl rfl rfl

theorem acceptRead_keeps {a s : State} (h : Keeps a s) (o : Origin) (crit narrow fits : Bool) (addr n : ℕ) :
    Keeps a (acceptRead s o crit narrow fits addr n) := by
  unfold acceptRead
  split
  · exact awaitAwning_keeps h ..
  · exact awaitAwning_keeps h ..
  · exact awaitService_keeps h ..
  · exact refuseReq_keeps (fwDeny_keeps h _) ..
  · exact refuseReq_keeps h ..

theorem refuseWrite_keeps {a s : State} (h : Keeps a s) (o : Origin) (posted : Bool) (c : Cpl) : Keeps a
    (refuseWrite s o posted c) := by
  unfold refuseWrite
  repeat' first
    | with_reducible assumption
    | with_reducible apply refuseReq_keeps
    | split

theorem acceptWrite_keeps {a s : State} (h : Keeps a s) (o : Origin) (posted narrow fits : Bool) (addr : ℕ)
    (data : Bytes) :
    Keeps a (acceptWrite s o posted narrow fits addr data) := by
  unfold acceptWrite
  split
  · exact awaitAwning_keeps (setAwn_keeps h fun hm => memWriteN_wf hm _ _) ..
  · exact awaitAwning_keeps (setStage_keeps h fun hm => memWriteN_wf hm _ _) ..
  · exact awaitService_keeps h ..
  · exact refuseWrite_keeps (fwDeny_keeps h _) ..
  · exact refuseWrite_keeps h ..

theorem serveWork_keeps {a s : State} (h : Keeps a s) (pt : ArbPt) (w : Due) : Keeps a (serveWork s pt w) := by
  unfold serveWork
  repeat' first
    | with_reducible assumption
    | simp -zeta only [Keeps.mk_eqs]

theorem noteGranted_keeps {a s : State} (h : Keeps a s) (id : ℕ) : Keeps a (noteGranted s id) := by
  unfold noteGranted
  repeat' first
    | with_reducible assumption
    | simp -zeta only [Keeps.mk_eqs]
    | split

theorem takeBg_keeps {a s : State} (h : Keeps a s) (pt : ArbPt) (ns : ℕ) : Keeps a (takeBg s pt ns) := by
  unfold takeBg
  repeat' first
    | with_reducible assumption
    | with_reducible apply count_keeps
    | simp -zeta only [Keeps.mk_eqs]

theorem drawAccess_keeps {a s : State} (h : Keeps a s) (pt : ArbPt) (id : ℕ) (ns : ℕ) : Keeps a
    (drawAccess s pt id ns) := by
  unfold drawAccess
  repeat' first
    | with_reducible assumption
    | with_reducible apply drawPair_keeps
    | with_reducible refine Keeps.foldl _ ?_ (fun t x ht => ?_)
    | split

theorem grant_keeps {a s : State} (h : Keeps a s) (pt : ArbPt) (ns : ℕ) : Keeps a (grant s pt ns) := by
  unfold grant
  repeat' first
    | with_reducible assumption
    | with_reducible apply count_keeps
    | with_reducible apply serveWork_keeps
    | with_reducible apply drawAccess_keeps
    | with_reducible apply noteGranted_keeps
    | simp -zeta only [Keeps.mk_eqs]
    | split
    | extract_lets

theorem noteFirst_keeps {a s : State} (h : Keeps a s) (x : SiteId) (c : ℕ) : Keeps a (noteFirst s x c) := by
  unfold noteFirst
  repeat' first
    | with_reducible assumption
    | simp -zeta only [Keeps.mk_eqs]
    | split

theorem lastingEvent_keeps {a s : State} (h : Keeps a s) (x : SiteId) (c : ℕ) : Keeps a (lastingEvent s x c) := by
  unfold lastingEvent
  repeat' first
    | with_reducible assumption
    | with_reducible apply modChan_keeps
    | with_reducible apply noteFirst_keeps
    | with_reducible apply ityIrq_keeps
    | with_reducible apply ledAdd_keeps
    | split
    | extract_lets

theorem tranEvent_keeps {a s : State} (h : Keeps a s) (x : SiteId) (c : ℕ) : Keeps a (tranEvent s x c) := by
  unfold tranEvent
  repeat' first
    | with_reducible assumption
    | with_reducible apply modChan_keeps
    | with_reducible apply startRetrain_keeps
    | with_reducible apply noteFirst_keeps
    | with_reducible apply ityIrq_keeps
    | with_reducible apply ledAdd_keeps
    | split
    | extract_lets

theorem leakTick_keeps {a s : State} (h : Keeps a s) (x : SiteId) (c : ℕ) (transient : Bool) : Keeps a
    (leakTick s x c transient) := by
  unfold leakTick
  repeat' first
    | with_reducible assumption
    | with_reducible apply modChan_keeps
    | split

theorem execBucketLeakTick_keeps {a s : State} (h : Keeps a s) (x : SiteId) (c : ChId) (transient : Bool) : OKeeps a
    (execBucketLeakTick x c transient s) := by
  unfold execBucketLeakTick
  repeat' first
    | with_reducible assumption
    | with_reducible apply leakTick_keeps
    | with_reducible apply ok_next

theorem recordError_keeps {a s : State} (h : Keeps a s) (x : SiteId) (c : ℕ) (code : ℕ) : Keeps a
    (recordError s x c code) := by
  unfold recordError
  repeat' first
    | with_reducible assumption
    | with_reducible apply ledAdd_keeps
    | with_reducible apply count_keeps
    | with_reducible apply modChan_keeps
    | with_reducible apply tranEvent_keeps
    | with_reducible apply lastingEvent_keeps
    | with_reducible apply ityIrq_keeps
    | split

theorem writeBack_keeps {a s : State} (h : Keeps a s) (p : ℕ) : Keeps a (writeBack s p) := by
  unfold writeBack
  repeat' first
    | with_reducible assumption
    | with_reducible apply putRaw_keeps
    | split
    | extract_lets

theorem uncorrectable_keeps {a s : State} (h : Keeps a s) (id : ℕ) (q : ℕ) (u : Upd) : Keeps a
    (uncorrectable s id q u) := by
  unfold uncorrectable
  repeat' first
    | with_reducible assumption
    | with_reducible apply stopUpdate_keeps
    | with_reducible apply endUpdate_keeps
    | split

theorem poisonOrder_keeps {a s : State} (h : Keeps a s) (p : ℕ) (f : InFlight) : Keeps a (poisonOrder s p f) := by
  unfold poisonOrder
  repeat' first
    | with_reducible assumption
    | with_reducible apply putInflight_keeps
    | with_reducible apply uncorrectable_keeps
    | split
    | extract_lets

theorem poisonReader_keeps {a s : State} (h : Keeps a s) (p : ℕ) (x3 : Reader) : Keeps a (poisonReader s p x3) := by
  unfold poisonReader
  repeat' first
    | with_reducible assumption
    | with_reducible apply poisonOrder_keeps
    | simp -zeta only [Keeps.mk_eqs]
    | split

theorem chargeRetry_keeps {a s : State} (h : Keeps a s) (x : SiteId) : Keeps a (chargeRetry s x) := by
  unfold chargeRetry
  repeat' first
    | with_reducible assumption
    | with_reducible apply bump_keeps
    | simp -zeta only [Keeps.mk_eqs]

theorem classifyError_keeps {a s : State} (h : Keeps a s) (x : SiteId) (c : ℕ) (bank : ℕ) (row : ℕ) (blk : ℕ)
    (first : FirstRead) (retry : RetryRead) (rd : Reader) : Keeps a (classifyError s x c bank row blk first retry rd)
    := by
  unfold classifyError
  repeat' first
    | with_reducible assumption
    | with_reducible apply chargeRetry_keeps
    | with_reducible apply recordError_keeps
    | with_reducible apply sealBlock_keeps
    | with_reducible apply writeBack_keeps
    | with_reducible apply poisonReader_keeps
    | simp -zeta only
    | split
    | extract_lets

theorem execErrorRetry_keeps {a s : State} (h : Keeps a s) (x : SiteId) (c : ChId) (bank : ℕ) (row : ℕ) (block : ℕ)
    (first : FirstRead) (retry : RetryRead) (rd : Reader) : OKeeps a
    (execErrorRetry x c bank row block first retry rd s) := by
  unfold execErrorRetry
  repeat' first
    | with_reducible assumption
    | with_reducible apply classifyError_keeps
    | with_reducible apply ok_next

theorem scrubRow_keeps {a s0 : State} (h : Keeps a s0) (x : SiteId) (c : ℕ) (bank : ℕ) (row : ℕ) : Keeps a
    (scrubRow s0 x c bank row) := by
  unfold scrubRow
  repeat' first
    | with_reducible assumption
    | with_reducible apply cleanRow_keeps
    | with_reducible apply modChan_keeps
    | with_reducible apply writeBack_keeps
    | with_reducible apply sealStep_keeps
    | with_reducible refine Keeps.foldl _ ?_ (fun t x ht => ?_)
    | split

theorem nextScrub_keeps {a s : State} (h : Keeps a s) (x : SiteId) (c : ℕ) : Keeps a (nextScrub s x c) := by
  unfold nextScrub
  repeat' first
    | with_reducible assumption
    | with_reducible apply modChan_keeps

theorem scrubNext_keeps {a s : State} (h : Keeps a s) (x : SiteId) (c : ChId) : Keeps a (scrubNext s x c) := by
  unfold scrubNext
  repeat' first
    | with_reducible assumption
    | with_reducible apply nextScrub_keeps
    | with_reducible apply drawPair_keeps
    | with_reducible apply scrubRow_keeps
    | with_reducible apply takeBg_keeps
    | split
    | extract_lets

theorem execScrubRow_keeps {a s : State} (h : Keeps a s) (x : SiteId) (c : ChId) : OKeeps a (execScrubRow x c s) := by
  unfold execScrubRow
  repeat' first
    | with_reducible assumption
    | with_reducible apply scrubNext_keeps
    | with_reducible apply ok_next

theorem scrubLate_keeps {a s : State} (h : Keeps a s) (x : SiteId) (c : ℕ) : Keeps a (scrubLate s x c) := by
  unfold scrubLate
  repeat' first
    | with_reducible assumption
    | with_reducible apply ityIrq_keeps
    | with_reducible apply ledAdd_keeps
    | with_reducible apply modChan_keeps
    | split

theorem execScrubPassLate_keeps {a s : State} (h : Keeps a s) (x : SiteId) (c : ChId) : OKeeps a
    (execScrubPassLate x c s) := by
  unfold execScrubPassLate
  repeat' first
    | with_reducible assumption
    | with_reducible apply scrubLate_keeps
    | with_reducible apply ok_next

theorem sendRefp_keeps {a s : State} (h : Keeps a s) (x : SiteId) (c : ℕ) (k : ℕ) (n : ℕ) : Keeps a
    (sendRefp s x c k n) := by
  unfold sendRefp
  repeat' first
    | with_reducible assumption
    | with_reducible apply drawPair_keeps
    | with_reducible apply count_keeps
    | simp -zeta only [Keeps.mk_eqs]

theorem catchUp_keeps {a s : State} (h : Keeps a s) (x : SiteId) (c : ℕ) (k : ℕ) : Keeps a (catchUp s x c k) := by
  unfold catchUp
  repeat' first
    | with_reducible assumption
    | with_reducible apply sendRefp_keeps
    | split
    | extract_lets

theorem refreshDue_keeps {a s : State} (h : Keeps a s) (x : SiteId) (c : ℕ) (k : ℕ) : Keeps a (refreshDue s x c k) := by
  unfold refreshDue
  repeat' first
    | with_reducible assumption
    | with_reducible apply catchUp_keeps
    | simp -zeta only [Keeps.mk_eqs]
    | split

theorem execRefreshDue_keeps {a s : State} (h : Keeps a s) (x : SiteId) (c : ChId) (k : PairId) : OKeeps a
    (execRefreshDue x c k s) := by
  unfold execRefreshDue
  repeat' first
    | with_reducible assumption
    | with_reducible apply refreshDue_keeps
    | with_reducible apply ok_next

theorem catchUpAll_keeps {a s : State} (h : Keeps a s) : Keeps a (catchUpAll s) := by
  unfold catchUpAll
  repeat' first
    | with_reducible assumption
    | with_reducible apply catchUp_keeps
    | with_reducible refine Keeps.foldl _ ?_ (fun t x ht => ?_)

theorem refp_keeps {a s : State} (h : Keeps a s) (x : SiteId) (c : ℕ) (k : ℕ) : Keeps a (refp s x c k) := by
  unfold refp
  repeat' first
    | with_reducible assumption
    | with_reducible apply sendRefp_keeps
    | split

theorem sealRow_keeps {a s : State} (h : Keeps a s) (x : SiteId) (c : ℕ) (bank : ℕ) (row : ℕ) : Keeps a
    (sealRow s x c bank row) := by
  unfold sealRow
  repeat' first
    | with_reducible assumption
    | with_reducible apply cleanRow_keeps
    | with_reducible apply sealStep_keeps
    | with_reducible refine Keeps.foldl _ ?_ (fun t x ht => ?_)
    | split

theorem sealRows_keeps {a s : State} (h : Keeps a s) (x : SiteId) (c : ℕ) (bank : ℕ) (row : ℕ) (n : ℕ) : Keeps a
    (sealRows s x c bank row n) := by
  unfold sealRows
  repeat' first
    | with_reducible assumption
    | with_reducible apply sealRow_keeps
    | with_reducible apply modSite_keeps
    | with_reducible refine Keeps.foldl _ ?_ (fun t x ht => ?_)

theorem runDefer_keeps {a s : State} (h : Keeps a s) (d : Deferred) : Keeps a (runDefer s d) := by
  unfold runDefer
  repeat' first
    | with_reducible assumption
    | with_reducible apply applyDeferred_keeps
    | with_reducible apply sealRows_keeps
    | with_reducible apply putRemap_keeps
    | with_reducible apply refp_keeps
    | split
    | extract_lets

theorem stackCmd_keeps {a s : State} (h : Keeps a s) (d : Deferred) : Keeps a (stackCmd s d) := by
  unfold stackCmd
  repeat' first
    | with_reducible assumption
    | with_reducible apply runDefer_keeps
    | simp -zeta only [Keeps.mk_eqs]
    | split

theorem execRefp_keeps {a s : State} (h : Keeps a s) (x : SiteId) (c : ChId) (k : PairId) : OKeeps a
    (execRefp x c k s) := by
  unfold execRefp
  repeat' first
    | with_reducible assumption
    | with_reducible apply stackCmd_keeps
    | with_reducible apply ok_next
    | split

theorem execRmap_keeps {a s : State} (h : Keeps a s) (x : SiteId) (c : ChId) (bank : Fin 16) (row : BitVec 16)
    (entry : BitVec 9) (valid : Bool) : OKeeps a (execRmap x c bank row entry valid s) := by
  unfold execRmap
  repeat' first
    | with_reducible assumption
    | with_reducible apply stackCmd_keeps
    | with_reducible apply ok_next
    | split

theorem execSeal_keeps {a s : State} (h : Keeps a s) (x : SiteId) (c : ChId) (bank : Fin 16) (row : ℕ) (count : ℕ) :
    OKeeps a (execSeal x c bank row count s) := by
  unfold execSeal
  repeat' first
    | with_reducible assumption
    | with_reducible apply stackCmd_keeps
    | with_reducible apply ok_next
    | split

theorem runReady_keeps {a s : State} (h : Keeps a s) : Keeps a (runReady s) := by
  unfold runReady
  repeat' first
    | with_reducible assumption
    | with_reducible apply runDefer_keeps
    | simp -zeta only [Keeps.mk_eqs]
    | with_reducible refine Keeps.foldl _ ?_ (fun t x ht => ?_)

theorem beginHolds_keeps {a s : State} (h : Keeps a s) : Keeps a (beginHolds s) := by
  unfold beginHolds
  repeat' first
    | with_reducible assumption
    | with_reducible apply syncHold_keeps
    | simp -zeta only [Keeps.mk_eqs]
    | with_reducible refine Keeps.foldl _ ?_ (fun t x ht => ?_)

theorem afterClose_keeps {a s : State} (h : Keeps a s) : Keeps a (afterClose s) := by
  unfold afterClose
  repeat' first
    | with_reducible assumption
    | with_reducible refine batch_keeps ?_ (fun b t ht => ?_)
    | with_reducible apply beginHolds_keeps
    | with_reducible apply performPending_keeps
    | with_reducible apply catchUpAll_keeps
    | with_reducible apply runReady_keeps

theorem execPause_keeps {a s : State} (h : Keeps a s) (x : SiteId) (c : ChId) (k : PairId) : OKeeps a
    (execPause x c k s) := by
  unfold execPause
  repeat' first
    | with_reducible assumption
    | with_reducible refine batch_keeps ?_ (fun b t ht => ?_)
    | with_reducible apply afterClose_keeps
    | with_reducible apply requestDeferred_keeps
    | with_reducible apply ok_next
    | split

theorem execResume_keeps {a s : State} (h : Keeps a s) (x : SiteId) (c : ChId) (k : PairId) : OKeeps a
    (execResume x c k s) := by
  unfold execResume
  repeat' first
    | with_reducible assumption
    | with_reducible apply putUnit_keeps
    | simp -zeta only [Keeps.mk_eqs]
    | with_reducible apply ok_next
    | split

theorem execRetrainComplete_keeps {a s : State} (h : Keeps a s) (x : SiteId) (c : ChId) (ok : Bool) : OKeeps a
    (execRetrainComplete x c ok s) := by
  unfold execRetrainComplete
  repeat' first
    | with_reducible assumption
    | with_reducible refine batch_keeps ?_ (fun b t ht => ?_)
    | with_reducible apply afterClose_keeps
    | with_reducible apply endRetrain_keeps
    | with_reducible apply ok_next

theorem execLaneRepairComplete_keeps {a s : State} (h : Keeps a s) (x : SiteId) (c : ChId) : OKeeps a
    (execLaneRepairComplete x c s) := by
  unfold execLaneRepairComplete
  repeat' first
    | with_reducible assumption
    | with_reducible refine batch_keeps ?_ (fun b t ht => ?_)
    | with_reducible apply afterClose_keeps
    | with_reducible apply endRepair_keeps
    | with_reducible apply ok_next

end Sys2Proof.Machine
end

