-- ==== Sys2Proof/Laws/KeepOps4.lean ====
section
/-! SUPPORT. One lemma per operation of the machine, part 4 of 4: started from a state that keeps the integration parameters and
the soundness of a state `a`, it ends in one that does. -/

namespace Sys2Proof.Machine

theorem passSwitch_keeps {a s : State} (h : Keeps a s) (u : UnitId) : Keeps a (passSwitch s u) := by
  unfold passSwitch
  repeat' first
    | with_reducible assumption
    | with_reducible apply putUnit_keeps
    | split
    | extract_lets

theorem execPassSwitch_keeps {a s : State} (h : Keeps a s) (u : UnitId) : OKeeps a (execPassSwitch u s) := by
  unfold execPassSwitch
  repeat' first
    | with_reducible assumption
    | with_reducible apply passSwitch_keeps
    | with_reducible apply ok_next

theorem unitWrite_keeps {a s : State} (h : Keeps a s) (relief : Bool) (w : ℕ × Col) : Keeps a (unitWrite relief s w)
    := by
  unfold unitWrite
  repeat' first
    | with_reducible assumption
    | with_reducible apply writeSealed_keeps
    | with_reducible apply writeOpen_keeps
    | split

theorem restoreCut_keeps {a s : State} (h : Keeps a s) (ly : Layout) (q : ℕ) (d : Disp) :
    ∀ t, restoreCut s ly q d = some t → Keeps a t := by
  intro t e
  unfold restoreCut at e
  dsimp only at e
  split at e
  · cases e; exact writeCols_keeps h ..
  · cases e

theorem noteStart_keeps {a s : State} (h : Keeps a s) (idle : Bool) (un : UnitId) : Keeps a (noteStart idle s un) := by
  unfold noteStart
  repeat' first
    | with_reducible assumption
    | with_reducible apply addSquall_keeps
    | with_reducible apply modSite_keeps
    | split

theorem noteRan_keeps {a s : State} (h : Keeps a s) (un : UnitId) : Keeps a (noteRan s un) := by
  unfold noteRan
  repeat' first
    | with_reducible assumption
    | with_reducible apply modSite_keeps
    | split

theorem beginParcel_keeps {a s : State} (h : Keeps a s) (id : ℕ) (q : ℕ) (ly : Layout) (up : Upd) (r : Rule)
    (un : UnitId) (grad : List (BitVec 16)) (tries : ℕ) : Keeps a (beginParcel s id q ly up r un grad tries) := by
  unfold beginParcel
  repeat' first
    | with_reducible assumption
    | with_reducible apply modUpd_keeps
    | with_reducible apply putUnit_keeps
    | with_reducible apply modSite_keeps
    | with_reducible apply noteStart_keeps
    | with_reducible apply dropSpots_keeps
    | simp -zeta only [Keeps.mk_eqs]
    | split
    | extract_lets

theorem endTakeover_keeps {a s : State} (h : Keeps a s) (un : UnitId) : Keeps a (endTakeover s un) := by
  unfold endTakeover
  repeat' first
    | with_reducible assumption
    | with_reducible apply modSite_keeps
    | with_reducible apply charge_keeps
    | split

theorem dispatchParcel_keeps {a s : State} (h : Keeps a s) (x : SiteId) (id : ℕ) (q : ℕ) : Keeps a
    (dispatchParcel s x id q) := by
  unfold dispatchParcel
  repeat' first
    | with_reducible assumption
    | with_reducible apply endTakeover_keeps
    | with_reducible refine restoreCut_keeps ?_ _ _ _ _ (by assumption)
    | with_reducible apply beginParcel_keeps
    | with_reducible apply endUpdate_keeps
    | simp -zeta only
    | split
    | extract_lets

theorem execParcelDispatch_keeps {a s : State} (h : Keeps a s) (x : SiteId) (layout : ℕ) (parcel : ℕ) : OKeeps a
    (execParcelDispatch x layout parcel s) := by
  unfold execParcelDispatch
  repeat' first
    | with_reducible assumption
    | with_reducible apply dispatchParcel_keeps
    | with_reducible apply ok_next

theorem commitWrites_keeps {a s : State} (h : Keeps a s) (ly : Layout) (up : Upd) (r : Rule) (q : ℕ) (t : Stall)
    (relief : Bool) (n : ℕ) : Keeps a (commitWrites s ly up r q t relief n) := by
  unfold commitWrites
  repeat' first
    | with_reducible assumption
    | with_reducible apply unitWrite_keeps
    | with_reducible refine Keeps.foldl _ ?_ (fun t x ht => ?_)

theorem closeStep_keeps {a s : State} (h : Keeps a s) (id : ℕ) : Keeps a (closeStep s id) := by
  unfold closeStep
  repeat' first
    | with_reducible assumption
    | with_reducible apply modLayout_keeps
    | with_reducible apply addShardCounts_keeps
    | with_reducible apply completeWith_keeps
    | simp -zeta only [Keeps.mk_eqs]
    | split
    | extract_lets
    | dsimp +zetaDelta only

theorem closeIfDone_keeps {a s : State} (h : Keeps a s) (id : ℕ) : Keeps a (closeIfDone s id) := by
  unfold closeIfDone
  repeat' first
    | with_reducible assumption
    | with_reducible apply closeStep_keeps
    | split

theorem sealSpot_keeps {a s : State} (h : Keeps a s) (un : UnitId) (id : ℕ) (q : ℕ) (step : ℕ) : Keeps a
    (sealSpot s un id q step) := by
  unfold sealSpot
  repeat' first
    | with_reducible assumption
    | simp -zeta only [Keeps.mk_eqs]

theorem parcelSealed_keeps {a s : State} (h : Keeps a s) (un : UnitId) (id : ℕ) (q : ℕ) (ly : Layout) (r : Rule)
    (t : Stall) : Keeps a (parcelSealed s un id q ly r t) := by
  unfold parcelSealed
  repeat' first
    | with_reducible assumption
    | with_reducible apply putUnit_keeps
    | with_reducible apply modUpd_keeps
    | with_reducible apply count_keeps
    | with_reducible apply noteRan_keeps
    | with_reducible apply sealSpot_keeps
    | split

theorem finishParcel_keeps {a s : State} (h : Keeps a s) (un : UnitId) (id : ℕ) (q : ℕ) : Keeps a
    (finishParcel s un id q) := by
  unfold finishParcel
  repeat' first
    | with_reducible assumption
    | with_reducible refine batch_keeps ?_ (fun b t ht => ?_)
    | with_reducible apply commitWrites_keeps
    | with_reducible apply afterClose_keeps
    | with_reducible apply closeIfDone_keeps
    | with_reducible apply parcelSealed_keeps
    | split
    | extract_lets

theorem execParcelSealWritten_keeps {a s : State} (h : Keeps a s) (u : UnitId) (layout : ℕ) (parcel : ℕ) : OKeeps a
    (execParcelSealWritten u layout parcel s) := by
  unfold execParcelSealWritten
  repeat' first
    | with_reducible assumption
    | with_reducible apply finishParcel_keeps
    | with_reducible apply ok_next

theorem mendLoads_keeps {a s : State} (h : Keeps a s) (ly : Layout) (q : ℕ) (t : Stall) : Keeps a (mendLoads s ly q t)
    := by
  unfold mendLoads
  repeat' first
    | with_reducible assumption
    | with_reducible apply writeBack_keeps
    | with_reducible refine Keeps.foldl _ ?_ (fun t x ht => ?_)
    | split
    | extract_lets

theorem mismatch_keeps {a s : State} (h : Keeps a s) (un : UnitId) (id : ℕ) (q : ℕ) (openCol : Bool)
    (first : Option FirstRead) (retry : RetryRead) : Keeps a (mismatch s un id q openCol first retry) := by
  unfold mismatch
  repeat' first
    | with_reducible assumption
    | with_reducible apply putUnit_keeps
    | with_reducible apply chargeRetry_keeps
    | with_reducible apply recordError_keeps
    | with_reducible apply mendLoads_keeps
    | with_reducible apply uncorrectable_keeps
    | with_reducible apply modUpd_keeps
    | split
    | extract_lets

theorem execStallParityMismatch_keeps {a s : State} (h : Keeps a s) (u : UnitId) (layout : ℕ) (parcel : ℕ)
    (openCol : Bool) (first : Option FirstRead) (retry : RetryRead) : OKeeps a
    (execStallParityMismatch u layout parcel openCol first retry s) := by
  unfold execStallParityMismatch
  repeat' first
    | with_reducible assumption
    | with_reducible apply mismatch_keeps
    | with_reducible apply ok_next

theorem sealKeys_keeps {a s : State} (h : Keeps a s) (ks : List ℕ) : Keeps a (sealKeys s ks) := by
  unfold sealKeys
  repeat' first
    | with_reducible assumption
    | with_reducible apply sealStep_keeps
    | with_reducible refine Keeps.foldl _ ?_ (fun t x ht => ?_)

theorem countRows_keeps {a s : State} (h : Keeps a s) (rows : List ℕ) : Keeps a (countRows s rows) := by
  unfold countRows
  repeat' first
    | with_reducible assumption
    | with_reducible apply count_keeps
    | with_reducible refine Keeps.foldl _ ?_ (fun t x ht => ?_)
    | split

theorem resealStep_keeps {a s : State} (h : Keeps a s) (id : ℕ) (ly : Layout) (u : Upd) : Keeps a
    (resealStep s id ly u).1 := by
  unfold resealStep
  repeat' first
    | with_reducible assumption
    | with_reducible apply ledAdd_keeps
    | with_reducible apply sealKeys_keeps
    | with_reducible apply countRows_keeps
    | with_reducible apply modShard_keeps
    | with_reducible apply dropSpots_keeps
    | with_reducible refine Keeps.foldl _ ?_ (fun t x ht => ?_)

theorem tornNotice_keeps {a s : State} (h : Keeps a s) (u : Upd) (torn : List ℕ) : Keeps a (tornNotice s u torn) := by
  unfold tornNotice
  repeat' first
    | with_reducible assumption
    | with_reducible apply emitNotice_keeps
    | split

theorem finishReseal_keeps {a s : State} (h : Keeps a s) (id : ℕ) : Keeps a (finishReseal s id) := by
  unfold finishReseal
  repeat' first
    | with_reducible assumption
    | with_reducible apply resealStep_keeps
    | with_reducible apply modShard_keeps
    | with_reducible apply tornNotice_keeps
    | split

theorem execResealComplete_keeps {a s : State} (h : Keeps a s) (layout : ℕ) : OKeeps a (execResealComplete layout s)
    := by
  unfold execResealComplete
  repeat' first
    | with_reducible assumption
    | with_reducible apply finishReseal_keeps
    | with_reducible apply ok_next

theorem restoreParcel_keeps {a s : State} (h : Keeps a s) (ly : Layout) (q : ℕ) (v : ℕ) (c : CloseRec) : Keeps a
    (restoreParcel s ly q v c) := by
  unfold restoreParcel
  repeat' first
    | with_reducible assumption
    | with_reducible apply writeCols_keeps
    | with_reducible apply writeSealed_keeps

theorem rollParcels_keeps {a s : State} (h : Keeps a s) (ly : Layout) (v : ℕ) (c : CloseRec) (bad ps : List ℕ) :
    Keeps a (rollParcels s ly v c bad ps).1 := by
  unfold rollParcels
  refine Keeps.foldl_fst _ h fun p q hp => ?_
  split
  · exact hp
  · split
    · exact hp
    · exact restoreParcel_keeps hp ..

theorem finishAbort_keeps {a s : State} (h : Keeps a s) (id : ℕ) (step : ℕ) (rolled : ℕ) (damaged : Bool) : Keeps a
    (finishAbort s id step rolled damaged) := by
  unfold finishAbort
  repeat' first
    | with_reducible assumption
    | with_reducible apply completeG_keeps
    | split

theorem restoreCuts_keeps {a s : State} (h : Keeps a s) (ly : Layout) (u : Upd) : Keeps a (restoreCuts s ly u).1 := by
  unfold restoreCuts
  refine Keeps.foldl_fst _ h fun p q hp => ?_
  split
  · exact restoreCut_keeps hp _ _ _ _ ‹_›
  · exact hp

theorem rollOpen_keeps {a s : State} (h : Keeps a s) (id : ℕ) (ly : Layout) (u : Upd) (reason : ℕ) (cnt : ℕ) : Keeps a
    (rollOpen s id ly u reason cnt) := by
  unfold rollOpen
  repeat' first
    | with_reducible assumption
    | with_reducible apply restoreCuts_keeps
    | with_reducible apply rollParcels_keeps
    | with_reducible apply sealKeys_keeps
    | with_reducible apply endUpdate_keeps
    | with_reducible apply dropSpots_keeps
    | with_reducible apply modShard_keeps
    | with_reducible apply finishAbort_keeps
    | split

theorem rollClosed_keeps {a s : State} (h : Keeps a s) (id : ℕ) (ly : Layout) : Keeps a (rollClosed s id ly) := by
  unfold rollClosed
  repeat' first
    | with_reducible assumption
    | with_reducible apply resealStep_keeps
    | with_reducible apply tornNotice_keeps
    | with_reducible apply rollParcels_keeps
    | with_reducible apply modShard_keeps
    | with_reducible apply giveUpSlot_keeps
    | with_reducible apply finishAbort_keeps
    | with_reducible apply dropSpots_keeps
    | split

theorem finishRollback_keeps {a s : State} (h : Keeps a s) (id : ℕ) : Keeps a (finishRollback s id) := by
  unfold finishRollback
  repeat' first
    | with_reducible assumption
    | with_reducible refine batch_keeps ?_ (fun b t ht => ?_)
    | with_reducible apply completeG_keeps
    | with_reducible apply rollOpen_keeps
    | with_reducible apply rollClosed_keeps
    | split

theorem execRollbackComplete_keeps {a s : State} (h : Keeps a s) (layout : ℕ) : OKeeps a
    (execRollbackComplete layout s) := by
  unfold execRollbackComplete
  repeat' first
    | with_reducible assumption
    | with_reducible apply finishRollback_keeps
    | with_reducible apply ok_next

theorem writeBefore_keeps {a s : State} (h : Keeps a s) (u : Stall) : Keeps a (writeBefore s u) := by
  unfold writeBefore
  repeat' first
    | with_reducible assumption
    | with_reducible apply unitWrite_keeps
    | with_reducible refine Keeps.foldl _ ?_ (fun t x ht => ?_)
    | split

theorem issueWord_keeps {a s : State} (h : Keeps a s) (st : StallId) (w : W32) : Keeps a (issueWord s st w) := by
  unfold issueWord
  repeat' first
    | with_reducible assumption
    | with_reducible apply writeBefore_keeps
    | with_reducible apply putUnit_keeps
    | simp -zeta only [Keeps.mk_eqs]
    | split

theorem stallWord_keeps {a s : State} (h : Keeps a s) (st : StallId) (w : W32) : OKeeps a (stallWord st w s) := by
  unfold stallWord
  repeat' first
    | with_reducible assumption
    | with_reducible apply issueWord_keeps
    | with_reducible apply ok_next
    | with_reducible apply ok_fault
    | split

theorem execStallNop_keeps {a s : State} (h : Keeps a s) (st : StallId) : OKeeps a (execStallNop st s) := by
  unfold execStallNop
  repeat' first
    | with_reducible assumption
    | with_reducible apply stallWord_keeps

theorem execLd_keeps {a s : State} (h : Keeps a s) (st : StallId) (f : FmtM) : OKeeps a (execLd st f s) := by
  unfold execLd
  repeat' first
    | with_reducible assumption
    | with_reducible apply stallWord_keeps

theorem execLdg_keeps {a s : State} (h : Keeps a s) (st : StallId) (f : FmtM) : OKeeps a (execLdg st f s) := by
  unfold execLdg
  repeat' first
    | with_reducible assumption
    | with_reducible apply stallWord_keeps

theorem execStc_keeps {a s : State} (h : Keeps a s) (st : StallId) (f : FmtM) : OKeeps a (execStc st f s) := by
  unfold execStc
  repeat' first
    | with_reducible assumption
    | with_reducible apply stallWord_keeps

theorem execStw_keeps {a s : State} (h : Keeps a s) (st : StallId) (f : FmtM) : OKeeps a (execStw st f s) := by
  unfold execStw
  repeat' first
    | with_reducible assumption
    | with_reducible apply stallWord_keeps

theorem execBcst_keeps {a s : State} (h : Keeps a s) (st : StallId) (f : FmtM) : OKeeps a (execBcst st f s) := by
  unfold execBcst
  repeat' first
    | with_reducible assumption
    | with_reducible apply stallWord_keeps

theorem execDraw_keeps {a s : State} (h : Keeps a s) (st : StallId) (f : FmtM) : OKeeps a (execDraw st f s) := by
  unfold execDraw
  repeat' first
    | with_reducible assumption
    | with_reducible apply stallWord_keeps

theorem execFma_keeps {a s : State} (h : Keeps a s) (st : StallId) (f : FmtV) : OKeeps a (execFma st f s) := by
  unfold execFma
  repeat' first
    | with_reducible assumption
    | with_reducible apply stallWord_keeps

theorem execAdd_keeps {a s : State} (h : Keeps a s) (st : StallId) (f : FmtV) : OKeeps a (execAdd st f s) := by
  unfold execAdd
  repeat' first
    | with_reducible assumption
    | with_reducible apply stallWord_keeps

theorem execMul_keeps {a s : State} (h : Keeps a s) (st : StallId) (f : FmtV) : OKeeps a (execMul st f s) := by
  unfold execMul
  repeat' first
    | with_reducible assumption
    | with_reducible apply stallWord_keeps

theorem execMin_keeps {a s : State} (h : Keeps a s) (st : StallId) (f : FmtV) : OKeeps a (execMin st f s) := by
  unfold execMin
  repeat' first
    | with_reducible assumption
    | with_reducible apply stallWord_keeps

theorem execMax_keeps {a s : State} (h : Keeps a s) (st : StallId) (f : FmtV) : OKeeps a (execMax st f s) := by
  unfold execMax
  repeat' first
    | with_reducible assumption
    | with_reducible apply stallWord_keeps

theorem execAbs_keeps {a s : State} (h : Keeps a s) (st : StallId) (f : FmtV) : OKeeps a (execAbs st f s) := by
  unfold execAbs
  repeat' first
    | with_reducible assumption
    | with_reducible apply stallWord_keeps

theorem execSign_keeps {a s : State} (h : Keeps a s) (st : StallId) (f : FmtV) : OKeeps a (execSign st f s) := by
  unfold execSign
  repeat' first
    | with_reducible assumption
    | with_reducible apply stallWord_keeps

theorem execSel_keeps {a s : State} (h : Keeps a s) (st : StallId) (f : FmtV) : OKeeps a (execSel st f s) := by
  unfold execSel
  repeat' first
    | with_reducible assumption
    | with_reducible apply stallWord_keeps

theorem execCmp_keeps {a s : State} (h : Keeps a s) (st : StallId) (f : FmtV) : OKeeps a (execCmp st f s) := by
  unfold execCmp
  repeat' first
    | with_reducible assumption
    | with_reducible apply stallWord_keeps

theorem execClamp_keeps {a s : State} (h : Keeps a s) (st : StallId) (f : FmtV) : OKeeps a (execClamp st f s) := by
  unfold execClamp
  repeat' first
    | with_reducible assumption
    | with_reducible apply stallWord_keeps

theorem execCvt_keeps {a s : State} (h : Keeps a s) (st : StallId) (f : FmtV) : OKeeps a (execCvt st f s) := by
  unfold execCvt
  repeat' first
    | with_reducible assumption
    | with_reducible apply stallWord_keeps

theorem execRsqrt_keeps {a s : State} (h : Keeps a s) (st : StallId) (f : FmtV) : OKeeps a (execRsqrt st f s) := by
  unfold execRsqrt
  repeat' first
    | with_reducible assumption
    | with_reducible apply stallWord_keeps

theorem execRcp_keeps {a s : State} (h : Keeps a s) (st : StallId) (f : FmtV) : OKeeps a (execRcp st f s) := by
  unfold execRcp
  repeat' first
    | with_reducible assumption
    | with_reducible apply stallWord_keeps

theorem execExp2_keeps {a s : State} (h : Keeps a s) (st : StallId) (f : FmtV) : OKeeps a (execExp2 st f s) := by
  unfold execExp2
  repeat' first
    | with_reducible assumption
    | with_reducible apply stallWord_keeps

theorem execLog2_keeps {a s : State} (h : Keeps a s) (st : StallId) (f : FmtV) : OKeeps a (execLog2 st f s) := by
  unfold execLog2
  repeat' first
    | with_reducible assumption
    | with_reducible apply stallWord_keeps

theorem execRequesterRead_keeps {a s : State} (h : Keeps a s) (p : PortId) (ns : Bool) (crit : Bool) (addr : ℕ)
    (len : ℕ) : OKeeps a (execRequesterRead p ns crit addr len s) := by
  unfold execRequesterRead
  repeat' first
    | with_reducible assumption
    | with_reducible apply acceptRead_keeps
    | with_reducible apply ok_next
    | split

theorem execRequesterWrite_keeps {a s : State} (h : Keeps a s) (p : PortId) (ns : Bool) (posted : Bool) (addr : ℕ)
    (data : Bytes) : OKeeps a (execRequesterWrite p ns posted addr data s) := by
  unfold execRequesterWrite
  repeat' first
    | with_reducible assumption
    | with_reducible apply acceptWrite_keeps
    | with_reducible apply countOrigin_keeps
    | with_reducible apply ok_next
    | split

theorem takeEntry_keeps {a s : State} (h : Keeps a s) : Keeps a (takeEntry s) := by
  unfold takeEntry
  repeat' first
    | with_reducible assumption
    | with_reducible apply notePeak_keeps
    | simp -zeta only [Keeps.mk_eqs]

theorem startNarrow_keeps {a s : State} (h : Keeps a s) (a2 : HeldNarrow) : Keeps a (startNarrow s a2) := by
  unfold startNarrow
  repeat' first
    | with_reducible assumption
    | with_reducible apply takeEntry_keeps
    | with_reducible apply acceptWrite_keeps
    | with_reducible apply countOrigin_keeps
    | with_reducible apply acceptRead_keeps
    | with_reducible apply count_keeps
    | simp -zeta only [Keeps.mk_eqs]
    | split
    | extract_lets

theorem narrowArrives_keeps {a s : State} (h : Keeps a s) (a2 : HeldNarrow) : Keeps a (narrowArrives s a2) := by
  unfold narrowArrives
  repeat' first
    | with_reducible assumption
    | with_reducible apply hearFrom_keeps
    | with_reducible apply startNarrow_keeps
    | with_reducible apply count_keeps
    | simp -zeta only [Keeps.mk_eqs]
    | split
    | extract_lets

theorem releaseNarrow_keeps {a s : State} (h : Keeps a s) : Keeps a (releaseNarrow s) := by
  unfold releaseNarrow
  repeat' first
    | with_reducible assumption
    | with_reducible apply startNarrow_keeps
    | simp -zeta only [Keeps.mk_eqs]
    | split

theorem execNarrowRead_keeps {a s : State} (h : Keeps a s) (o : Origin) (crit : Bool) (addr : ℕ) (size : ℕ) : OKeeps a
    (execNarrowRead o crit addr size s) := by
  unfold execNarrowRead
  repeat' first
    | with_reducible assumption
    | with_reducible apply narrowArrives_keeps
    | with_reducible apply ok_next

theorem execNarrowWrite_keeps {a s : State} (h : Keeps a s) (o : Origin) (addr : ℕ) (data : Bytes) : OKeeps a
    (execNarrowWrite o addr data s) := by
  unfold execNarrowWrite
  repeat' first
    | with_reducible assumption
    | with_reducible apply narrowArrives_keeps
    | with_reducible apply ok_next

theorem execNarrowHoldRelease_keeps {a s : State} (h : Keeps a s) : OKeeps a (execNarrowHoldRelease s) := by
  unfold execNarrowHoldRelease
  repeat' first
    | with_reducible assumption
    | with_reducible apply releaseNarrow_keeps
    | with_reducible apply ok_next

theorem atomicOp_keeps {a s : State} (h : Keeps a s) (o : Origin) (addr n operands : ℕ) (k : AtomKind) (cmp x : ℕ) :
    Keeps a (atomicOp s o addr n operands k cmp x) := by
  unfold atomicOp
  split
  · exact h
  · have h0 := countOrigin_keeps h o operands
    dsimp only
    split
    · exact awaitService_keeps h0 ..
    · exact refuseReq_keeps (fwDeny_keeps h0 _) ..
    · exact refuseReq_keeps h0 ..

theorem execFadd32_keeps {a s : State} (h : Keeps a s) (p : PortId) (ns : Bool) (addr : ℕ) (x : BitVec 32) : OKeeps a
    (execFadd32 p ns addr x s) := by
  unfold execFadd32
  repeat' first
    | with_reducible assumption
    | with_reducible apply atomicOp_keeps
    | with_reducible apply ok_next

theorem execFmax32_keeps {a s : State} (h : Keeps a s) (p : PortId) (ns : Bool) (addr : ℕ) (x : BitVec 32) : OKeeps a
    (execFmax32 p ns addr x s) := by
  unfold execFmax32
  repeat' first
    | with_reducible assumption
    | with_reducible apply atomicOp_keeps
    | with_reducible apply ok_next

theorem execFmin32_keeps {a s : State} (h : Keeps a s) (p : PortId) (ns : Bool) (addr : ℕ) (x : BitVec 32) : OKeeps a
    (execFmin32 p ns addr x s) := by
  unfold execFmin32
  repeat' first
    | with_reducible assumption
    | with_reducible apply atomicOp_keeps
    | with_reducible apply ok_next

theorem execIadd32_keeps {a s : State} (h : Keeps a s) (p : PortId) (ns : Bool) (addr : ℕ) (x : BitVec 32) : OKeeps a
    (execIadd32 p ns addr x s) := by
  unfold execIadd32
  repeat' first
    | with_reducible assumption
    | with_reducible apply atomicOp_keeps
    | with_reducible apply ok_next

theorem execIadd64_keeps {a s : State} (h : Keeps a s) (p : PortId) (ns : Bool) (addr : ℕ) (x : BitVec 64) : OKeeps a
    (execIadd64 p ns addr x s) := by
  unfold execIadd64
  repeat' first
    | with_reducible assumption
    | with_reducible apply atomicOp_keeps
    | with_reducible apply ok_next

theorem execSwap32_keeps {a s : State} (h : Keeps a s) (p : PortId) (ns : Bool) (addr : ℕ) (x : BitVec 32) : OKeeps a
    (execSwap32 p ns addr x s) := by
  unfold execSwap32
  repeat' first
    | with_reducible assumption
    | with_reducible apply atomicOp_keeps
    | with_reducible apply ok_next

theorem execSwap64_keeps {a s : State} (h : Keeps a s) (p : PortId) (ns : Bool) (addr : ℕ) (x : BitVec 64) : OKeeps a
    (execSwap64 p ns addr x s) := by
  unfold execSwap64
  repeat' first
    | with_reducible assumption
    | with_reducible apply atomicOp_keeps
    | with_reducible apply ok_next

theorem execCas32_keeps {a s : State} (h : Keeps a s) (p : PortId) (ns : Bool) (addr : ℕ) (cmp : BitVec 32)
    (x : BitVec 32) : OKeeps a (execCas32 p ns addr cmp x s) := by
  unfold execCas32
  repeat' first
    | with_reducible assumption
    | with_reducible apply atomicOp_keeps
    | with_reducible apply ok_next

theorem execCas64_keeps {a s : State} (h : Keeps a s) (p : PortId) (ns : Bool) (addr : ℕ) (cmp : BitVec 64)
    (x : BitVec 64) : OKeeps a (execCas64 p ns addr cmp x s) := by
  unfold execCas64
  repeat' first
    | with_reducible assumption
    | with_reducible apply atomicOp_keeps
    | with_reducible apply ok_next

theorem execArbitrationGrant_keeps {a s : State} (h : Keeps a s) (pt : ArbPt) (ns : ℕ) : OKeeps a
    (execArbitrationGrant pt ns s) := by
  unfold execArbitrationGrant
  repeat' first
    | with_reducible assumption
    | with_reducible apply grant_keeps
    | with_reducible apply ok_next

theorem leavePoints_keeps {a s : State} (h : Keeps a s) (id : ℕ) : Keeps a (leavePoints s id) := by
  unfold leavePoints
  repeat' first
    | with_reducible assumption
    | simp -zeta only [Keeps.mk_eqs]

theorem completeRequest_keeps {a s : State} (h : Keeps a s) (id : ℕ) : Keeps a (completeRequest s id) := by
  unfold completeRequest
  repeat' first
    | with_reducible assumption
    | with_reducible apply leavePoints_keeps
    | with_reducible apply count_keeps
    | with_reducible apply sendCpl_keeps
    | simp -zeta only [Keeps.mk_eqs]
    | split

theorem execRequestCompletion_keeps {a s : State} (h : Keeps a s) (id : ℕ) : OKeeps a (execRequestCompletion id s) := by
  unfold execRequestCompletion
  repeat' first
    | with_reducible assumption
    | with_reducible apply completeRequest_keeps
    | with_reducible apply ok_next

theorem sendPieceAck_keeps {a s : State} (h : Keeps a s) (node : BitVec 24) (code : ℕ) (h4 : Order) : Keeps a
    (sendPieceAck s node code h4) := by
  unfold sendPieceAck
  repeat' first
    | with_reducible assumption
    | with_reducible apply count_keeps
    | with_reducible apply sendX_keeps
    | split

theorem queueFull_keeps {a s : State} (h : Keeps a s) (q : Fin 16) (full : Bool) : Keeps a (queueFull s q full) := by
  unfold queueFull
  repeat' first
    | with_reducible assumption
    | simp -zeta only [Keeps.mk_eqs]
    | split

theorem takePiece_keeps {a s : State} (h : Keeps a s) (q : Fin 16) (ly : Layout) (h4 : Order) (payload : Bytes) :
    Keeps a (takePiece s q ly h4 payload).2 := by
  unfold takePiece
  repeat' first
    | with_reducible assumption
    | with_reducible apply areaWrite_keeps
    | with_reducible apply queueFull_keeps
    | with_reducible apply setQueue_keeps
    | split
    | extract_lets

theorem judgePiece_keeps {a s : State} (h : Keeps a s) (h2 : Order) (payload : Bytes) : Keeps a
    (judgePiece s h2 payload).2 := by
  unfold judgePiece
  repeat' first
    | with_reducible assumption
    | with_reducible apply fwDeny_keeps
    | with_reducible apply takePiece_keeps
    | split
    | extract_lets

theorem fromNode_keeps {a s : State} (h : Keeps a s) (node : BitVec 24) (payload : Bytes) : Keeps a
    (fromNode s node payload) := by
  unfold fromNode
  repeat' first
    | with_reducible assumption
    | with_reducible apply hearFrom_keeps
    | with_reducible apply count_keeps

theorem execQueuePiece_keeps {a s : State} (h : Keeps a s) (node : BitVec 24) (hdr : Order) (payload : Bytes) : OKeeps
    a (execQueuePiece node hdr payload s) := by
  unfold execQueuePiece
  repeat' first
    | with_reducible assumption
    | with_reducible apply judgePiece_keeps
    | with_reducible apply fromNode_keeps
    | with_reducible apply sendPieceAck_keeps
    | with_reducible apply ok_next
    | split

theorem sendRange_keeps {a s : State} (h : Keeps a s) (node : BitVec 24) (h3 : Order) (ly : Layout) (v : ℕ)
    (f : InFlight) (lo : ℕ) (hi : ℕ) : Keeps a (sendRange s node h3 ly v f lo hi) := by
  unfold sendRange
  repeat' first
    | with_reducible assumption
    | with_reducible apply putInflight_keeps
    | with_reducible apply noteOpenReads_keeps
    | with_reducible apply sendX_keeps
    | with_reducible apply count_keeps
    | with_reducible refine Keeps.foldl _ ?_ (fun t x ht => ?_)
    | split
    | extract_lets

theorem noteSent_keeps {a s : State} (h : Keeps a s) (f : InFlight) (who : ℕ × ℕ) (lo : ℕ) (hi : ℕ) (total : ℕ) :
    Keeps a (noteSent s f who lo hi total) := by
  unfold noteSent
  repeat' first
    | with_reducible assumption
    | with_reducible apply putInflight_keeps
    | split

theorem answerFetch_keeps {a s : State} (h : Keeps a s) (node : BitVec 24) (h3 : Order) : Keeps a
    (answerFetch s node h3) := by
  unfold answerFetch
  repeat' first
    | with_reducible assumption
    | with_reducible apply fwDeny_keeps
    | with_reducible apply sendX_keeps
    | with_reducible apply count_keeps
    | with_reducible apply sendRange_keeps
    | with_reducible apply noteSent_keeps
    | split
    | extract_lets

theorem execFetchRequest_keeps {a s : State} (h : Keeps a s) (node : BitVec 24) (hdr : Order) : OKeeps a
    (execFetchRequest node hdr s) := by
  unfold execFetchRequest
  repeat' first
    | with_reducible assumption
    | with_reducible apply answerFetch_keeps
    | with_reducible apply fromNode_keeps
    | with_reducible apply ok_next
    | split

theorem takeData_keeps {a s : State} (h : Keeps a s) (f : InFlight) (h3 : Order) (payload : Bytes) : Keeps a
    (takeData s f h3 payload) := by
  unfold takeData
  repeat' first
    | with_reducible assumption
    | with_reducible apply putInflight_keeps
    | with_reducible apply areaWrite_keeps
    | split
    | extract_lets

theorem execFetchData_keeps {a s : State} (h : Keeps a s) (node : BitVec 24) (hdr : Order) (payload : Bytes) : OKeeps
    a (execFetchData node hdr payload s) := by
  unfold execFetchData
  repeat' first
    | with_reducible assumption
    | with_reducible apply fromNode_keeps
    | with_reducible apply takeData_keeps
    | with_reducible apply ok_next
    | split
    | extract_lets

theorem endPull_keeps {a s : State} (h : Keeps a s) (f : InFlight) (reason : ℕ) : Keeps a (endPull s f reason) := by
  unfold endPull
  repeat' first
    | with_reducible assumption
    | refine endOrder_keeps ?_ _ _ ?_
    | with_reducible apply releaseTarget_keeps
    | with_reducible apply pk_fail

theorem takeRefusal_keeps {a s : State} (h : Keeps a s) (f : InFlight) (code : ℕ) : Keeps a (takeRefusal s f code) := by
  unfold takeRefusal
  repeat' first
    | with_reducible assumption
    | with_reducible apply putInflight_keeps
    | with_reducible apply endPull_keeps
    | split

theorem execFetchRefusal_keeps {a s : State} (h : Keeps a s) (node : BitVec 24) (hdr : Order) : OKeeps a
    (execFetchRefusal node hdr s) := by
  unfold execFetchRefusal
  repeat' first
    | with_reducible assumption
    | with_reducible apply fromNode_keeps
    | with_reducible apply takeRefusal_keeps
    | with_reducible apply ok_next
    | split
    | extract_lets

theorem retryPull_keeps {a s : State} (h : Keeps a s) (r : RingId) (idx : ℕ) : Keeps a (retryPull s r idx) := by
  unfold retryPull
  repeat' first
    | with_reducible assumption
    | with_reducible apply requestRanges_keeps
    | with_reducible apply putInflight_keeps
    | split

theorem execFetchNoServeRetry_keeps {a s : State} (h : Keeps a s) (r : RingId) (idx : ℕ) : OKeeps a
    (execFetchNoServeRetry r idx s) := by
  unfold execFetchNoServeRetry
  repeat' first
    | with_reducible assumption
    | with_reducible apply retryPull_keeps
    | with_reducible apply ok_next

theorem rerequestPull_keeps {a s : State} (h : Keeps a s) (r : RingId) (idx : ℕ) : Keeps a (rerequestPull s r idx) := by
  unfold rerequestPull
  repeat' first
    | with_reducible assumption
    | with_reducible apply requestRanges_keeps
    | split

theorem execFetchRangeReRequest_keeps {a s : State} (h : Keeps a s) (r : RingId) (idx : ℕ) : OKeeps a
    (execFetchRangeReRequest r idx s) := by
  unfold execFetchRangeReRequest
  repeat' first
    | with_reducible assumption
    | with_reducible apply rerequestPull_keeps
    | with_reducible apply ok_next

theorem giveUpPull_keeps {a s : State} (h : Keeps a s) (r : RingId) (idx : ℕ) : Keeps a (giveUpPull s r idx) := by
  unfold giveUpPull
  repeat' first
    | with_reducible assumption
    | with_reducible apply endPull_keeps
    | split

theorem execFetchPullGiveUp_keeps {a s : State} (h : Keeps a s) (r : RingId) (idx : ℕ) : OKeeps a
    (execFetchPullGiveUp r idx s) := by
  unfold execFetchPullGiveUp
  repeat' first
    | with_reducible assumption
    | with_reducible apply giveUpPull_keeps
    | with_reducible apply ok_next

theorem leaveOpen_keeps {a s : State} (h : Keeps a s) (un : UnitId) (id : ℕ) (q : ℕ) : Keeps a (leaveOpen s un id q)
    := by
  unfold leaveOpen
  repeat' first
    | with_reducible assumption
    | with_reducible apply ledAdd_keeps
    | with_reducible apply modUpd_keeps

theorem cutParcel_keeps {a s : State} (h : Keeps a s) (un : UnitId) (t : Stall) (restores : Bool) (cutFrom : ℕ) :
    Keeps a (cutParcel s un t restores cutFrom) := by
  unfold cutParcel
  repeat' first
    | with_reducible assumption
    | with_reducible apply bump_keeps
    | with_reducible apply commitWrites_keeps
    | with_reducible apply modUpd_keeps
    | with_reducible apply leaveOpen_keeps
    | split
    | extract_lets

theorem dropPass_keeps {a s : State} (h : Keeps a s) (k : ℕ) : Keeps a (dropPass s k) := by
  unfold dropPass
  repeat' first
    | with_reducible assumption
    | with_reducible apply putUnit_keeps

theorem countFault_keeps {a s : State} (h : Keeps a s) : Keeps a (countFault s) := by
  unfold countFault
  repeat' first
    | with_reducible assumption
    | simp -zeta only [Keeps.mk_eqs]

theorem stallFault_keeps {a s : State} (h : Keeps a s) (st : StallId) : Keeps a (stallFault s st) := by
  unfold stallFault
  repeat' first
    | with_reducible assumption
    | with_reducible refine batch_keeps ?_ (fun b t ht => ?_)
    | with_reducible apply ledAdd_keeps
    | with_reducible apply countFault_keeps
    | with_reducible apply fenceStallNow_keeps
    | with_reducible apply dropPass_keeps
    | with_reducible apply putUnit_keeps
    | with_reducible apply cutParcel_keeps
    | with_reducible apply modSite_keeps
    | with_reducible apply afterClose_keeps
    | with_reducible apply closeIfDone_keeps
    | simp -zeta only [Keeps.mk_eqs]
    | split

theorem execStallHardFault_keeps {a s : State} (h : Keeps a s) (st : StallId) : OKeeps a (execStallHardFault st s) := by
  unfold execStallHardFault
  repeat' first
    | with_reducible assumption
    | with_reducible apply stallFault_keeps
    | with_reducible apply ok_next

theorem restartRelief_keeps {a s : State} (h : Keeps a s) (x : SiteId) : Keeps a (restartRelief s x) := by
  unfold restartRelief
  repeat' first
    | with_reducible assumption
    | with_reducible apply fltIrq_keeps
    | with_reducible apply ledAdd_keeps
    | with_reducible apply cutParcel_keeps
    | with_reducible apply modSite_keeps
    | with_reducible apply dropPass_keeps
    | with_reducible apply closeIfDone_keeps
    | split
    | extract_lets
    | dsimp +zetaDelta only

theorem reliefFault_keeps {a s : State} (h : Keeps a s) (x : SiteId) : Keeps a (reliefFault s x) := by
  unfold reliefFault
  repeat' first
    | with_reducible assumption
    | with_reducible apply restartRelief_keeps
    | with_reducible apply modSite_keeps
    | with_reducible apply countFault_keeps
    | with_reducible apply requestDeferred_keeps
    | split
    | extract_lets

theorem execReliefEngineHardFault_keeps {a s : State} (h : Keeps a s) (x : SiteId) : OKeeps a
    (execReliefEngineHardFault x s) := by
  unfold execReliefEngineHardFault
  repeat' first
    | with_reducible assumption
    | with_reducible apply reliefFault_keeps
    | with_reducible apply ok_next

theorem reliefDone_keeps {a s : State} (h : Keeps a s) (x : SiteId) : Keeps a (reliefDone s x) := by
  unfold reliefDone
  repeat' first
    | with_reducible assumption
    | with_reducible apply charge_keeps
    | with_reducible apply modSite_keeps
    | split
    | extract_lets
    | dsimp +zetaDelta only

theorem execReliefEngineRestartDone_keeps {a s : State} (h : Keeps a s) (x : SiteId) : OKeeps a
    (execReliefEngineRestartDone x s) := by
  unfold execReliefEngineRestartDone
  repeat' first
    | with_reducible assumption
    | with_reducible apply reliefDone_keeps
    | with_reducible apply ok_next

theorem execSiteControllerFault_keeps {a s : State} (h : Keeps a s) (x : SiteId) : OKeeps a
    (execSiteControllerFault x s) := by
  unfold execSiteControllerFault
  repeat' first
    | with_reducible assumption
    | with_reducible apply requestDeferred_keeps
    | with_reducible apply ok_next
    | split

theorem cutSite_keeps {a s : State} (h : Keeps a s) (x : SiteId) : Keeps a (cutSite s x) := by
  unfold cutSite
  repeat' first
    | with_reducible assumption
    | with_reducible apply dropPass_keeps
    | with_reducible apply cutParcel_keeps
    | with_reducible refine Keeps.foldl _ ?_ (fun t x ht => ?_)

theorem markUntested_keeps {a s : State} (h : Keeps a s) (x : SiteId) : Keeps a (markUntested s x) := by
  unfold markUntested
  repeat' first
    | with_reducible assumption
    | with_reducible apply selfTestBit_keeps
    | split

theorem powerOff_keeps {a s : State} (h : Keeps a s) (x : SiteId) : Keeps a (powerOff s x) := by
  unfold powerOff
  repeat' first
    | with_reducible assumption
    | with_reducible apply modSite_keeps

theorem tripSite_keeps {a s : State} (h : Keeps a s) (x : SiteId) : Keeps a (tripSite s x) := by
  unfold tripSite
  repeat' first
    | with_reducible assumption
    | with_reducible refine batch_keeps ?_ (fun b t ht => ?_)
    | with_reducible apply pwrIrq_keeps
    | with_reducible apply siteEvent_keeps
    | with_reducible apply modSite_keeps
    | with_reducible apply ledAdd_keeps
    | with_reducible apply markUntested_keeps
    | with_reducible apply afterClose_keeps
    | with_reducible apply powerOff_keeps
    | with_reducible apply fenceSiteNow_keeps
    | with_reducible apply cutSite_keeps
    | split

theorem stackTrip_keeps {a s : State} (h : Keeps a s) (x : SiteId) : Keeps a (stackTrip s x) := by
  unfold stackTrip
  repeat' first
    | with_reducible assumption
    | with_reducible apply modSite_keeps
    | with_reducible apply tripSite_keeps
    | split

theorem execStackTrip_keeps {a s : State} (h : Keeps a s) (x : SiteId) : OKeeps a (execStackTrip x s) := by
  unfold execStackTrip
  repeat' first
    | with_reducible assumption
    | with_reducible apply stackTrip_keeps
    | with_reducible apply ok_next

theorem readTemps_keeps {a s : State} (h : Keeps a s) (x : SiteId) (r : List (BitVec 11)) : Keeps a (readTemps s x r)
    := by
  unfold readTemps
  repeat' first
    | with_reducible assumption
    | with_reducible refine batch_keeps ?_ (fun b t ht => ?_)
    | with_reducible apply modSite_keeps
    | with_reducible apply driftCheck_keeps
    | with_reducible apply setLevel_keeps
    | with_reducible apply stackTrip_keeps
    | with_reducible refine Keeps.foldl _ ?_ (fun t x ht => ?_)
    | split
    | extract_lets

theorem execTemperatureRead_keeps {a s : State} (h : Keeps a s) (x : SiteId) (r : List (BitVec 11)) : OKeeps a
    (execTemperatureRead x r s) := by
  unfold execTemperatureRead
  repeat' first
    | with_reducible assumption
    | with_reducible apply readTemps_keeps
    | with_reducible apply ok_next

theorem fatalStop_keeps {a s : State} (h : Keeps a s) (writable : Bool) : Keeps a (fatalStop s writable) := by
  unfold fatalStop
  repeat' first
    | with_reducible assumption
    | with_reducible apply ledAdd_keeps
    | with_reducible apply fltIrq_keeps
    | simp -zeta only [Keeps.mk_eqs]
    | split
    | extract_lets

theorem execFatalFault_keeps {a s : State} (h : Keeps a s) (writable : Bool) : OKeeps a (execFatalFault writable s) :=
    by
  unfold execFatalFault
  repeat' first
    | with_reducible assumption
    | with_reducible apply fatalStop_keeps
    | with_reducible apply ok_next

theorem execClockLoss_keeps {a s : State} (h : Keeps a s) (x1 : InClock) (writable : Bool) : OKeeps a
    (execClockLoss x1 writable s) := by
  unfold execClockLoss
  repeat' first
    | with_reducible assumption
    | with_reducible apply fatalStop_keeps
    | with_reducible apply ok_next

theorem execFaultAllowanceExceeded_keeps {a s : State} (h : Keeps a s) (i : Inst) : OKeeps a
    (execFaultAllowanceExceeded i s) := by
  unfold execFaultAllowanceExceeded
  repeat' first
    | with_reducible assumption
    | with_reducible apply settle_keeps
    | with_reducible apply lateCheck_keeps
    | with_reducible apply ok_next
    | split

theorem dropSpot_keeps {a s : State} (h : Keeps a s) (z : Spot) : Keeps a (dropSpot s z) := by
  unfold dropSpot
  repeat' first
    | with_reducible assumption
    | simp -zeta only [Keeps.mk_eqs]

theorem suspect_keeps {a s : State} (h : Keeps a s) (z : Spot) : Keeps a (suspect s z) := by
  unfold suspect
  repeat' first
    | with_reducible assumption
    | with_reducible apply modSite_keeps
    | with_reducible apply ityIrq_keeps
    | with_reducible apply ledAdd_keeps
    | with_reducible apply requestDeferred_keeps
    | with_reducible apply restartRelief_keeps
    | simp -zeta only
    | split
    | extract_lets

theorem reportSpot_keeps {a s : State} (h : Keeps a s) (z : Spot) (pu : Machine.PUnit) (breach : Bool) (memErr : Bool)
    : Keeps a (reportSpot s z pu breach memErr) := by
  unfold reportSpot
  repeat' first
    | with_reducible assumption
    | with_reducible apply ledAdd_keeps
    | with_reducible apply count_keeps
    | with_reducible apply lastingEvent_keeps
    | with_reducible apply suspect_keeps
    | split

theorem compareSpot_keeps {a s : State} (h : Keeps a s) (z : Spot) (ly : Layout) (memErr : Bool) : Keeps a
    (compareSpot s z ly memErr) := by
  unfold compareSpot
  repeat' first
    | with_reducible assumption
    | with_reducible apply count_keeps
    | with_reducible apply dropSpot_keeps
    | with_reducible apply bump_keeps
    | with_reducible apply reportSpot_keeps
    | with_reducible refine Keeps.foldl _ ?_ (fun t x ht => ?_)
    | split
    | extract_lets

theorem toFp64_keeps {a s : State} (h : Keeps a s) (x : SiteId) : Keeps a (toFp64 s x) := by
  unfold toFp64
  repeat' first
    | with_reducible assumption
    | with_reducible apply putUnit_keeps

theorem spotCheck_keeps {a s : State} (h : Keeps a s) (x : SiteId) (id : ℕ) (q : ℕ) (memErr : Bool) : Keeps a
    (spotCheck s x id q memErr) := by
  unfold spotCheck
  repeat' first
    | with_reducible assumption
    | with_reducible apply count_keeps
    | with_reducible apply dropSpot_keeps
    | with_reducible apply compareSpot_keeps
    | with_reducible apply toFp64_keeps
    | with_reducible apply takeBg_keeps
    | split
    | extract_lets

theorem execSpotCheck_keeps {a s : State} (h : Keeps a s) (x : SiteId) (layout : ℕ) (parcel : ℕ) (memErr : Bool) :
    OKeeps a (execSpotCheck x layout parcel memErr s) := by
  unfold execSpotCheck
  repeat' first
    | with_reducible assumption
    | with_reducible apply spotCheck_keeps
    | with_reducible apply ok_next

theorem skipSpot_keeps {a s : State} (h : Keeps a s) (x : SiteId) (id : ℕ) (q : ℕ) : Keeps a (skipSpot s x id q) := by
  unfold skipSpot
  repeat' first
    | with_reducible assumption
    | with_reducible apply count_keeps
    | with_reducible apply dropSpot_keeps
    | split

theorem execSpotCheckSkip_keeps {a s : State} (h : Keeps a s) (x : SiteId) (layout : ℕ) (parcel : ℕ) : OKeeps a
    (execSpotCheckSkip x layout parcel s) := by
  unfold execSpotCheckSkip
  repeat' first
    | with_reducible assumption
    | with_reducible apply skipSpot_keeps
    | with_reducible apply ok_next

theorem enterReset_keeps {a s : State} (h : Keeps a s) (k : ResetKind) (cause : W32) : Keeps a (enterReset s k cause)
    := by
  unfold enterReset
  refine h.trans ⟨rfl, fun _ => rfl, fun i => ?_⟩
  have r := resetWith_inv s.par cause i.par
  exact { r.toSound with link := i.link }

theorem softReset_keeps {a s : State} (h : Keeps a s) (k : ResetKind) (cause : W32) : Keeps a (softReset s k cause) :=
    by
  refine h.trans ⟨rfl, fun _ => rfl, fun i => ?_⟩
  have r := (enterReset_keeps (Keeps.refl s) k cause).sound i
  exact { r with dram := memFilter_wf i.dram _, chk := chkFilter_wf i.chk _ }

theorem powerOnReset_keeps {a s : State} (h : Keeps a s) : Keeps a (powerOnReset s) := by
  unfold powerOnReset
  repeat' first
    | with_reducible assumption
    | with_reducible apply enterReset_keeps
    | simp -zeta only [Keeps.mk_eqs]
    | extract_lets

theorem execPowerOnReset_keeps {a s : State} (h : Keeps a s) : OKeeps a (execPowerOnReset s) := by
  unfold execPowerOnReset
  repeat' first
    | with_reducible assumption
    | with_reducible apply powerOnReset_keeps
    | with_reducible apply ok_next

theorem execRailPowerGoodLoss_keeps {a s : State} (h : Keeps a s) : OKeeps a (execRailPowerGoodLoss s) := by
  unfold execRailPowerGoodLoss
  repeat' first
    | with_reducible assumption
    | with_reducible apply powerOnReset_keeps
    | simp -zeta only [Keeps.mk_eqs]
    | with_reducible apply ok_next
    | split
    | extract_lets

theorem execBlockReset_keeps {a s : State} (h : Keeps a s) : OKeeps a (execBlockReset s) := by
  unfold execBlockReset
  repeat' first
    | with_reducible assumption
    | with_reducible apply softReset_keeps
    | simp -zeta only [Keeps.mk_eqs]
    | with_reducible apply ok_next
    | split

theorem execBus48Reset_keeps {a s : State} (h : Keeps a s) : OKeeps a (execBus48Reset s) := by
  unfold execBus48Reset
  repeat' first
    | with_reducible assumption
    | with_reducible apply softReset_keeps
    | simp -zeta only [Keeps.mk_eqs]
    | with_reducible apply ok_next
    | split
    | extract_lets

theorem leaveReset_keeps {a s : State} (h : Keeps a s) : Keeps a (leaveReset s) := by
  unfold leaveReset
  repeat' first
    | with_reducible assumption
    | with_reducible apply tripSite_keeps
    | with_reducible apply startTraining_keeps
    | simp -zeta only [Keeps.mk_eqs]
    | with_reducible refine Keeps.foldl _ ?_ (fun t x ht => ?_)
    | split

theorem powerOnRelease_keeps {a s : State} (h : Keeps a s) : Keeps a (powerOnRelease s) := by
  unfold powerOnRelease
  repeat' first
    | with_reducible assumption
    | with_reducible apply leaveReset_keeps
    | simp -zeta only [Keeps.mk_eqs]
    | split
    | extract_lets

theorem execPowerOnResetRelease_keeps {a s : State} (h : Keeps a s) : OKeeps a (execPowerOnResetRelease s) := by
  unfold execPowerOnResetRelease
  repeat' first
    | with_reducible assumption
    | with_reducible apply powerOnRelease_keeps
    | with_reducible apply ok_next

theorem execBlockResetRelease_keeps {a s : State} (h : Keeps a s) : OKeeps a (execBlockResetRelease s) := by
  unfold execBlockResetRelease
  repeat' first
    | with_reducible assumption
    | with_reducible apply leaveReset_keeps
    | with_reducible apply ok_next
    | split

theorem execBus48ResetRelease_keeps {a s : State} (h : Keeps a s) : OKeeps a (execBus48ResetRelease s) := by
  unfold execBus48ResetRelease
  repeat' first
    | with_reducible assumption
    | with_reducible apply leaveReset_keeps
    | simp -zeta only [Keeps.mk_eqs]
    | with_reducible apply ok_next
    | split

theorem execSiteEnable_keeps {a s : State} (h : Keeps a s) : OKeeps a (execSiteEnable s) := by
  unfold execSiteEnable
  repeat' first
    | with_reducible assumption
    | with_reducible apply modSite_keeps
    | with_reducible apply ok_next
    | split

theorem execSitePowerGoodTimeout_keeps {a s : State} (h : Keeps a s) (x : SiteId) : OKeeps a
    (execSitePowerGoodTimeout x s) := by
  unfold execSitePowerGoodTimeout
  repeat' first
    | with_reducible assumption
    | with_reducible apply fenceSiteNow_keeps
    | with_reducible apply selfTestBit_keeps
    | with_reducible apply ok_next
    | split

theorem dropStack_keeps {a s : State} (h : Keeps a s) (x : SiteId) : Keeps a (dropStack s x) := by
  exact (setDramChk_keeps h (fun hm => memFilter_wf hm _) (fun hk => chkFilter_wf hk _)).eqs
    rfl rfl rfl rfl rfl rfl rfl rfl rfl rfl rfl rfl

theorem powerGoodLoss_keeps {a s : State} (h : Keeps a s) (x : SiteId) : Keeps a (powerGoodLoss s x) := by
  unfold powerGoodLoss
  repeat' first
    | with_reducible assumption
    | with_reducible apply modSite_keeps
    | with_reducible apply dropStack_keeps
    | with_reducible apply requestDeferred_keeps
    | with_reducible apply powerOff_keeps
    | with_reducible apply markUntested_keeps
    | split

theorem execSitePowerGoodLoss_keeps {a s : State} (h : Keeps a s) (x : SiteId) : OKeeps a (execSitePowerGoodLoss x s)
    := by
  unfold execSitePowerGoodLoss
  repeat' first
    | with_reducible assumption
    | with_reducible apply powerGoodLoss_keeps
    | with_reducible apply ok_next

theorem zeroSite_keeps {a s : State} (h : Keeps a s) (x : SiteId) : Keeps a (zeroSite s x) :=
  setDramChk_keeps h (fun hm => memFilter_wf hm _) (fun hk => chkFilter_wf hk _)

theorem endSelfTest_keeps {a s : State} (h : Keeps a s) (x : SiteId) (t : SelfTest) : Keeps a (endSelfTest s x t) := by
  unfold endSelfTest
  repeat' first
    | with_reducible assumption
    | with_reducible refine batch_keeps ?_ (fun b t ht => ?_)
    | with_reducible apply modSite_keeps
    | with_reducible apply zeroSite_keeps
    | with_reducible apply selfTestBit_keeps
    | with_reducible apply fenceStallNow_keeps
    | with_reducible apply fenceSiteNow_keeps
    | with_reducible refine Keeps.foldl _ ?_ (fun t x ht => ?_)
    | split

theorem execSelfTestComplete_keeps {a s : State} (h : Keeps a s) (x : SiteId) (t : SelfTest) : OKeeps a
    (execSelfTestComplete x t s) := by
  unfold execSelfTestComplete
  repeat' first
    | with_reducible assumption
    | with_reducible apply endSelfTest_keeps
    | with_reducible apply ok_next

theorem beginRipple_keeps {a s : State} (h : Keeps a s) (paid : Machine.State → SiteId → Bool) : Keeps a
    (beginRipple s paid) := by
  unfold beginRipple
  repeat' first
    | with_reducible assumption
    | with_reducible apply modSite_keeps
    | simp -zeta only [Keeps.mk_eqs]
    | with_reducible refine Keeps.foldl _ ?_ (fun t x ht => ?_)
    | extract_lets

theorem ready_keeps {a s : State} (h : Keeps a s) (t : ReadyTest) : Keeps a (ready s t) := by
  unfold ready
  repeat' first
    | with_reducible assumption
    | with_reducible apply addAnswer_keeps
    | with_reducible apply failStart_keeps
    | with_reducible apply selfTestBit_keeps
    | with_reducible apply putReceipt_keeps
    | with_reducible apply beginRipple_keeps
    | with_reducible apply beginPhase_keeps
    | simp -zeta only [Keeps.mk_eqs]
    | with_reducible refine Keeps.foldl _ ?_ (fun t x ht => ?_)
    | split
    | extract_lets

theorem execReady_keeps {a s : State} (h : Keeps a s) (t : ReadyTest) : OKeeps a (execReady t s) := by
  unfold execReady
  repeat' first
    | with_reducible assumption
    | with_reducible apply ready_keeps
    | with_reducible apply ok_next

theorem squallHold_keeps {a s : State} (h : Keeps a s) : Keeps a (squallHold s) := by
  unfold squallHold
  repeat' first
    | with_reducible assumption
    | with_reducible apply settleSquall_keeps
    | with_reducible apply ledAdd_keeps
    | with_reducible apply pwrIrq_keeps
    | simp -zeta only [Keeps.mk_eqs]
    | split
    | extract_lets
    | dsimp +zetaDelta only

theorem execSquallHold_keeps {a s : State} (h : Keeps a s) : OKeeps a (execSquallHold s) := by
  unfold execSquallHold
  repeat' first
    | with_reducible assumption
    | with_reducible apply squallHold_keeps
    | with_reducible apply ok_next

theorem execBus48WarnDeassert_keeps {a s : State} (h : Keeps a s) : OKeeps a (execBus48WarnDeassert s) := by
  unfold execBus48WarnDeassert
  repeat' first
    | with_reducible assumption
    | simp -zeta only [Keeps.mk_eqs]
    | with_reducible apply ok_next
    | split

theorem endSquall_keeps {a s : State} (h : Keeps a s) : Keeps a (endSquall s) := by
  unfold endSquall
  repeat' first
    | with_reducible assumption
    | with_reducible apply settleSquall_keeps
    | with_reducible apply beginRipple_keeps
    | with_reducible apply ledAdd_keeps
    | simp -zeta only [Keeps.mk_eqs]

theorem execSquallHoldEnd_keeps {a s : State} (h : Keeps a s) : OKeeps a (execSquallHoldEnd s) := by
  unfold execSquallHoldEnd
  repeat' first
    | with_reducible assumption
    | with_reducible apply endSquall_keeps
    | with_reducible apply startTraining_keeps
    | with_reducible apply ok_next
    | split

theorem rippleStart_keeps {a s : State} (h : Keeps a s) : Keeps a (rippleStart s) := by
  unfold rippleStart
  repeat' first
    | with_reducible assumption
    | with_reducible apply afterClose_keeps
    | with_reducible apply modSite_keeps
    | with_reducible apply settleSquall_keeps
    | simp -zeta only [Keeps.mk_eqs]
    | split
    | extract_lets
    | dsimp +zetaDelta only

theorem execRippleStart_keeps {a s : State} (h : Keeps a s) : OKeeps a (execRippleStart s) := by
  unfold execRippleStart
  repeat' first
    | with_reducible assumption
    | with_reducible apply rippleStart_keeps
    | with_reducible apply ok_next

theorem execSquallLate_keeps {a s : State} (h : Keeps a s) (i : Inst) : OKeeps a (execSquallLate i s) := by
  unfold execSquallLate
  repeat' first
    | with_reducible assumption
    | with_reducible apply settle_keeps
    | with_reducible apply lateCheck_keeps
    | with_reducible apply ledAdd_keeps
    | with_reducible apply pwrIrq_keeps
    | with_reducible apply ok_next
    | split

theorem execPeakLimiter_keeps {a s : State} (h : Keeps a s) (est : BitVec 11) : OKeeps a (execPeakLimiter est s) := by
  unfold execPeakLimiter
  repeat' first
    | with_reducible assumption
    | simp -zeta only [Keeps.mk_eqs]
    | with_reducible apply ok_next
    | split

theorem setTap_keeps {a s : State} (h : Keeps a s) (ir : BitVec 8) (dr : W32) (wrap : Option SiteId) (dbg : Bool) :
    Keeps a (setTap s ir dr wrap dbg) := by
  unfold setTap
  repeat' first
    | with_reducible assumption
    | simp -zeta only [Keeps.mk_eqs]

theorem tapBypass_keeps {a s : State} (h : Keeps a s) : Keeps a (tapBypass s) := by
  unfold tapBypass
  repeat' first
    | with_reducible assumption
    | with_reducible apply setTap_keeps

theorem tapLocked_keeps {a s : State} (h : Keeps a s) {f : State → State} (hf : Keeps a (f s)) : Keeps a
    (tapLocked s f) := by
  unfold tapLocked
  split
  · exact tapBypass_keeps h
  · exact hf

theorem tapBoundary_keeps {a s : State} (h : Keeps a s) (ir : BitVec 8) : Keeps a (tapBoundary ir s) := by
  unfold tapBoundary
  repeat' first
    | with_reducible assumption
    | with_reducible apply bump_keeps
    | with_reducible apply setTap_keeps

theorem execExtest_keeps {a s : State} (h : Keeps a s) : OKeeps a (execExtest s) := by
  unfold execExtest
  repeat' first
    | with_reducible assumption
    | refine tapLocked_keeps ?_ ?_
    | with_reducible apply tapBoundary_keeps
    | with_reducible apply ok_next

theorem execIdcode_keeps {a s : State} (h : Keeps a s) : OKeeps a (execIdcode s) := by
  unfold execIdcode
  repeat' first
    | with_reducible assumption
    | with_reducible apply setTap_keeps
    | with_reducible apply ok_next

theorem execSamplePreload_keeps {a s : State} (h : Keeps a s) : OKeeps a (execSamplePreload s) := by
  unfold execSamplePreload
  repeat' first
    | with_reducible assumption
    | refine tapLocked_keeps ?_ ?_
    | with_reducible apply tapBoundary_keeps
    | with_reducible apply ok_next

theorem execWrapsel_keeps {a s : State} (h : Keeps a s) (x : SiteId) : OKeeps a (execWrapsel x s) := by
  unfold execWrapsel
  repeat' first
    | with_reducible assumption
    | refine tapLocked_keeps ?_ ?_
    | with_reducible apply setTap_keeps
    | with_reducible apply ok_next

theorem execDbgsel_keeps {a s : State} (h : Keeps a s) : OKeeps a (execDbgsel s) := by
  unfold execDbgsel
  repeat' first
    | with_reducible assumption
    | refine tapLocked_keeps ?_ ?_
    | with_reducible apply setTap_keeps
    | with_reducible apply ok_next

theorem execBypass_keeps {a s : State} (h : Keeps a s) : OKeeps a (execBypass s) := by
  unfold execBypass
  repeat' first
    | with_reducible assumption
    | with_reducible apply tapBypass_keeps
    | with_reducible apply ok_next

theorem execTestLogicReset_keeps {a s : State} (h : Keeps a s) : OKeeps a (execTestLogicReset s) := by
  unfold execTestLogicReset
  repeat' first
    | with_reducible assumption
    | simp -zeta only [Keeps.mk_eqs]
    | with_reducible apply ok_next

theorem State.withFetchWord_keeps {a s : State} (h : Keeps a s) (nbits : ℕ) (w : ℕ) : Keeps a
    (State.withFetchWord s nbits w) := by
  unfold State.withFetchWord
  repeat' first
    | with_reducible assumption
    | simp -zeta only [Keeps.mk_eqs]
    | split

theorem setFw_keeps {a s : State} (h : Keeps a s) (i : Fin 64) (e : FwEntry) : Keeps a (setFw s i e) := by
  unfold setFw
  repeat' first
    | with_reducible assumption
    | simp -zeta only [Keeps.mk_eqs]

theorem heardBy_keeps {a s : State} (h : Keeps a s) (x2 : Origin) : Keeps a (heardBy s x2) := by
  unfold heardBy
  repeat' first
    | with_reducible assumption
    | with_reducible apply hearFrom_keeps
    | split

end Sys2Proof.Machine
end

