-- ==== Sys2Proof/Laws/State.lean ====
section
/-! SUPPORT. What each shared updater leaves as it was: an equation that names the fields it may change, and one simp rule
for every other field; and what it makes of the field it is for. -/

namespace Sys2Proof.Machine

theorem count_eq (s : State) (i n : Nat) :
    count s i n = { s with
      tally := (count s i n).tally } := rfl

@[simp] theorem count_fields (s : State) (i n : Nat) :
    (count s i n).pending = s.pending ∧ (count s i n).par = s.par ∧ (count s i n).ts = s.ts ∧
    (count s i n).beat = s.beat ∧ (count s i n).latNs = s.latNs ∧ (count s i n).latS = s.latS ∧
    (count s i n).cfg = s.cfg ∧ (count s i n).rings = s.rings ∧ (count s i n).turn = s.turn ∧
    (count s i n).awn = s.awn ∧ (count s i n).stage = s.stage ∧ (count s i n).inflight = s.inflight ∧
    (count s i n).waiting = s.waiting ∧ (count s i n).seq = s.seq ∧ (count s i n).charges = s.charges ∧
    (count s i n).squallDebt = s.squallDebt ∧ (count s i n).pairSpent = s.pairSpent ∧ (count s i n).regs = s.regs ∧
    (count s i n).mbxNsIn = s.mbxNsIn ∧ (count s i n).mbxNsOut = s.mbxNsOut ∧ (count s i n).mbxSIn = s.mbxSIn ∧
    (count s i n).mbxSOut = s.mbxSOut ∧ (count s i n).ansNs = s.ansNs ∧ (count s i n).ansS = s.ansS ∧
    (count s i n).layouts = s.layouts ∧ (count s i n).rules = s.rules ∧ (count s i n).streams = s.streams ∧
    (count s i n).stash = s.stash ∧ (count s i n).queues = s.queues ∧ (count s i n).dram = s.dram ∧
    (count s i n).chk = s.chk ∧ (count s i n).remap = s.remap ∧ (count s i n).cache = s.cache ∧
    (count s i n).units = s.units ∧ (count s i n).fencedStalls = s.fencedStalls ∧
    (count s i n).refreshDebt = s.refreshDebt ∧ (count s i n).refreshPtr = s.refreshPtr ∧
    (count s i n).sites = s.sites ∧ (count s i n).chans = s.chans ∧ (count s i n).spots = s.spots ∧
    (count s i n).defer = s.defer ∧ (count s i n).outst = s.outst ∧ (count s i n).nextReq = s.nextReq ∧
    (count s i n).tracker = s.tracker ∧ (count s i n).heldNarrow = s.heldNarrow ∧ (count s i n).arb = s.arb ∧
    (count s i n).xstreams = s.xstreams ∧ (count s i n).link = s.link ∧ (count s i n).linkFrom = s.linkFrom ∧
    (count s i n).linkAt = s.linkAt ∧ (count s i n).xheld = s.xheld ∧ (count s i n).power = s.power ∧
    (count s i n).boot = s.boot ∧ (count s i n).sec = s.sec ∧ (count s i n).led = s.led ∧ (count s i n).tap = s.tap ∧
    (count s i n).bdregs = s.bdregs ∧ (count s i n).fatal = s.fatal ∧ (count s i n).batching = s.batching ∧
    (count s i n).out = s.out ∧ (count s i n).fresh = s.fresh := by
  rw [count_eq]
  refine ⟨rfl, rfl, rfl, rfl, rfl, rfl, rfl, rfl, rfl, rfl, rfl, rfl, rfl, rfl, rfl, rfl, rfl, rfl, rfl, rfl, rfl, rfl, rfl, rfl, rfl, rfl, rfl, rfl, rfl, rfl, rfl, rfl, rfl, rfl, rfl, rfl, rfl, rfl, rfl, rfl, rfl, rfl, rfl, rfl, rfl, rfl, rfl, rfl, rfl, rfl, rfl, rfl, rfl, rfl, rfl, rfl, rfl, rfl, rfl, rfl, rfl⟩

theorem countHigh_eq (s : State) (i n : Nat) :
    countHigh s i n = { s with
      tally := (countHigh s i n).tally } := rfl

@[simp] theorem countHigh_fields (s : State) (i n : Nat) :
    (countHigh s i n).pending = s.pending ∧ (countHigh s i n).par = s.par ∧ (countHigh s i n).ts = s.ts ∧
    (countHigh s i n).beat = s.beat ∧ (countHigh s i n).latNs = s.latNs ∧ (countHigh s i n).latS = s.latS ∧
    (countHigh s i n).cfg = s.cfg ∧ (countHigh s i n).rings = s.rings ∧ (countHigh s i n).turn = s.turn ∧
    (countHigh s i n).awn = s.awn ∧ (countHigh s i n).stage = s.stage ∧ (countHigh s i n).inflight = s.inflight ∧
    (countHigh s i n).waiting = s.waiting ∧ (countHigh s i n).seq = s.seq ∧ (countHigh s i n).charges = s.charges ∧
    (countHigh s i n).squallDebt = s.squallDebt ∧ (countHigh s i n).pairSpent = s.pairSpent ∧
    (countHigh s i n).regs = s.regs ∧ (countHigh s i n).mbxNsIn = s.mbxNsIn ∧
    (countHigh s i n).mbxNsOut = s.mbxNsOut ∧ (countHigh s i n).mbxSIn = s.mbxSIn ∧
    (countHigh s i n).mbxSOut = s.mbxSOut ∧ (countHigh s i n).ansNs = s.ansNs ∧ (countHigh s i n).ansS = s.ansS ∧
    (countHigh s i n).layouts = s.layouts ∧ (countHigh s i n).rules = s.rules ∧
    (countHigh s i n).streams = s.streams ∧ (countHigh s i n).stash = s.stash ∧ (countHigh s i n).queues = s.queues ∧
    (countHigh s i n).dram = s.dram ∧ (countHigh s i n).chk = s.chk ∧ (countHigh s i n).remap = s.remap ∧
    (countHigh s i n).cache = s.cache ∧ (countHigh s i n).units = s.units ∧
    (countHigh s i n).fencedStalls = s.fencedStalls ∧ (countHigh s i n).refreshDebt = s.refreshDebt ∧
    (countHigh s i n).refreshPtr = s.refreshPtr ∧ (countHigh s i n).sites = s.sites ∧
    (countHigh s i n).chans = s.chans ∧ (countHigh s i n).spots = s.spots ∧ (countHigh s i n).defer = s.defer ∧
    (countHigh s i n).outst = s.outst ∧ (countHigh s i n).nextReq = s.nextReq ∧
    (countHigh s i n).tracker = s.tracker ∧ (countHigh s i n).heldNarrow = s.heldNarrow ∧
    (countHigh s i n).arb = s.arb ∧ (countHigh s i n).xstreams = s.xstreams ∧ (countHigh s i n).link = s.link ∧
    (countHigh s i n).linkFrom = s.linkFrom ∧ (countHigh s i n).linkAt = s.linkAt ∧
    (countHigh s i n).xheld = s.xheld ∧ (countHigh s i n).power = s.power ∧ (countHigh s i n).boot = s.boot ∧
    (countHigh s i n).sec = s.sec ∧ (countHigh s i n).led = s.led ∧ (countHigh s i n).tap = s.tap ∧
    (countHigh s i n).bdregs = s.bdregs ∧ (countHigh s i n).fatal = s.fatal ∧
    (countHigh s i n).batching = s.batching ∧ (countHigh s i n).out = s.out ∧ (countHigh s i n).fresh = s.fresh := by
  rw [countHigh_eq]
  refine ⟨rfl, rfl, rfl, rfl, rfl, rfl, rfl, rfl, rfl, rfl, rfl, rfl, rfl, rfl, rfl, rfl, rfl, rfl, rfl, rfl, rfl, rfl, rfl, rfl, rfl, rfl, rfl, rfl, rfl, rfl, rfl, rfl, rfl, rfl, rfl, rfl, rfl, rfl, rfl, rfl, rfl, rfl, rfl, rfl, rfl, rfl, rfl, rfl, rfl, rfl, rfl, rfl, rfl, rfl, rfl, rfl, rfl, rfl, rfl, rfl, rfl⟩

theorem ledAdd_eq (s : State) (c : Nat) (p : Place) (l a : Nat) :
    ledAdd s c p l a = { s with
      led := (ledAdd s c p l a).led } := by
  unfold ledAdd
  dsimp only
  repeat' split
  all_goals rfl

@[simp] theorem ledAdd_fields (s : State) (c : Nat) (p : Place) (l a : Nat) :
    (ledAdd s c p l a).pending = s.pending ∧ (ledAdd s c p l a).par = s.par ∧ (ledAdd s c p l a).ts = s.ts ∧
    (ledAdd s c p l a).beat = s.beat ∧ (ledAdd s c p l a).latNs = s.latNs ∧ (ledAdd s c p l a).latS = s.latS ∧
    (ledAdd s c p l a).cfg = s.cfg ∧ (ledAdd s c p l a).rings = s.rings ∧ (ledAdd s c p l a).turn = s.turn ∧
    (ledAdd s c p l a).awn = s.awn ∧ (ledAdd s c p l a).stage = s.stage ∧ (ledAdd s c p l a).inflight = s.inflight ∧
    (ledAdd s c p l a).waiting = s.waiting ∧ (ledAdd s c p l a).seq = s.seq ∧ (ledAdd s c p l a).charges = s.charges ∧
    (ledAdd s c p l a).squallDebt = s.squallDebt ∧ (ledAdd s c p l a).pairSpent = s.pairSpent ∧
    (ledAdd s c p l a).regs = s.regs ∧ (ledAdd s c p l a).mbxNsIn = s.mbxNsIn ∧
    (ledAdd s c p l a).mbxNsOut = s.mbxNsOut ∧ (ledAdd s c p l a).mbxSIn = s.mbxSIn ∧
    (ledAdd s c p l a).mbxSOut = s.mbxSOut ∧ (ledAdd s c p l a).ansNs = s.ansNs ∧ (ledAdd s c p l a).ansS = s.ansS ∧
    (ledAdd s c p l a).layouts = s.layouts ∧ (ledAdd s c p l a).rules = s.rules ∧
    (ledAdd s c p l a).streams = s.streams ∧ (ledAdd s c p l a).stash = s.stash ∧
    (ledAdd s c p l a).queues = s.queues ∧ (ledAdd s c p l a).dram = s.dram ∧ (ledAdd s c p l a).chk = s.chk ∧
    (ledAdd s c p l a).remap = s.remap ∧ (ledAdd s c p l a).cache = s.cache ∧ (ledAdd s c p l a).units = s.units ∧
    (ledAdd s c p l a).fencedStalls = s.fencedStalls ∧ (ledAdd s c p l a).refreshDebt = s.refreshDebt ∧
    (ledAdd s c p l a).refreshPtr = s.refreshPtr ∧ (ledAdd s c p l a).sites = s.sites ∧
    (ledAdd s c p l a).chans = s.chans ∧ (ledAdd s c p l a).spots = s.spots ∧ (ledAdd s c p l a).defer = s.defer ∧
    (ledAdd s c p l a).outst = s.outst ∧ (ledAdd s c p l a).nextReq = s.nextReq ∧
    (ledAdd s c p l a).tracker = s.tracker ∧ (ledAdd s c p l a).heldNarrow = s.heldNarrow ∧
    (ledAdd s c p l a).arb = s.arb ∧ (ledAdd s c p l a).xstreams = s.xstreams ∧ (ledAdd s c p l a).link = s.link ∧
    (ledAdd s c p l a).linkFrom = s.linkFrom ∧ (ledAdd s c p l a).linkAt = s.linkAt ∧
    (ledAdd s c p l a).xheld = s.xheld ∧ (ledAdd s c p l a).power = s.power ∧ (ledAdd s c p l a).boot = s.boot ∧
    (ledAdd s c p l a).sec = s.sec ∧ (ledAdd s c p l a).tally = s.tally ∧ (ledAdd s c p l a).tap = s.tap ∧
    (ledAdd s c p l a).bdregs = s.bdregs ∧ (ledAdd s c p l a).fatal = s.fatal ∧
    (ledAdd s c p l a).batching = s.batching ∧ (ledAdd s c p l a).out = s.out ∧ (ledAdd s c p l a).fresh = s.fresh := by
  rw [ledAdd_eq]
  refine ⟨rfl, rfl, rfl, rfl, rfl, rfl, rfl, rfl, rfl, rfl, rfl, rfl, rfl, rfl, rfl, rfl, rfl, rfl, rfl, rfl, rfl, rfl, rfl, rfl, rfl, rfl, rfl, rfl, rfl, rfl, rfl, rfl, rfl, rfl, rfl, rfl, rfl, rfl, rfl, rfl, rfl, rfl, rfl, rfl, rfl, rfl, rfl, rfl, rfl, rfl, rfl, rfl, rfl, rfl, rfl, rfl, rfl, rfl, rfl, rfl, rfl⟩

theorem send_eq (s : State) (e : Emit) :
    send s e = { s with
      out := (send s e).out } := rfl

@[simp] theorem send_fields (s : State) (e : Emit) :
    (send s e).pending = s.pending ∧ (send s e).par = s.par ∧ (send s e).ts = s.ts ∧ (send s e).beat = s.beat ∧
    (send s e).latNs = s.latNs ∧ (send s e).latS = s.latS ∧ (send s e).cfg = s.cfg ∧ (send s e).rings = s.rings ∧
    (send s e).turn = s.turn ∧ (send s e).awn = s.awn ∧ (send s e).stage = s.stage ∧
    (send s e).inflight = s.inflight ∧ (send s e).waiting = s.waiting ∧ (send s e).seq = s.seq ∧
    (send s e).charges = s.charges ∧ (send s e).squallDebt = s.squallDebt ∧ (send s e).pairSpent = s.pairSpent ∧
    (send s e).regs = s.regs ∧ (send s e).mbxNsIn = s.mbxNsIn ∧ (send s e).mbxNsOut = s.mbxNsOut ∧
    (send s e).mbxSIn = s.mbxSIn ∧ (send s e).mbxSOut = s.mbxSOut ∧ (send s e).ansNs = s.ansNs ∧
    (send s e).ansS = s.ansS ∧ (send s e).layouts = s.layouts ∧ (send s e).rules = s.rules ∧
    (send s e).streams = s.streams ∧ (send s e).stash = s.stash ∧ (send s e).queues = s.queues ∧
    (send s e).dram = s.dram ∧ (send s e).chk = s.chk ∧ (send s e).remap = s.remap ∧ (send s e).cache = s.cache ∧
    (send s e).units = s.units ∧ (send s e).fencedStalls = s.fencedStalls ∧ (send s e).refreshDebt = s.refreshDebt ∧
    (send s e).refreshPtr = s.refreshPtr ∧ (send s e).sites = s.sites ∧ (send s e).chans = s.chans ∧
    (send s e).spots = s.spots ∧ (send s e).defer = s.defer ∧ (send s e).outst = s.outst ∧
    (send s e).nextReq = s.nextReq ∧ (send s e).tracker = s.tracker ∧ (send s e).heldNarrow = s.heldNarrow ∧
    (send s e).arb = s.arb ∧ (send s e).xstreams = s.xstreams ∧ (send s e).link = s.link ∧
    (send s e).linkFrom = s.linkFrom ∧ (send s e).linkAt = s.linkAt ∧ (send s e).xheld = s.xheld ∧
    (send s e).power = s.power ∧ (send s e).boot = s.boot ∧ (send s e).sec = s.sec ∧ (send s e).tally = s.tally ∧
    (send s e).led = s.led ∧ (send s e).tap = s.tap ∧ (send s e).bdregs = s.bdregs ∧ (send s e).fatal = s.fatal ∧
    (send s e).batching = s.batching ∧ (send s e).fresh = s.fresh := by
  rw [send_eq]
  refine ⟨rfl, rfl, rfl, rfl, rfl, rfl, rfl, rfl, rfl, rfl, rfl, rfl, rfl, rfl, rfl, rfl, rfl, rfl, rfl, rfl, rfl, rfl, rfl, rfl, rfl, rfl, rfl, rfl, rfl, rfl, rfl, rfl, rfl, rfl, rfl, rfl, rfl, rfl, rfl, rfl, rfl, rfl, rfl, rfl, rfl, rfl, rfl, rfl, rfl, rfl, rfl, rfl, rfl, rfl, rfl, rfl, rfl, rfl, rfl, rfl, rfl⟩

theorem bump_eq (s : State) :
    bump s = { s with
      fresh := (bump s).fresh } := rfl

@[simp] theorem bump_fields (s : State) :
    (bump s).pending = s.pending ∧ (bump s).par = s.par ∧ (bump s).ts = s.ts ∧ (bump s).beat = s.beat ∧
    (bump s).latNs = s.latNs ∧ (bump s).latS = s.latS ∧ (bump s).cfg = s.cfg ∧ (bump s).rings = s.rings ∧
    (bump s).turn = s.turn ∧ (bump s).awn = s.awn ∧ (bump s).stage = s.stage ∧ (bump s).inflight = s.inflight ∧
    (bump s).waiting = s.waiting ∧ (bump s).seq = s.seq ∧ (bump s).charges = s.charges ∧
    (bump s).squallDebt = s.squallDebt ∧ (bump s).pairSpent = s.pairSpent ∧ (bump s).regs = s.regs ∧
    (bump s).mbxNsIn = s.mbxNsIn ∧ (bump s).mbxNsOut = s.mbxNsOut ∧ (bump s).mbxSIn = s.mbxSIn ∧
    (bump s).mbxSOut = s.mbxSOut ∧ (bump s).ansNs = s.ansNs ∧ (bump s).ansS = s.ansS ∧ (bump s).layouts = s.layouts ∧
    (bump s).rules = s.rules ∧ (bump s).streams = s.streams ∧ (bump s).stash = s.stash ∧ (bump s).queues = s.queues ∧
    (bump s).dram = s.dram ∧ (bump s).chk = s.chk ∧ (bump s).remap = s.remap ∧ (bump s).cache = s.cache ∧
    (bump s).units = s.units ∧ (bump s).fencedStalls = s.fencedStalls ∧ (bump s).refreshDebt = s.refreshDebt ∧
    (bump s).refreshPtr = s.refreshPtr ∧ (bump s).sites = s.sites ∧ (bump s).chans = s.chans ∧
    (bump s).spots = s.spots ∧ (bump s).defer = s.defer ∧ (bump s).outst = s.outst ∧ (bump s).nextReq = s.nextReq ∧
    (bump s).tracker = s.tracker ∧ (bump s).heldNarrow = s.heldNarrow ∧ (bump s).arb = s.arb ∧
    (bump s).xstreams = s.xstreams ∧ (bump s).link = s.link ∧ (bump s).linkFrom = s.linkFrom ∧
    (bump s).linkAt = s.linkAt ∧ (bump s).xheld = s.xheld ∧ (bump s).power = s.power ∧ (bump s).boot = s.boot ∧
    (bump s).sec = s.sec ∧ (bump s).tally = s.tally ∧ (bump s).led = s.led ∧ (bump s).tap = s.tap ∧
    (bump s).bdregs = s.bdregs ∧ (bump s).fatal = s.fatal ∧ (bump s).batching = s.batching ∧ (bump s).out = s.out := by
  rw [bump_eq]
  refine ⟨rfl, rfl, rfl, rfl, rfl, rfl, rfl, rfl, rfl, rfl, rfl, rfl, rfl, rfl, rfl, rfl, rfl, rfl, rfl, rfl, rfl, rfl, rfl, rfl, rfl, rfl, rfl, rfl, rfl, rfl, rfl, rfl, rfl, rfl, rfl, rfl, rfl, rfl, rfl, rfl, rfl, rfl, rfl, rfl, rfl, rfl, rfl, rfl, rfl, rfl, rfl, rfl, rfl, rfl, rfl, rfl, rfl, rfl, rfl, rfl, rfl⟩

theorem modRing_eq (s : State) (r : RingId) (f : RingSt → RingSt) :
    modRing s r f = { s with
      rings := (modRing s r f).rings } := rfl

@[simp] theorem modRing_fields (s : State) (r : RingId) (f : RingSt → RingSt) :
    (modRing s r f).pending = s.pending ∧ (modRing s r f).par = s.par ∧ (modRing s r f).ts = s.ts ∧
    (modRing s r f).beat = s.beat ∧ (modRing s r f).latNs = s.latNs ∧ (modRing s r f).latS = s.latS ∧
    (modRing s r f).cfg = s.cfg ∧ (modRing s r f).turn = s.turn ∧ (modRing s r f).awn = s.awn ∧
    (modRing s r f).stage = s.stage ∧ (modRing s r f).inflight = s.inflight ∧ (modRing s r f).waiting = s.waiting ∧
    (modRing s r f).seq = s.seq ∧ (modRing s r f).charges = s.charges ∧ (modRing s r f).squallDebt = s.squallDebt ∧
    (modRing s r f).pairSpent = s.pairSpent ∧ (modRing s r f).regs = s.regs ∧ (modRing s r f).mbxNsIn = s.mbxNsIn ∧
    (modRing s r f).mbxNsOut = s.mbxNsOut ∧ (modRing s r f).mbxSIn = s.mbxSIn ∧ (modRing s r f).mbxSOut = s.mbxSOut ∧
    (modRing s r f).ansNs = s.ansNs ∧ (modRing s r f).ansS = s.ansS ∧ (modRing s r f).layouts = s.layouts ∧
    (modRing s r f).rules = s.rules ∧ (modRing s r f).streams = s.streams ∧ (modRing s r f).stash = s.stash ∧
    (modRing s r f).queues = s.queues ∧ (modRing s r f).dram = s.dram ∧ (modRing s r f).chk = s.chk ∧
    (modRing s r f).remap = s.remap ∧ (modRing s r f).cache = s.cache ∧ (modRing s r f).units = s.units ∧
    (modRing s r f).fencedStalls = s.fencedStalls ∧ (modRing s r f).refreshDebt = s.refreshDebt ∧
    (modRing s r f).refreshPtr = s.refreshPtr ∧ (modRing s r f).sites = s.sites ∧ (modRing s r f).chans = s.chans ∧
    (modRing s r f).spots = s.spots ∧ (modRing s r f).defer = s.defer ∧ (modRing s r f).outst = s.outst ∧
    (modRing s r f).nextReq = s.nextReq ∧ (modRing s r f).tracker = s.tracker ∧
    (modRing s r f).heldNarrow = s.heldNarrow ∧ (modRing s r f).arb = s.arb ∧ (modRing s r f).xstreams = s.xstreams ∧
    (modRing s r f).link = s.link ∧ (modRing s r f).linkFrom = s.linkFrom ∧ (modRing s r f).linkAt = s.linkAt ∧
    (modRing s r f).xheld = s.xheld ∧ (modRing s r f).power = s.power ∧ (modRing s r f).boot = s.boot ∧
    (modRing s r f).sec = s.sec ∧ (modRing s r f).tally = s.tally ∧ (modRing s r f).led = s.led ∧
    (modRing s r f).tap = s.tap ∧ (modRing s r f).bdregs = s.bdregs ∧ (modRing s r f).fatal = s.fatal ∧
    (modRing s r f).batching = s.batching ∧ (modRing s r f).out = s.out ∧ (modRing s r f).fresh = s.fresh := by
  rw [modRing_eq]
  refine ⟨rfl, rfl, rfl, rfl, rfl, rfl, rfl, rfl, rfl, rfl, rfl, rfl, rfl, rfl, rfl, rfl, rfl, rfl, rfl, rfl, rfl, rfl, rfl, rfl, rfl, rfl, rfl, rfl, rfl, rfl, rfl, rfl, rfl, rfl, rfl, rfl, rfl, rfl, rfl, rfl, rfl, rfl, rfl, rfl, rfl, rfl, rfl, rfl, rfl, rfl, rfl, rfl, rfl, rfl, rfl, rfl, rfl, rfl, rfl, rfl, rfl⟩

theorem ringIrq_eq (s : State) (r : RingId) :
    ringIrq s r = { s with
      regs := (ringIrq s r).regs } := by
  unfold ringIrq
  split <;> rfl

@[simp] theorem ringIrq_fields (s : State) (r : RingId) :
    (ringIrq s r).pending = s.pending ∧ (ringIrq s r).par = s.par ∧ (ringIrq s r).ts = s.ts ∧
    (ringIrq s r).beat = s.beat ∧ (ringIrq s r).latNs = s.latNs ∧ (ringIrq s r).latS = s.latS ∧
    (ringIrq s r).cfg = s.cfg ∧ (ringIrq s r).rings = s.rings ∧ (ringIrq s r).turn = s.turn ∧
    (ringIrq s r).awn = s.awn ∧ (ringIrq s r).stage = s.stage ∧ (ringIrq s r).inflight = s.inflight ∧
    (ringIrq s r).waiting = s.waiting ∧ (ringIrq s r).seq = s.seq ∧ (ringIrq s r).charges = s.charges ∧
    (ringIrq s r).squallDebt = s.squallDebt ∧ (ringIrq s r).pairSpent = s.pairSpent ∧
    (ringIrq s r).mbxNsIn = s.mbxNsIn ∧ (ringIrq s r).mbxNsOut = s.mbxNsOut ∧ (ringIrq s r).mbxSIn = s.mbxSIn ∧
    (ringIrq s r).mbxSOut = s.mbxSOut ∧ (ringIrq s r).ansNs = s.ansNs ∧ (ringIrq s r).ansS = s.ansS ∧
    (ringIrq s r).layouts = s.layouts ∧ (ringIrq s r).rules = s.rules ∧ (ringIrq s r).streams = s.streams ∧
    (ringIrq s r).stash = s.stash ∧ (ringIrq s r).queues = s.queues ∧ (ringIrq s r).dram = s.dram ∧
    (ringIrq s r).chk = s.chk ∧ (ringIrq s r).remap = s.remap ∧ (ringIrq s r).cache = s.cache ∧
    (ringIrq s r).units = s.units ∧ (ringIrq s r).fencedStalls = s.fencedStalls ∧
    (ringIrq s r).refreshDebt = s.refreshDebt ∧ (ringIrq s r).refreshPtr = s.refreshPtr ∧
    (ringIrq s r).sites = s.sites ∧ (ringIrq s r).chans = s.chans ∧ (ringIrq s r).spots = s.spots ∧
    (ringIrq s r).defer = s.defer ∧ (ringIrq s r).outst = s.outst ∧ (ringIrq s r).nextReq = s.nextReq ∧
    (ringIrq s r).tracker = s.tracker ∧ (ringIrq s r).heldNarrow = s.heldNarrow ∧ (ringIrq s r).arb = s.arb ∧
    (ringIrq s r).xstreams = s.xstreams ∧ (ringIrq s r).link = s.link ∧ (ringIrq s r).linkFrom = s.linkFrom ∧
    (ringIrq s r).linkAt = s.linkAt ∧ (ringIrq s r).xheld = s.xheld ∧ (ringIrq s r).power = s.power ∧
    (ringIrq s r).boot = s.boot ∧ (ringIrq s r).sec = s.sec ∧ (ringIrq s r).tally = s.tally ∧
    (ringIrq s r).led = s.led ∧ (ringIrq s r).tap = s.tap ∧ (ringIrq s r).bdregs = s.bdregs ∧
    (ringIrq s r).fatal = s.fatal ∧ (ringIrq s r).batching = s.batching ∧ (ringIrq s r).out = s.out ∧
    (ringIrq s r).fresh = s.fresh := by
  rw [ringIrq_eq]
  refine ⟨rfl, rfl, rfl, rfl, rfl, rfl, rfl, rfl, rfl, rfl, rfl, rfl, rfl, rfl, rfl, rfl, rfl, rfl, rfl, rfl, rfl, rfl, rfl, rfl, rfl, rfl, rfl, rfl, rfl, rfl, rfl, rfl, rfl, rfl, rfl, rfl, rfl, rfl, rfl, rfl, rfl, rfl, rfl, rfl, rfl, rfl, rfl, rfl, rfl, rfl, rfl, rfl, rfl, rfl, rfl, rfl, rfl, rfl, rfl, rfl, rfl⟩

theorem putReceipt_eq (s : State) (r : RingId) (w : BitVec 64) (b : BitVec 192) (q : Bool) :
    putReceipt s r w b q = { s with
      rings := (putReceipt s r w b q).rings,
      awn := (putReceipt s r w b q).awn,
      regs := (putReceipt s r w b q).regs,
      tally := (putReceipt s r w b q).tally,
      led := (putReceipt s r w b q).led } := by
  unfold putReceipt
  dsimp only
  rw [ringIrq_eq, ledAdd_eq]
  repeat' split
  all_goals rfl

@[simp] theorem putReceipt_fields (s : State) (r : RingId) (w : BitVec 64) (b : BitVec 192) (q : Bool) :
    (putReceipt s r w b q).pending = s.pending ∧ (putReceipt s r w b q).par = s.par ∧
    (putReceipt s r w b q).ts = s.ts ∧ (putReceipt s r w b q).beat = s.beat ∧ (putReceipt s r w b q).latNs = s.latNs ∧
    (putReceipt s r w b q).latS = s.latS ∧ (putReceipt s r w b q).cfg = s.cfg ∧ (putReceipt s r w b q).turn = s.turn ∧
    (putReceipt s r w b q).stage = s.stage ∧ (putReceipt s r w b q).inflight = s.inflight ∧
    (putReceipt s r w b q).waiting = s.waiting ∧ (putReceipt s r w b q).seq = s.seq ∧
    (putReceipt s r w b q).charges = s.charges ∧ (putReceipt s r w b q).squallDebt = s.squallDebt ∧
    (putReceipt s r w b q).pairSpent = s.pairSpent ∧ (putReceipt s r w b q).mbxNsIn = s.mbxNsIn ∧
    (putReceipt s r w b q).mbxNsOut = s.mbxNsOut ∧ (putReceipt s r w b q).mbxSIn = s.mbxSIn ∧
    (putReceipt s r w b q).mbxSOut = s.mbxSOut ∧ (putReceipt s r w b q).ansNs = s.ansNs ∧
    (putReceipt s r w b q).ansS = s.ansS ∧ (putReceipt s r w b q).layouts = s.layouts ∧
    (putReceipt s r w b q).rules = s.rules ∧ (putReceipt s r w b q).streams = s.streams ∧
    (putReceipt s r w b q).stash = s.stash ∧ (putReceipt s r w b q).queues = s.queues ∧
    (putReceipt s r w b q).dram = s.dram ∧ (putReceipt s r w b q).chk = s.chk ∧
    (putReceipt s r w b q).remap = s.remap ∧ (putReceipt s r w b q).cache = s.cache ∧
    (putReceipt s r w b q).units = s.units ∧ (putReceipt s r w b q).fencedStalls = s.fencedStalls ∧
    (putReceipt s r w b q).refreshDebt = s.refreshDebt ∧ (putReceipt s r w b q).refreshPtr = s.refreshPtr ∧
    (putReceipt s r w b q).sites = s.sites ∧ (putReceipt s r w b q).chans = s.chans ∧
    (putReceipt s r w b q).spots = s.spots ∧ (putReceipt s r w b q).defer = s.defer ∧
    (putReceipt s r w b q).outst = s.outst ∧ (putReceipt s r w b q).nextReq = s.nextReq ∧
    (putReceipt s r w b q).tracker = s.tracker ∧ (putReceipt s r w b q).heldNarrow = s.heldNarrow ∧
    (putReceipt s r w b q).arb = s.arb ∧ (putReceipt s r w b q).xstreams = s.xstreams ∧
    (putReceipt s r w b q).link = s.link ∧ (putReceipt s r w b q).linkFrom = s.linkFrom ∧
    (putReceipt s r w b q).linkAt = s.linkAt ∧ (putReceipt s r w b q).xheld = s.xheld ∧
    (putReceipt s r w b q).power = s.power ∧ (putReceipt s r w b q).boot = s.boot ∧
    (putReceipt s r w b q).sec = s.sec ∧ (putReceipt s r w b q).tap = s.tap ∧
    (putReceipt s r w b q).bdregs = s.bdregs ∧ (putReceipt s r w b q).fatal = s.fatal ∧
    (putReceipt s r w b q).batching = s.batching ∧ (putReceipt s r w b q).out = s.out ∧
    (putReceipt s r w b q).fresh = s.fresh := by
  rw [putReceipt_eq]
  refine ⟨rfl, rfl, rfl, rfl, rfl, rfl, rfl, rfl, rfl, rfl, rfl, rfl, rfl, rfl, rfl, rfl, rfl, rfl, rfl, rfl, rfl, rfl, rfl, rfl, rfl, rfl, rfl, rfl, rfl, rfl, rfl, rfl, rfl, rfl, rfl, rfl, rfl, rfl, rfl, rfl, rfl, rfl, rfl, rfl, rfl, rfl, rfl, rfl, rfl, rfl, rfl, rfl, rfl, rfl, rfl, rfl, rfl⟩

theorem writeFirst_eq (s : State) (r : RingId) (h : Held) (l : List Held) :
    writeFirst s r h l = { s with
      rings := (writeFirst s r h l).rings,
      awn := (writeFirst s r h l).awn,
      regs := (writeFirst s r h l).regs,
      tally := (writeFirst s r h l).tally,
      led := (writeFirst s r h l).led } := (putReceipt_eq ..).trans (by simp only [modRing_fields]; rfl)

@[simp] theorem writeFirst_fields (s : State) (r : RingId) (h : Held) (l : List Held) :
    (writeFirst s r h l).pending = s.pending ∧ (writeFirst s r h l).par = s.par ∧ (writeFirst s r h l).ts = s.ts ∧
    (writeFirst s r h l).beat = s.beat ∧ (writeFirst s r h l).latNs = s.latNs ∧ (writeFirst s r h l).latS = s.latS ∧
    (writeFirst s r h l).cfg = s.cfg ∧ (writeFirst s r h l).turn = s.turn ∧ (writeFirst s r h l).stage = s.stage ∧
    (writeFirst s r h l).inflight = s.inflight ∧ (writeFirst s r h l).waiting = s.waiting ∧
    (writeFirst s r h l).seq = s.seq ∧ (writeFirst s r h l).charges = s.charges ∧
    (writeFirst s r h l).squallDebt = s.squallDebt ∧ (writeFirst s r h l).pairSpent = s.pairSpent ∧
    (writeFirst s r h l).mbxNsIn = s.mbxNsIn ∧ (writeFirst s r h l).mbxNsOut = s.mbxNsOut ∧
    (writeFirst s r h l).mbxSIn = s.mbxSIn ∧ (writeFirst s r h l).mbxSOut = s.mbxSOut ∧
    (writeFirst s r h l).ansNs = s.ansNs ∧ (writeFirst s r h l).ansS = s.ansS ∧
    (writeFirst s r h l).layouts = s.layouts ∧ (writeFirst s r h l).rules = s.rules ∧
    (writeFirst s r h l).streams = s.streams ∧ (writeFirst s r h l).stash = s.stash ∧
    (writeFirst s r h l).queues = s.queues ∧ (writeFirst s r h l).dram = s.dram ∧ (writeFirst s r h l).chk = s.chk ∧
    (writeFirst s r h l).remap = s.remap ∧ (writeFirst s r h l).cache = s.cache ∧
    (writeFirst s r h l).units = s.units ∧ (writeFirst s r h l).fencedStalls = s.fencedStalls ∧
    (writeFirst s r h l).refreshDebt = s.refreshDebt ∧ (writeFirst s r h l).refreshPtr = s.refreshPtr ∧
    (writeFirst s r h l).sites = s.sites ∧ (writeFirst s r h l).chans = s.chans ∧
    (writeFirst s r h l).spots = s.spots ∧ (writeFirst s r h l).defer = s.defer ∧
    (writeFirst s r h l).outst = s.outst ∧ (writeFirst s r h l).nextReq = s.nextReq ∧
    (writeFirst s r h l).tracker = s.tracker ∧ (writeFirst s r h l).heldNarrow = s.heldNarrow ∧
    (writeFirst s r h l).arb = s.arb ∧ (writeFirst s r h l).xstreams = s.xstreams ∧
    (writeFirst s r h l).link = s.link ∧ (writeFirst s r h l).linkFrom = s.linkFrom ∧
    (writeFirst s r h l).linkAt = s.linkAt ∧ (writeFirst s r h l).xheld = s.xheld ∧
    (writeFirst s r h l).power = s.power ∧ (writeFirst s r h l).boot = s.boot ∧ (writeFirst s r h l).sec = s.sec ∧
    (writeFirst s r h l).tap = s.tap ∧ (writeFirst s r h l).bdregs = s.bdregs ∧ (writeFirst s r h l).fatal = s.fatal ∧
    (writeFirst s r h l).batching = s.batching ∧ (writeFirst s r h l).out = s.out ∧
    (writeFirst s r h l).fresh = s.fresh := by
  rw [writeFirst_eq]
  refine ⟨rfl, rfl, rfl, rfl, rfl, rfl, rfl, rfl, rfl, rfl, rfl, rfl, rfl, rfl, rfl, rfl, rfl, rfl, rfl, rfl, rfl, rfl, rfl, rfl, rfl, rfl, rfl, rfl, rfl, rfl, rfl, rfl, rfl, rfl, rfl, rfl, rfl, rfl, rfl, rfl, rfl, rfl, rfl, rfl, rfl, rfl, rfl, rfl, rfl, rfl, rfl, rfl, rfl, rfl, rfl, rfl, rfl⟩

theorem drainRing_eq (n : Nat) (s : State) (r : RingId) :
    drainRing n s r = { s with
      rings := (drainRing n s r).rings,
      awn := (drainRing n s r).awn,
      regs := (drainRing n s r).regs,
      tally := (drainRing n s r).tally,
      led := (drainRing n s r).led } := by
  induction n generalizing s with
  | zero => rfl
  | succ n ih =>
    unfold drainRing
    split
    · rfl
    · split
      · exact (ih _).trans (by simp only [writeFirst_fields])
      · rfl

@[simp] theorem drainRing_fields (n : Nat) (s : State) (r : RingId) :
    (drainRing n s r).pending = s.pending ∧ (drainRing n s r).par = s.par ∧ (drainRing n s r).ts = s.ts ∧
    (drainRing n s r).beat = s.beat ∧ (drainRing n s r).latNs = s.latNs ∧ (drainRing n s r).latS = s.latS ∧
    (drainRing n s r).cfg = s.cfg ∧ (drainRing n s r).turn = s.turn ∧ (drainRing n s r).stage = s.stage ∧
    (drainRing n s r).inflight = s.inflight ∧ (drainRing n s r).waiting = s.waiting ∧ (drainRing n s r).seq = s.seq ∧
    (drainRing n s r).charges = s.charges ∧ (drainRing n s r).squallDebt = s.squallDebt ∧
    (drainRing n s r).pairSpent = s.pairSpent ∧ (drainRing n s r).mbxNsIn = s.mbxNsIn ∧
    (drainRing n s r).mbxNsOut = s.mbxNsOut ∧ (drainRing n s r).mbxSIn = s.mbxSIn ∧
    (drainRing n s r).mbxSOut = s.mbxSOut ∧ (drainRing n s r).ansNs = s.ansNs ∧ (drainRing n s r).ansS = s.ansS ∧
    (drainRing n s r).layouts = s.layouts ∧ (drainRing n s r).rules = s.rules ∧
    (drainRing n s r).streams = s.streams ∧ (drainRing n s r).stash = s.stash ∧ (drainRing n s r).queues = s.queues ∧
    (drainRing n s r).dram = s.dram ∧ (drainRing n s r).chk = s.chk ∧ (drainRing n s r).remap = s.remap ∧
    (drainRing n s r).cache = s.cache ∧ (drainRing n s r).units = s.units ∧
    (drainRing n s r).fencedStalls = s.fencedStalls ∧ (drainRing n s r).refreshDebt = s.refreshDebt ∧
    (drainRing n s r).refreshPtr = s.refreshPtr ∧ (drainRing n s r).sites = s.sites ∧
    (drainRing n s r).chans = s.chans ∧ (drainRing n s r).spots = s.spots ∧ (drainRing n s r).defer = s.defer ∧
    (drainRing n s r).outst = s.outst ∧ (drainRing n s r).nextReq = s.nextReq ∧
    (drainRing n s r).tracker = s.tracker ∧ (drainRing n s r).heldNarrow = s.heldNarrow ∧
    (drainRing n s r).arb = s.arb ∧ (drainRing n s r).xstreams = s.xstreams ∧ (drainRing n s r).link = s.link ∧
    (drainRing n s r).linkFrom = s.linkFrom ∧ (drainRing n s r).linkAt = s.linkAt ∧
    (drainRing n s r).xheld = s.xheld ∧ (drainRing n s r).power = s.power ∧ (drainRing n s r).boot = s.boot ∧
    (drainRing n s r).sec = s.sec ∧ (drainRing n s r).tap = s.tap ∧ (drainRing n s r).bdregs = s.bdregs ∧
    (drainRing n s r).fatal = s.fatal ∧ (drainRing n s r).batching = s.batching ∧ (drainRing n s r).out = s.out ∧
    (drainRing n s r).fresh = s.fresh := by
  rw [drainRing_eq]
  refine ⟨rfl, rfl, rfl, rfl, rfl, rfl, rfl, rfl, rfl, rfl, rfl, rfl, rfl, rfl, rfl, rfl, rfl, rfl, rfl, rfl, rfl, rfl, rfl, rfl, rfl, rfl, rfl, rfl, rfl, rfl, rfl, rfl, rfl, rfl, rfl, rfl, rfl, rfl, rfl, rfl, rfl, rfl, rfl, rfl, rfl, rfl, rfl, rfl, rfl, rfl, rfl, rfl, rfl, rfl, rfl, rfl, rfl⟩

theorem dueReceipt_eq (s : State) (r : RingId) (h : Held) :
    dueReceipt s r h = { s with
      rings := (dueReceipt s r h).rings,
      awn := (dueReceipt s r h).awn,
      regs := (dueReceipt s r h).regs,
      tally := (dueReceipt s r h).tally,
      led := (dueReceipt s r h).led } := by
  unfold dueReceipt
  split
  · rfl
  · dsimp only
    split
    · rfl
    · exact (drainRing_eq ..).trans (by simp only [modRing_fields])

@[simp] theorem dueReceipt_fields (s : State) (r : RingId) (h : Held) :
    (dueReceipt s r h).pending = s.pending ∧ (dueReceipt s r h).par = s.par ∧ (dueReceipt s r h).ts = s.ts ∧
    (dueReceipt s r h).beat = s.beat ∧ (dueReceipt s r h).latNs = s.latNs ∧ (dueReceipt s r h).latS = s.latS ∧
    (dueReceipt s r h).cfg = s.cfg ∧ (dueReceipt s r h).turn = s.turn ∧ (dueReceipt s r h).stage = s.stage ∧
    (dueReceipt s r h).inflight = s.inflight ∧ (dueReceipt s r h).waiting = s.waiting ∧
    (dueReceipt s r h).seq = s.seq ∧ (dueReceipt s r h).charges = s.charges ∧
    (dueReceipt s r h).squallDebt = s.squallDebt ∧ (dueReceipt s r h).pairSpent = s.pairSpent ∧
    (dueReceipt s r h).mbxNsIn = s.mbxNsIn ∧ (dueReceipt s r h).mbxNsOut = s.mbxNsOut ∧
    (dueReceipt s r h).mbxSIn = s.mbxSIn ∧ (dueReceipt s r h).mbxSOut = s.mbxSOut ∧
    (dueReceipt s r h).ansNs = s.ansNs ∧ (dueReceipt s r h).ansS = s.ansS ∧ (dueReceipt s r h).layouts = s.layouts ∧
    (dueReceipt s r h).rules = s.rules ∧ (dueReceipt s r h).streams = s.streams ∧ (dueReceipt s r h).stash = s.stash ∧
    (dueReceipt s r h).queues = s.queues ∧ (dueReceipt s r h).dram = s.dram ∧ (dueReceipt s r h).chk = s.chk ∧
    (dueReceipt s r h).remap = s.remap ∧ (dueReceipt s r h).cache = s.cache ∧ (dueReceipt s r h).units = s.units ∧
    (dueReceipt s r h).fencedStalls = s.fencedStalls ∧ (dueReceipt s r h).refreshDebt = s.refreshDebt ∧
    (dueReceipt s r h).refreshPtr = s.refreshPtr ∧ (dueReceipt s r h).sites = s.sites ∧
    (dueReceipt s r h).chans = s.chans ∧ (dueReceipt s r h).spots = s.spots ∧ (dueReceipt s r h).defer = s.defer ∧
    (dueReceipt s r h).outst = s.outst ∧ (dueReceipt s r h).nextReq = s.nextReq ∧
    (dueReceipt s r h).tracker = s.tracker ∧ (dueReceipt s r h).heldNarrow = s.heldNarrow ∧
    (dueReceipt s r h).arb = s.arb ∧ (dueReceipt s r h).xstreams = s.xstreams ∧ (dueReceipt s r h).link = s.link ∧
    (dueReceipt s r h).linkFrom = s.linkFrom ∧ (dueReceipt s r h).linkAt = s.linkAt ∧
    (dueReceipt s r h).xheld = s.xheld ∧ (dueReceipt s r h).power = s.power ∧ (dueReceipt s r h).boot = s.boot ∧
    (dueReceipt s r h).sec = s.sec ∧ (dueReceipt s r h).tap = s.tap ∧ (dueReceipt s r h).bdregs = s.bdregs ∧
    (dueReceipt s r h).fatal = s.fatal ∧ (dueReceipt s r h).batching = s.batching ∧ (dueReceipt s r h).out = s.out ∧
    (dueReceipt s r h).fresh = s.fresh := by
  rw [dueReceipt_eq]
  refine ⟨rfl, rfl, rfl, rfl, rfl, rfl, rfl, rfl, rfl, rfl, rfl, rfl, rfl, rfl, rfl, rfl, rfl, rfl, rfl, rfl, rfl, rfl, rfl, rfl, rfl, rfl, rfl, rfl, rfl, rfl, rfl, rfl, rfl, rfl, rfl, rfl, rfl, rfl, rfl, rfl, rfl, rfl, rfl, rfl, rfl, rfl, rfl, rfl, rfl, rfl, rfl, rfl, rfl, rfl, rfl, rfl, rfl⟩

theorem emitReceipt_eq (s : State) (r : RingId) (a b c d : Nat) (w : BitVec 192) (q : Bool) :
    emitReceipt s r a b c d w q = { s with
      rings := (emitReceipt s r a b c d w q).rings,
      awn := (emitReceipt s r a b c d w q).awn,
      regs := (emitReceipt s r a b c d w q).regs,
      tally := (emitReceipt s r a b c d w q).tally,
      led := (emitReceipt s r a b c d w q).led } := dueReceipt_eq ..

@[simp] theorem emitReceipt_fields (s : State) (r : RingId) (a b c d : Nat) (w : BitVec 192) (q : Bool) :
    (emitReceipt s r a b c d w q).pending = s.pending ∧ (emitReceipt s r a b c d w q).par = s.par ∧
    (emitReceipt s r a b c d w q).ts = s.ts ∧ (emitReceipt s r a b c d w q).beat = s.beat ∧
    (emitReceipt s r a b c d w q).latNs = s.latNs ∧ (emitReceipt s r a b c d w q).latS = s.latS ∧
    (emitReceipt s r a b c d w q).cfg = s.cfg ∧ (emitReceipt s r a b c d w q).turn = s.turn ∧
    (emitReceipt s r a b c d w q).stage = s.stage ∧ (emitReceipt s r a b c d w q).inflight = s.inflight ∧
    (emitReceipt s r a b c d w q).waiting = s.waiting ∧ (emitReceipt s r a b c d w q).seq = s.seq ∧
    (emitReceipt s r a b c d w q).charges = s.charges ∧ (emitReceipt s r a b c d w q).squallDebt = s.squallDebt ∧
    (emitReceipt s r a b c d w q).pairSpent = s.pairSpent ∧ (emitReceipt s r a b c d w q).mbxNsIn = s.mbxNsIn ∧
    (emitReceipt s r a b c d w q).mbxNsOut = s.mbxNsOut ∧ (emitReceipt s r a b c d w q).mbxSIn = s.mbxSIn ∧
    (emitReceipt s r a b c d w q).mbxSOut = s.mbxSOut ∧ (emitReceipt s r a b c d w q).ansNs = s.ansNs ∧
    (emitReceipt s r a b c d w q).ansS = s.ansS ∧ (emitReceipt s r a b c d w q).layouts = s.layouts ∧
    (emitReceipt s r a b c d w q).rules = s.rules ∧ (emitReceipt s r a b c d w q).streams = s.streams ∧
    (emitReceipt s r a b c d w q).stash = s.stash ∧ (emitReceipt s r a b c d w q).queues = s.queues ∧
    (emitReceipt s r a b c d w q).dram = s.dram ∧ (emitReceipt s r a b c d w q).chk = s.chk ∧
    (emitReceipt s r a b c d w q).remap = s.remap ∧ (emitReceipt s r a b c d w q).cache = s.cache ∧
    (emitReceipt s r a b c d w q).units = s.units ∧ (emitReceipt s r a b c d w q).fencedStalls = s.fencedStalls ∧
    (emitReceipt s r a b c d w q).refreshDebt = s.refreshDebt ∧
    (emitReceipt s r a b c d w q).refreshPtr = s.refreshPtr ∧ (emitReceipt s r a b c d w q).sites = s.sites ∧
    (emitReceipt s r a b c d w q).chans = s.chans ∧ (emitReceipt s r a b c d w q).spots = s.spots ∧
    (emitReceipt s r a b c d w q).defer = s.defer ∧ (emitReceipt s r a b c d w q).outst = s.outst ∧
    (emitReceipt s r a b c d w q).nextReq = s.nextReq ∧ (emitReceipt s r a b c d w q).tracker = s.tracker ∧
    (emitReceipt s r a b c d w q).heldNarrow = s.heldNarrow ∧ (emitReceipt s r a b c d w q).arb = s.arb ∧
    (emitReceipt s r a b c d w q).xstreams = s.xstreams ∧ (emitReceipt s r a b c d w q).link = s.link ∧
    (emitReceipt s r a b c d w q).linkFrom = s.linkFrom ∧ (emitReceipt s r a b c d w q).linkAt = s.linkAt ∧
    (emitReceipt s r a b c d w q).xheld = s.xheld ∧ (emitReceipt s r a b c d w q).power = s.power ∧
    (emitReceipt s r a b c d w q).boot = s.boot ∧ (emitReceipt s r a b c d w q).sec = s.sec ∧
    (emitReceipt s r a b c d w q).tap = s.tap ∧ (emitReceipt s r a b c d w q).bdregs = s.bdregs ∧
    (emitReceipt s r a b c d w q).fatal = s.fatal ∧ (emitReceipt s r a b c d w q).batching = s.batching ∧
    (emitReceipt s r a b c d w q).out = s.out ∧ (emitReceipt s r a b c d w q).fresh = s.fresh := by
  rw [emitReceipt_eq]
  refine ⟨rfl, rfl, rfl, rfl, rfl, rfl, rfl, rfl, rfl, rfl, rfl, rfl, rfl, rfl, rfl, rfl, rfl, rfl, rfl, rfl, rfl, rfl, rfl, rfl, rfl, rfl, rfl, rfl, rfl, rfl, rfl, rfl, rfl, rfl, rfl, rfl, rfl, rfl, rfl, rfl, rfl, rfl, rfl, rfl, rfl, rfl, rfl, rfl, rfl, rfl, rfl, rfl, rfl, rfl, rfl, rfl, rfl⟩

theorem emitNotice_eq (s : State) (r : RingId) (a b c d e f g : Nat) (w : BitVec 192) :
    emitNotice s r a b c d e f g w = { s with
      rings := (emitNotice s r a b c d e f g w).rings,
      awn := (emitNotice s r a b c d e f g w).awn,
      regs := (emitNotice s r a b c d e f g w).regs,
      tally := (emitNotice s r a b c d e f g w).tally,
      led := (emitNotice s r a b c d e f g w).led } := (dueReceipt_eq ..).trans (by simp only [dropNotice, modRing_fields]; rfl)

@[simp] theorem emitNotice_fields (s : State) (r : RingId) (a b c d e f g : Nat) (w : BitVec 192) :
    (emitNotice s r a b c d e f g w).pending = s.pending ∧ (emitNotice s r a b c d e f g w).par = s.par ∧
    (emitNotice s r a b c d e f g w).ts = s.ts ∧ (emitNotice s r a b c d e f g w).beat = s.beat ∧
    (emitNotice s r a b c d e f g w).latNs = s.latNs ∧ (emitNotice s r a b c d e f g w).latS = s.latS ∧
    (emitNotice s r a b c d e f g w).cfg = s.cfg ∧ (emitNotice s r a b c d e f g w).turn = s.turn ∧
    (emitNotice s r a b c d e f g w).stage = s.stage ∧ (emitNotice s r a b c d e f g w).inflight = s.inflight ∧
    (emitNotice s r a b c d e f g w).waiting = s.waiting ∧ (emitNotice s r a b c d e f g w).seq = s.seq ∧
    (emitNotice s r a b c d e f g w).charges = s.charges ∧
    (emitNotice s r a b c d e f g w).squallDebt = s.squallDebt ∧
    (emitNotice s r a b c d e f g w).pairSpent = s.pairSpent ∧ (emitNotice s r a b c d e f g w).mbxNsIn = s.mbxNsIn ∧
    (emitNotice s r a b c d e f g w).mbxNsOut = s.mbxNsOut ∧ (emitNotice s r a b c d e f g w).mbxSIn = s.mbxSIn ∧
    (emitNotice s r a b c d e f g w).mbxSOut = s.mbxSOut ∧ (emitNotice s r a b c d e f g w).ansNs = s.ansNs ∧
    (emitNotice s r a b c d e f g w).ansS = s.ansS ∧ (emitNotice s r a b c d e f g w).layouts = s.layouts ∧
    (emitNotice s r a b c d e f g w).rules = s.rules ∧ (emitNotice s r a b c d e f g w).streams = s.streams ∧
    (emitNotice s r a b c d e f g w).stash = s.stash ∧ (emitNotice s r a b c d e f g w).queues = s.queues ∧
    (emitNotice s r a b c d e f g w).dram = s.dram ∧ (emitNotice s r a b c d e f g w).chk = s.chk ∧
    (emitNotice s r a b c d e f g w).remap = s.remap ∧ (emitNotice s r a b c d e f g w).cache = s.cache ∧
    (emitNotice s r a b c d e f g w).units = s.units ∧
    (emitNotice s r a b c d e f g w).fencedStalls = s.fencedStalls ∧
    (emitNotice s r a b c d e f g w).refreshDebt = s.refreshDebt ∧
    (emitNotice s r a b c d e f g w).refreshPtr = s.refreshPtr ∧ (emitNotice s r a b c d e f g w).sites = s.sites ∧
    (emitNotice s r a b c d e f g w).chans = s.chans ∧ (emitNotice s r a b c d e f g w).spots = s.spots ∧
    (emitNotice s r a b c d e f g w).defer = s.defer ∧ (emitNotice s r a b c d e f g w).outst = s.outst ∧
    (emitNotice s r a b c d e f g w).nextReq = s.nextReq ∧ (emitNotice s r a b c d e f g w).tracker = s.tracker ∧
    (emitNotice s r a b c d e f g w).heldNarrow = s.heldNarrow ∧ (emitNotice s r a b c d e f g w).arb = s.arb ∧
    (emitNotice s r a b c d e f g w).xstreams = s.xstreams ∧ (emitNotice s r a b c d e f g w).link = s.link ∧
    (emitNotice s r a b c d e f g w).linkFrom = s.linkFrom ∧ (emitNotice s r a b c d e f g w).linkAt = s.linkAt ∧
    (emitNotice s r a b c d e f g w).xheld = s.xheld ∧ (emitNotice s r a b c d e f g w).power = s.power ∧
    (emitNotice s r a b c d e f g w).boot = s.boot ∧ (emitNotice s r a b c d e f g w).sec = s.sec ∧
    (emitNotice s r a b c d e f g w).tap = s.tap ∧ (emitNotice s r a b c d e f g w).bdregs = s.bdregs ∧
    (emitNotice s r a b c d e f g w).fatal = s.fatal ∧ (emitNotice s r a b c d e f g w).batching = s.batching ∧
    (emitNotice s r a b c d e f g w).out = s.out ∧ (emitNotice s r a b c d e f g w).fresh = s.fresh := by
  rw [emitNotice_eq]
  refine ⟨rfl, rfl, rfl, rfl, rfl, rfl, rfl, rfl, rfl, rfl, rfl, rfl, rfl, rfl, rfl, rfl, rfl, rfl, rfl, rfl, rfl, rfl, rfl, rfl, rfl, rfl, rfl, rfl, rfl, rfl, rfl, rfl, rfl, rfl, rfl, rfl, rfl, rfl, rfl, rfl, rfl, rfl, rfl, rfl, rfl, rfl, rfl, rfl, rfl, rfl, rfl, rfl, rfl, rfl, rfl, rfl, rfl⟩

theorem flushReceipts_eq (n : Nat) (s : State) :
    flushReceipts n s = { s with
      rings := (flushReceipts n s).rings,
      awn := (flushReceipts n s).awn,
      regs := (flushReceipts n s).regs,
      tally := (flushReceipts n s).tally,
      led := (flushReceipts n s).led } := by
  induction n generalizing s with
  | zero => rfl
  | succ n ih =>
    unfold flushReceipts
    split
    · exact (ih _).trans (by simp only [writeFirst_fields])
    · rfl

@[simp] theorem flushReceipts_fields (n : Nat) (s : State) :
    (flushReceipts n s).pending = s.pending ∧ (flushReceipts n s).par = s.par ∧ (flushReceipts n s).ts = s.ts ∧
    (flushReceipts n s).beat = s.beat ∧ (flushReceipts n s).latNs = s.latNs ∧ (flushReceipts n s).latS = s.latS ∧
    (flushReceipts n s).cfg = s.cfg ∧ (flushReceipts n s).turn = s.turn ∧ (flushReceipts n s).stage = s.stage ∧
    (flushReceipts n s).inflight = s.inflight ∧ (flushReceipts n s).waiting = s.waiting ∧
    (flushReceipts n s).seq = s.seq ∧ (flushReceipts n s).charges = s.charges ∧
    (flushReceipts n s).squallDebt = s.squallDebt ∧ (flushReceipts n s).pairSpent = s.pairSpent ∧
    (flushReceipts n s).mbxNsIn = s.mbxNsIn ∧ (flushReceipts n s).mbxNsOut = s.mbxNsOut ∧
    (flushReceipts n s).mbxSIn = s.mbxSIn ∧ (flushReceipts n s).mbxSOut = s.mbxSOut ∧
    (flushReceipts n s).ansNs = s.ansNs ∧ (flushReceipts n s).ansS = s.ansS ∧
    (flushReceipts n s).layouts = s.layouts ∧ (flushReceipts n s).rules = s.rules ∧
    (flushReceipts n s).streams = s.streams ∧ (flushReceipts n s).stash = s.stash ∧
    (flushReceipts n s).queues = s.queues ∧ (flushReceipts n s).dram = s.dram ∧ (flushReceipts n s).chk = s.chk ∧
    (flushReceipts n s).remap = s.remap ∧ (flushReceipts n s).cache = s.cache ∧ (flushReceipts n s).units = s.units ∧
    (flushReceipts n s).fencedStalls = s.fencedStalls ∧ (flushReceipts n s).refreshDebt = s.refreshDebt ∧
    (flushReceipts n s).refreshPtr = s.refreshPtr ∧ (flushReceipts n s).sites = s.sites ∧
    (flushReceipts n s).chans = s.chans ∧ (flushReceipts n s).spots = s.spots ∧ (flushReceipts n s).defer = s.defer ∧
    (flushReceipts n s).outst = s.outst ∧ (flushReceipts n s).nextReq = s.nextReq ∧
    (flushReceipts n s).tracker = s.tracker ∧ (flushReceipts n s).heldNarrow = s.heldNarrow ∧
    (flushReceipts n s).arb = s.arb ∧ (flushReceipts n s).xstreams = s.xstreams ∧ (flushReceipts n s).link = s.link ∧
    (flushReceipts n s).linkFrom = s.linkFrom ∧ (flushReceipts n s).linkAt = s.linkAt ∧
    (flushReceipts n s).xheld = s.xheld ∧ (flushReceipts n s).power = s.power ∧ (flushReceipts n s).boot = s.boot ∧
    (flushReceipts n s).sec = s.sec ∧ (flushReceipts n s).tap = s.tap ∧ (flushReceipts n s).bdregs = s.bdregs ∧
    (flushReceipts n s).fatal = s.fatal ∧ (flushReceipts n s).batching = s.batching ∧
    (flushReceipts n s).out = s.out ∧ (flushReceipts n s).fresh = s.fresh := by
  rw [flushReceipts_eq]
  refine ⟨rfl, rfl, rfl, rfl, rfl, rfl, rfl, rfl, rfl, rfl, rfl, rfl, rfl, rfl, rfl, rfl, rfl, rfl, rfl, rfl, rfl, rfl, rfl, rfl, rfl, rfl, rfl, rfl, rfl, rfl, rfl, rfl, rfl, rfl, rfl, rfl, rfl, rfl, rfl, rfl, rfl, rfl, rfl, rfl, rfl, rfl, rfl, rfl, rfl, rfl, rfl, rfl, rfl, rfl, rfl, rfl, rfl⟩

theorem endBatch_eq (s : State) :
    endBatch s = { s with
      rings := (endBatch s).rings,
      awn := (endBatch s).awn,
      regs := (endBatch s).regs,
      tally := (endBatch s).tally,
      led := (endBatch s).led,
      batching := (endBatch s).batching } := (flushReceipts_eq ..).trans (by simp only [endBatch, flushReceipts_fields])

@[simp] theorem endBatch_fields (s : State) :
    (endBatch s).pending = s.pending ∧ (endBatch s).par = s.par ∧ (endBatch s).ts = s.ts ∧
    (endBatch s).beat = s.beat ∧ (endBatch s).latNs = s.latNs ∧ (endBatch s).latS = s.latS ∧
    (endBatch s).cfg = s.cfg ∧ (endBatch s).turn = s.turn ∧ (endBatch s).stage = s.stage ∧
    (endBatch s).inflight = s.inflight ∧ (endBatch s).waiting = s.waiting ∧ (endBatch s).seq = s.seq ∧
    (endBatch s).charges = s.charges ∧ (endBatch s).squallDebt = s.squallDebt ∧ (endBatch s).pairSpent = s.pairSpent ∧
    (endBatch s).mbxNsIn = s.mbxNsIn ∧ (endBatch s).mbxNsOut = s.mbxNsOut ∧ (endBatch s).mbxSIn = s.mbxSIn ∧
    (endBatch s).mbxSOut = s.mbxSOut ∧ (endBatch s).ansNs = s.ansNs ∧ (endBatch s).ansS = s.ansS ∧
    (endBatch s).layouts = s.layouts ∧ (endBatch s).rules = s.rules ∧ (endBatch s).streams = s.streams ∧
    (endBatch s).stash = s.stash ∧ (endBatch s).queues = s.queues ∧ (endBatch s).dram = s.dram ∧
    (endBatch s).chk = s.chk ∧ (endBatch s).remap = s.remap ∧ (endBatch s).cache = s.cache ∧
    (endBatch s).units = s.units ∧ (endBatch s).fencedStalls = s.fencedStalls ∧
    (endBatch s).refreshDebt = s.refreshDebt ∧ (endBatch s).refreshPtr = s.refreshPtr ∧ (endBatch s).sites = s.sites ∧
    (endBatch s).chans = s.chans ∧ (endBatch s).spots = s.spots ∧ (endBatch s).defer = s.defer ∧
    (endBatch s).outst = s.outst ∧ (endBatch s).nextReq = s.nextReq ∧ (endBatch s).tracker = s.tracker ∧
    (endBatch s).heldNarrow = s.heldNarrow ∧ (endBatch s).arb = s.arb ∧ (endBatch s).xstreams = s.xstreams ∧
    (endBatch s).link = s.link ∧ (endBatch s).linkFrom = s.linkFrom ∧ (endBatch s).linkAt = s.linkAt ∧
    (endBatch s).xheld = s.xheld ∧ (endBatch s).power = s.power ∧ (endBatch s).boot = s.boot ∧
    (endBatch s).sec = s.sec ∧ (endBatch s).tap = s.tap ∧ (endBatch s).bdregs = s.bdregs ∧
    (endBatch s).fatal = s.fatal ∧ (endBatch s).out = s.out ∧ (endBatch s).fresh = s.fresh := by
  rw [endBatch_eq]
  refine ⟨rfl, rfl, rfl, rfl, rfl, rfl, rfl, rfl, rfl, rfl, rfl, rfl, rfl, rfl, rfl, rfl, rfl, rfl, rfl, rfl, rfl, rfl, rfl, rfl, rfl, rfl, rfl, rfl, rfl, rfl, rfl, rfl, rfl, rfl, rfl, rfl, rfl, rfl, rfl, rfl, rfl, rfl, rfl, rfl, rfl, rfl, rfl, rfl, rfl, rfl, rfl, rfl, rfl, rfl, rfl, rfl⟩

theorem putInflight_eq (s : State) (f : InFlight) :
    putInflight s f = { s with
      inflight := (putInflight s f).inflight } := rfl

@[simp] theorem putInflight_fields (s : State) (f : InFlight) :
    (putInflight s f).pending = s.pending ∧ (putInflight s f).par = s.par ∧ (putInflight s f).ts = s.ts ∧
    (putInflight s f).beat = s.beat ∧ (putInflight s f).latNs = s.latNs ∧ (putInflight s f).latS = s.latS ∧
    (putInflight s f).cfg = s.cfg ∧ (putInflight s f).rings = s.rings ∧ (putInflight s f).turn = s.turn ∧
    (putInflight s f).awn = s.awn ∧ (putInflight s f).stage = s.stage ∧ (putInflight s f).waiting = s.waiting ∧
    (putInflight s f).seq = s.seq ∧ (putInflight s f).charges = s.charges ∧
    (putInflight s f).squallDebt = s.squallDebt ∧ (putInflight s f).pairSpent = s.pairSpent ∧
    (putInflight s f).regs = s.regs ∧ (putInflight s f).mbxNsIn = s.mbxNsIn ∧
    (putInflight s f).mbxNsOut = s.mbxNsOut ∧ (putInflight s f).mbxSIn = s.mbxSIn ∧
    (putInflight s f).mbxSOut = s.mbxSOut ∧ (putInflight s f).ansNs = s.ansNs ∧ (putInflight s f).ansS = s.ansS ∧
    (putInflight s f).layouts = s.layouts ∧ (putInflight s f).rules = s.rules ∧
    (putInflight s f).streams = s.streams ∧ (putInflight s f).stash = s.stash ∧ (putInflight s f).queues = s.queues ∧
    (putInflight s f).dram = s.dram ∧ (putInflight s f).chk = s.chk ∧ (putInflight s f).remap = s.remap ∧
    (putInflight s f).cache = s.cache ∧ (putInflight s f).units = s.units ∧
    (putInflight s f).fencedStalls = s.fencedStalls ∧ (putInflight s f).refreshDebt = s.refreshDebt ∧
    (putInflight s f).refreshPtr = s.refreshPtr ∧ (putInflight s f).sites = s.sites ∧
    (putInflight s f).chans = s.chans ∧ (putInflight s f).spots = s.spots ∧ (putInflight s f).defer = s.defer ∧
    (putInflight s f).outst = s.outst ∧ (putInflight s f).nextReq = s.nextReq ∧
    (putInflight s f).tracker = s.tracker ∧ (putInflight s f).heldNarrow = s.heldNarrow ∧
    (putInflight s f).arb = s.arb ∧ (putInflight s f).xstreams = s.xstreams ∧ (putInflight s f).link = s.link ∧
    (putInflight s f).linkFrom = s.linkFrom ∧ (putInflight s f).linkAt = s.linkAt ∧
    (putInflight s f).xheld = s.xheld ∧ (putInflight s f).power = s.power ∧ (putInflight s f).boot = s.boot ∧
    (putInflight s f).sec = s.sec ∧ (putInflight s f).tally = s.tally ∧ (putInflight s f).led = s.led ∧
    (putInflight s f).tap = s.tap ∧ (putInflight s f).bdregs = s.bdregs ∧ (putInflight s f).fatal = s.fatal ∧
    (putInflight s f).batching = s.batching ∧ (putInflight s f).out = s.out ∧ (putInflight s f).fresh = s.fresh := by
  rw [putInflight_eq]
  refine ⟨rfl, rfl, rfl, rfl, rfl, rfl, rfl, rfl, rfl, rfl, rfl, rfl, rfl, rfl, rfl, rfl, rfl, rfl, rfl, rfl, rfl, rfl, rfl, rfl, rfl, rfl, rfl, rfl, rfl, rfl, rfl, rfl, rfl, rfl, rfl, rfl, rfl, rfl, rfl, rfl, rfl, rfl, rfl, rfl, rfl, rfl, rfl, rfl, rfl, rfl, rfl, rfl, rfl, rfl, rfl, rfl, rfl, rfl, rfl, rfl, rfl⟩

theorem dropInflight_eq (s : State) (r i : Nat) :
    dropInflight s r i = { s with
      inflight := (dropInflight s r i).inflight } := rfl

@[simp] theorem dropInflight_fields (s : State) (r i : Nat) :
    (dropInflight s r i).pending = s.pending ∧ (dropInflight s r i).par = s.par ∧ (dropInflight s r i).ts = s.ts ∧
    (dropInflight s r i).beat = s.beat ∧ (dropInflight s r i).latNs = s.latNs ∧ (dropInflight s r i).latS = s.latS ∧
    (dropInflight s r i).cfg = s.cfg ∧ (dropInflight s r i).rings = s.rings ∧ (dropInflight s r i).turn = s.turn ∧
    (dropInflight s r i).awn = s.awn ∧ (dropInflight s r i).stage = s.stage ∧
    (dropInflight s r i).waiting = s.waiting ∧ (dropInflight s r i).seq = s.seq ∧
    (dropInflight s r i).charges = s.charges ∧ (dropInflight s r i).squallDebt = s.squallDebt ∧
    (dropInflight s r i).pairSpent = s.pairSpent ∧ (dropInflight s r i).regs = s.regs ∧
    (dropInflight s r i).mbxNsIn = s.mbxNsIn ∧ (dropInflight s r i).mbxNsOut = s.mbxNsOut ∧
    (dropInflight s r i).mbxSIn = s.mbxSIn ∧ (dropInflight s r i).mbxSOut = s.mbxSOut ∧
    (dropInflight s r i).ansNs = s.ansNs ∧ (dropInflight s r i).ansS = s.ansS ∧
    (dropInflight s r i).layouts = s.layouts ∧ (dropInflight s r i).rules = s.rules ∧
    (dropInflight s r i).streams = s.streams ∧ (dropInflight s r i).stash = s.stash ∧
    (dropInflight s r i).queues = s.queues ∧ (dropInflight s r i).dram = s.dram ∧ (dropInflight s r i).chk = s.chk ∧
    (dropInflight s r i).remap = s.remap ∧ (dropInflight s r i).cache = s.cache ∧
    (dropInflight s r i).units = s.units ∧ (dropInflight s r i).fencedStalls = s.fencedStalls ∧
    (dropInflight s r i).refreshDebt = s.refreshDebt ∧ (dropInflight s r i).refreshPtr = s.refreshPtr ∧
    (dropInflight s r i).sites = s.sites ∧ (dropInflight s r i).chans = s.chans ∧
    (dropInflight s r i).spots = s.spots ∧ (dropInflight s r i).defer = s.defer ∧
    (dropInflight s r i).outst = s.outst ∧ (dropInflight s r i).nextReq = s.nextReq ∧
    (dropInflight s r i).tracker = s.tracker ∧ (dropInflight s r i).heldNarrow = s.heldNarrow ∧
    (dropInflight s r i).arb = s.arb ∧ (dropInflight s r i).xstreams = s.xstreams ∧
    (dropInflight s r i).link = s.link ∧ (dropInflight s r i).linkFrom = s.linkFrom ∧
    (dropInflight s r i).linkAt = s.linkAt ∧ (dropInflight s r i).xheld = s.xheld ∧
    (dropInflight s r i).power = s.power ∧ (dropInflight s r i).boot = s.boot ∧ (dropInflight s r i).sec = s.sec ∧
    (dropInflight s r i).tally = s.tally ∧ (dropInflight s r i).led = s.led ∧ (dropInflight s r i).tap = s.tap ∧
    (dropInflight s r i).bdregs = s.bdregs ∧ (dropInflight s r i).fatal = s.fatal ∧
    (dropInflight s r i).batching = s.batching ∧ (dropInflight s r i).out = s.out ∧
    (dropInflight s r i).fresh = s.fresh := by
  rw [dropInflight_eq]
  refine ⟨rfl, rfl, rfl, rfl, rfl, rfl, rfl, rfl, rfl, rfl, rfl, rfl, rfl, rfl, rfl, rfl, rfl, rfl, rfl, rfl, rfl, rfl, rfl, rfl, rfl, rfl, rfl, rfl, rfl, rfl, rfl, rfl, rfl, rfl, rfl, rfl, rfl, rfl, rfl, rfl, rfl, rfl, rfl, rfl, rfl, rfl, rfl, rfl, rfl, rfl, rfl, rfl, rfl, rfl, rfl, rfl, rfl, rfl, rfl, rfl, rfl⟩

theorem putLayout_eq (s : State) (id : Nat) (l : Layout) :
    putLayout s id l = { s with
      layouts := (putLayout s id l).layouts } := rfl

@[simp] theorem putLayout_fields (s : State) (id : Nat) (l : Layout) :
    (putLayout s id l).pending = s.pending ∧ (putLayout s id l).par = s.par ∧ (putLayout s id l).ts = s.ts ∧
    (putLayout s id l).beat = s.beat ∧ (putLayout s id l).latNs = s.latNs ∧ (putLayout s id l).latS = s.latS ∧
    (putLayout s id l).cfg = s.cfg ∧ (putLayout s id l).rings = s.rings ∧ (putLayout s id l).turn = s.turn ∧
    (putLayout s id l).awn = s.awn ∧ (putLayout s id l).stage = s.stage ∧ (putLayout s id l).inflight = s.inflight ∧
    (putLayout s id l).waiting = s.waiting ∧ (putLayout s id l).seq = s.seq ∧ (putLayout s id l).charges = s.charges ∧
    (putLayout s id l).squallDebt = s.squallDebt ∧ (putLayout s id l).pairSpent = s.pairSpent ∧
    (putLayout s id l).regs = s.regs ∧ (putLayout s id l).mbxNsIn = s.mbxNsIn ∧
    (putLayout s id l).mbxNsOut = s.mbxNsOut ∧ (putLayout s id l).mbxSIn = s.mbxSIn ∧
    (putLayout s id l).mbxSOut = s.mbxSOut ∧ (putLayout s id l).ansNs = s.ansNs ∧ (putLayout s id l).ansS = s.ansS ∧
    (putLayout s id l).rules = s.rules ∧ (putLayout s id l).streams = s.streams ∧ (putLayout s id l).stash = s.stash ∧
    (putLayout s id l).queues = s.queues ∧ (putLayout s id l).dram = s.dram ∧ (putLayout s id l).chk = s.chk ∧
    (putLayout s id l).remap = s.remap ∧ (putLayout s id l).cache = s.cache ∧ (putLayout s id l).units = s.units ∧
    (putLayout s id l).fencedStalls = s.fencedStalls ∧ (putLayout s id l).refreshDebt = s.refreshDebt ∧
    (putLayout s id l).refreshPtr = s.refreshPtr ∧ (putLayout s id l).sites = s.sites ∧
    (putLayout s id l).chans = s.chans ∧ (putLayout s id l).spots = s.spots ∧ (putLayout s id l).defer = s.defer ∧
    (putLayout s id l).outst = s.outst ∧ (putLayout s id l).nextReq = s.nextReq ∧
    (putLayout s id l).tracker = s.tracker ∧ (putLayout s id l).heldNarrow = s.heldNarrow ∧
    (putLayout s id l).arb = s.arb ∧ (putLayout s id l).xstreams = s.xstreams ∧ (putLayout s id l).link = s.link ∧
    (putLayout s id l).linkFrom = s.linkFrom ∧ (putLayout s id l).linkAt = s.linkAt ∧
    (putLayout s id l).xheld = s.xheld ∧ (putLayout s id l).power = s.power ∧ (putLayout s id l).boot = s.boot ∧
    (putLayout s id l).sec = s.sec ∧ (putLayout s id l).tally = s.tally ∧ (putLayout s id l).led = s.led ∧
    (putLayout s id l).tap = s.tap ∧ (putLayout s id l).bdregs = s.bdregs ∧ (putLayout s id l).fatal = s.fatal ∧
    (putLayout s id l).batching = s.batching ∧ (putLayout s id l).out = s.out ∧ (putLayout s id l).fresh = s.fresh := by
  rw [putLayout_eq]
  refine ⟨rfl, rfl, rfl, rfl, rfl, rfl, rfl, rfl, rfl, rfl, rfl, rfl, rfl, rfl, rfl, rfl, rfl, rfl, rfl, rfl, rfl, rfl, rfl, rfl, rfl, rfl, rfl, rfl, rfl, rfl, rfl, rfl, rfl, rfl, rfl, rfl, rfl, rfl, rfl, rfl, rfl, rfl, rfl, rfl, rfl, rfl, rfl, rfl, rfl, rfl, rfl, rfl, rfl, rfl, rfl, rfl, rfl, rfl, rfl, rfl, rfl⟩

theorem modLayout_eq (s : State) (id : Nat) (f : Layout → Layout) :
    modLayout s id f = { s with
      layouts := (modLayout s id f).layouts } := by
  unfold modLayout
  split <;> rfl

@[simp] theorem modLayout_fields (s : State) (id : Nat) (f : Layout → Layout) :
    (modLayout s id f).pending = s.pending ∧ (modLayout s id f).par = s.par ∧ (modLayout s id f).ts = s.ts ∧
    (modLayout s id f).beat = s.beat ∧ (modLayout s id f).latNs = s.latNs ∧ (modLayout s id f).latS = s.latS ∧
    (modLayout s id f).cfg = s.cfg ∧ (modLayout s id f).rings = s.rings ∧ (modLayout s id f).turn = s.turn ∧
    (modLayout s id f).awn = s.awn ∧ (modLayout s id f).stage = s.stage ∧ (modLayout s id f).inflight = s.inflight ∧
    (modLayout s id f).waiting = s.waiting ∧ (modLayout s id f).seq = s.seq ∧ (modLayout s id f).charges = s.charges ∧
    (modLayout s id f).squallDebt = s.squallDebt ∧ (modLayout s id f).pairSpent = s.pairSpent ∧
    (modLayout s id f).regs = s.regs ∧ (modLayout s id f).mbxNsIn = s.mbxNsIn ∧
    (modLayout s id f).mbxNsOut = s.mbxNsOut ∧ (modLayout s id f).mbxSIn = s.mbxSIn ∧
    (modLayout s id f).mbxSOut = s.mbxSOut ∧ (modLayout s id f).ansNs = s.ansNs ∧ (modLayout s id f).ansS = s.ansS ∧
    (modLayout s id f).rules = s.rules ∧ (modLayout s id f).streams = s.streams ∧ (modLayout s id f).stash = s.stash ∧
    (modLayout s id f).queues = s.queues ∧ (modLayout s id f).dram = s.dram ∧ (modLayout s id f).chk = s.chk ∧
    (modLayout s id f).remap = s.remap ∧ (modLayout s id f).cache = s.cache ∧ (modLayout s id f).units = s.units ∧
    (modLayout s id f).fencedStalls = s.fencedStalls ∧ (modLayout s id f).refreshDebt = s.refreshDebt ∧
    (modLayout s id f).refreshPtr = s.refreshPtr ∧ (modLayout s id f).sites = s.sites ∧
    (modLayout s id f).chans = s.chans ∧ (modLayout s id f).spots = s.spots ∧ (modLayout s id f).defer = s.defer ∧
    (modLayout s id f).outst = s.outst ∧ (modLayout s id f).nextReq = s.nextReq ∧
    (modLayout s id f).tracker = s.tracker ∧ (modLayout s id f).heldNarrow = s.heldNarrow ∧
    (modLayout s id f).arb = s.arb ∧ (modLayout s id f).xstreams = s.xstreams ∧ (modLayout s id f).link = s.link ∧
    (modLayout s id f).linkFrom = s.linkFrom ∧ (modLayout s id f).linkAt = s.linkAt ∧
    (modLayout s id f).xheld = s.xheld ∧ (modLayout s id f).power = s.power ∧ (modLayout s id f).boot = s.boot ∧
    (modLayout s id f).sec = s.sec ∧ (modLayout s id f).tally = s.tally ∧ (modLayout s id f).led = s.led ∧
    (modLayout s id f).tap = s.tap ∧ (modLayout s id f).bdregs = s.bdregs ∧ (modLayout s id f).fatal = s.fatal ∧
    (modLayout s id f).batching = s.batching ∧ (modLayout s id f).out = s.out ∧ (modLayout s id f).fresh = s.fresh := by
  rw [modLayout_eq]
  refine ⟨rfl, rfl, rfl, rfl, rfl, rfl, rfl, rfl, rfl, rfl, rfl, rfl, rfl, rfl, rfl, rfl, rfl, rfl, rfl, rfl, rfl, rfl, rfl, rfl, rfl, rfl, rfl, rfl, rfl, rfl, rfl, rfl, rfl, rfl, rfl, rfl, rfl, rfl, rfl, rfl, rfl, rfl, rfl, rfl, rfl, rfl, rfl, rfl, rfl, rfl, rfl, rfl, rfl, rfl, rfl, rfl, rfl, rfl, rfl, rfl, rfl⟩

theorem modShard_eq (s : State) (id : Nat) (f : Shard → Shard) :
    modShard s id f = { s with
      layouts := (modShard s id f).layouts } := modLayout_eq ..

@[simp] theorem modShard_fields (s : State) (id : Nat) (f : Shard → Shard) :
    (modShard s id f).pending = s.pending ∧ (modShard s id f).par = s.par ∧ (modShard s id f).ts = s.ts ∧
    (modShard s id f).beat = s.beat ∧ (modShard s id f).latNs = s.latNs ∧ (modShard s id f).latS = s.latS ∧
    (modShard s id f).cfg = s.cfg ∧ (modShard s id f).rings = s.rings ∧ (modShard s id f).turn = s.turn ∧
    (modShard s id f).awn = s.awn ∧ (modShard s id f).stage = s.stage ∧ (modShard s id f).inflight = s.inflight ∧
    (modShard s id f).waiting = s.waiting ∧ (modShard s id f).seq = s.seq ∧ (modShard s id f).charges = s.charges ∧
    (modShard s id f).squallDebt = s.squallDebt ∧ (modShard s id f).pairSpent = s.pairSpent ∧
    (modShard s id f).regs = s.regs ∧ (modShard s id f).mbxNsIn = s.mbxNsIn ∧
    (modShard s id f).mbxNsOut = s.mbxNsOut ∧ (modShard s id f).mbxSIn = s.mbxSIn ∧
    (modShard s id f).mbxSOut = s.mbxSOut ∧ (modShard s id f).ansNs = s.ansNs ∧ (modShard s id f).ansS = s.ansS ∧
    (modShard s id f).rules = s.rules ∧ (modShard s id f).streams = s.streams ∧ (modShard s id f).stash = s.stash ∧
    (modShard s id f).queues = s.queues ∧ (modShard s id f).dram = s.dram ∧ (modShard s id f).chk = s.chk ∧
    (modShard s id f).remap = s.remap ∧ (modShard s id f).cache = s.cache ∧ (modShard s id f).units = s.units ∧
    (modShard s id f).fencedStalls = s.fencedStalls ∧ (modShard s id f).refreshDebt = s.refreshDebt ∧
    (modShard s id f).refreshPtr = s.refreshPtr ∧ (modShard s id f).sites = s.sites ∧
    (modShard s id f).chans = s.chans ∧ (modShard s id f).spots = s.spots ∧ (modShard s id f).defer = s.defer ∧
    (modShard s id f).outst = s.outst ∧ (modShard s id f).nextReq = s.nextReq ∧
    (modShard s id f).tracker = s.tracker ∧ (modShard s id f).heldNarrow = s.heldNarrow ∧
    (modShard s id f).arb = s.arb ∧ (modShard s id f).xstreams = s.xstreams ∧ (modShard s id f).link = s.link ∧
    (modShard s id f).linkFrom = s.linkFrom ∧ (modShard s id f).linkAt = s.linkAt ∧
    (modShard s id f).xheld = s.xheld ∧ (modShard s id f).power = s.power ∧ (modShard s id f).boot = s.boot ∧
    (modShard s id f).sec = s.sec ∧ (modShard s id f).tally = s.tally ∧ (modShard s id f).led = s.led ∧
    (modShard s id f).tap = s.tap ∧ (modShard s id f).bdregs = s.bdregs ∧ (modShard s id f).fatal = s.fatal ∧
    (modShard s id f).batching = s.batching ∧ (modShard s id f).out = s.out ∧ (modShard s id f).fresh = s.fresh := by
  rw [modShard_eq]
  refine ⟨rfl, rfl, rfl, rfl, rfl, rfl, rfl, rfl, rfl, rfl, rfl, rfl, rfl, rfl, rfl, rfl, rfl, rfl, rfl, rfl, rfl, rfl, rfl, rfl, rfl, rfl, rfl, rfl, rfl, rfl, rfl, rfl, rfl, rfl, rfl, rfl, rfl, rfl, rfl, rfl, rfl, rfl, rfl, rfl, rfl, rfl, rfl, rfl, rfl, rfl, rfl, rfl, rfl, rfl, rfl, rfl, rfl, rfl, rfl, rfl, rfl⟩

theorem fwDeny_eq (s : State) (l : Nat) :
    fwDeny s l = { s with
      sec := (fwDeny s l).sec } := rfl

@[simp] theorem fwDeny_fields (s : State) (l : Nat) :
    (fwDeny s l).pending = s.pending ∧ (fwDeny s l).par = s.par ∧ (fwDeny s l).ts = s.ts ∧
    (fwDeny s l).beat = s.beat ∧ (fwDeny s l).latNs = s.latNs ∧ (fwDeny s l).latS = s.latS ∧
    (fwDeny s l).cfg = s.cfg ∧ (fwDeny s l).rings = s.rings ∧ (fwDeny s l).turn = s.turn ∧ (fwDeny s l).awn = s.awn ∧
    (fwDeny s l).stage = s.stage ∧ (fwDeny s l).inflight = s.inflight ∧ (fwDeny s l).waiting = s.waiting ∧
    (fwDeny s l).seq = s.seq ∧ (fwDeny s l).charges = s.charges ∧ (fwDeny s l).squallDebt = s.squallDebt ∧
    (fwDeny s l).pairSpent = s.pairSpent ∧ (fwDeny s l).regs = s.regs ∧ (fwDeny s l).mbxNsIn = s.mbxNsIn ∧
    (fwDeny s l).mbxNsOut = s.mbxNsOut ∧ (fwDeny s l).mbxSIn = s.mbxSIn ∧ (fwDeny s l).mbxSOut = s.mbxSOut ∧
    (fwDeny s l).ansNs = s.ansNs ∧ (fwDeny s l).ansS = s.ansS ∧ (fwDeny s l).layouts = s.layouts ∧
    (fwDeny s l).rules = s.rules ∧ (fwDeny s l).streams = s.streams ∧ (fwDeny s l).stash = s.stash ∧
    (fwDeny s l).queues = s.queues ∧ (fwDeny s l).dram = s.dram ∧ (fwDeny s l).chk = s.chk ∧
    (fwDeny s l).remap = s.remap ∧ (fwDeny s l).cache = s.cache ∧ (fwDeny s l).units = s.units ∧
    (fwDeny s l).fencedStalls = s.fencedStalls ∧ (fwDeny s l).refreshDebt = s.refreshDebt ∧
    (fwDeny s l).refreshPtr = s.refreshPtr ∧ (fwDeny s l).sites = s.sites ∧ (fwDeny s l).chans = s.chans ∧
    (fwDeny s l).spots = s.spots ∧ (fwDeny s l).defer = s.defer ∧ (fwDeny s l).outst = s.outst ∧
    (fwDeny s l).nextReq = s.nextReq ∧ (fwDeny s l).tracker = s.tracker ∧ (fwDeny s l).heldNarrow = s.heldNarrow ∧
    (fwDeny s l).arb = s.arb ∧ (fwDeny s l).xstreams = s.xstreams ∧ (fwDeny s l).link = s.link ∧
    (fwDeny s l).linkFrom = s.linkFrom ∧ (fwDeny s l).linkAt = s.linkAt ∧ (fwDeny s l).xheld = s.xheld ∧
    (fwDeny s l).power = s.power ∧ (fwDeny s l).boot = s.boot ∧ (fwDeny s l).tally = s.tally ∧
    (fwDeny s l).led = s.led ∧ (fwDeny s l).tap = s.tap ∧ (fwDeny s l).bdregs = s.bdregs ∧
    (fwDeny s l).fatal = s.fatal ∧ (fwDeny s l).batching = s.batching ∧ (fwDeny s l).out = s.out ∧
    (fwDeny s l).fresh = s.fresh := by
  rw [fwDeny_eq]
  refine ⟨rfl, rfl, rfl, rfl, rfl, rfl, rfl, rfl, rfl, rfl, rfl, rfl, rfl, rfl, rfl, rfl, rfl, rfl, rfl, rfl, rfl, rfl, rfl, rfl, rfl, rfl, rfl, rfl, rfl, rfl, rfl, rfl, rfl, rfl, rfl, rfl, rfl, rfl, rfl, rfl, rfl, rfl, rfl, rfl, rfl, rfl, rfl, rfl, rfl, rfl, rfl, rfl, rfl, rfl, rfl, rfl, rfl, rfl, rfl, rfl, rfl⟩

theorem advanceHead_eq (s : State) (r : RingId) :
    advanceHead s r = { s with
      rings := (advanceHead s r).rings,
      turn := (advanceHead s r).turn,
      tally := (advanceHead s r).tally } := by
  unfold advanceHead
  dsimp only
  split <;> rfl

@[simp] theorem advanceHead_fields (s : State) (r : RingId) :
    (advanceHead s r).pending = s.pending ∧ (advanceHead s r).par = s.par ∧ (advanceHead s r).ts = s.ts ∧
    (advanceHead s r).beat = s.beat ∧ (advanceHead s r).latNs = s.latNs ∧ (advanceHead s r).latS = s.latS ∧
    (advanceHead s r).cfg = s.cfg ∧ (advanceHead s r).awn = s.awn ∧ (advanceHead s r).stage = s.stage ∧
    (advanceHead s r).inflight = s.inflight ∧ (advanceHead s r).waiting = s.waiting ∧ (advanceHead s r).seq = s.seq ∧
    (advanceHead s r).charges = s.charges ∧ (advanceHead s r).squallDebt = s.squallDebt ∧
    (advanceHead s r).pairSpent = s.pairSpent ∧ (advanceHead s r).regs = s.regs ∧
    (advanceHead s r).mbxNsIn = s.mbxNsIn ∧ (advanceHead s r).mbxNsOut = s.mbxNsOut ∧
    (advanceHead s r).mbxSIn = s.mbxSIn ∧ (advanceHead s r).mbxSOut = s.mbxSOut ∧ (advanceHead s r).ansNs = s.ansNs ∧
    (advanceHead s r).ansS = s.ansS ∧ (advanceHead s r).layouts = s.layouts ∧ (advanceHead s r).rules = s.rules ∧
    (advanceHead s r).streams = s.streams ∧ (advanceHead s r).stash = s.stash ∧ (advanceHead s r).queues = s.queues ∧
    (advanceHead s r).dram = s.dram ∧ (advanceHead s r).chk = s.chk ∧ (advanceHead s r).remap = s.remap ∧
    (advanceHead s r).cache = s.cache ∧ (advanceHead s r).units = s.units ∧
    (advanceHead s r).fencedStalls = s.fencedStalls ∧ (advanceHead s r).refreshDebt = s.refreshDebt ∧
    (advanceHead s r).refreshPtr = s.refreshPtr ∧ (advanceHead s r).sites = s.sites ∧
    (advanceHead s r).chans = s.chans ∧ (advanceHead s r).spots = s.spots ∧ (advanceHead s r).defer = s.defer ∧
    (advanceHead s r).outst = s.outst ∧ (advanceHead s r).nextReq = s.nextReq ∧
    (advanceHead s r).tracker = s.tracker ∧ (advanceHead s r).heldNarrow = s.heldNarrow ∧
    (advanceHead s r).arb = s.arb ∧ (advanceHead s r).xstreams = s.xstreams ∧ (advanceHead s r).link = s.link ∧
    (advanceHead s r).linkFrom = s.linkFrom ∧ (advanceHead s r).linkAt = s.linkAt ∧
    (advanceHead s r).xheld = s.xheld ∧ (advanceHead s r).power = s.power ∧ (advanceHead s r).boot = s.boot ∧
    (advanceHead s r).sec = s.sec ∧ (advanceHead s r).led = s.led ∧ (advanceHead s r).tap = s.tap ∧
    (advanceHead s r).bdregs = s.bdregs ∧ (advanceHead s r).fatal = s.fatal ∧
    (advanceHead s r).batching = s.batching ∧ (advanceHead s r).out = s.out ∧ (advanceHead s r).fresh = s.fresh := by
  rw [advanceHead_eq]
  refine ⟨rfl, rfl, rfl, rfl, rfl, rfl, rfl, rfl, rfl, rfl, rfl, rfl, rfl, rfl, rfl, rfl, rfl, rfl, rfl, rfl, rfl, rfl, rfl, rfl, rfl, rfl, rfl, rfl, rfl, rfl, rfl, rfl, rfl, rfl, rfl, rfl, rfl, rfl, rfl, rfl, rfl, rfl, rfl, rfl, rfl, rfl, rfl, rfl, rfl, rfl, rfl, rfl, rfl, rfl, rfl, rfl, rfl, rfl, rfl⟩

theorem charge_eq (s : State) (i : Inst) (t : Nat) :
    charge s i t = { s with
      charges := (charge s i t).charges } := by
  unfold charge
  dsimp only
  split <;> rfl

@[simp] theorem charge_fields (s : State) (i : Inst) (t : Nat) :
    (charge s i t).pending = s.pending ∧ (charge s i t).par = s.par ∧ (charge s i t).ts = s.ts ∧
    (charge s i t).beat = s.beat ∧ (charge s i t).latNs = s.latNs ∧ (charge s i t).latS = s.latS ∧
    (charge s i t).cfg = s.cfg ∧ (charge s i t).rings = s.rings ∧ (charge s i t).turn = s.turn ∧
    (charge s i t).awn = s.awn ∧ (charge s i t).stage = s.stage ∧ (charge s i t).inflight = s.inflight ∧
    (charge s i t).waiting = s.waiting ∧ (charge s i t).seq = s.seq ∧ (charge s i t).squallDebt = s.squallDebt ∧
    (charge s i t).pairSpent = s.pairSpent ∧ (charge s i t).regs = s.regs ∧ (charge s i t).mbxNsIn = s.mbxNsIn ∧
    (charge s i t).mbxNsOut = s.mbxNsOut ∧ (charge s i t).mbxSIn = s.mbxSIn ∧ (charge s i t).mbxSOut = s.mbxSOut ∧
    (charge s i t).ansNs = s.ansNs ∧ (charge s i t).ansS = s.ansS ∧ (charge s i t).layouts = s.layouts ∧
    (charge s i t).rules = s.rules ∧ (charge s i t).streams = s.streams ∧ (charge s i t).stash = s.stash ∧
    (charge s i t).queues = s.queues ∧ (charge s i t).dram = s.dram ∧ (charge s i t).chk = s.chk ∧
    (charge s i t).remap = s.remap ∧ (charge s i t).cache = s.cache ∧ (charge s i t).units = s.units ∧
    (charge s i t).fencedStalls = s.fencedStalls ∧ (charge s i t).refreshDebt = s.refreshDebt ∧
    (charge s i t).refreshPtr = s.refreshPtr ∧ (charge s i t).sites = s.sites ∧ (charge s i t).chans = s.chans ∧
    (charge s i t).spots = s.spots ∧ (charge s i t).defer = s.defer ∧ (charge s i t).outst = s.outst ∧
    (charge s i t).nextReq = s.nextReq ∧ (charge s i t).tracker = s.tracker ∧
    (charge s i t).heldNarrow = s.heldNarrow ∧ (charge s i t).arb = s.arb ∧ (charge s i t).xstreams = s.xstreams ∧
    (charge s i t).link = s.link ∧ (charge s i t).linkFrom = s.linkFrom ∧ (charge s i t).linkAt = s.linkAt ∧
    (charge s i t).xheld = s.xheld ∧ (charge s i t).power = s.power ∧ (charge s i t).boot = s.boot ∧
    (charge s i t).sec = s.sec ∧ (charge s i t).tally = s.tally ∧ (charge s i t).led = s.led ∧
    (charge s i t).tap = s.tap ∧ (charge s i t).bdregs = s.bdregs ∧ (charge s i t).fatal = s.fatal ∧
    (charge s i t).batching = s.batching ∧ (charge s i t).out = s.out ∧ (charge s i t).fresh = s.fresh := by
  rw [charge_eq]
  refine ⟨rfl, rfl, rfl, rfl, rfl, rfl, rfl, rfl, rfl, rfl, rfl, rfl, rfl, rfl, rfl, rfl, rfl, rfl, rfl, rfl, rfl, rfl, rfl, rfl, rfl, rfl, rfl, rfl, rfl, rfl, rfl, rfl, rfl, rfl, rfl, rfl, rfl, rfl, rfl, rfl, rfl, rfl, rfl, rfl, rfl, rfl, rfl, rfl, rfl, rfl, rfl, rfl, rfl, rfl, rfl, rfl, rfl, rfl, rfl, rfl, rfl⟩

theorem modChan_eq (s : State) (x c : Nat) (f : Chan → Chan) :
    modChan s x c f = { s with
      chans := (modChan s x c f).chans } := rfl

@[simp] theorem modChan_fields (s : State) (x c : Nat) (f : Chan → Chan) :
    (modChan s x c f).pending = s.pending ∧ (modChan s x c f).par = s.par ∧ (modChan s x c f).ts = s.ts ∧
    (modChan s x c f).beat = s.beat ∧ (modChan s x c f).latNs = s.latNs ∧ (modChan s x c f).latS = s.latS ∧
    (modChan s x c f).cfg = s.cfg ∧ (modChan s x c f).rings = s.rings ∧ (modChan s x c f).turn = s.turn ∧
    (modChan s x c f).awn = s.awn ∧ (modChan s x c f).stage = s.stage ∧ (modChan s x c f).inflight = s.inflight ∧
    (modChan s x c f).waiting = s.waiting ∧ (modChan s x c f).seq = s.seq ∧ (modChan s x c f).charges = s.charges ∧
    (modChan s x c f).squallDebt = s.squallDebt ∧ (modChan s x c f).pairSpent = s.pairSpent ∧
    (modChan s x c f).regs = s.regs ∧ (modChan s x c f).mbxNsIn = s.mbxNsIn ∧
    (modChan s x c f).mbxNsOut = s.mbxNsOut ∧ (modChan s x c f).mbxSIn = s.mbxSIn ∧
    (modChan s x c f).mbxSOut = s.mbxSOut ∧ (modChan s x c f).ansNs = s.ansNs ∧ (modChan s x c f).ansS = s.ansS ∧
    (modChan s x c f).layouts = s.layouts ∧ (modChan s x c f).rules = s.rules ∧
    (modChan s x c f).streams = s.streams ∧ (modChan s x c f).stash = s.stash ∧ (modChan s x c f).queues = s.queues ∧
    (modChan s x c f).dram = s.dram ∧ (modChan s x c f).chk = s.chk ∧ (modChan s x c f).remap = s.remap ∧
    (modChan s x c f).cache = s.cache ∧ (modChan s x c f).units = s.units ∧
    (modChan s x c f).fencedStalls = s.fencedStalls ∧ (modChan s x c f).refreshDebt = s.refreshDebt ∧
    (modChan s x c f).refreshPtr = s.refreshPtr ∧ (modChan s x c f).sites = s.sites ∧
    (modChan s x c f).spots = s.spots ∧ (modChan s x c f).defer = s.defer ∧ (modChan s x c f).outst = s.outst ∧
    (modChan s x c f).nextReq = s.nextReq ∧ (modChan s x c f).tracker = s.tracker ∧
    (modChan s x c f).heldNarrow = s.heldNarrow ∧ (modChan s x c f).arb = s.arb ∧
    (modChan s x c f).xstreams = s.xstreams ∧ (modChan s x c f).link = s.link ∧
    (modChan s x c f).linkFrom = s.linkFrom ∧ (modChan s x c f).linkAt = s.linkAt ∧
    (modChan s x c f).xheld = s.xheld ∧ (modChan s x c f).power = s.power ∧ (modChan s x c f).boot = s.boot ∧
    (modChan s x c f).sec = s.sec ∧ (modChan s x c f).tally = s.tally ∧ (modChan s x c f).led = s.led ∧
    (modChan s x c f).tap = s.tap ∧ (modChan s x c f).bdregs = s.bdregs ∧ (modChan s x c f).fatal = s.fatal ∧
    (modChan s x c f).batching = s.batching ∧ (modChan s x c f).out = s.out ∧ (modChan s x c f).fresh = s.fresh := by
  rw [modChan_eq]
  refine ⟨rfl, rfl, rfl, rfl, rfl, rfl, rfl, rfl, rfl, rfl, rfl, rfl, rfl, rfl, rfl, rfl, rfl, rfl, rfl, rfl, rfl, rfl, rfl, rfl, rfl, rfl, rfl, rfl, rfl, rfl, rfl, rfl, rfl, rfl, rfl, rfl, rfl, rfl, rfl, rfl, rfl, rfl, rfl, rfl, rfl, rfl, rfl, rfl, rfl, rfl, rfl, rfl, rfl, rfl, rfl, rfl, rfl, rfl, rfl, rfl, rfl⟩

theorem modSite_eq (s : State) (x : SiteId) (f : Site → Site) :
    modSite s x f = { s with
      sites := (modSite s x f).sites } := rfl

@[simp] theorem modSite_fields (s : State) (x : SiteId) (f : Site → Site) :
    (modSite s x f).pending = s.pending ∧ (modSite s x f).par = s.par ∧ (modSite s x f).ts = s.ts ∧
    (modSite s x f).beat = s.beat ∧ (modSite s x f).latNs = s.latNs ∧ (modSite s x f).latS = s.latS ∧
    (modSite s x f).cfg = s.cfg ∧ (modSite s x f).rings = s.rings ∧ (modSite s x f).turn = s.turn ∧
    (modSite s x f).awn = s.awn ∧ (modSite s x f).stage = s.stage ∧ (modSite s x f).inflight = s.inflight ∧
    (modSite s x f).waiting = s.waiting ∧ (modSite s x f).seq = s.seq ∧ (modSite s x f).charges = s.charges ∧
    (modSite s x f).squallDebt = s.squallDebt ∧ (modSite s x f).pairSpent = s.pairSpent ∧
    (modSite s x f).regs = s.regs ∧ (modSite s x f).mbxNsIn = s.mbxNsIn ∧ (modSite s x f).mbxNsOut = s.mbxNsOut ∧
    (modSite s x f).mbxSIn = s.mbxSIn ∧ (modSite s x f).mbxSOut = s.mbxSOut ∧ (modSite s x f).ansNs = s.ansNs ∧
    (modSite s x f).ansS = s.ansS ∧ (modSite s x f).layouts = s.layouts ∧ (modSite s x f).rules = s.rules ∧
    (modSite s x f).streams = s.streams ∧ (modSite s x f).stash = s.stash ∧ (modSite s x f).queues = s.queues ∧
    (modSite s x f).dram = s.dram ∧ (modSite s x f).chk = s.chk ∧ (modSite s x f).remap = s.remap ∧
    (modSite s x f).cache = s.cache ∧ (modSite s x f).units = s.units ∧
    (modSite s x f).fencedStalls = s.fencedStalls ∧ (modSite s x f).refreshDebt = s.refreshDebt ∧
    (modSite s x f).refreshPtr = s.refreshPtr ∧ (modSite s x f).chans = s.chans ∧ (modSite s x f).spots = s.spots ∧
    (modSite s x f).defer = s.defer ∧ (modSite s x f).outst = s.outst ∧ (modSite s x f).nextReq = s.nextReq ∧
    (modSite s x f).tracker = s.tracker ∧ (modSite s x f).heldNarrow = s.heldNarrow ∧ (modSite s x f).arb = s.arb ∧
    (modSite s x f).xstreams = s.xstreams ∧ (modSite s x f).link = s.link ∧ (modSite s x f).linkFrom = s.linkFrom ∧
    (modSite s x f).linkAt = s.linkAt ∧ (modSite s x f).xheld = s.xheld ∧ (modSite s x f).power = s.power ∧
    (modSite s x f).boot = s.boot ∧ (modSite s x f).sec = s.sec ∧ (modSite s x f).tally = s.tally ∧
    (modSite s x f).led = s.led ∧ (modSite s x f).tap = s.tap ∧ (modSite s x f).bdregs = s.bdregs ∧
    (modSite s x f).fatal = s.fatal ∧ (modSite s x f).batching = s.batching ∧ (modSite s x f).out = s.out ∧
    (modSite s x f).fresh = s.fresh := by
  rw [modSite_eq]
  refine ⟨rfl, rfl, rfl, rfl, rfl, rfl, rfl, rfl, rfl, rfl, rfl, rfl, rfl, rfl, rfl, rfl, rfl, rfl, rfl, rfl, rfl, rfl, rfl, rfl, rfl, rfl, rfl, rfl, rfl, rfl, rfl, rfl, rfl, rfl, rfl, rfl, rfl, rfl, rfl, rfl, rfl, rfl, rfl, rfl, rfl, rfl, rfl, rfl, rfl, rfl, rfl, rfl, rfl, rfl, rfl, rfl, rfl, rfl, rfl, rfl, rfl⟩

theorem putUnit_eq (s : State) (k : Nat) (u : Stall) :
    putUnit s k u = { s with
      units := (putUnit s k u).units } := rfl

@[simp] theorem putUnit_fields (s : State) (k : Nat) (u : Stall) :
    (putUnit s k u).pending = s.pending ∧ (putUnit s k u).par = s.par ∧ (putUnit s k u).ts = s.ts ∧
    (putUnit s k u).beat = s.beat ∧ (putUnit s k u).latNs = s.latNs ∧ (putUnit s k u).latS = s.latS ∧
    (putUnit s k u).cfg = s.cfg ∧ (putUnit s k u).rings = s.rings ∧ (putUnit s k u).turn = s.turn ∧
    (putUnit s k u).awn = s.awn ∧ (putUnit s k u).stage = s.stage ∧ (putUnit s k u).inflight = s.inflight ∧
    (putUnit s k u).waiting = s.waiting ∧ (putUnit s k u).seq = s.seq ∧ (putUnit s k u).charges = s.charges ∧
    (putUnit s k u).squallDebt = s.squallDebt ∧ (putUnit s k u).pairSpent = s.pairSpent ∧
    (putUnit s k u).regs = s.regs ∧ (putUnit s k u).mbxNsIn = s.mbxNsIn ∧ (putUnit s k u).mbxNsOut = s.mbxNsOut ∧
    (putUnit s k u).mbxSIn = s.mbxSIn ∧ (putUnit s k u).mbxSOut = s.mbxSOut ∧ (putUnit s k u).ansNs = s.ansNs ∧
    (putUnit s k u).ansS = s.ansS ∧ (putUnit s k u).layouts = s.layouts ∧ (putUnit s k u).rules = s.rules ∧
    (putUnit s k u).streams = s.streams ∧ (putUnit s k u).stash = s.stash ∧ (putUnit s k u).queues = s.queues ∧
    (putUnit s k u).dram = s.dram ∧ (putUnit s k u).chk = s.chk ∧ (putUnit s k u).remap = s.remap ∧
    (putUnit s k u).cache = s.cache ∧ (putUnit s k u).fencedStalls = s.fencedStalls ∧
    (putUnit s k u).refreshDebt = s.refreshDebt ∧ (putUnit s k u).refreshPtr = s.refreshPtr ∧
    (putUnit s k u).sites = s.sites ∧ (putUnit s k u).chans = s.chans ∧ (putUnit s k u).spots = s.spots ∧
    (putUnit s k u).defer = s.defer ∧ (putUnit s k u).outst = s.outst ∧ (putUnit s k u).nextReq = s.nextReq ∧
    (putUnit s k u).tracker = s.tracker ∧ (putUnit s k u).heldNarrow = s.heldNarrow ∧ (putUnit s k u).arb = s.arb ∧
    (putUnit s k u).xstreams = s.xstreams ∧ (putUnit s k u).link = s.link ∧ (putUnit s k u).linkFrom = s.linkFrom ∧
    (putUnit s k u).linkAt = s.linkAt ∧ (putUnit s k u).xheld = s.xheld ∧ (putUnit s k u).power = s.power ∧
    (putUnit s k u).boot = s.boot ∧ (putUnit s k u).sec = s.sec ∧ (putUnit s k u).tally = s.tally ∧
    (putUnit s k u).led = s.led ∧ (putUnit s k u).tap = s.tap ∧ (putUnit s k u).bdregs = s.bdregs ∧
    (putUnit s k u).fatal = s.fatal ∧ (putUnit s k u).batching = s.batching ∧ (putUnit s k u).out = s.out ∧
    (putUnit s k u).fresh = s.fresh := by
  rw [putUnit_eq]
  refine ⟨rfl, rfl, rfl, rfl, rfl, rfl, rfl, rfl, rfl, rfl, rfl, rfl, rfl, rfl, rfl, rfl, rfl, rfl, rfl, rfl, rfl, rfl, rfl, rfl, rfl, rfl, rfl, rfl, rfl, rfl, rfl, rfl, rfl, rfl, rfl, rfl, rfl, rfl, rfl, rfl, rfl, rfl, rfl, rfl, rfl, rfl, rfl, rfl, rfl, rfl, rfl, rfl, rfl, rfl, rfl, rfl, rfl, rfl, rfl, rfl, rfl⟩

theorem fltIrq_eq (s : State) (b : Nat) :
    fltIrq s b = { s with
      regs := (fltIrq s b).regs } := rfl

@[simp] theorem fltIrq_fields (s : State) (b : Nat) :
    (fltIrq s b).pending = s.pending ∧ (fltIrq s b).par = s.par ∧ (fltIrq s b).ts = s.ts ∧
    (fltIrq s b).beat = s.beat ∧ (fltIrq s b).latNs = s.latNs ∧ (fltIrq s b).latS = s.latS ∧
    (fltIrq s b).cfg = s.cfg ∧ (fltIrq s b).rings = s.rings ∧ (fltIrq s b).turn = s.turn ∧ (fltIrq s b).awn = s.awn ∧
    (fltIrq s b).stage = s.stage ∧ (fltIrq s b).inflight = s.inflight ∧ (fltIrq s b).waiting = s.waiting ∧
    (fltIrq s b).seq = s.seq ∧ (fltIrq s b).charges = s.charges ∧ (fltIrq s b).squallDebt = s.squallDebt ∧
    (fltIrq s b).pairSpent = s.pairSpent ∧ (fltIrq s b).mbxNsIn = s.mbxNsIn ∧ (fltIrq s b).mbxNsOut = s.mbxNsOut ∧
    (fltIrq s b).mbxSIn = s.mbxSIn ∧ (fltIrq s b).mbxSOut = s.mbxSOut ∧ (fltIrq s b).ansNs = s.ansNs ∧
    (fltIrq s b).ansS = s.ansS ∧ (fltIrq s b).layouts = s.layouts ∧ (fltIrq s b).rules = s.rules ∧
    (fltIrq s b).streams = s.streams ∧ (fltIrq s b).stash = s.stash ∧ (fltIrq s b).queues = s.queues ∧
    (fltIrq s b).dram = s.dram ∧ (fltIrq s b).chk = s.chk ∧ (fltIrq s b).remap = s.remap ∧
    (fltIrq s b).cache = s.cache ∧ (fltIrq s b).units = s.units ∧ (fltIrq s b).fencedStalls = s.fencedStalls ∧
    (fltIrq s b).refreshDebt = s.refreshDebt ∧ (fltIrq s b).refreshPtr = s.refreshPtr ∧ (fltIrq s b).sites = s.sites ∧
    (fltIrq s b).chans = s.chans ∧ (fltIrq s b).spots = s.spots ∧ (fltIrq s b).defer = s.defer ∧
    (fltIrq s b).outst = s.outst ∧ (fltIrq s b).nextReq = s.nextReq ∧ (fltIrq s b).tracker = s.tracker ∧
    (fltIrq s b).heldNarrow = s.heldNarrow ∧ (fltIrq s b).arb = s.arb ∧ (fltIrq s b).xstreams = s.xstreams ∧
    (fltIrq s b).link = s.link ∧ (fltIrq s b).linkFrom = s.linkFrom ∧ (fltIrq s b).linkAt = s.linkAt ∧
    (fltIrq s b).xheld = s.xheld ∧ (fltIrq s b).power = s.power ∧ (fltIrq s b).boot = s.boot ∧
    (fltIrq s b).sec = s.sec ∧ (fltIrq s b).tally = s.tally ∧ (fltIrq s b).led = s.led ∧ (fltIrq s b).tap = s.tap ∧
    (fltIrq s b).bdregs = s.bdregs ∧ (fltIrq s b).fatal = s.fatal ∧ (fltIrq s b).batching = s.batching ∧
    (fltIrq s b).out = s.out ∧ (fltIrq s b).fresh = s.fresh := by
  rw [fltIrq_eq]
  refine ⟨rfl, rfl, rfl, rfl, rfl, rfl, rfl, rfl, rfl, rfl, rfl, rfl, rfl, rfl, rfl, rfl, rfl, rfl, rfl, rfl, rfl, rfl, rfl, rfl, rfl, rfl, rfl, rfl, rfl, rfl, rfl, rfl, rfl, rfl, rfl, rfl, rfl, rfl, rfl, rfl, rfl, rfl, rfl, rfl, rfl, rfl, rfl, rfl, rfl, rfl, rfl, rfl, rfl, rfl, rfl, rfl, rfl, rfl, rfl, rfl, rfl⟩

theorem ityIrq_eq (s : State) (b : Nat) :
    ityIrq s b = { s with
      regs := (ityIrq s b).regs } := rfl

@[simp] theorem ityIrq_fields (s : State) (b : Nat) :
    (ityIrq s b).pending = s.pending ∧ (ityIrq s b).par = s.par ∧ (ityIrq s b).ts = s.ts ∧
    (ityIrq s b).beat = s.beat ∧ (ityIrq s b).latNs = s.latNs ∧ (ityIrq s b).latS = s.latS ∧
    (ityIrq s b).cfg = s.cfg ∧ (ityIrq s b).rings = s.rings ∧ (ityIrq s b).turn = s.turn ∧ (ityIrq s b).awn = s.awn ∧
    (ityIrq s b).stage = s.stage ∧ (ityIrq s b).inflight = s.inflight ∧ (ityIrq s b).waiting = s.waiting ∧
    (ityIrq s b).seq = s.seq ∧ (ityIrq s b).charges = s.charges ∧ (ityIrq s b).squallDebt = s.squallDebt ∧
    (ityIrq s b).pairSpent = s.pairSpent ∧ (ityIrq s b).mbxNsIn = s.mbxNsIn ∧ (ityIrq s b).mbxNsOut = s.mbxNsOut ∧
    (ityIrq s b).mbxSIn = s.mbxSIn ∧ (ityIrq s b).mbxSOut = s.mbxSOut ∧ (ityIrq s b).ansNs = s.ansNs ∧
    (ityIrq s b).ansS = s.ansS ∧ (ityIrq s b).layouts = s.layouts ∧ (ityIrq s b).rules = s.rules ∧
    (ityIrq s b).streams = s.streams ∧ (ityIrq s b).stash = s.stash ∧ (ityIrq s b).queues = s.queues ∧
    (ityIrq s b).dram = s.dram ∧ (ityIrq s b).chk = s.chk ∧ (ityIrq s b).remap = s.remap ∧
    (ityIrq s b).cache = s.cache ∧ (ityIrq s b).units = s.units ∧ (ityIrq s b).fencedStalls = s.fencedStalls ∧
    (ityIrq s b).refreshDebt = s.refreshDebt ∧ (ityIrq s b).refreshPtr = s.refreshPtr ∧ (ityIrq s b).sites = s.sites ∧
    (ityIrq s b).chans = s.chans ∧ (ityIrq s b).spots = s.spots ∧ (ityIrq s b).defer = s.defer ∧
    (ityIrq s b).outst = s.outst ∧ (ityIrq s b).nextReq = s.nextReq ∧ (ityIrq s b).tracker = s.tracker ∧
    (ityIrq s b).heldNarrow = s.heldNarrow ∧ (ityIrq s b).arb = s.arb ∧ (ityIrq s b).xstreams = s.xstreams ∧
    (ityIrq s b).link = s.link ∧ (ityIrq s b).linkFrom = s.linkFrom ∧ (ityIrq s b).linkAt = s.linkAt ∧
    (ityIrq s b).xheld = s.xheld ∧ (ityIrq s b).power = s.power ∧ (ityIrq s b).boot = s.boot ∧
    (ityIrq s b).sec = s.sec ∧ (ityIrq s b).tally = s.tally ∧ (ityIrq s b).led = s.led ∧ (ityIrq s b).tap = s.tap ∧
    (ityIrq s b).bdregs = s.bdregs ∧ (ityIrq s b).fatal = s.fatal ∧ (ityIrq s b).batching = s.batching ∧
    (ityIrq s b).out = s.out ∧ (ityIrq s b).fresh = s.fresh := by
  rw [ityIrq_eq]
  refine ⟨rfl, rfl, rfl, rfl, rfl, rfl, rfl, rfl, rfl, rfl, rfl, rfl, rfl, rfl, rfl, rfl, rfl, rfl, rfl, rfl, rfl, rfl, rfl, rfl, rfl, rfl, rfl, rfl, rfl, rfl, rfl, rfl, rfl, rfl, rfl, rfl, rfl, rfl, rfl, rfl, rfl, rfl, rfl, rfl, rfl, rfl, rfl, rfl, rfl, rfl, rfl, rfl, rfl, rfl, rfl, rfl, rfl, rfl, rfl, rfl, rfl⟩

theorem pwrIrq_eq (s : State) (b : Nat) :
    pwrIrq s b = { s with
      power := (pwrIrq s b).power } := rfl

@[simp] theorem pwrIrq_fields (s : State) (b : Nat) :
    (pwrIrq s b).pending = s.pending ∧ (pwrIrq s b).par = s.par ∧ (pwrIrq s b).ts = s.ts ∧
    (pwrIrq s b).beat = s.beat ∧ (pwrIrq s b).latNs = s.latNs ∧ (pwrIrq s b).latS = s.latS ∧
    (pwrIrq s b).cfg = s.cfg ∧ (pwrIrq s b).rings = s.rings ∧ (pwrIrq s b).turn = s.turn ∧ (pwrIrq s b).awn = s.awn ∧
    (pwrIrq s b).stage = s.stage ∧ (pwrIrq s b).inflight = s.inflight ∧ (pwrIrq s b).waiting = s.waiting ∧
    (pwrIrq s b).seq = s.seq ∧ (pwrIrq s b).charges = s.charges ∧ (pwrIrq s b).squallDebt = s.squallDebt ∧
    (pwrIrq s b).pairSpent = s.pairSpent ∧ (pwrIrq s b).regs = s.regs ∧ (pwrIrq s b).mbxNsIn = s.mbxNsIn ∧
    (pwrIrq s b).mbxNsOut = s.mbxNsOut ∧ (pwrIrq s b).mbxSIn = s.mbxSIn ∧ (pwrIrq s b).mbxSOut = s.mbxSOut ∧
    (pwrIrq s b).ansNs = s.ansNs ∧ (pwrIrq s b).ansS = s.ansS ∧ (pwrIrq s b).layouts = s.layouts ∧
    (pwrIrq s b).rules = s.rules ∧ (pwrIrq s b).streams = s.streams ∧ (pwrIrq s b).stash = s.stash ∧
    (pwrIrq s b).queues = s.queues ∧ (pwrIrq s b).dram = s.dram ∧ (pwrIrq s b).chk = s.chk ∧
    (pwrIrq s b).remap = s.remap ∧ (pwrIrq s b).cache = s.cache ∧ (pwrIrq s b).units = s.units ∧
    (pwrIrq s b).fencedStalls = s.fencedStalls ∧ (pwrIrq s b).refreshDebt = s.refreshDebt ∧
    (pwrIrq s b).refreshPtr = s.refreshPtr ∧ (pwrIrq s b).sites = s.sites ∧ (pwrIrq s b).chans = s.chans ∧
    (pwrIrq s b).spots = s.spots ∧ (pwrIrq s b).defer = s.defer ∧ (pwrIrq s b).outst = s.outst ∧
    (pwrIrq s b).nextReq = s.nextReq ∧ (pwrIrq s b).tracker = s.tracker ∧ (pwrIrq s b).heldNarrow = s.heldNarrow ∧
    (pwrIrq s b).arb = s.arb ∧ (pwrIrq s b).xstreams = s.xstreams ∧ (pwrIrq s b).link = s.link ∧
    (pwrIrq s b).linkFrom = s.linkFrom ∧ (pwrIrq s b).linkAt = s.linkAt ∧ (pwrIrq s b).xheld = s.xheld ∧
    (pwrIrq s b).boot = s.boot ∧ (pwrIrq s b).sec = s.sec ∧ (pwrIrq s b).tally = s.tally ∧ (pwrIrq s b).led = s.led ∧
    (pwrIrq s b).tap = s.tap ∧ (pwrIrq s b).bdregs = s.bdregs ∧ (pwrIrq s b).fatal = s.fatal ∧
    (pwrIrq s b).batching = s.batching ∧ (pwrIrq s b).out = s.out ∧ (pwrIrq s b).fresh = s.fresh := by
  rw [pwrIrq_eq]
  refine ⟨rfl, rfl, rfl, rfl, rfl, rfl, rfl, rfl, rfl, rfl, rfl, rfl, rfl, rfl, rfl, rfl, rfl, rfl, rfl, rfl, rfl, rfl, rfl, rfl, rfl, rfl, rfl, rfl, rfl, rfl, rfl, rfl, rfl, rfl, rfl, rfl, rfl, rfl, rfl, rfl, rfl, rfl, rfl, rfl, rfl, rfl, rfl, rfl, rfl, rfl, rfl, rfl, rfl, rfl, rfl, rfl, rfl, rfl, rfl, rfl, rfl⟩

theorem selfTestBit_eq (s : State) (b : Nat) :
    selfTestBit s b = { s with
      power := (selfTestBit s b).power } := rfl

@[simp] theorem selfTestBit_fields (s : State) (b : Nat) :
    (selfTestBit s b).pending = s.pending ∧ (selfTestBit s b).par = s.par ∧ (selfTestBit s b).ts = s.ts ∧
    (selfTestBit s b).beat = s.beat ∧ (selfTestBit s b).latNs = s.latNs ∧ (selfTestBit s b).latS = s.latS ∧
    (selfTestBit s b).cfg = s.cfg ∧ (selfTestBit s b).rings = s.rings ∧ (selfTestBit s b).turn = s.turn ∧
    (selfTestBit s b).awn = s.awn ∧ (selfTestBit s b).stage = s.stage ∧ (selfTestBit s b).inflight = s.inflight ∧
    (selfTestBit s b).waiting = s.waiting ∧ (selfTestBit s b).seq = s.seq ∧ (selfTestBit s b).charges = s.charges ∧
    (selfTestBit s b).squallDebt = s.squallDebt ∧ (selfTestBit s b).pairSpent = s.pairSpent ∧
    (selfTestBit s b).regs = s.regs ∧ (selfTestBit s b).mbxNsIn = s.mbxNsIn ∧
    (selfTestBit s b).mbxNsOut = s.mbxNsOut ∧ (selfTestBit s b).mbxSIn = s.mbxSIn ∧
    (selfTestBit s b).mbxSOut = s.mbxSOut ∧ (selfTestBit s b).ansNs = s.ansNs ∧ (selfTestBit s b).ansS = s.ansS ∧
    (selfTestBit s b).layouts = s.layouts ∧ (selfTestBit s b).rules = s.rules ∧
    (selfTestBit s b).streams = s.streams ∧ (selfTestBit s b).stash = s.stash ∧ (selfTestBit s b).queues = s.queues ∧
    (selfTestBit s b).dram = s.dram ∧ (selfTestBit s b).chk = s.chk ∧ (selfTestBit s b).remap = s.remap ∧
    (selfTestBit s b).cache = s.cache ∧ (selfTestBit s b).units = s.units ∧
    (selfTestBit s b).fencedStalls = s.fencedStalls ∧ (selfTestBit s b).refreshDebt = s.refreshDebt ∧
    (selfTestBit s b).refreshPtr = s.refreshPtr ∧ (selfTestBit s b).sites = s.sites ∧
    (selfTestBit s b).chans = s.chans ∧ (selfTestBit s b).spots = s.spots ∧ (selfTestBit s b).defer = s.defer ∧
    (selfTestBit s b).outst = s.outst ∧ (selfTestBit s b).nextReq = s.nextReq ∧
    (selfTestBit s b).tracker = s.tracker ∧ (selfTestBit s b).heldNarrow = s.heldNarrow ∧
    (selfTestBit s b).arb = s.arb ∧ (selfTestBit s b).xstreams = s.xstreams ∧ (selfTestBit s b).link = s.link ∧
    (selfTestBit s b).linkFrom = s.linkFrom ∧ (selfTestBit s b).linkAt = s.linkAt ∧
    (selfTestBit s b).xheld = s.xheld ∧ (selfTestBit s b).boot = s.boot ∧ (selfTestBit s b).sec = s.sec ∧
    (selfTestBit s b).tally = s.tally ∧ (selfTestBit s b).led = s.led ∧ (selfTestBit s b).tap = s.tap ∧
    (selfTestBit s b).bdregs = s.bdregs ∧ (selfTestBit s b).fatal = s.fatal ∧
    (selfTestBit s b).batching = s.batching ∧ (selfTestBit s b).out = s.out ∧ (selfTestBit s b).fresh = s.fresh := by
  rw [selfTestBit_eq]
  refine ⟨rfl, rfl, rfl, rfl, rfl, rfl, rfl, rfl, rfl, rfl, rfl, rfl, rfl, rfl, rfl, rfl, rfl, rfl, rfl, rfl, rfl, rfl, rfl, rfl, rfl, rfl, rfl, rfl, rfl, rfl, rfl, rfl, rfl, rfl, rfl, rfl, rfl, rfl, rfl, rfl, rfl, rfl, rfl, rfl, rfl, rfl, rfl, rfl, rfl, rfl, rfl, rfl, rfl, rfl, rfl, rfl, rfl, rfl, rfl, rfl, rfl⟩

theorem setQueue_eq (s : State) (q : Fin 16) (f : Queue → Queue) :
    setQueue s q f = { s with
      queues := (setQueue s q f).queues } := rfl

@[simp] theorem setQueue_fields (s : State) (q : Fin 16) (f : Queue → Queue) :
    (setQueue s q f).pending = s.pending ∧ (setQueue s q f).par = s.par ∧ (setQueue s q f).ts = s.ts ∧
    (setQueue s q f).beat = s.beat ∧ (setQueue s q f).latNs = s.latNs ∧ (setQueue s q f).latS = s.latS ∧
    (setQueue s q f).cfg = s.cfg ∧ (setQueue s q f).rings = s.rings ∧ (setQueue s q f).turn = s.turn ∧
    (setQueue s q f).awn = s.awn ∧ (setQueue s q f).stage = s.stage ∧ (setQueue s q f).inflight = s.inflight ∧
    (setQueue s q f).waiting = s.waiting ∧ (setQueue s q f).seq = s.seq ∧ (setQueue s q f).charges = s.charges ∧
    (setQueue s q f).squallDebt = s.squallDebt ∧ (setQueue s q f).pairSpent = s.pairSpent ∧
    (setQueue s q f).regs = s.regs ∧ (setQueue s q f).mbxNsIn = s.mbxNsIn ∧ (setQueue s q f).mbxNsOut = s.mbxNsOut ∧
    (setQueue s q f).mbxSIn = s.mbxSIn ∧ (setQueue s q f).mbxSOut = s.mbxSOut ∧ (setQueue s q f).ansNs = s.ansNs ∧
    (setQueue s q f).ansS = s.ansS ∧ (setQueue s q f).layouts = s.layouts ∧ (setQueue s q f).rules = s.rules ∧
    (setQueue s q f).streams = s.streams ∧ (setQueue s q f).stash = s.stash ∧ (setQueue s q f).dram = s.dram ∧
    (setQueue s q f).chk = s.chk ∧ (setQueue s q f).remap = s.remap ∧ (setQueue s q f).cache = s.cache ∧
    (setQueue s q f).units = s.units ∧ (setQueue s q f).fencedStalls = s.fencedStalls ∧
    (setQueue s q f).refreshDebt = s.refreshDebt ∧ (setQueue s q f).refreshPtr = s.refreshPtr ∧
    (setQueue s q f).sites = s.sites ∧ (setQueue s q f).chans = s.chans ∧ (setQueue s q f).spots = s.spots ∧
    (setQueue s q f).defer = s.defer ∧ (setQueue s q f).outst = s.outst ∧ (setQueue s q f).nextReq = s.nextReq ∧
    (setQueue s q f).tracker = s.tracker ∧ (setQueue s q f).heldNarrow = s.heldNarrow ∧ (setQueue s q f).arb = s.arb ∧
    (setQueue s q f).xstreams = s.xstreams ∧ (setQueue s q f).link = s.link ∧ (setQueue s q f).linkFrom = s.linkFrom ∧
    (setQueue s q f).linkAt = s.linkAt ∧ (setQueue s q f).xheld = s.xheld ∧ (setQueue s q f).power = s.power ∧
    (setQueue s q f).boot = s.boot ∧ (setQueue s q f).sec = s.sec ∧ (setQueue s q f).tally = s.tally ∧
    (setQueue s q f).led = s.led ∧ (setQueue s q f).tap = s.tap ∧ (setQueue s q f).bdregs = s.bdregs ∧
    (setQueue s q f).fatal = s.fatal ∧ (setQueue s q f).batching = s.batching ∧ (setQueue s q f).out = s.out ∧
    (setQueue s q f).fresh = s.fresh := by
  rw [setQueue_eq]
  refine ⟨rfl, rfl, rfl, rfl, rfl, rfl, rfl, rfl, rfl, rfl, rfl, rfl, rfl, rfl, rfl, rfl, rfl, rfl, rfl, rfl, rfl, rfl, rfl, rfl, rfl, rfl, rfl, rfl, rfl, rfl, rfl, rfl, rfl, rfl, rfl, rfl, rfl, rfl, rfl, rfl, rfl, rfl, rfl, rfl, rfl, rfl, rfl, rfl, rfl, rfl, rfl, rfl, rfl, rfl, rfl, rfl, rfl, rfl, rfl, rfl, rfl⟩

theorem putStream_eq (s : State) (n : Nat) (x : XStream) :
    putStream s n x = { s with
      xstreams := (putStream s n x).xstreams } := rfl

@[simp] theorem putStream_fields (s : State) (n : Nat) (x : XStream) :
    (putStream s n x).pending = s.pending ∧ (putStream s n x).par = s.par ∧ (putStream s n x).ts = s.ts ∧
    (putStream s n x).beat = s.beat ∧ (putStream s n x).latNs = s.latNs ∧ (putStream s n x).latS = s.latS ∧
    (putStream s n x).cfg = s.cfg ∧ (putStream s n x).rings = s.rings ∧ (putStream s n x).turn = s.turn ∧
    (putStream s n x).awn = s.awn ∧ (putStream s n x).stage = s.stage ∧ (putStream s n x).inflight = s.inflight ∧
    (putStream s n x).waiting = s.waiting ∧ (putStream s n x).seq = s.seq ∧ (putStream s n x).charges = s.charges ∧
    (putStream s n x).squallDebt = s.squallDebt ∧ (putStream s n x).pairSpent = s.pairSpent ∧
    (putStream s n x).regs = s.regs ∧ (putStream s n x).mbxNsIn = s.mbxNsIn ∧
    (putStream s n x).mbxNsOut = s.mbxNsOut ∧ (putStream s n x).mbxSIn = s.mbxSIn ∧
    (putStream s n x).mbxSOut = s.mbxSOut ∧ (putStream s n x).ansNs = s.ansNs ∧ (putStream s n x).ansS = s.ansS ∧
    (putStream s n x).layouts = s.layouts ∧ (putStream s n x).rules = s.rules ∧
    (putStream s n x).streams = s.streams ∧ (putStream s n x).stash = s.stash ∧ (putStream s n x).queues = s.queues ∧
    (putStream s n x).dram = s.dram ∧ (putStream s n x).chk = s.chk ∧ (putStream s n x).remap = s.remap ∧
    (putStream s n x).cache = s.cache ∧ (putStream s n x).units = s.units ∧
    (putStream s n x).fencedStalls = s.fencedStalls ∧ (putStream s n x).refreshDebt = s.refreshDebt ∧
    (putStream s n x).refreshPtr = s.refreshPtr ∧ (putStream s n x).sites = s.sites ∧
    (putStream s n x).chans = s.chans ∧ (putStream s n x).spots = s.spots ∧ (putStream s n x).defer = s.defer ∧
    (putStream s n x).outst = s.outst ∧ (putStream s n x).nextReq = s.nextReq ∧
    (putStream s n x).tracker = s.tracker ∧ (putStream s n x).heldNarrow = s.heldNarrow ∧
    (putStream s n x).arb = s.arb ∧ (putStream s n x).link = s.link ∧ (putStream s n x).linkFrom = s.linkFrom ∧
    (putStream s n x).linkAt = s.linkAt ∧ (putStream s n x).xheld = s.xheld ∧ (putStream s n x).power = s.power ∧
    (putStream s n x).boot = s.boot ∧ (putStream s n x).sec = s.sec ∧ (putStream s n x).tally = s.tally ∧
    (putStream s n x).led = s.led ∧ (putStream s n x).tap = s.tap ∧ (putStream s n x).bdregs = s.bdregs ∧
    (putStream s n x).fatal = s.fatal ∧ (putStream s n x).batching = s.batching ∧ (putStream s n x).out = s.out ∧
    (putStream s n x).fresh = s.fresh := by
  rw [putStream_eq]
  refine ⟨rfl, rfl, rfl, rfl, rfl, rfl, rfl, rfl, rfl, rfl, rfl, rfl, rfl, rfl, rfl, rfl, rfl, rfl, rfl, rfl, rfl, rfl, rfl, rfl, rfl, rfl, rfl, rfl, rfl, rfl, rfl, rfl, rfl, rfl, rfl, rfl, rfl, rfl, rfl, rfl, rfl, rfl, rfl, rfl, rfl, rfl, rfl, rfl, rfl, rfl, rfl, rfl, rfl, rfl, rfl, rfl, rfl, rfl, rfl, rfl, rfl⟩

theorem axiAnswer_eq (s : State) (a : BitVec 2) (d : W32) :
    axiAnswer s a d = { s with
      regs := (axiAnswer s a d).regs } := rfl

@[simp] theorem axiAnswer_fields (s : State) (a : BitVec 2) (d : W32) :
    (axiAnswer s a d).pending = s.pending ∧ (axiAnswer s a d).par = s.par ∧ (axiAnswer s a d).ts = s.ts ∧
    (axiAnswer s a d).beat = s.beat ∧ (axiAnswer s a d).latNs = s.latNs ∧ (axiAnswer s a d).latS = s.latS ∧
    (axiAnswer s a d).cfg = s.cfg ∧ (axiAnswer s a d).rings = s.rings ∧ (axiAnswer s a d).turn = s.turn ∧
    (axiAnswer s a d).awn = s.awn ∧ (axiAnswer s a d).stage = s.stage ∧ (axiAnswer s a d).inflight = s.inflight ∧
    (axiAnswer s a d).waiting = s.waiting ∧ (axiAnswer s a d).seq = s.seq ∧ (axiAnswer s a d).charges = s.charges ∧
    (axiAnswer s a d).squallDebt = s.squallDebt ∧ (axiAnswer s a d).pairSpent = s.pairSpent ∧
    (axiAnswer s a d).mbxNsIn = s.mbxNsIn ∧ (axiAnswer s a d).mbxNsOut = s.mbxNsOut ∧
    (axiAnswer s a d).mbxSIn = s.mbxSIn ∧ (axiAnswer s a d).mbxSOut = s.mbxSOut ∧ (axiAnswer s a d).ansNs = s.ansNs ∧
    (axiAnswer s a d).ansS = s.ansS ∧ (axiAnswer s a d).layouts = s.layouts ∧ (axiAnswer s a d).rules = s.rules ∧
    (axiAnswer s a d).streams = s.streams ∧ (axiAnswer s a d).stash = s.stash ∧ (axiAnswer s a d).queues = s.queues ∧
    (axiAnswer s a d).dram = s.dram ∧ (axiAnswer s a d).chk = s.chk ∧ (axiAnswer s a d).remap = s.remap ∧
    (axiAnswer s a d).cache = s.cache ∧ (axiAnswer s a d).units = s.units ∧
    (axiAnswer s a d).fencedStalls = s.fencedStalls ∧ (axiAnswer s a d).refreshDebt = s.refreshDebt ∧
    (axiAnswer s a d).refreshPtr = s.refreshPtr ∧ (axiAnswer s a d).sites = s.sites ∧
    (axiAnswer s a d).chans = s.chans ∧ (axiAnswer s a d).spots = s.spots ∧ (axiAnswer s a d).defer = s.defer ∧
    (axiAnswer s a d).outst = s.outst ∧ (axiAnswer s a d).nextReq = s.nextReq ∧
    (axiAnswer s a d).tracker = s.tracker ∧ (axiAnswer s a d).heldNarrow = s.heldNarrow ∧
    (axiAnswer s a d).arb = s.arb ∧ (axiAnswer s a d).xstreams = s.xstreams ∧ (axiAnswer s a d).link = s.link ∧
    (axiAnswer s a d).linkFrom = s.linkFrom ∧ (axiAnswer s a d).linkAt = s.linkAt ∧
    (axiAnswer s a d).xheld = s.xheld ∧ (axiAnswer s a d).power = s.power ∧ (axiAnswer s a d).boot = s.boot ∧
    (axiAnswer s a d).sec = s.sec ∧ (axiAnswer s a d).tally = s.tally ∧ (axiAnswer s a d).led = s.led ∧
    (axiAnswer s a d).tap = s.tap ∧ (axiAnswer s a d).bdregs = s.bdregs ∧ (axiAnswer s a d).fatal = s.fatal ∧
    (axiAnswer s a d).batching = s.batching ∧ (axiAnswer s a d).out = s.out ∧ (axiAnswer s a d).fresh = s.fresh := by
  rw [axiAnswer_eq]
  refine ⟨rfl, rfl, rfl, rfl, rfl, rfl, rfl, rfl, rfl, rfl, rfl, rfl, rfl, rfl, rfl, rfl, rfl, rfl, rfl, rfl, rfl, rfl, rfl, rfl, rfl, rfl, rfl, rfl, rfl, rfl, rfl, rfl, rfl, rfl, rfl, rfl, rfl, rfl, rfl, rfl, rfl, rfl, rfl, rfl, rfl, rfl, rfl, rfl, rfl, rfl, rfl, rfl, rfl, rfl, rfl, rfl, rfl, rfl, rfl, rfl, rfl⟩

theorem addAnswer_eq (s : State) (w : Bool) (a b : BitVec 8) :
    addAnswer s w a b = { s with
      ansNs := (addAnswer s w a b).ansNs, ansS := (addAnswer s w a b).ansS } := by
  unfold addAnswer
  split <;> rfl

@[simp] theorem addAnswer_fields (s : State) (w : Bool) (a b : BitVec 8) :
    (addAnswer s w a b).pending = s.pending ∧ (addAnswer s w a b).par = s.par ∧ (addAnswer s w a b).ts = s.ts ∧
    (addAnswer s w a b).beat = s.beat ∧ (addAnswer s w a b).latNs = s.latNs ∧ (addAnswer s w a b).latS = s.latS ∧
    (addAnswer s w a b).cfg = s.cfg ∧ (addAnswer s w a b).rings = s.rings ∧ (addAnswer s w a b).turn = s.turn ∧
    (addAnswer s w a b).awn = s.awn ∧ (addAnswer s w a b).stage = s.stage ∧
    (addAnswer s w a b).inflight = s.inflight ∧ (addAnswer s w a b).waiting = s.waiting ∧
    (addAnswer s w a b).seq = s.seq ∧ (addAnswer s w a b).charges = s.charges ∧
    (addAnswer s w a b).squallDebt = s.squallDebt ∧ (addAnswer s w a b).pairSpent = s.pairSpent ∧
    (addAnswer s w a b).regs = s.regs ∧ (addAnswer s w a b).mbxNsIn = s.mbxNsIn ∧
    (addAnswer s w a b).mbxNsOut = s.mbxNsOut ∧ (addAnswer s w a b).mbxSIn = s.mbxSIn ∧
    (addAnswer s w a b).mbxSOut = s.mbxSOut ∧ (addAnswer s w a b).layouts = s.layouts ∧
    (addAnswer s w a b).rules = s.rules ∧ (addAnswer s w a b).streams = s.streams ∧
    (addAnswer s w a b).stash = s.stash ∧ (addAnswer s w a b).queues = s.queues ∧ (addAnswer s w a b).dram = s.dram ∧
    (addAnswer s w a b).chk = s.chk ∧ (addAnswer s w a b).remap = s.remap ∧ (addAnswer s w a b).cache = s.cache ∧
    (addAnswer s w a b).units = s.units ∧ (addAnswer s w a b).fencedStalls = s.fencedStalls ∧
    (addAnswer s w a b).refreshDebt = s.refreshDebt ∧ (addAnswer s w a b).refreshPtr = s.refreshPtr ∧
    (addAnswer s w a b).sites = s.sites ∧ (addAnswer s w a b).chans = s.chans ∧ (addAnswer s w a b).spots = s.spots ∧
    (addAnswer s w a b).defer = s.defer ∧ (addAnswer s w a b).outst = s.outst ∧
    (addAnswer s w a b).nextReq = s.nextReq ∧ (addAnswer s w a b).tracker = s.tracker ∧
    (addAnswer s w a b).heldNarrow = s.heldNarrow ∧ (addAnswer s w a b).arb = s.arb ∧
    (addAnswer s w a b).xstreams = s.xstreams ∧ (addAnswer s w a b).link = s.link ∧
    (addAnswer s w a b).linkFrom = s.linkFrom ∧ (addAnswer s w a b).linkAt = s.linkAt ∧
    (addAnswer s w a b).xheld = s.xheld ∧ (addAnswer s w a b).power = s.power ∧ (addAnswer s w a b).boot = s.boot ∧
    (addAnswer s w a b).sec = s.sec ∧ (addAnswer s w a b).tally = s.tally ∧ (addAnswer s w a b).led = s.led ∧
    (addAnswer s w a b).tap = s.tap ∧ (addAnswer s w a b).bdregs = s.bdregs ∧ (addAnswer s w a b).fatal = s.fatal ∧
    (addAnswer s w a b).batching = s.batching ∧ (addAnswer s w a b).out = s.out ∧ (addAnswer s w a b).fresh = s.fresh := by
  rw [addAnswer_eq]
  refine ⟨rfl, rfl, rfl, rfl, rfl, rfl, rfl, rfl, rfl, rfl, rfl, rfl, rfl, rfl, rfl, rfl, rfl, rfl, rfl, rfl, rfl, rfl, rfl, rfl, rfl, rfl, rfl, rfl, rfl, rfl, rfl, rfl, rfl, rfl, rfl, rfl, rfl, rfl, rfl, rfl, rfl, rfl, rfl, rfl, rfl, rfl, rfl, rfl, rfl, rfl, rfl, rfl, rfl, rfl, rfl, rfl, rfl, rfl, rfl, rfl⟩

theorem setKey_eq (s : State) (k : Fin 16) (x : Key) :
    setKey s k x = { s with
      sec := (setKey s k x).sec } := rfl

@[simp] theorem setKey_fields (s : State) (k : Fin 16) (x : Key) :
    (setKey s k x).pending = s.pending ∧ (setKey s k x).par = s.par ∧ (setKey s k x).ts = s.ts ∧
    (setKey s k x).beat = s.beat ∧ (setKey s k x).latNs = s.latNs ∧ (setKey s k x).latS = s.latS ∧
    (setKey s k x).cfg = s.cfg ∧ (setKey s k x).rings = s.rings ∧ (setKey s k x).turn = s.turn ∧
    (setKey s k x).awn = s.awn ∧ (setKey s k x).stage = s.stage ∧ (setKey s k x).inflight = s.inflight ∧
    (setKey s k x).waiting = s.waiting ∧ (setKey s k x).seq = s.seq ∧ (setKey s k x).charges = s.charges ∧
    (setKey s k x).squallDebt = s.squallDebt ∧ (setKey s k x).pairSpent = s.pairSpent ∧ (setKey s k x).regs = s.regs ∧
    (setKey s k x).mbxNsIn = s.mbxNsIn ∧ (setKey s k x).mbxNsOut = s.mbxNsOut ∧ (setKey s k x).mbxSIn = s.mbxSIn ∧
    (setKey s k x).mbxSOut = s.mbxSOut ∧ (setKey s k x).ansNs = s.ansNs ∧ (setKey s k x).ansS = s.ansS ∧
    (setKey s k x).layouts = s.layouts ∧ (setKey s k x).rules = s.rules ∧ (setKey s k x).streams = s.streams ∧
    (setKey s k x).stash = s.stash ∧ (setKey s k x).queues = s.queues ∧ (setKey s k x).dram = s.dram ∧
    (setKey s k x).chk = s.chk ∧ (setKey s k x).remap = s.remap ∧ (setKey s k x).cache = s.cache ∧
    (setKey s k x).units = s.units ∧ (setKey s k x).fencedStalls = s.fencedStalls ∧
    (setKey s k x).refreshDebt = s.refreshDebt ∧ (setKey s k x).refreshPtr = s.refreshPtr ∧
    (setKey s k x).sites = s.sites ∧ (setKey s k x).chans = s.chans ∧ (setKey s k x).spots = s.spots ∧
    (setKey s k x).defer = s.defer ∧ (setKey s k x).outst = s.outst ∧ (setKey s k x).nextReq = s.nextReq ∧
    (setKey s k x).tracker = s.tracker ∧ (setKey s k x).heldNarrow = s.heldNarrow ∧ (setKey s k x).arb = s.arb ∧
    (setKey s k x).xstreams = s.xstreams ∧ (setKey s k x).link = s.link ∧ (setKey s k x).linkFrom = s.linkFrom ∧
    (setKey s k x).linkAt = s.linkAt ∧ (setKey s k x).xheld = s.xheld ∧ (setKey s k x).power = s.power ∧
    (setKey s k x).boot = s.boot ∧ (setKey s k x).tally = s.tally ∧ (setKey s k x).led = s.led ∧
    (setKey s k x).tap = s.tap ∧ (setKey s k x).bdregs = s.bdregs ∧ (setKey s k x).fatal = s.fatal ∧
    (setKey s k x).batching = s.batching ∧ (setKey s k x).out = s.out ∧ (setKey s k x).fresh = s.fresh := by
  rw [setKey_eq]
  refine ⟨rfl, rfl, rfl, rfl, rfl, rfl, rfl, rfl, rfl, rfl, rfl, rfl, rfl, rfl, rfl, rfl, rfl, rfl, rfl, rfl, rfl, rfl, rfl, rfl, rfl, rfl, rfl, rfl, rfl, rfl, rfl, rfl, rfl, rfl, rfl, rfl, rfl, rfl, rfl, rfl, rfl, rfl, rfl, rfl, rfl, rfl, rfl, rfl, rfl, rfl, rfl, rfl, rfl, rfl, rfl, rfl, rfl, rfl, rfl, rfl, rfl⟩

theorem putRaw_eq (s : State) (p : Nat) (c : Col) (k : BitVec 36) :
    putRaw s p c k = { s with
      dram := (putRaw s p c k).dram, chk := (putRaw s p c k).chk } := by
  unfold putRaw
  dsimp only
  split <;> rfl

@[simp] theorem putRaw_fields (s : State) (p : Nat) (c : Col) (k : BitVec 36) :
    (putRaw s p c k).pending = s.pending ∧ (putRaw s p c k).par = s.par ∧ (putRaw s p c k).ts = s.ts ∧
    (putRaw s p c k).beat = s.beat ∧ (putRaw s p c k).latNs = s.latNs ∧ (putRaw s p c k).latS = s.latS ∧
    (putRaw s p c k).cfg = s.cfg ∧ (putRaw s p c k).rings = s.rings ∧ (putRaw s p c k).turn = s.turn ∧
    (putRaw s p c k).awn = s.awn ∧ (putRaw s p c k).stage = s.stage ∧ (putRaw s p c k).inflight = s.inflight ∧
    (putRaw s p c k).waiting = s.waiting ∧ (putRaw s p c k).seq = s.seq ∧ (putRaw s p c k).charges = s.charges ∧
    (putRaw s p c k).squallDebt = s.squallDebt ∧ (putRaw s p c k).pairSpent = s.pairSpent ∧
    (putRaw s p c k).regs = s.regs ∧ (putRaw s p c k).mbxNsIn = s.mbxNsIn ∧ (putRaw s p c k).mbxNsOut = s.mbxNsOut ∧
    (putRaw s p c k).mbxSIn = s.mbxSIn ∧ (putRaw s p c k).mbxSOut = s.mbxSOut ∧ (putRaw s p c k).ansNs = s.ansNs ∧
    (putRaw s p c k).ansS = s.ansS ∧ (putRaw s p c k).layouts = s.layouts ∧ (putRaw s p c k).rules = s.rules ∧
    (putRaw s p c k).streams = s.streams ∧ (putRaw s p c k).stash = s.stash ∧ (putRaw s p c k).queues = s.queues ∧
    (putRaw s p c k).remap = s.remap ∧ (putRaw s p c k).cache = s.cache ∧ (putRaw s p c k).units = s.units ∧
    (putRaw s p c k).fencedStalls = s.fencedStalls ∧ (putRaw s p c k).refreshDebt = s.refreshDebt ∧
    (putRaw s p c k).refreshPtr = s.refreshPtr ∧ (putRaw s p c k).sites = s.sites ∧ (putRaw s p c k).chans = s.chans ∧
    (putRaw s p c k).spots = s.spots ∧ (putRaw s p c k).defer = s.defer ∧ (putRaw s p c k).outst = s.outst ∧
    (putRaw s p c k).nextReq = s.nextReq ∧ (putRaw s p c k).tracker = s.tracker ∧
    (putRaw s p c k).heldNarrow = s.heldNarrow ∧ (putRaw s p c k).arb = s.arb ∧
    (putRaw s p c k).xstreams = s.xstreams ∧ (putRaw s p c k).link = s.link ∧ (putRaw s p c k).linkFrom = s.linkFrom ∧
    (putRaw s p c k).linkAt = s.linkAt ∧ (putRaw s p c k).xheld = s.xheld ∧ (putRaw s p c k).power = s.power ∧
    (putRaw s p c k).boot = s.boot ∧ (putRaw s p c k).sec = s.sec ∧ (putRaw s p c k).tally = s.tally ∧
    (putRaw s p c k).led = s.led ∧ (putRaw s p c k).tap = s.tap ∧ (putRaw s p c k).bdregs = s.bdregs ∧
    (putRaw s p c k).fatal = s.fatal ∧ (putRaw s p c k).batching = s.batching ∧ (putRaw s p c k).out = s.out ∧
    (putRaw s p c k).fresh = s.fresh := by
  rw [putRaw_eq]
  refine ⟨rfl, rfl, rfl, rfl, rfl, rfl, rfl, rfl, rfl, rfl, rfl, rfl, rfl, rfl, rfl, rfl, rfl, rfl, rfl, rfl, rfl, rfl, rfl, rfl, rfl, rfl, rfl, rfl, rfl, rfl, rfl, rfl, rfl, rfl, rfl, rfl, rfl, rfl, rfl, rfl, rfl, rfl, rfl, rfl, rfl, rfl, rfl, rfl, rfl, rfl, rfl, rfl, rfl, rfl, rfl, rfl, rfl, rfl, rfl, rfl⟩

theorem beatStatus_eq (s : State) (b : W32) :
    beatStatus s b = { s with
      beat := (beatStatus s b).beat } := rfl

@[simp] theorem beatStatus_fields (s : State) (b : W32) :
    (beatStatus s b).pending = s.pending ∧ (beatStatus s b).par = s.par ∧ (beatStatus s b).ts = s.ts ∧
    (beatStatus s b).latNs = s.latNs ∧ (beatStatus s b).latS = s.latS ∧ (beatStatus s b).cfg = s.cfg ∧
    (beatStatus s b).rings = s.rings ∧ (beatStatus s b).turn = s.turn ∧ (beatStatus s b).awn = s.awn ∧
    (beatStatus s b).stage = s.stage ∧ (beatStatus s b).inflight = s.inflight ∧ (beatStatus s b).waiting = s.waiting ∧
    (beatStatus s b).seq = s.seq ∧ (beatStatus s b).charges = s.charges ∧ (beatStatus s b).squallDebt = s.squallDebt ∧
    (beatStatus s b).pairSpent = s.pairSpent ∧ (beatStatus s b).regs = s.regs ∧ (beatStatus s b).mbxNsIn = s.mbxNsIn ∧
    (beatStatus s b).mbxNsOut = s.mbxNsOut ∧ (beatStatus s b).mbxSIn = s.mbxSIn ∧
    (beatStatus s b).mbxSOut = s.mbxSOut ∧ (beatStatus s b).ansNs = s.ansNs ∧ (beatStatus s b).ansS = s.ansS ∧
    (beatStatus s b).layouts = s.layouts ∧ (beatStatus s b).rules = s.rules ∧ (beatStatus s b).streams = s.streams ∧
    (beatStatus s b).stash = s.stash ∧ (beatStatus s b).queues = s.queues ∧ (beatStatus s b).dram = s.dram ∧
    (beatStatus s b).chk = s.chk ∧ (beatStatus s b).remap = s.remap ∧ (beatStatus s b).cache = s.cache ∧
    (beatStatus s b).units = s.units ∧ (beatStatus s b).fencedStalls = s.fencedStalls ∧
    (beatStatus s b).refreshDebt = s.refreshDebt ∧ (beatStatus s b).refreshPtr = s.refreshPtr ∧
    (beatStatus s b).sites = s.sites ∧ (beatStatus s b).chans = s.chans ∧ (beatStatus s b).spots = s.spots ∧
    (beatStatus s b).defer = s.defer ∧ (beatStatus s b).outst = s.outst ∧ (beatStatus s b).nextReq = s.nextReq ∧
    (beatStatus s b).tracker = s.tracker ∧ (beatStatus s b).heldNarrow = s.heldNarrow ∧ (beatStatus s b).arb = s.arb ∧
    (beatStatus s b).xstreams = s.xstreams ∧ (beatStatus s b).link = s.link ∧ (beatStatus s b).linkFrom = s.linkFrom ∧
    (beatStatus s b).linkAt = s.linkAt ∧ (beatStatus s b).xheld = s.xheld ∧ (beatStatus s b).power = s.power ∧
    (beatStatus s b).boot = s.boot ∧ (beatStatus s b).sec = s.sec ∧ (beatStatus s b).tally = s.tally ∧
    (beatStatus s b).led = s.led ∧ (beatStatus s b).tap = s.tap ∧ (beatStatus s b).bdregs = s.bdregs ∧
    (beatStatus s b).fatal = s.fatal ∧ (beatStatus s b).batching = s.batching ∧ (beatStatus s b).out = s.out ∧
    (beatStatus s b).fresh = s.fresh := by
  rw [beatStatus_eq]
  refine ⟨rfl, rfl, rfl, rfl, rfl, rfl, rfl, rfl, rfl, rfl, rfl, rfl, rfl, rfl, rfl, rfl, rfl, rfl, rfl, rfl, rfl, rfl, rfl, rfl, rfl, rfl, rfl, rfl, rfl, rfl, rfl, rfl, rfl, rfl, rfl, rfl, rfl, rfl, rfl, rfl, rfl, rfl, rfl, rfl, rfl, rfl, rfl, rfl, rfl, rfl, rfl, rfl, rfl, rfl, rfl, rfl, rfl, rfl, rfl, rfl, rfl⟩

theorem siteEvent_eq (s : State) (x : SiteId) (b : Nat) (p : Place) (a : Nat) :
    siteEvent s x b p a = { s with
      sites := (siteEvent s x b p a).sites, led := (siteEvent s x b p a).led } := by
  unfold siteEvent
  rw [ledAdd_eq]
  rfl

@[simp] theorem siteEvent_fields (s : State) (x : SiteId) (b : Nat) (p : Place) (a : Nat) :
    (siteEvent s x b p a).pending = s.pending ∧ (siteEvent s x b p a).par = s.par ∧ (siteEvent s x b p a).ts = s.ts ∧
    (siteEvent s x b p a).beat = s.beat ∧ (siteEvent s x b p a).latNs = s.latNs ∧
    (siteEvent s x b p a).latS = s.latS ∧ (siteEvent s x b p a).cfg = s.cfg ∧ (siteEvent s x b p a).rings = s.rings ∧
    (siteEvent s x b p a).turn = s.turn ∧ (siteEvent s x b p a).awn = s.awn ∧ (siteEvent s x b p a).stage = s.stage ∧
    (siteEvent s x b p a).inflight = s.inflight ∧ (siteEvent s x b p a).waiting = s.waiting ∧
    (siteEvent s x b p a).seq = s.seq ∧ (siteEvent s x b p a).charges = s.charges ∧
    (siteEvent s x b p a).squallDebt = s.squallDebt ∧ (siteEvent s x b p a).pairSpent = s.pairSpent ∧
    (siteEvent s x b p a).regs = s.regs ∧ (siteEvent s x b p a).mbxNsIn = s.mbxNsIn ∧
    (siteEvent s x b p a).mbxNsOut = s.mbxNsOut ∧ (siteEvent s x b p a).mbxSIn = s.mbxSIn ∧
    (siteEvent s x b p a).mbxSOut = s.mbxSOut ∧ (siteEvent s x b p a).ansNs = s.ansNs ∧
    (siteEvent s x b p a).ansS = s.ansS ∧ (siteEvent s x b p a).layouts = s.layouts ∧
    (siteEvent s x b p a).rules = s.rules ∧ (siteEvent s x b p a).streams = s.streams ∧
    (siteEvent s x b p a).stash = s.stash ∧ (siteEvent s x b p a).queues = s.queues ∧
    (siteEvent s x b p a).dram = s.dram ∧ (siteEvent s x b p a).chk = s.chk ∧ (siteEvent s x b p a).remap = s.remap ∧
    (siteEvent s x b p a).cache = s.cache ∧ (siteEvent s x b p a).units = s.units ∧
    (siteEvent s x b p a).fencedStalls = s.fencedStalls ∧ (siteEvent s x b p a).refreshDebt = s.refreshDebt ∧
    (siteEvent s x b p a).refreshPtr = s.refreshPtr ∧ (siteEvent s x b p a).chans = s.chans ∧
    (siteEvent s x b p a).spots = s.spots ∧ (siteEvent s x b p a).defer = s.defer ∧
    (siteEvent s x b p a).outst = s.outst ∧ (siteEvent s x b p a).nextReq = s.nextReq ∧
    (siteEvent s x b p a).tracker = s.tracker ∧ (siteEvent s x b p a).heldNarrow = s.heldNarrow ∧
    (siteEvent s x b p a).arb = s.arb ∧ (siteEvent s x b p a).xstreams = s.xstreams ∧
    (siteEvent s x b p a).link = s.link ∧ (siteEvent s x b p a).linkFrom = s.linkFrom ∧
    (siteEvent s x b p a).linkAt = s.linkAt ∧ (siteEvent s x b p a).xheld = s.xheld ∧
    (siteEvent s x b p a).power = s.power ∧ (siteEvent s x b p a).boot = s.boot ∧ (siteEvent s x b p a).sec = s.sec ∧
    (siteEvent s x b p a).tally = s.tally ∧ (siteEvent s x b p a).tap = s.tap ∧
    (siteEvent s x b p a).bdregs = s.bdregs ∧ (siteEvent s x b p a).fatal = s.fatal ∧
    (siteEvent s x b p a).batching = s.batching ∧ (siteEvent s x b p a).out = s.out ∧
    (siteEvent s x b p a).fresh = s.fresh := by
  rw [siteEvent_eq]
  refine ⟨rfl, rfl, rfl, rfl, rfl, rfl, rfl, rfl, rfl, rfl, rfl, rfl, rfl, rfl, rfl, rfl, rfl, rfl, rfl, rfl, rfl, rfl, rfl, rfl, rfl, rfl, rfl, rfl, rfl, rfl, rfl, rfl, rfl, rfl, rfl, rfl, rfl, rfl, rfl, rfl, rfl, rfl, rfl, rfl, rfl, rfl, rfl, rfl, rfl, rfl, rfl, rfl, rfl, rfl, rfl, rfl, rfl, rfl, rfl, rfl⟩

theorem setLive_eq (s : State) (x : SiteId) (m : BitVec 32) :
    setLive s x m = { s with
      sites := (setLive s x m).sites, regs := (setLive s x m).regs } := by
  unfold setLive
  split <;> rfl

@[simp] theorem setLive_fields (s : State) (x : SiteId) (m : BitVec 32) :
    (setLive s x m).pending = s.pending ∧ (setLive s x m).par = s.par ∧ (setLive s x m).ts = s.ts ∧
    (setLive s x m).beat = s.beat ∧ (setLive s x m).latNs = s.latNs ∧ (setLive s x m).latS = s.latS ∧
    (setLive s x m).cfg = s.cfg ∧ (setLive s x m).rings = s.rings ∧ (setLive s x m).turn = s.turn ∧
    (setLive s x m).awn = s.awn ∧ (setLive s x m).stage = s.stage ∧ (setLive s x m).inflight = s.inflight ∧
    (setLive s x m).waiting = s.waiting ∧ (setLive s x m).seq = s.seq ∧ (setLive s x m).charges = s.charges ∧
    (setLive s x m).squallDebt = s.squallDebt ∧ (setLive s x m).pairSpent = s.pairSpent ∧
    (setLive s x m).mbxNsIn = s.mbxNsIn ∧ (setLive s x m).mbxNsOut = s.mbxNsOut ∧ (setLive s x m).mbxSIn = s.mbxSIn ∧
    (setLive s x m).mbxSOut = s.mbxSOut ∧ (setLive s x m).ansNs = s.ansNs ∧ (setLive s x m).ansS = s.ansS ∧
    (setLive s x m).layouts = s.layouts ∧ (setLive s x m).rules = s.rules ∧ (setLive s x m).streams = s.streams ∧
    (setLive s x m).stash = s.stash ∧ (setLive s x m).queues = s.queues ∧ (setLive s x m).dram = s.dram ∧
    (setLive s x m).chk = s.chk ∧ (setLive s x m).remap = s.remap ∧ (setLive s x m).cache = s.cache ∧
    (setLive s x m).units = s.units ∧ (setLive s x m).fencedStalls = s.fencedStalls ∧
    (setLive s x m).refreshDebt = s.refreshDebt ∧ (setLive s x m).refreshPtr = s.refreshPtr ∧
    (setLive s x m).chans = s.chans ∧ (setLive s x m).spots = s.spots ∧ (setLive s x m).defer = s.defer ∧
    (setLive s x m).outst = s.outst ∧ (setLive s x m).nextReq = s.nextReq ∧ (setLive s x m).tracker = s.tracker ∧
    (setLive s x m).heldNarrow = s.heldNarrow ∧ (setLive s x m).arb = s.arb ∧ (setLive s x m).xstreams = s.xstreams ∧
    (setLive s x m).link = s.link ∧ (setLive s x m).linkFrom = s.linkFrom ∧ (setLive s x m).linkAt = s.linkAt ∧
    (setLive s x m).xheld = s.xheld ∧ (setLive s x m).power = s.power ∧ (setLive s x m).boot = s.boot ∧
    (setLive s x m).sec = s.sec ∧ (setLive s x m).tally = s.tally ∧ (setLive s x m).led = s.led ∧
    (setLive s x m).tap = s.tap ∧ (setLive s x m).bdregs = s.bdregs ∧ (setLive s x m).fatal = s.fatal ∧
    (setLive s x m).batching = s.batching ∧ (setLive s x m).out = s.out ∧ (setLive s x m).fresh = s.fresh := by
  rw [setLive_eq]
  refine ⟨rfl, rfl, rfl, rfl, rfl, rfl, rfl, rfl, rfl, rfl, rfl, rfl, rfl, rfl, rfl, rfl, rfl, rfl, rfl, rfl, rfl, rfl, rfl, rfl, rfl, rfl, rfl, rfl, rfl, rfl, rfl, rfl, rfl, rfl, rfl, rfl, rfl, rfl, rfl, rfl, rfl, rfl, rfl, rfl, rfl, rfl, rfl, rfl, rfl, rfl, rfl, rfl, rfl, rfl, rfl, rfl, rfl, rfl, rfl, rfl⟩

theorem syncHold_eq (s : State) (x : SiteId) :
    syncHold s x = { s with
      sites := (syncHold s x).sites, charges := (syncHold s x).charges } := by
  unfold syncHold
  split
  · rfl
  · rw [charge_eq]; rfl
  · rfl

@[simp] theorem syncHold_fields (s : State) (x : SiteId) :
    (syncHold s x).pending = s.pending ∧ (syncHold s x).par = s.par ∧ (syncHold s x).ts = s.ts ∧
    (syncHold s x).beat = s.beat ∧ (syncHold s x).latNs = s.latNs ∧ (syncHold s x).latS = s.latS ∧
    (syncHold s x).cfg = s.cfg ∧ (syncHold s x).rings = s.rings ∧ (syncHold s x).turn = s.turn ∧
    (syncHold s x).awn = s.awn ∧ (syncHold s x).stage = s.stage ∧ (syncHold s x).inflight = s.inflight ∧
    (syncHold s x).waiting = s.waiting ∧ (syncHold s x).seq = s.seq ∧ (syncHold s x).squallDebt = s.squallDebt ∧
    (syncHold s x).pairSpent = s.pairSpent ∧ (syncHold s x).regs = s.regs ∧ (syncHold s x).mbxNsIn = s.mbxNsIn ∧
    (syncHold s x).mbxNsOut = s.mbxNsOut ∧ (syncHold s x).mbxSIn = s.mbxSIn ∧ (syncHold s x).mbxSOut = s.mbxSOut ∧
    (syncHold s x).ansNs = s.ansNs ∧ (syncHold s x).ansS = s.ansS ∧ (syncHold s x).layouts = s.layouts ∧
    (syncHold s x).rules = s.rules ∧ (syncHold s x).streams = s.streams ∧ (syncHold s x).stash = s.stash ∧
    (syncHold s x).queues = s.queues ∧ (syncHold s x).dram = s.dram ∧ (syncHold s x).chk = s.chk ∧
    (syncHold s x).remap = s.remap ∧ (syncHold s x).cache = s.cache ∧ (syncHold s x).units = s.units ∧
    (syncHold s x).fencedStalls = s.fencedStalls ∧ (syncHold s x).refreshDebt = s.refreshDebt ∧
    (syncHold s x).refreshPtr = s.refreshPtr ∧ (syncHold s x).chans = s.chans ∧ (syncHold s x).spots = s.spots ∧
    (syncHold s x).defer = s.defer ∧ (syncHold s x).outst = s.outst ∧ (syncHold s x).nextReq = s.nextReq ∧
    (syncHold s x).tracker = s.tracker ∧ (syncHold s x).heldNarrow = s.heldNarrow ∧ (syncHold s x).arb = s.arb ∧
    (syncHold s x).xstreams = s.xstreams ∧ (syncHold s x).link = s.link ∧ (syncHold s x).linkFrom = s.linkFrom ∧
    (syncHold s x).linkAt = s.linkAt ∧ (syncHold s x).xheld = s.xheld ∧ (syncHold s x).power = s.power ∧
    (syncHold s x).boot = s.boot ∧ (syncHold s x).sec = s.sec ∧ (syncHold s x).tally = s.tally ∧
    (syncHold s x).led = s.led ∧ (syncHold s x).tap = s.tap ∧ (syncHold s x).bdregs = s.bdregs ∧
    (syncHold s x).fatal = s.fatal ∧ (syncHold s x).batching = s.batching ∧ (syncHold s x).out = s.out ∧
    (syncHold s x).fresh = s.fresh := by
  rw [syncHold_eq]
  refine ⟨rfl, rfl, rfl, rfl, rfl, rfl, rfl, rfl, rfl, rfl, rfl, rfl, rfl, rfl, rfl, rfl, rfl, rfl, rfl, rfl, rfl, rfl, rfl, rfl, rfl, rfl, rfl, rfl, rfl, rfl, rfl, rfl, rfl, rfl, rfl, rfl, rfl, rfl, rfl, rfl, rfl, rfl, rfl, rfl, rfl, rfl, rfl, rfl, rfl, rfl, rfl, rfl, rfl, rfl, rfl, rfl, rfl, rfl, rfl, rfl⟩

/-! ### What an updater makes of its field -/

theorem updV_same {α : Type} {n : Nat} (v : Vector α n) (i : Fin n) (f : α → α) : (updV v i f)[i] = f v[i] := by
  simp [updV]

theorem updV_other {α : Type} {n : Nat} (v : Vector α n) {i j : Fin n} (f : α → α) (h : j ≠ i) : (updV v i f)[j] = v[j] := by
  have : i.val ≠ j.val := fun e => h (Fin.ext e.symm)
  simp [updV, this]

@[simp] theorem modRing_same (s : State) (r : RingId) (f : RingSt → RingSt) : (modRing s r f).rings[r] = f s.rings[r] :=
  updV_same ..

theorem modRing_other (s : State) {r q : RingId} (f : RingSt → RingSt) (h : q ≠ r) : (modRing s r f).rings[q] = s.rings[q] :=
  updV_other _ _ h

@[simp] theorem modSite_same (s : State) (x : SiteId) (f : Site → Site) : (modSite s x f).sites[x] = f s.sites[x] :=
  updV_same ..

theorem modSite_other (s : State) {x y : SiteId} (f : Site → Site) (h : y ≠ x) : (modSite s x f).sites[y] = s.sites[y] :=
  updV_other _ _ h

@[simp] theorem setQueue_same (s : State) (q : Fin 16) (f : Queue → Queue) : (setQueue s q f).queues[q] = f s.queues[q] :=
  updV_same ..

theorem setQueue_other (s : State) {q p : Fin 16} (f : Queue → Queue) (h : p ≠ q) : (setQueue s q f).queues[p] = s.queues[p] :=
  updV_other _ _ h

@[simp] theorem getChan_modChan_same (s : State) (x c : Nat) (f : Chan → Chan) :
    getChan (modChan s x c f) x c = f (getChan s x c) := by
  simp [getChan, modChan, kvGetD, kvGet_put_same]

theorem getChan_modChan_other (s : State) {x c y d : Nat} (f : Chan → Chan) (h : chanKey y d ≠ chanKey x c) :
    getChan (modChan s x c f) y d = getChan s y d := by
  simp [getChan, modChan, kvGetD, kvGet_put_other _ _ h]

@[simp] theorem getUnit_putUnit_same (s : State) (k : Nat) (u : Stall) : getUnit (putUnit s k u) k = u := by
  simp [getUnit, putUnit, kvGetD, kvGet_put_same]

theorem getUnit_putUnit_other (s : State) {k j : Nat} (u : Stall) (h : j ≠ k) : getUnit (putUnit s k u) j = getUnit s j := by
  simp [getUnit, putUnit, kvGetD, kvGet_put_other _ _ h]

@[simp] theorem getLayout_putLayout_same (s : State) (id : Nat) (l : Layout) : getLayout (putLayout s id l) id = some l :=
  kvGet_put_same ..

theorem getLayout_putLayout_other (s : State) {id j : Nat} (l : Layout) (h : j ≠ id) :
    getLayout (putLayout s id l) j = getLayout s j := kvGet_put_other _ _ h

theorem getLayout_modLayout (s : State) (id : Nat) (f : Layout → Layout) :
    getLayout (modLayout s id f) id = (getLayout s id).map f := by
  unfold modLayout getLayout
  cases h : kvGet s.layouts id <;> simp [putLayout, kvGet_put_same, h]

/-- A fold keeps what every step of it keeps. -/
theorem foldl_keeps {α β γ : Type} (g : β → γ) (f : β → α → β) (h : ∀ b a, g (f b a) = g b) (l : List α) (b : β) :
    g (l.foldl f b) = g b := by
  induction l generalizing b with
  | nil => rfl
  | cons a l ih => rw [List.foldl_cons, ih, h]

/-- A late-notice check writes notices and what they count, and changes the records of incomplete orders. -/
theorem lateCheck_eq (s : State) (c : Nat) :
    lateCheck s c = { s with
      rings := (lateCheck s c).rings, awn := (lateCheck s c).awn, regs := (lateCheck s c).regs
      tally := (lateCheck s c).tally, led := (lateCheck s c).led, inflight := (lateCheck s c).inflight } := by
  let q (t : State) : State := { t with
    rings := s.rings, awn := s.awn, regs := s.regs, tally := s.tally, led := s.led, inflight := s.inflight }
  have key : q (lateCheck s c) = s := by
    unfold lateCheck
    split
    · rfl
    · dsimp only
      rw [foldl_keeps q]
      intro b a
      have hl (f : InFlight) (e c : Nat) : q (sendLate b f e c) = q b := by
        simp only [q, sendLate, emitNotice_fields, putInflight_fields]
      repeat' split
      all_goals first | rfl | exact hl ..
  have hq : ∀ t : State, q t = s → t = { s with
      rings := t.rings, awn := t.awn, regs := t.regs, tally := t.tally, led := t.led, inflight := t.inflight } := by
    intro t h
    rw [← h]
  exact hq _ key

end Sys2Proof.Machine
end

