-- ==== Sys2Proof/WellFormed.lean ====
section
/-! DEFINITION. Well-formed commands: operands of the sizes and ranges that the spec's formats give. The meanings are total
and do not rest on it: a request of another size or alignment reaches the block too, and completes with UNMAPPED (R337). -/

namespace Sys2Proof

/-- A wide request (Table MEM-1): 64 to 4,096 bytes, a multiple of 64, aligned to 64 bytes, within one 4 KiB page. -/
def okWide (addr n : Nat) : Bool :=
  decide (64 ≤ n) && decide (n ≤ 4096) && n % 64 == 0 && addr % 64 == 0 && addr / 4096 == (addr + n - 1) / 4096

/-- A narrow request (Table MEM-1): 8, 16 or 32 bytes, naturally aligned. -/
def okNarrow (addr n : Nat) : Bool := (n == 8 || n == 16 || n == 32) && addr % n == 0

/-- An atomic of `n` bytes (Table MEM-1): naturally aligned. -/
def okAtomic (addr n : Nat) : Bool := addr % n == 0

/-- A tile packet (R180): its 64-byte header and 16,384 bytes of gradient. -/
def okTile (offset : Nat) (payload : Bytes) : Bool := offset % 64 == 0 && payload.length == 16384

/-- Do the operands of a command fit the formats of the spec? -/
def Instr.wf : Instr → Bool
  | .requesterRead _ _ _ a n => okWide a n
  | .requesterWrite _ _ _ a d => okWide a d.length
  | .narrowRead _ _ a n => okNarrow a n
  | .narrowWrite _ a d => okNarrow a d.length
  | .fadd32 _ _ a _ => okAtomic a 4
  | .fmax32 _ _ a _ => okAtomic a 4
  | .fmin32 _ _ a _ => okAtomic a 4
  | .iadd32 _ _ a _ => okAtomic a 4
  | .iadd64 _ _ a _ => okAtomic a 8
  | .swap32 _ _ a _ => okAtomic a 4
  | .swap64 _ _ a _ => okAtomic a 8
  | .cas32 _ _ a _ _ => okAtomic a 4
  | .cas64 _ _ a _ _ => okAtomic a 8
  | .tilePacket _ off _ p => okTile off p
  | .registerWrite _ a _ _ => decide (a < 0x2000) && a % 4 == 0
  | .rmap _ _ _ _ e _ => decide (e.toNat < 458)
  | .seal _ _ _ r n => decide (r + n ≤ 45776)
  | .latg _ _ _ g _ => decide (g < 31)
  | .errorRetry _ _ b r k _ _ _ => decide (b < 16) && decide (r < 65536) && decide (k < 32)
  | _ => true

end Sys2Proof
end

