-- ==== Sys2Proof/Tests/Slice0.lean ====
section
/-! SUPPORT. Tests of the model: an ill-formed command for each check of `Instr.wf`, witnesses that meet the hypotheses of
the statements together, and small steps whose expected results come from the spec's tables and examples. -/

namespace Sys2Proof.Tests

-- One theorem after another: many kernel evaluations at once would need too much memory.
set_option Elab.async false

open Sys2Proof Sys2Proof.Machine

/-! ### Well-formed commands -/

/-- A command that fits the formats, and for each check of `Instr.wf` one that it refuses. -/
theorem test_wf_requests :
    (Instr.requesterRead 0 false false 4096 64).wf = true ∧ (Instr.requesterRead 0 false false 4096 32).wf = false ∧
    (Instr.requesterRead 0 false false 4096 8192).wf = false ∧ (Instr.requesterRead 0 false false 4096 96).wf = false ∧
    (Instr.requesterRead 0 false false 4128 64).wf = false ∧ (Instr.requesterRead 0 false false 8128 128).wf = false ∧
    (Instr.requesterWrite 0 false true 4096 (List.replicate 64 0)).wf = true ∧
    (Instr.requesterWrite 0 false true 4096 [0]).wf = false ∧
    (Instr.narrowRead (.node 1) false 8 8).wf = true ∧ (Instr.narrowRead (.node 1) false 8 4).wf = false ∧
    (Instr.narrowRead (.node 1) false 8 16).wf = false ∧ (Instr.narrowWrite (.node 1) 8 [0]).wf = false := by decide

theorem test_wf_atomics :
    (Instr.fadd32 0 false 4 0).wf = true ∧ (Instr.fadd32 0 false 2 0).wf = false ∧ (Instr.fmax32 0 false 2 0).wf = false ∧
    (Instr.fmin32 0 false 2 0).wf = false ∧ (Instr.iadd32 0 false 2 0).wf = false ∧ (Instr.iadd64 0 false 4 0).wf = false ∧
    (Instr.swap32 0 false 2 0).wf = false ∧ (Instr.swap64 0 false 4 0).wf = false ∧ (Instr.cas32 0 false 2 0 0).wf = false ∧
    (Instr.cas64 0 false 4 0 0).wf = false := by decide

theorem test_wf_others :
    (Instr.tilePacket (.node 1) 32 0 []).wf = false ∧ (Instr.tilePacket (.node 1) 64 0 [0]).wf = false ∧
    (Instr.registerWrite true 0x104 15 0).wf = true ∧ (Instr.registerWrite true 0x102 15 0).wf = false ∧
    (Instr.registerWrite true 0x2000 15 0).wf = false ∧ (Instr.rmap 0 0 0 0 458 true).wf = false ∧
    (Instr.seal 0 0 0 45776 1).wf = false ∧ (Instr.latg 0 0 0 31 0).wf = false ∧
    (Instr.errorRetry 0 0 16 0 0 .corrected .clean .sealer).wf = false ∧
    (Instr.errorRetry 0 0 0 65536 0 .corrected .clean .sealer).wf = false ∧
    (Instr.errorRetry 0 0 0 0 32 .corrected .clean .sealer).wf = false ∧ (Instr.nop 0).wf = true := by decide

/-- No word of the table spells a command. -/
theorem test_no_words : decodeTableWord 32 0 = none ∧ State.reset.withFetchWord 32 0 = State.reset := by decide +kernel

/-! ### Small states -/

/-- The block after its ready receipt, in beat 1,000 of beats of 20 µs. -/
def live : State :=
  { State.reset with
    regs := { State.reset.regs with ready := true }
    beat := { State.reset.beat with valid := true, now := 1000 }
    cfg := { State.reset.cfg with period := 20000 } }

/-- An order: opcode, version 1, and fields at byte offsets. -/
def mkOrder (op : Nat) (fs : List (Nat × Nat)) : Order := BitVec.ofNat 512 (op + 256 + (fs.map (fun f => f.2 * 256 ^ f.1)).sum)

/-- A state with one order waiting on ring `r`. -/
def withOrder (s : State) (r : RingId) (o : Order) : State :=
  modRing { s with awn := memWriteN s.awn (orderAddr r.val (s.rings[r]).head (s.rings[r]).depth) (orderBytes o) } r
    (fun g => { g with tail := (g.head + 1) % 131072 })

/-- `Taken`, as a test. -/
def takenB (c : Opcode) (s : State) (r : RingId) (o : Order) : Bool :=
  !s.batching && nextIs s r c.is && decide (o = orderAt s r (s.rings[r]).head) && headerMal o == [] &&
    c.mal (begun s r) o == [] && (!secureOnly o || r == 4)

theorem takenOf (c : Opcode) (s : State) (r : RingId) (o : Order) (h : takenB c s r o = true) : Taken c s r o (begun s r) := by
  simp only [takenB, Bool.and_eq_true, Bool.not_eq_true', decide_eq_true_eq, beq_iff_eq, Bool.or_eq_true] at h
  obtain ⟨⟨⟨⟨⟨h1, h2⟩, h3⟩, h4⟩, h5⟩, h6⟩ := h
  exact ⟨h1, h2, h3, rfl, h4, h5, fun h => by simpa [h] using h6⟩

/-- A refusal of an opcode's checks, as data. -/
def refusalOf : Verdict → Option (Nat × Nat)
  | .refuse st d => some (st, d)
  | _ => none

theorem eq_refuse {v : Verdict} {st d : Nat} (h : refusalOf v = some (st, d)) : v = .refuse st d := by
  cases v with
  | refuse a b => simp only [refusalOf, Option.some.injEq, Prod.mk.injEq] at h; rw [h.1, h.2]
  | _ => simp [refusalOf] at h

/-- Is the answer a booking that the admission test accepts, or one that it refuses? -/
def bookedAs (s : State) (o : Order) (ok : Bool) : Verdict → Bool
  | .book w tl _ _ => (match admission s (ordDue o) w tl with
    | .accept _ => ok
    | .refuse .. => !ok)
  | _ => false

/-- A region of 2 KiB on site 0, and a shard of 8,192 real elements there with two slots. -/
def region : Layout :=
  { desc := [], kind := 3, stateLayout := 0, workFormat := 0, slots := 0, guarded := false, arrivalDesc := false,
    isOpen := false, segs := [], span := 1, length := 4096, rowBase := 0, bandRows := 1, epoch := 0,
    masks := [(0, 0xFFFFFFFF)], enc := none, slotSt := [], shard := Shard.unfilled }

def shardAt (st : ShardSt) (step : Nat) (slots : List SlotSt) (upd : Option Upd) : Layout :=
  { desc := [], kind := 1, stateLayout := 1, workFormat := 1, slots := 2, guarded := false, arrivalDesc := false,
    isOpen := false, segs := [⟨7, 0, 160⟩], span := 1, length := 0, rowBase := 16, bandRows := 3, epoch := 0,
    masks := [(0, 0xFFFFFFFF)], enc := none, slotSt := slots,
    shard := { Shard.unfilled with st := st, step := step, upd := upd } }

def withLayout (s : State) (id : Nat) (l : Layout) : State := { s with layouts := kvPut s.layouts id l }

/-! ### Witnesses: the machine as a whole -/

theorem wit_front : (let s := { live with pending := [Instr.mark, .siteEnable] }; s.pending = .mark :: [.siteEnable]) ∧
    live.pending = [] := by decide +kernel

/-! ### Witnesses: orders -/

/-- NOP with a byte of its parameter area set (MalformedOrderRefused, RefusedOrderFrame), and a reserved opcode. -/
theorem wit_malformed :
    (let s := withOrder live 0 (mkOrder 0 [(16, 1)])
     (Instr.nop 0, opNop) ∈ orderOps 0 ∧ s.batching = false ∧ nextIs s 0 opNop.is = true ∧
      leastOf (headerMal (orderAt s 0 (headOf s 0)) ++ opNop.mal (begun s 0) (orderAt s 0 (headOf s 0))) = some 16) ∧
    (let s := withOrder live 3 (mkOrder 0xFF [])
     (Instr.reservedEncodingOrder 3, opReserved) ∈ orderOps 3 ∧ s.batching = false ∧ nextIs s 3 opReserved.is = true ∧
      leastOf (headerMal (orderAt s 3 (headOf s 3)) ++ opReserved.mal (begun s 3) (orderAt s 3 (headOf s 3))) = some 0) :=
  ⟨⟨List.mem_append_left _ (List.mem_append_left _ (List.mem_cons_self ..)), by decide +kernel⟩,
   ⟨List.mem_append_right _ (List.mem_cons_self ..), by decide +kernel⟩⟩

/-- A RETIRE of a row on ring 3 (SecureOrderNeedsRing4, RefusedOrderFrame), the highest of the rings that it does not fit. -/
theorem wit_secure_order :
    let s := withOrder live 3 (mkOrder 0x60 [])
    (Instr.retireRow 3, opRetireRow) ∈ orderOps 3 ∧ s.batching = false ∧ nextIs s 3 opRetireRow.is = true ∧
      headerMal (orderAt s 3 (headOf s 3)) = [] ∧ opRetireRow.mal (begun s 3) (orderAt s 3 (headOf s 3)) = [] ∧
      secureOnly (orderAt s 3 (headOf s 3)) = true ∧ (3 : RingId).val < 4 :=
  ⟨List.mem_append_left _ (List.mem_append_right _ (by simp [timedOps])), by decide +kernel⟩

/-- A QUEUE_DEF Delete of a queue that is not defined (RefusedOrderFrame, its first case). -/
theorem wit_refused :
    let s := withOrder live 0 (mkOrder 0x44 [(17, 1)])
    (∀ q : RingId, q ≠ 0 → ∀ h ∈ (s.rings[q]).held.head?, heldRoom s.rings[q] h = false) ∧
      (∃ t, Taken opQueueDelete s 0 (mkOrder 0x44 [(17, 1)]) t ∧
        opQueueDelete.chk t 0 (headOf s 0) (mkOrder 0x44 [(17, 1)]) = .refuse 0x17 0) ∧ isRefusal 0x17 = true :=
  ⟨by decide +kernel, ⟨_, takenOf _ _ _ _ (by decide +kernel), eq_refuse (by decide +kernel)⟩, by decide⟩

theorem wit_receipt : Memory.wf live.awn = true ∧ live.fatal = false ∧ live.batching = false ∧ (live.rings[(4 : RingId)]).held = [] ∧
    1 ≤ (live.rings[(4 : RingId)]).freeRcp := by decide +kernel

theorem wit_nop : ∃ t, Taken opNop (withOrder live 0 (mkOrder 0 [])) 0 (mkOrder 0 []) t :=
  ⟨_, takenOf _ _ _ _ (by decide +kernel)⟩

/-- CONFIG of rho at its highest value. -/
theorem wit_config : let o := mkOrder 1 [(16, 2), (20, 90)]
    ∃ t, Taken opConfig (withOrder live 4 o) 4 o t ∧ ∀ b ∈ cfgPairs, cfgForbidden t o b = false :=
  ⟨_, takenOf _ _ _ _ (by decide +kernel), by decide +kernel⟩

/-- LAYOUT_DEF of the highest LayoutId, with the descriptor of a region of 4 KiB on site 0 staged at byte 64. -/
theorem wit_layout_def :
    let o := mkOrder 0x10 [(16, 4095), (20, 64), (24, 64)]
    let s := withOrder { live with stage := memWriteN [] 64 (leBytes 64 (3 + 256 + 256 ^ 8 + 4096 * 256 ^ 16)) } 0 o
    let d := parseDesc (staged s (fld o 24 8) (fld o 20 4))
    ∃ t, Taken opLayoutDef s 0 o t ∧ getLayout t (fld o 16 2) = none ∧ (∀ i ∈ spanSites d.span, foldMask t i ≠ 0) ∧
      descPolicy t d = false ∧ (placeLayout t (newLayout t (fld o 16 2) d (staged s (fld o 24 8) (fld o 20 4)))).isSome = true ∧
      fwOk t (fld o 16 2) (worldOnly 0) = true :=
  ⟨_, takenOf _ _ _ _ (by decide +kernel), by decide +kernel⟩

theorem wit_layout_free :
    let o := mkOrder 0x11 [(16, 1)]
    let s := withOrder (withLayout live 1 region) 1 o
    ∃ t, Taken opLayoutFree s 1 o t ∧ getLayout t 1 = some region ∧ layoutNamed t 1 = false ∧ region.shard.upd = none ∧
      regionHeld t 1 = false ∧ fwOk t 1 (worldOnly 1) = true :=
  ⟨_, takenOf _ _ _ _ (by decide +kernel), by decide +kernel⟩

/-- A band beside that of a layout which shares channels with it (BandsAreDisjoint). -/
theorem wit_bands :
    (placeLayout (withLayout live 1 region) region).isSome = true ∧
      ∃ e ∈ (withLayout live 1 region).layouts, ∃ x ∈ region.masks, ∃ y ∈ e.2.masks, x.1 = y.1 ∧ x.2 &&& y.2 ≠ 0 := by
  decide +kernel

theorem wit_rule_load :
    (let o := mkOrder 0x22 [(16, 0xFF), (17, 1)]
     let s := withOrder { live with rules := [(0xFF, ruleAdam)] } 0 o
     ∃ t, Taken opRuleLoad s 0 o t ∧ ruleInUse t (fld o 16 1) = false ∧ fld o 18 1 + fld o 19 1 = 0 ∧
      (kvGet t.rules (fld o 16 1)).isSome = true) ∧
    (let o := mkOrder 0x22 [(16, 0x10), (17, 3), (18, 3), (19, 9), (24, 128)]
     let ws := (ruleSgd.prologue ++ ruleSgd.body).flatMap (fun w => leBytes 4 w.toNat)
     let s := withOrder { live with stage := memWriteN [] 128 ws } 0 o
     ∃ t, Taken opRuleLoad s 0 o t ∧ ruleInUse t (fld o 16 1) = false ∧ fld o 18 1 + fld o 19 1 ≠ 0 ∧
      checkRule (fld o 17 1) (fld o 18 1) (fld o 19 1) (fldBits o 20 0 3)
        (stagedWords t (fld o 24 8) (fld o 18 1 + fld o 19 1)) = none) :=
  ⟨⟨_, takenOf _ _ _ _ (by decide +kernel), by decide +kernel⟩,
   ⟨_, takenOf _ _ _ _ (by decide +kernel), by decide +kernel⟩⟩

theorem wit_ver_release :
    let o := mkOrder 0x30 [(16, 1), (18, 1), (20, 5)]
    let ly := shardAt .idle 5 [.released, .readable 5] none
    let s := withOrder (withLayout live 1 ly) 2 o
    ∃ t, Taken opVerRelease s 2 o t ∧ fwOk t (fld o 16 2) (worldOnly 2) = true ∧ getLayout t (fld o 16 2) = some ly ∧
      ly.kind ≠ 3 ∧ fld o 18 1 < ly.slots ∧ ly.slotSt.getD (fld o 18 1) .released = .readable (fld o 20 5) :=
  ⟨_, takenOf _ _ _ _ (by decide +kernel), by decide +kernel⟩

/-- A queue of one part on layout 1, whose slot 0 holds batch 64. -/
def queueOf : Queue :=
  { Queue.reset with
    defined := true, layout := 1, depth := 1, parts := [⟨1, 1, 0x10, false⟩], slots := [(0, ⟨some 64, true, [(0, 0)], none⟩)] }

def withQueue (s : State) (q : Fin 16) : State := setQueue (withLayout s 1 region) q (fun _ => queueOf)

theorem wit_queue_orders :
    (let o := mkOrder 0x44 [(16, 15), (18, 1), (20, 2), (21, 1), (32, 1), (36, 1), (37, 0x10)]
     let s := withOrder (withLayout live 1 region) 0 o
     ∃ t, Taken opQueueDefine s 0 o t ∧ getLayout t (fld o 18 2) = some region ∧ region.kind = 3 ∧ region.isOpen = false ∧
      (t.queues[queueId o]).defined = false ∧ fld o 20 1 * entryBytes (partsOf o) ≤ region.length ∧
      reserveLacks t (fld o 24 4) = none ∧ fwOk t (fld o 18 2) (worldOnly 0) = true) ∧
    (let o := mkOrder 0x44 [(16, 15), (17, 1)]
     ∃ t, Taken opQueueDelete (withOrder (withQueue live 15) 0 o) 0 o t ∧ (t.queues[queueId o]).defined = true) ∧
    (let o := mkOrder 0x44 [(17, 2), (24, 64)]
     ∃ t, Taken opQueueRelease (withOrder (withQueue live 0) 0 o) 0 o t ∧ (t.queues[queueId o]).defined = true ∧
      (kvGetD (t.queues[queueId o]).slots (fld o 24 5 % (t.queues[queueId o]).depth) QSlot.empty).occ = some (fld o 24 5)) :=
  ⟨⟨_, takenOf _ _ _ _ (by decide +kernel), by decide +kernel⟩, ⟨_, takenOf _ _ _ _ (by decide +kernel), by decide +kernel⟩,
   ⟨_, takenOf _ _ _ _ (by decide +kernel), by decide +kernel⟩⟩

theorem wit_drizzle :
    (let o := mkOrder 0x65 [(16, 9), (24, 1)]
     ∃ t, Taken opDrzSeed (withOrder live 0 o) 0 o t ∧ streamNamed t (fld o 16 2) = false ∧ t.streams.length < 1024) ∧
    (let o := mkOrder 0x65 [(16, 9), (18, 1)]
     ∃ t, Taken opDrzDelete (withOrder { live with streams := [(9, ⟨1, 0⟩)] } 0 o) 0 o t ∧ streamNamed t (fld o 16 2) = false ∧
      (kvGet t.streams (fld o 16 2)).isSome = true) :=
  ⟨⟨_, takenOf _ _ _ _ (by decide +kernel), by decide +kernel⟩, ⟨_, takenOf _ _ _ _ (by decide +kernel), by decide +kernel⟩⟩

/-- A unit whose commit window is open. -/
def windowed : Stall := { Stall.empty with layout := 1, parcel := some 0, windowOpen := true }

/-- FENCE of the last stall, channel and site, with no window open, with one open, and of a site that is fenced. -/
theorem wit_fence :
    let o := fun sc => mkOrder 0x61 [(16, sc), (17, 19), (18, if sc < 2 then 31 else 0), (19, if sc < 1 then 7 else 0)]
    (∀ sc ∈ [0, 1, 2], ∃ t, Taken (opFence sc) (withOrder live 4 (o sc)) 4 (o sc) t ∧ kindOf t 19 ≠ .none ∧ isFcs t 19 = true ∧
      (t.sites[siteOf 19]).fenced = false ∧ (foldMask t 19).getLsbD (fld (o sc) 18 1) = true ∧
      stallFenced t 19 (fld (o sc) 18 1) (fld (o sc) 19 1) = false ∧
      windowIn t sc 19 (fld (o sc) 18 1) (fld (o sc) 19 1) = false) ∧
    (∀ sc ∈ [0, 1, 2], let s := withOrder { live with units := [(stallKey 19 31 7, windowed)] } 4 (o sc)
      ∃ t, Taken (opFence sc) s 4 (o sc) t ∧ windowIn t sc 19 (fld (o sc) 18 1) (fld (o sc) 19 1) = true) ∧
    (∀ sc ∈ [0, 1, 2], let s := withOrder (modSite live 19 (fun z => { z with fenced := true })) 4 (o sc)
      ∃ t, Taken (opFence sc) s 4 (o sc) t ∧ (t.sites[siteOf 19]).fenced = true) ∧
    (∀ sc ∈ [0, 1], let s := withOrder (modSite live 19 (fun z => { z with live := 0x7FFFFFFF })) 4 (o sc)
      ∃ t, Taken (opFence sc) s 4 (o sc) t ∧ (foldMask t 19).getLsbD (fld (o sc) 18 1) = false) ∧
    (let s := withOrder { live with fencedStalls := kvPut [] (stallKey 19 31 7) true } 4 (o 0)
      ∃ t, Taken (opFence 0) s 4 (o 0) t ∧ stallFenced t 19 (fld (o 0) 18 1) (fld (o 0) 19 1) = true) := by
  refine ⟨fun sc h => ⟨_, takenOf _ _ _ _ ?_, ?_⟩, fun sc h => ⟨_, takenOf _ _ _ _ ?_, ?_⟩, fun sc h => ⟨_, takenOf _ _ _ _ ?_, ?_⟩,
    fun sc h => ⟨_, takenOf _ _ _ _ ?_, ?_⟩, ⟨_, takenOf _ _ _ _ (by decide +kernel), by decide +kernel⟩⟩ <;>
    revert sc <;> decide +kernel

/-- LEDGER_DRAIN: a booking that the admission test accepts at the nearest due beat, and one that it refuses a beat earlier. -/
theorem wit_timed :
    let o := fun b => mkOrder 0x64 [(8, b), (20, 1), (32, 0)]
    (∃ t, Taken opLedgerDrain (withOrder live 0 (o 1010)) 0 (o 1010) t ∧
      bookedAs t (o 1010) true (opLedgerDrain.chk t 0 0 (o 1010)) = true) ∧
    (∃ t, Taken opLedgerDrain (withOrder live 0 (o 1009)) 0 (o 1009) t ∧
      bookedAs t (o 1009) false (opLedgerDrain.chk t 0 0 (o 1009)) = true) :=
  ⟨⟨_, takenOf _ _ _ _ (by decide +kernel), by decide +kernel⟩, ⟨_, takenOf _ _ _ _ (by decide +kernel), by decide +kernel⟩⟩

/-! ### Witnesses: updates -/

/-- A site in service. -/
def upSite (s : State) (x : SiteId) : State :=
  modSite s x (fun z => { z with state := 2, powerEn := true, powerGood := true, cke := true, tested := true })

/-- An UPD_OPEN of layout 1, slot 1, step 6, rule 0x05, one contributor, due in beat 1,010. -/
def openOrder : Order :=
  mkOrder 0x20 [(8, 1010), (16, 1), (18, 5), (19, 1), (20, 6), (26, 1), (27, 1), (28, 1)]

def openWaits : Waiting := ⟨0, 0, openOrder, List.replicate 16 0⟩

/-- The state that a wait leaves, as data. -/
def waitOf : Verdict → Option State
  | .wait t => some t
  | _ => none

theorem eq_wait {v : Verdict} {t : State} (h : waitOf v = some t) : v = .wait t := by
  cases v with
  | wait u => simp only [waitOf, Option.some.injEq] at h; rw [h]
  | _ => simp [waitOf] at h

def accepts? : Admission → Bool
  | .accept _ => true
  | .refuse .. => false

theorem accepted {a : Admission} (h : accepts? a = true) : ∃ bk, a = .accept bk := by
  cases a with
  | accept bk => exact ⟨bk, rfl⟩
  | refuse => simp [accepts?] at h

/-- An UPD_OPEN whose slot is Readable waits; one that waits and whose slot is Released is admitted. -/
theorem wit_upd_open :
    (let s := withOrder (withLayout live 1 (shardAt .idle 5 [.readable 5, .readable 4] none)) 0 openOrder
     ∃ t, Taken opUpdOpen s 0 openOrder t ∧
      updOpenChk t 0 (headOf s 0) openOrder = .wait { t with waiting := t.waiting ++ [openWaits] }) ∧
    (let ly := shardAt .idle 5 [.readable 5, .released] none
     let s := { withLayout (upSite live 0) 1 ly with waiting := [openWaits] }
     let t := { s with waiting := s.waiting.filter (fun v => v.ring != 0) }
     s.waiting.find? (fun v => v.ring == 0) = some openWaits ∧ slotReady s openOrder = true ∧
      getLayout t (uoLayout openOrder) = some ly ∧ updOpenState openOrder ly.shard = false ∧
      ∃ bk, admission t (ordDue openOrder) (updOpenWork t openOrder).1 (updOpenWork t openOrder).2 = .accept bk) :=
  ⟨⟨_, takenOf _ _ _ _ (by decide +kernel), eq_wait (by decide +kernel)⟩,
   by decide +kernel, by decide +kernel, by decide +kernel, by decide +kernel, accepted (by decide +kernel)⟩

/-- An update in progress, and the layout 1 that is open for it. -/
def upd0 : Upd := newUpd live openWaits

def shardOpen (u : Upd) : Layout := shardAt .isOpen 5 [.readable 5, .filling] (some u)

def opened (u : Upd) : State := withLayout (upSite live 0) 1 (shardOpen u)

/-- The in-flight record of an order of ring 0, taken at index 0, of `n` lots of which `k` have started. -/
def flight (o : Order) (n k : Nat) (ctx : OrderCtx) : InFlight :=
  { ring := 0, idx := 0, order := o, due := ordDue o, admBeat := 1000, seq := 0, booked := [], late := none, lastEvent := 0,
    lotsTotal := n, lotsStarted := k, lotsDone := 0, stage := 0, entries := [], bad := none, ctx := ctx }

def doneOf : Perf → Option Nat
  | .done r _ => some r
  | _ => none

def failOf : Perf → Option Nat
  | .fail st .. => some st
  | _ => none

theorem eq_done {p : Perf} {r : Nat} (h : doneOf p = some r) : ∃ t, p = .done r t := by
  cases p with
  | done r' t => simp only [doneOf, Option.some.injEq] at h; exact ⟨t, by rw [h]⟩
  | _ => simp [doneOf] at h

theorem eq_fail {p : Perf} {st : Nat} (h : failOf p = some st) : ∃ r n t, p = .fail st r n t := by
  cases p with
  | fail a b c t => simp only [failOf, Option.some.injEq] at h; exact ⟨b, c, t, by rw [h]⟩
  | _ => simp [failOf] at h

/-- A LEDGER_DRAIN that ends, and a PUSH of a region on a dead channel that fails; both at once with no open window. -/
theorem wit_completion :
    (let f := flight (mkOrder 0x64 [(8, 1010), (20, 1)]) 0 0 (.drain 0 0 0)
     let s := { live with inflight := [f] }
     findInflight s 0 0 = some f ∧ orderHeld s f = false ∧ s.batching = false ∧ f.lotsTotal ≤ f.lotsStarted ∧
      ∃ t, perform (noteOrderReads { s with batching := true } f) f ⟨[], []⟩ = .done 0 t) ∧
    (let f := flight (mkOrder 0x40 [(8, 1010), (16, 1), (28, 64)]) 1 1 .plain
     let s := { withLayout (modSite live 0 (fun z => { z with live := 0 })) 1 region with inflight := [f] }
     findInflight s 0 0 = some f ∧ orderHeld s f = false ∧
      ∃ r n t, perform (noteOrderReads { s with batching := true } f) f ⟨[], []⟩ = .fail 0x21 r n t) :=
  ⟨⟨by decide +kernel, by decide +kernel, by decide +kernel, by decide +kernel, eq_done (by decide +kernel)⟩,
   ⟨by decide +kernel, by decide +kernel, eq_fail (by decide +kernel)⟩⟩

/-- Lots that are granted, that wait for an earlier lot to end, and that wait with no lot in flight. -/
theorem wit_lots :
    (let f := flight (mkOrder 0x40 [(28, 64)]) 3 1 .plain
     let s := { live with inflight := [f] }
     findInflight s 0 0 = some f ∧ f.lotsStarted < f.lotsTotal ∧ lotGranted s f = true) ∧
    (let f := flight (mkOrder 0x40 [(28, 64)]) 3 2 .plain
     let s := { live with inflight := [f] }
     findInflight s 0 0 = some f ∧ f.lotsStarted < f.lotsTotal ∧ lotGranted s f = false ∧ f.lotsDone < f.lotsStarted) ∧
    (let f := { flight (mkOrder 0x40 [(28, 64)]) 1 0 .plain with stage := 2 ^ 30 }
     let s := { live with inflight := [f] }
     findInflight s 0 0 = some f ∧ lotGranted s f = false ∧ f.lotsStarted ≤ f.lotsDone) := by decide +kernel

/-- A held receipt whose ring has room, and one whose ring has none. -/
theorem wit_held :
    let h : Held := ⟨1, true, 0, 0, 0, 0, 0, false⟩
    (let s := modRing live 2 (fun g => { g with held := [h] })
     (s.rings[(2 : RingId)]).held = [h] ∧ s.fatal = false ∧ heldRoom s.rings[(2 : RingId)] h = true) ∧
    (let s := modRing live 2 (fun g => { g with held := [h], rcpTail := 65536 })
     (s.rings[(2 : RingId)]).held = [h] ∧ heldRoom s.rings[(2 : RingId)] h = false) := by decide +kernel

theorem wit_scheduler : nextRing (withOrder live 3 (mkOrder 0 [])) = some 3 ∧
    nextRing (withOrder (withOrder live 3 (mkOrder 0 [])) 4 (mkOrder 0 [])) = some 4 := by decide +kernel

/-- The end of an addition, of a lone contribution and of the first of two. -/
theorem wit_contribution :
    let a : Adding := ⟨0, .port 0 false, 0, [], []⟩
    let u1 := { upd0 with d := 2, tiles := [(0, ⟨[0], [a], []⟩)] }
    let u2 := { upd0 with d := 2, tiles := [(0, ⟨[0, 1], [a, { a with contrib := 1 }], []⟩)] }
    (∀ u ∈ [u1, u2], getLayout (opened u) 1 = some (shardOpen u) ∧ (shardOpen u).shard.upd = some u ∧
      ∃ x, kvGet u.tiles 0 = some x ∧ x.adding.head? = some a ∧ a.contrib = 0 ∧
        (x.bits.length ≠ u.d ∨ (x.adding.filter (fun b => b.contrib != 0)) ≠ [])) := by
  intro a u1 u2 u h
  simp only [List.mem_cons, List.not_mem_nil, or_false] at h
  rcases h with rfl | rfl
  · exact ⟨by decide +kernel, rfl, ⟨[0], [a], []⟩, by decide +kernel⟩
  · exact ⟨by decide +kernel, rfl, ⟨[0, 1], [a, { a with contrib := 1 }], []⟩, by decide +kernel⟩

/-- Parcel 0 of layout 1: ready, dispatched before, and cut in its window; its unit is the first stall of site 0. -/
theorem wit_dispatch :
    let un := UnitId.stall ⟨0, 0, 0⟩
    let d : Disp := ⟨un, [], 1, 0, false⟩
    (let u := { upd0 with ready := [(0, [])] }
     let s := opened u
     ruleOf s u.ruleId = some ruleAdam ∧ bestPass s (unitKey un) = some 1 ∧ un = unitFor s (shardOpen u) 0 ∧ unitSite un = 0 ∧
      (waitingParcels s 1 u).contains 0 = true ∧ mayBegin s un ((shardOpen u).parcelUnit s 0).ch = true ∧
      lowerWaits s (shardOpen u) ((shardOpen u).geo s) u 0 = false ∧ kvGet u.disp 0 = none ∧ kvGet u.ready 0 = some [] ∧
      (getUnit s (unitKey un)).parcel = none ∧ (getUnit s (unitKey un)).paused = false ∧
      (getUnit s (unitKey un)).fault = false ∧ s.power.inReset = none) ∧
    (let u := { upd0 with disp := [(0, d)] }
     let s := opened u
     bestPass s (unitKey un) = some 1 ∧ un = unitFor s (shardOpen u) 0 ∧ (waitingParcels s 1 u).contains 0 = true ∧
      mayBegin s un ((shardOpen u).parcelUnit s 0).ch = true ∧ kvGet u.disp 0 = some d ∧ d.restore = false) := by decide +kernel

theorem memReadN_nil (a n : Nat) : memReadN [] a n = List.replicate n 0 := by
  induction n generalizing a with
  | zero => rfl
  | succ n ih => rw [memReadN, ih, List.replicate_succ]; rfl

/-- A column of a stack to which nothing has been written reads zero. -/
theorem readCol_blank (s : State) (k : Nat) (hd : s.dram = []) (hc : s.chk = []) : (readCol s k).1 = 0 := by
  have h0 : ∀ p, rawCol s p = 0 := fun p => by rw [rawCol, hd, memReadN_nil]; decide
  have h1 : ∀ p, rawChk s p = 0 := fun p => by
    have h4 : leNat [0#8, 0#8, 0#8, 0#8] = 0 := by decide
    have hb : leNat [0#8] = 0 := by decide
    simp [rawChk, jedecChk, hc, hd, memReadN_nil, kvGetD, kvGet, h4, hb]
  have h : ∀ p, readBlock s p = (.clean, 0, 0) := fun p => by
    simp only [readBlock, h0, h1]; decide +kernel
  simp [readCol, h]
/-- A parcel cut in its window, whose pre-image is a row of zeros. -/
def cutDisp : Disp := ⟨.stall ⟨0, 0, 0⟩, [], 1, colsCrc (List.replicate 60 0), true⟩

def cutUpd : Upd := { upd0 with guarded := true, disp := [(0, cutDisp)] }

def cutLayout : Layout := { shardOpen cutUpd with guarded := true }

def cutState : State := withLayout (upSite live 0) 1 cutLayout

theorem wit_dispatch_cut :
    let un := UnitId.stall ⟨0, 0, 0⟩
    bestPass cutState (unitKey un) = some 1 ∧ un = unitFor cutState cutLayout 0 ∧
      (waitingParcels cutState 1 cutUpd).contains 0 = true ∧ mayBegin cutState un (cutLayout.parcelUnit cutState 0).ch = true ∧
      kvGet cutUpd.disp 0 = some cutDisp ∧ cutDisp.restore = true ∧
      (restoreCut (endTakeover cutState un) cutLayout 0 cutDisp).isSome = true := by
  have h : undoCols (endTakeover cutState (.stall ⟨0, 0, 0⟩)) cutLayout 0 = List.replicate 60 0 := by
    have hu : (cutLayout.geo (endTakeover cutState (.stall ⟨0, 0, 0⟩))).u = 60 := by decide +kernel
    rw [undoCols, hu, List.eq_replicate_iff]
    exact ⟨by simp, fun c hc => by
      obtain ⟨j, -, rfl⟩ := List.mem_map.mp hc
      exact readCol_blank _ _ (by decide +kernel) (by decide +kernel)⟩
  exact ⟨by decide +kernel, by decide +kernel, by decide +kernel, by decide +kernel, rfl, rfl, by
    simp only [restoreCut, h, cutDisp, if_true, Option.isSome_some]⟩

/-- A unit that may finish its parcel, with its window open and before it opens. -/
theorem wit_seal :
    let un := UnitId.stall ⟨0, 0, 0⟩
    let u := { upd0 with disp := [(0, ⟨un, [], 0, 0, false⟩)] }
    ∀ w ∈ [true, false],
      let t := { Stall.empty with layout := 1, parcel := some 0, windowOpen := w }
      let s := { opened u with units := [(0, t)] }
      t = getUnit s (unitKey un) ∧ s.batching = false ∧ t.layout = 1 ∧ t.parcel = some 0 ∧
      getLayout s 1 = some (shardOpen u) ∧ ruleOf s u.ruleId = some ruleAdam ∧
      mayFinish s un t ((shardOpen u).parcelUnit s 0).ch ((shardOpen u).shard.st == .isOpen) = true ∧
      (t.windowOpen = true ∨ loadsGood false s (shardOpen u) 0 t = true) := by decide +kernel

theorem wit_close :
    let f := flight openOrder 0 0 .plain
    let s := { opened upd0 with inflight := [f] }
    kvWf s.layouts = true ∧ getLayout s 1 = some (shardOpen upd0) ∧ (shardOpen upd0).shard.upd = some upd0 ∧
      findInflight s upd0.ring upd0.idx = some f ∧ upd0.slot < (shardOpen upd0).slotSt.length := by decide +kernel

/-- A mismatch that is not lasting at the first try, one at the second, and a lasting one. -/
theorem wit_mismatch :
    let un := UnitId.stall ⟨0, 0, 0⟩
    let t := { Stall.empty with layout := 1, parcel := some 0 }
    (∀ n ∈ [0, 1], let d : Disp := ⟨un, [], n, 0, false⟩
      let s := { opened { upd0 with disp := [(0, d)] } with units := [(0, t)] }
      t = getUnit s (unitKey un) ∧ t.windowOpen = false ∧ s.power.inReset = none ∧
        getLayout s 1 = some (shardOpen { upd0 with disp := [(0, d)] }) ∧ kvGet [(0, d)] 0 = some d) ∧
    (mismatchCode false none .clean).2 = false ∧ (mismatchCode true (some .parityOpen) .bad).2 = true ∧
    (let s := { opened { upd0 with disp := [(0, ⟨un, [], 1, 0, false⟩)] } with units := [(0, t)] }
     ((getLayout (recordError (putUnit s 0 { t with parcel := none, commit := [], wcodes := [], wscales := [], wpend := [] }) 0 0
       0x12) 1).bind (fun l => l.shard.upd)).isSome = true) := by decide +kernel

theorem wit_reseal_rollback :
    (let ly := { shardAt .resealing 6 [.readable 5, .readable 6] (some upd0) with masks := [(0, 0xFFFFFFFF)] }
     let s := withLayout (upSite live 0) 1 ly
     getLayout s 1 = some ly ∧ sealersRun s ly = true) ∧
    (let ly := shardAt .rolling 6 [.readable 5, .readable 6] none
     let s := withLayout (upSite live 0) 1 ly
     getLayout s 1 = some ly ∧ ly.shard.upd = none ∧ s.power.inReset = none ∧
      s.units.any (fun e => e.2.layout == 1 && e.2.windowOpen) = false) ∧
    (∀ e ∈ [some (4, 0), none], let u := { upd0 with ending := e }
      let ly := shardAt .rolling 5 [.readable 5, .filling] (some u)
      let s := withLayout (upSite live 0) 1 ly
      getLayout s 1 = some ly ∧ ly.shard.upd = some u ∧ s.units.any (fun e => e.2.layout == 1 && e.2.windowOpen) = false ∧
        sealersRun s ly = true) := by decide +kernel

/-! ### Witnesses: tiles and the exchange port -/

/-- A tile header of layout 1, step 6, contributor 0, tile 0. -/
def tileHdr (f : Nat) : Order := BitVec.ofNat 512 (f + 256 + 256 ^ 2 + 6 * 256 ^ 4)

/-- A well-placed packet of a port and of a node is a packet with an answer, here for its kind; a misplaced one of a port. -/
theorem wit_tile :
    accepts live (.port 15 true) = true ∧ portBad live (.port 15 true) = false ∧ (1015808 % 32768 = 0 ∧ 1015808 < 1048576) ∧
      (∀ o ∈ [Origin.port 15 true, .node 0xFFFFFF], accepts live o = true ∧
        classifyTile (countOrigin (heardBy live o) o 16448) o (tileHdr 0) [] = .ack 0x17) ∧
      xchBad live = false ∧ (64 % 32768 ≠ 0 ∨ 1048576 ≤ 64 ∨ ([] : Bytes).length ≠ 16384) := by decide +kernel

/-- The other three outcomes of the classification: a copy that waits, an addition, and a denial by the firewall. -/
theorem wit_tile_open :
    let a : Adding := ⟨0, .node 1, 0, [], []⟩
    let h := tileHdr 0xA1
    (let s := opened { upd0 with tiles := [(0, ⟨[0], [a], []⟩)] }
     classifyOpen (shardOpen upd0) ((shardOpen upd0).geo s) { upd0 with tiles := [(0, ⟨[0], [a], []⟩)] } h = .await) ∧
    (let s := opened upd0
     classifyTile s (.node 1) h [] = .take) ∧
    (let s := { opened upd0 with cfg := { live.cfg with fwDefault := 1 } }
     classifyTile s (.node 1) h [] = .denied) := by decide +kernel

/-- The CRC-32C of four zero bytes. -/
theorem crc_zeros : (crc32c [0, 0, 0, 0]).toNat = 0x48674BC7 := by decide +kernel

/-- A piece of 4 bytes of FP32, for queue 15; its bit set already, and not. -/
theorem wit_piece :
    let h := fun (c : Nat) => (BitVec.ofNat 512 (0xA5 + 256 + 15 * 256 ^ 2 + 64 * 256 ^ 4 + c * 256 ^ 20 + 4 * 256 ^ 24) : Order)
    let b : Bytes := [0, 0, 0, 0]
    let c := 0x48674BC7
    ∀ bits ∈ [[(0, 0)], []],
      let s := setQueue (withQueue live 15) 15 (fun x => { x with slots := [(0, ⟨some 64, false, bits, some 63⟩)] })
      let s1 := fromNode s 7 b
      xchOpen s = true ∧ fld (h c) 0 1 = 0xA5 ∧ fld (h c) 1 1 = 0x01 ∧ nonZero (h c) (span 9 11 ++ span 28 63) = [] ∧
      c = fld (h c) 20 4 ∧ qpQueue (h c) = 15 ∧ (s1.queues[(15 : Fin 16)]).defined = true ∧
      getLayout s1 (s1.queues[(15 : Fin 16)]).layout = some region ∧
      fwOk s1 (s1.queues[(15 : Fin 16)]).layout ⟨false, 65536, false, true, false⟩ = true ∧
      (s1.queues[(15 : Fin 16)]).parts[qpPart (h c)]? = some ⟨1, 1, 0x10, false⟩ ∧
      qpPiece (h c) < partPieces ⟨1, 1, 0x10, false⟩ ∧ b.length = fld (h c) 24 4 ∧
      fld (h c) 24 4 = pieceCount ⟨1, 1, 0x10, false⟩ (qpPiece (h c)) * 4 ∧
      kvGetD (s1.queues[(15 : Fin 16)]).slots (qpBatch (h c) % (s1.queues[(15 : Fin 16)]).depth) QSlot.empty
        = ⟨some 64, false, bits, some 63⟩ ∧ 63 < qpBatch (h c) := by decide +kernel

/-- A FETCH pull of slot 1 of layout 2 from version 5 of layout 1 at node 7. -/
def pullOrder : Order := mkOrder 0x31 [(8, 1010), (17, 1), (18, 2), (20, 5), (28, 1), (32, 0x40), (33, 7)]

/-- The answer to a fetch request, as data. -/
def fetchCode : Except Nat (Layout × Nat × InFlight) → Option Nat
  | .error c => some c
  | .ok _ => none

theorem eq_fetch {v : Except Nat (Layout × Nat × InFlight)} {c : Nat} (h : fetchCode v = some c) : v = .error c := by
  cases v with
  | error e => simp only [fetchCode, Option.some.injEq] at h; rw [h]
  | ok => simp [fetchCode] at h

theorem eq_served {v : Except Nat (Layout × Nat × InFlight)} (h : fetchCode v = none) : ∃ ly x f, v = .ok (ly, x, f) := by
  cases v with
  | error e => simp [fetchCode] at h
  | ok x => exact ⟨x.1, x.2.1, x.2.2, rfl⟩

theorem wit_fetch_refused :
    let h : Order := BitVec.ofNat 512 (0xB1 + 256)
    live.power.inReset = none ∧ fld h 0 1 = 0xB1 ∧ fld h 1 1 = 0x01 ∧ judgeFetch (fromNode live 7 []) h = .error 0x02 :=
  ⟨by decide +kernel, by decide +kernel, by decide +kernel, eq_fetch (by decide +kernel)⟩

/-- A message that answers that pull: offset 0, `n` bytes, field `x` at byte 28. -/
def pullMsg (ty code n x : Nat) : Order :=
  BitVec.ofNat 512 (ty + 256 + 256 ^ 2 + 5 * 256 ^ 4 + code * 256 ^ 9 + 2 * 256 ^ 10 + 256 ^ 12 + n * 256 ^ 24 + x * 256 ^ 28)

/-- The state with that pull in flight. -/
def pulling (last idle : Nat) (retry : Bool) : State :=
  { withLayout (upSite live 0) 2 (shardAt .idle 5 [.readable 5, .filling] none) with
    inflight := [flight pullOrder 1 1 (.pull [] last retry idle 0)] }

/-- The CRC-32C of one byte. -/
theorem crc_one : crc32c [1] = 0xA016D052#32 := by decide +kernel

theorem wit_pull :
    let b : Bytes := [1]
    let s := pulling 0 0 false
    (∀ x ∈ [0xA016D052, 0], let h := pullMsg 0xB2 0 1 x
      xchOpen s = true ∧ fld h 0 1 = 0xB2 ∧ fld h 1 1 = 0x01 ∧ b.length ≤ 16384 ∧
      pullOf (fromNode s 7 b) 7 h = some (flight pullOrder 1 1 (.pull [] 0 false 0 0)) ∧
      (getLayout (fromNode s 7 b) (fld pullOrder 18 2)).isSome = true ∧ b.length = feLength h ∧ b ≠ [] ∧
      feOffset h + b.length ≤ slotBytes (fromNode s 7 b) (shardAt .idle 5 [.readable 5, .filling] none)) ∧
    (0xA016D052 = fld (pullMsg 0xB2 0 1 0xA016D052) 28 4 ∧ 0xA016D052 ≠ fld (pullMsg 0xB2 0 1 0) 28 4) ∧
    (∀ c ∈ [1, 2, 5], let h := pullMsg 0xB3 c 0 0
      fld h 0 1 = 0xB3 ∧ fld h 1 1 = 0x01 ∧ fld h 9 1 = c ∧
        (pullOf (fromNode s 7 []) 7 h).isSome = true) := by decide +kernel

theorem wit_pull_retry :
    let s := { pulling 0 1025 true with ts := 100000 }
    findPull s 0 0 = some (flight pullOrder 1 1 (.pull [] 0 true 1025 0)) ∧ 0 + s.par.graceUs * 1000 ≤ s.ts ∧ 1025 ≤ 1025 := by
  decide +kernel

/-- A stream record in a state. -/
def stream (st : XState) : XStream := { epoch := 3, st := st, lastUse := 0, unconfirmed := false, unacked := [], reason := 1 }

def withStream (s : State) (st : XState) : State := { s with xstreams := [(9, stream st)] }

theorem wit_streams :
    (∀ st ∈ [XState.up, .syncing], let s := withStream live st
      ∃ x, kvGet (hearCtl s 9).xstreams 9 = some x ∧ x.st = st ∧ x.epoch = 3 ∧ s.power.inReset = none) ∧
    laterEpoch 4 3 = true ∧ kvGet (withStream live .syncing).xstreams 9 = some (stream .syncing) := by
  refine ⟨fun st h => ⟨stream st, ?_⟩, by decide +kernel⟩
  revert st; decide +kernel

/-- The link in each of its three states, within the grace period and at its end. -/
theorem wit_link :
    (∀ st ∈ [XState.up, .down, .closed], kvWf (withStream live st).xstreams = true) ∧ live.link = 0 ∧ live.xheld = [] ∧
    (let s := { live with link := 1, linkAt := 1, ts := 100000 }
     s.link = 1 ∧ s.ts < s.linkAt + s.par.graceUs * 1000) ∧
    (let s := { live with link := 1, linkAt := 0, ts := 100000 }
     s.link = 1 ∧ s.linkAt + s.par.graceUs * 1000 ≤ s.ts) ∧ ({ live with link := 2 } : State).link = 2 := by decide +kernel

/-! ### Witnesses: requesters -/

/-- Byte 0 of layout 1. -/
def addr1 : Nat := 0x0100_1000_0000_0000

theorem wit_wide :
    let s := withLayout live 1 region
    let p := Origin.port 0 false
    accepts s p = true ∧ judgeAccess s p .read (wideOk addr1 4096) true addr1 4096 = (some (.area 1 0 0), .ok, false) ∧
    judgeAccess (countOrigin s p 64) p .write (wideOk addr1 64) true addr1 64 = (some (.area 1 0 0), .ok, false) ∧
    judgeAccess s p .read (wideOk 0x4000000000 64) true 0x4000000000 64 = (some (.ring 0), .ok, false) ∧
    judgeAccess s p .read (wideOk 0 64) true 0 64 = (none, .unmapped, false) ∧
    judgeAccess (countOrigin s p 64) p .write (wideOk 0 64) true 0 64 = (none, .unmapped, false) ∧
    judgeAccess { s with cfg := { s.cfg with fwDefault := 1 } } p .read (wideOk addr1 64) true addr1 64
      = (some (.area 1 0 0), .denied, true) := by decide +kernel

/-- The last 64 bytes of the staging window. -/
theorem wit_stage_write :
    Memory.wf live.stage = true ∧ portBad live (.port 0 false) = false ∧ wideOk 0x40023FFFC0 64 = true ∧
      targetOf live true 0x40023FFFC0 64 = some (.stage 4194240) := by decide +kernel

theorem wit_must_wait :
    let op := ReqOp.read 1 0 0 64
    let s := withLayout live 1 region
    mustWait s s.outst (opCols s false op) = false ∧
    (let t := { s with units := [(0, windowed)] }
     mustWait t t.outst (opCols t false op) = true) := by decide +kernel

theorem wit_narrow :
    let s := withLayout live 1 region
    let o := Origin.port 0 false
    let a : HeldNarrow := ⟨o, false, addr1, 8, none⟩
    (accepts s o = true ∧ entryFree s = true ∧ s.heldNarrow = []) ∧ (accepts s (.node 3) = true ∧ entryFree (heardBy s (.node 3)) = true) ∧
    entryFree { s with tracker := 983040 } = false ∧
    (let t := { s with heldNarrow := [a] }
     t.heldNarrow = [a] ∧ entryFree t = true ∧ accepts t a.origin = true) ∧
    judgeAccess (takeEntry s) o .read (narrowOk addr1 8) false addr1 8 = (some (.area 1 0 0), .ok, false) ∧
    judgeAccess (takeEntry s) o .read (narrowOk 0 8) false 0 8 = (none, .unmapped, false) := by decide +kernel

/-- A point with nothing to serve, one with a booking, and one with a waiting request. -/
theorem wit_grant :
    let pt := ArbPt.portIn 0
    (pointOpen live pt = true ∧ choose live pt (arbNow live pt) false = none) ∧
    (let s := { live with inflight := [{ flight openOrder 0 0 .plain with booked := [⟨.portIn 0, 1000, 1, []⟩] }] }
     ∃ w, choose s pt (arbNow s pt) false = some (.work w)) ∧
    (let s := { live with
       arb := [(arbKey pt, ⟨1000, 0, 0, [⟨2, 5⟩]⟩)],
       outst := [⟨5, .port 0 false, false, false, .ok, [], false, [], none⟩] }
     choose s pt (arbNow s pt) false = some (.item ⟨2, 5⟩)) := by
  refine ⟨by decide +kernel, ⟨(1010, 0, 0, 0, 1000), by decide +kernel⟩, by decide +kernel⟩

theorem wit_completion_request :
    ∀ n ∈ [true, false], let q : PendReq := ⟨5, .port 0 false, n, false, .ok, [], true, [], none⟩
      let s := { live with outst := [q] }
      s.outst.find? (fun z => z.id == 5) = some q ∧ reqHeld s q = false := by decide +kernel

theorem wit_atomics :
    let s := withLayout live 1 region
    let o := Origin.port 0 false
    accepts s o = true ∧
    (∀ n ∈ [4, 8], judgeAccess (countOrigin s o n) o .atomic (addr1 % n == 0) false addr1 n = (some (.area 1 0 0), .ok, false) ∧
      judgeAccess (countOrigin s o n) o .atomic ((addr1 + 2) % n == 0) false (addr1 + 2) n = (none, .unmapped, false)) ∧
    getLayout s 1 = some region ∧ (readPlace s false 1 0 0 4).2.2 = true ∧
    (readPlace { s with chk := [(colKey 0 0 0 0 0, 3)] } false 1 0 0 4).2.2 = false := by decide +kernel

/-! ### Witnesses: registers and mailboxes -/

/-- The addresses at the ends of the ranges of R51 and R495, and the last below each that is of no such range. -/
theorem wit_secure_ranges :
    live.power.inReset = none ∧
    (∀ a ∈ [0x280, 0x29C, 0x2A4, 0x300, 0x35C, 0x500, 0x540, 0x580, 0x5C0, 0xF00, 0x13FC], secureReg a = true) ∧
    (∀ a ∈ [0x27C, 0x2A0, 0x2A8, 0x4C0, 0xEFC, 0x1400], secureReg a = false) := by decide +kernel

/-- The widest doorbell and receipt head that are taken, and the first beyond. -/
theorem wit_doorbell :
    let g := live.rings[(0 : RingId)]
    live.power.inReset = none ∧
    (∀ v ∈ [0, 65536], (v % 131072 + 131072 - g.head) % 131072 ≤ 2 ^ g.depth ∧
      g.occupancy ≤ (v % 131072 + 131072 - g.head) % 131072) ∧
    (2 ^ g.depth < (65537 % 131072 + 131072 - g.head) % 131072) ∧
    (let h := (modRing live 0 (fun x => { x with tail := 2 })).rings[(0 : RingId)]
     (1 % 131072 + 131072 - h.head) % 131072 < h.occupancy) ∧
    (0 % 131072 + 131072 - g.rcpHead) % 131072 ≤ g.unread ∧ g.unread < (1 % 131072 + 131072 - g.rcpHead) % 131072 := by
  decide +kernel

/-- A disabled ring with no incomplete order and with one, and the depths at the ends of the range. -/
theorem wit_ring_config :
    (let s := modRing live 4 (fun x => { x with enable := false })
     s.power.inReset = none ∧ Memory.wf s.awn = true ∧ (s.rings[(4 : RingId)]).enable = false ∧ ringIncomplete s 4 = false ∧
      (∀ d ∈ [4, 16], 4 ≤ d ∧ d ≤ 16)) ∧
    (let s := modRing { live with inflight := [flight openOrder 0 0 .plain] } 0 (fun x => { x with enable := false })
     (s.rings[(0 : RingId)]).enable = false ∧ ringIncomplete s 0 = true) ∧
    ((16 : BitVec 5).toNat = (live.rings[(0 : RingId)]).depth ∧ (4 : BitVec 5).toNat ≠ (live.rings[(0 : RingId)]).depth ∧
      (live.rings[(0 : RingId)]).enable = true) ∧
    ((0x104 : W32).toNat % 32 ≠ (live.rings[(0 : RingId)]).depth ∧ (0x104 : W32).getLsbD 8 = true ∧
      (4 : W32).getLsbD 8 = false ∧ 4 ≤ (4 : W32).toNat % 32) := by decide +kernel

/-- A message in the inbound mailbox of a pair. -/
def withMsg (s : State) (sec : Bool) (ws : List W32) : State :=
  let m : Mbx := ⟨Vector.ofFn (fun i => ws.getD i.val 0), true, false⟩
  if sec then { s with mbxSIn := m } else { s with mbxNsIn := m }

theorem wit_mailbox_words : live.mbxNsIn.full = false ∧ live.mbxSIn.full = false ∧
    (withMsg live false []).mbxNsIn.full = true ∧ (withMsg live true []).mbxSIn.full = true ∧
    0x400 ≤ 0x43C ∧ 0x500 ≤ 0x53C := by decide +kernel

/-- A malformed message, KEY_LOAD of a GMAC key into slot 15, into a slot in use, KEY_CLEAR, and MARK. -/
theorem wit_messages :
    (∀ sec : Bool, let s := withMsg live sec [0xFF]
      takableMsg s sec = true ∧ s.power.paramOk = true ∧ msgBad sec (inbox s sec) = true) ∧
    (let s := withMsg live true [0x240010, 0x20F]
     takableMsg s true = true ∧ msgBad true s.mbxSIn = false ∧ msgType s.mbxSIn = 0x10 ∧
      keyBusy s (keyIdx s.mbxSIn).val = false ∧ keyUseF s.mbxSIn = 2) ∧
    (let fw := live.sec.fw.set 0 ⟨0x00010001, 0, 0xF21, 0⟩
     let ly := { region with enc := some 15 }
     let s := withMsg (withLayout { live with sec := { live.sec with fw := fw } } 1 ly) true [0x240010, 0x20F]
     msgBad true s.mbxSIn = false ∧ keyBusy s (keyIdx s.mbxSIn).val = true) ∧
    (let s := withMsg live true [0x40011, 15]
     takableMsg s true = true ∧ msgBad true s.mbxSIn = false ∧ msgType s.mbxSIn = 0x11 ∧
      keyBusy s (keyIdx s.mbxSIn).val = false) ∧
    (let s := withMsg live false [0x80020, 1, 2]
     takableMsg s false = true ∧ msgBad false s.mbxNsIn = false ∧ msgType s.mbxNsIn = 0x20) ∧
    (let s := { live with ansS := [⟨0, 1⟩], ansNs := [⟨0, 1⟩] }
     s.ansS = ⟨0, 1⟩ :: [] ∧ s.ansNs = ⟨0, 1⟩ :: [] ∧ s.mbxSOut.full = false ∧ s.mbxNsOut.full = false) := by decide +kernel

theorem wit_image :
    (let s := withMsg live true [0x140001, 0, 0, 0, 64, 0]
     takableMsg s true = true ∧ s.power.paramOk = true ∧ msgBad true s.mbxSIn = false ∧ bootOpen s = true ∧
      msgType s.mbxSIn = 0x01) ∧
    (let s := withMsg live true [0x300002]
     takableMsg s true = true ∧ msgBad true s.mbxSIn = false ∧ bootOpen s = true ∧ msgType s.mbxSIn = 0x02) ∧
    (let d : Vector W32 5 := #v[0, 0, 0, 64, 0]
     let s := { live with boot := { live.boot with checking := true, desc := some d, digest := some (Vector.replicate 12 0) } }
     s.boot.checking = true ∧ s.boot.desc = some d ∧ s.boot.digest = some (Vector.replicate 12 0) ∧
      (List.replicate 64 (0 : Byte)).length = (d[3]).toNat) := by decide +kernel

/-! ### Witnesses: the machine as a whole, beats -/

theorem live_inv : Inv live where
  par := by decide
  awn := by decide
  stage := by decide
  dram := by decide
  chk := by decide
  turn := by decide
  rings := fun r => by
    have h : live.rings[r] = RingSt.reset := by revert r; decide +kernel
    rw [h]; exact ⟨by decide, by decide, by decide, by decide, by decide, by decide⟩
  cfg := by
    constructor
    · exact .inr ⟨by decide, by decide⟩
    all_goals exact ⟨by decide, by decide⟩
  tally := ⟨by decide, by decide⟩
  led := ⟨by decide, by decide⟩
  link := by decide
  calm := rfl

/-- A state with the invariant, and the next one (StepKeepsInv, ParamsNeverChange). -/
theorem wit_step : Inv live ∧ ∃ t, step live = .next t := ⟨live_inv, _, rfl⟩

/-- A first strobe, one of the same number, one of the next; and a sequencer that is silent for exactly 16 beats. -/
theorem wit_strobe : live.power.inReset = none ∧ live.batching = false ∧ State.reset.beat.valid = false ∧
    live.beat.valid = true ∧ 1000 ≤ live.beat.now ∧ live.beat.now < 1001 ∧ live.cfg.period ≠ 0 ∧
    16 * live.cfg.period ≤ 320000 - live.beat.lastStrobe ∧ 319999 - live.beat.lastStrobe < 16 * live.cfg.period := by
  decide +kernel

/-! ### Witnesses: sites -/

theorem wit_start_up :
    (live.power.inReset = none ∧ nextEnable State.reset = some 0) ∧
    (let s := modSite live 19 (fun z => { z with powerEn := true })
     kindOf s 19 ≠ .none ∧ (s.sites[(19 : SiteId)]).powerEn = true ∧ (s.sites[(19 : SiteId)]).powerGood = false ∧
      (s.sites[(19 : SiteId)]).fenced = false ∧ busQuiet s = true ∧ (s.sites[(19 : SiteId)]).state = 0) ∧
    ((modSite live 0 (fun z => { z with state := 1 })).sites[(0 : SiteId)]).state = 1 ∧
    testable { modSite live 0 (fun z => { z with state := 2 }) with boot := { live.boot with verified := true } } 0 = true ∧
    (let s := { (List.finRange 20).foldl upSite State.reset with boot := { live.boot with verified := true } }
     readyDue s = true) ∧ (⟨true, [], true⟩ : ReadyTest).coreOk = true ∧ (⟨false, [], true⟩ : ReadyTest).coreOk = false := by
  decide +kernel

/-- A channel in service with each of its holds. -/
def withChan (f : Chan → Chan) : State := modChan (upSite live 0) 0 31 f

theorem wit_holds :
    (∀ n ∈ [0, 1, 2], let s := withChan (fun y => { y with spares := n })
      chanUp s 0 31 = true ∧ s.batching = false ∧ (getChan s 0 31).hold = none ∧ (getChan s 0 31).spares = n) ∧
    (let s := { withChan (fun y => { y with hold := some .repair, holdStart := 0 }) with ts := 1 }
     chanUp s 0 31 = true ∧ (getChan s 0 31).hold = some .repair ∧ (getChan s 0 31).holdStart ≠ s.ts ∧
      (getChan s 0 31).waitWindow = false ∧ holding s 0 31 .repair = true ∧ (getChan s 0 31).pendRepair = [] ∧
      (getChan s 0 31).pendRetrain = false) ∧
    (let s := withChan (fun y => { y with hold := some .repair, holdStart := 0 })
     (getChan s 0 31).hold = some .repair ∧ (getChan s 0 31).holdStart = s.ts) ∧
    (let s := withChan (fun y => { y with hold := some .retrain })
     (getChan s 0 31).hold = some .retrain ∧ holding s 0 31 .retrain = true ∧ (getChan s 0 31).pendRepair = [] ∧
      (getChan s 0 31).pendRetrain = false) ∧
    (∀ l ∈ [[], [0], [0, 0]], let s := withChan (fun y => { y with parity := l })
      (getChan s 0 31).parity.filter (fun z => decide (s.ts ≤ z + 1000000)) = l) := by decide +kernel

/-- A reading one below the trip temperature, and at it; a site that has shut down; and one that can trip. -/
theorem wit_heat :
    (let s := upSite live 0
     s.power.inReset = none ∧ s.batching = false ∧ (s.sites[(0 : SiteId)]).state = 2 ∧ (s.sites[(0 : SiteId)]).fenced = false ∧
      (s.sites[(0 : SiteId)]).tripPin = false ∧ kindOf s 0 ≠ .none ∧
      (hottest [959]).1.toNat < 960 ∧ 960 ≤ (hottest [960]).1.toNat ∧
      nextLevel s.power.juncLevel (hottest [0]).1.toNat (8 * s.cfg.hyst) juncThr = s.power.juncLevel) ∧
    (let s := modSite live 0 (fun z => { z with shutdown := true, fenced := true })
     (s.sites[(0 : SiteId)]).shutdown = true ∧ (s.sites[(0 : SiteId)]).fenced = true) := by decide +kernel

/-- Pairs that owe −4, −3, 3 and 4 REFPs, free and with a window open. -/
theorem wit_refresh :
    (∀ d ∈ [(-4 : Int), -3, 3, 4], let s := { upSite live 0 with refreshDebt := [(0, d)] }
      kvGetD s.refreshDebt 0 0 = d ∧ kvWf s.refreshDebt = true ∧ chanUp s 0 0 = true ∧
      (s.sites[(0 : SiteId)]).selfRefresh = false ∧ refreshFree s 0 0 0 = true ∧ reachable s 0 0 = true ∧
      deferReady s (stackDefer 7 0 0 0 []) = true) ∧ refreshLimit (upSite live 0) 0 = 4 ∧
    (let s := { upSite live 0 with units := [(0, windowed)] }
     reachable s 0 0 = true ∧ deferReady s (stackDefer 7 0 0 0 []) = false ∧ refreshFree s 0 0 0 = false) := by decide +kernel

theorem wit_stack_commands :
    (let s := upSite live 0
     canSend s 0 31 = true ∧ stallFenced s 0 31 7 = false ∧ 0 < groupCount (getUnit s (stallKey 0 31 7)).stateLayout ∧
      latchFree (getUnit s (stallKey 0 31 7)) 0 = true ∧ 65535 < 65536 ∧ (457 : BitVec 9).toNat < 458 ∧
      deferReady s (stackDefer 6 0 31 7 [15, 0, 457, 1]) = true ∧ 45775 + 1 ≤ 45776 ∧
      deferReady s (stackDefer 5 0 31 7 [15, 45775, 1]) = true) ∧
    (let s := { upSite live 0 with units := [(stallKey 0 31 7, windowed)] }
     canSend s 0 31 = true ∧ deferReady s (stackDefer 6 0 31 7 [15, 0, 457, 1]) = false ∧
      deferReady s (stackDefer 5 0 31 7 [15, 45775, 1]) = false) := by decide +kernel

/-- A stall that runs, one that is paused; a word that is not reserved, and one that is. -/
theorem wit_stall :
    let st : StallId := ⟨0, 31, 7⟩
    let v : FmtV := ⟨1, 2, 3, 4, 0⟩
    (.fma st v, wordV 0x10 v) ∈ stallWords st ⟨0, 0, false, 0, 0⟩ v ∧
    (.fma st v, wordV 0x10 v, fun a b c => ffma a b c) ∈ laneFns st v ∧ reservedWord (wordV 0x10 v) = false ∧
    reservedWord (wordV 0x10 { v with m := 1 }) = true ∧ stallRuns (upSite live 0) st = true ∧
    stallRuns { upSite live 0 with units := [(stallKey 0 31 7, { Stall.empty with paused := true })] } st = false :=
  ⟨by simp [stallWords], by simp [laneFns], by decide +kernel⟩

/-- The firewall entry 63 valid and not valid, the lock open, and addresses of RegisterWriteTypes. -/
theorem wit_register_writes :
    (setFw live 63 ⟨0, 0, 1, 0⟩).sec.fw[(63 : Fin 64)].attr.getLsbD 0 = true ∧ (live.sec.fw[(63 : Fin 64)]).attr.getLsbD 0 = false ∧
    live.sec.debugLock = true ∧ ({ live with sec := { live.sec with debugLock := false } } : State).sec.debugLock = false ∧
    0x102 % 4 ≠ 0 ∧ (7 : BitVec 4) ≠ 15 ∧ 0x1460 ≤ 0x1460 ∧ 0x1460 % 4 = 0 := by decide +kernel

theorem wit_lattice : ∃ ka kb, (ka, kb) = sealedChk 5 9 := ⟨_, _, rfl⟩

/-! ### Witnesses: integrity, faults and power -/

theorem wit_errors :
    (let s := upSite live 0
     chanUp s 0 31 = true ∧ (getChan s 0 31).held = false ∧ Reader.scrub ≠ Reader.sealer ∧
      sealerVerdict (chargeRetry s 0) (blockKey s 0 31 0 0 0) ≠ some true) ∧
    (let ly := { shardAt .resealing 6 [.readable 5, .readable 6] (some upd0) with guarded := true, bandRows := 4 }
     let s := withLayout (upSite live 0) 1 ly
     chanUp s 0 0 = true ∧ sealerVerdict s (blockKey s 0 0 1 19 0) = some true) ∧
    (live.ts % (live.cfg.tranLeak * 1000) = 0 ∧ live.ts % (live.cfg.lastLeak * 1000000) = 0) := by decide +kernel

theorem wit_scrub :
    (let s := upSite live 0
     bgTurn s (.channel 0 31) = true ∧ scrubAt s 0 31 (List.range (banksOf s 0)) (getChan s 0 31).scrubPos = some (0, 0) ∧
      rowFree s 0 31 0 0 = true) ∧
    rowFree { upSite live 0 with units := [(stallKey 0 31 0, windowed)] } 0 31 0 0 = false ∧
    (getChan live 0 31).scrubFrom + live.cfg.scrubS * 1000000000 ≤ 3600000000000 ∧
    3599999999999 < (getChan live 0 31).scrubFrom + live.cfg.scrubS * 1000000000 := by decide +kernel

/-- A spot check within its millisecond, and one whose millisecond is over. -/
theorem wit_spot :
    let z : Spot := ⟨0, 1, 0, 0, .stall ⟨0, 0, 0⟩, [], [], Stall.empty, true, 0⟩
    let ly := shardAt .idle 0 [.released, .released] none
    ∀ ts ∈ [1000000], let s := { withLayout (upSite live 0) 1 ly with spots := [z], ts := ts }
      findSpot s 0 1 0 = some z ∧ getLayout s 1 = some ly ∧ checkFree s 0 = true ∧
      bgTurn s (.channel 0 (chOf (ly.parcelUnit s 0).ch)) = true ∧ s.ts ≤ z.sealedAt + 1000000 ∧
      (parseSeal (rowCol s ly 0 63)).step = z.step ∧ z.sealedAt + 1000000 ≤ s.ts := by decide +kernel

theorem wit_hard_faults :
    (let s := upSite live 19
     s.power.inReset = none ∧ chanUp s 19 31 = true ∧ isFcs s 19 = true ∧ stallFenced s 19 31 7 = false ∧ s.batching = false ∧
      reliefUp s 19 = true ∧ (s.sites[(19 : SiteId)]).reliefFaults = [] ∧ kindOf s 19 ≠ .none) ∧
    (let s := { modSite (upSite live 19) 19 (fun z => { z with reliefFaults := [0] }) with ts := 3600000000000 }
     ∀ t0 ∈ (s.sites[(19 : SiteId)]).reliefFaults, s.ts ≤ t0 + suspectNs s) ∧
    ((modSite live 19 (fun z => { z with reliefDown := true })).sites[(19 : SiteId)]).reliefDown = true ∧
    (let s := { live with charges := [(.awning, 1000, 40001)], squallDebt := [(.awning, 1000, 1)] }
     overAllowance (settle s) .awning = true ∧ (settle s).squallDebt.any (fun c => c.1 == .awning) = true) ∧
    overAllowance (settle { live with charges := [(.awning, 1000, 40000)] }) .awning = false := by decide +kernel

theorem wit_fatal : live.power.inReset = none ∧ live.fatal = false ∧
    Instr.clockLoss .ref true ∈ [Instr.fatalFault true, .clockLoss .ref true] :=
  ⟨by decide +kernel, by decide +kernel, by simp⟩

theorem wit_power_on :
    live.power.inReset ≠ some .powerOn ∧
    (∀ b : Bool, let s := { live with power := { live.power with inReset := some .powerOn, rst48 := b } }
      s.power.inReset = some .powerOn ∧ s.power.needPorst = false ∧ s.power.rst48 = b ∧ s.par.ok = true) ∧
    ({ Params.default with awnMib := 192 } : Params).ok = false ∧ ((upSite live 0).sites[(0 : SiteId)]).powerGood = true := by
  decide +kernel

theorem wit_soft_reset : Memory.wf live.dram = true ∧ live.power.inReset = none ∧
    Instr.blockReset ∈ [Instr.blockReset, .bus48Reset] ∧ busQuiet live = true :=
  ⟨by decide +kernel, by decide +kernel, by simp, by decide +kernel⟩

/-- The 48 V warning: no hold, a hold with the warning asserted, one that may not end yet, and one that may, at its tick. -/
theorem wit_squall :
    live.power.squall = false ∧
    (let s := { live with power := { live.power with squall := true, warn := true } }
     s.power.squall = true ∧ s.power.warn = true ∧ busQuiet s = false) ∧
    (∀ d ∈ [(49999, false), (50000, true)],
      let s := { live with power := { live.power with squall := true, clearAt := some 50000 }, ts := d.1 }
      s.power.squall = true ∧ busQuiet s = d.2) ∧
    (let s := { live with power := { live.power with ripple := some (0, 30) } }
     s.power.ripple = some (0, 30) ∧ inRipple s (siteOf 0) = true ∧ 30 + 1 < rippleGroups s 0) := by decide +kernel

theorem wit_tap : (.idcode, false, ⟨0x01, 0xB0020C93, none, false⟩) ∈ tapOps live 0 ∧ live.sec.debugLock = true :=
  ⟨by simp [tapOps], by decide +kernel⟩

/-! ### Small steps -/

/-- The check value of R193: the CRC-32C of "123456789". -/
theorem test_crc32c : crc32c [0x31, 0x32, 0x33, 0x34, 0x35, 0x36, 0x37, 0x38, 0x39] = 0xE3069283#32 := by decide +kernel

/-- Example DRZ-1, and Example DRZ-2: four draws under the key it forms. -/
theorem test_drizzle : drizzle 0 0 = 0x0CE181519EDF34B2 ∧
    [0, 1, 2, 3].map (draw16 0x10000000000 0 1 0 false) = [0x34B2, 0x9EDF, 0x8151, 0x0CE1] := by decide +kernel

/-- Example STL-1: II, K, and the cycles of a parcel. -/
theorem test_schedule : iiOf 3 ruleSgd.body false = 4 ∧ flightK 3 ruleSgd.body false = 5 ∧
    parcelCycles 3 ruleSgd.body false = 124 := by decide +kernel

/-- Example NUM-1, instructions 6, 11, 12 and 13. -/
theorem test_adam : ffma 0x3D000000 0x3E000000 0x3C600000 = 0x3C900000 ∧
    fmul (sfu 0x20 0x3A800000 0xBA800000) 0x3F800000 = 0xBD000000 ∧ fmul 0x3F333333 0x3F7FFC00 = 0x3F333066 ∧
    ffma 0x3C900000 0xBD000000 0x3F333066 = 0x3F330C66 := by decide +kernel

/-- Examples NUM-1 and NUM-2: the draws on both sides of a carry. -/
theorem test_stochastic :
    cvt 0x00 (.stoch 0x9E4B) 0x3F330C66 = some 0x3F33 ∧ cvt 0x00 (.stoch 0xF399) 0x3F330C66 = some 0x3F33 ∧
    cvt 0x00 (.stoch 0xF39A) 0x3F330C66 = some 0x3F34 ∧ cvt 0x02 (.stoch 0xA9E71234) 0x3F330C66 = some 0x33 ∧
    cvt 0x02 (.stoch 0xA9ED1234) 0x3F330C66 = some 0x34 := by decide +kernel

/-- Example STA-1: the scale byte of an MXFP8 block with amax 3.5, and its two elements. -/
theorem test_mx : (let b := mxBlock e4m3 8 [(0x40600000, 0, true, false), (0x3DCD0000, 0, true, false)]
    (b.1, b.2.1)) = (0x78, [0x7E, 0x55]) := by decide +kernel

/-- Example ITY-1: byte 37 of a block holds 0x6C, and a flipped bit of it is put right; with byte 12 flipped too it is not. -/
theorem test_lattice :
    let b : Col := 0x6C#256 <<< 40
    let k := sealedChk 0 b
    k.2.getLsbD 5 = false ∧ (latticeDecode 0 (0x4C#256 <<< 40) k.1 k.2) = (.corrected, 0, b) ∧
    (latticeDecode (0x20#256 <<< 96) (0x4C#256 <<< 40) k.1 k.2).1 = .bad := by decide +kernel

/-- Example SEC-1: an order that needs Compute, and a read through port 12. -/
theorem test_firewall :
    let fw := (live.sec.fw.set 3 ⟨0x00C70064, 0xFF, 0xD, 0⟩).set 9 ⟨0x0FFF0001, 0x1FFFF, 0x1D, 0⟩
    let s := { live with sec := { live.sec with fw := fw } }
    fwMatch s 150 = 3 ∧ fwMatch s 200 = 9 ∧ fwOk s 150 ⟨false, 0, false, false, true⟩ = false ∧
    fwOk s 150 ⟨false, 2 ^ 12, true, false, false⟩ = false ∧ fwOk s 150 ⟨false, 2 ^ 7, true, true, false⟩ = true := by decide +kernel

/-- Example TEL-1: the fields of a Ledger entry. -/
theorem test_ledger : (let e := ledEntry 10000000000 52310 7000 0x41 0x123 false (Place.chan 7 12) 0 (0x29 * 2 ^ 32 + 26200)
    (bitsOf e.toNat 0 64, bitsOf e.toNat 64 48, bitsOf e.toNat 152 8, bitsOf e.toNat 160 16, bitsOf e.toNat 184 16,
      bitsOf e.toNat 212 44)) = (10000000000, 52310, 0x41, 0x123, 0x0187, 0x2900006658) := by decide +kernel

/-- Example ORD-1: word 0 of the ACCEPTED receipt, and room for a timed order. -/
theorem test_receipt_word : word0 0x00 0x20 0x123 0 0 0x5A5A = 0x005A5A0001232000 ∧
    (let g := { RingSt.reset with depth := 8, rcpTail := 0x310, rcpHead := 0x250, owed := 60 }
     (g.unread, g.freeRcp)) = (192, 64) := by decide +kernel

/-- Example ITG-1: an order slot, its receipt slot, and a byte of a version slot. -/
theorem test_addresses : orderAddr 2 0x123 8 = 0x10008C0 ∧ receiptAddr 2 0x123 8 = 0x1400460 ∧
    targetOf live false 0x0104230000010000 8 = some (.area 0x42 3 0x10000) := by decide +kernel

/-- What a step leaves, where it answers a next state. -/
def after (o : Host.Outcome State Fault Refusal) : Option State :=
  match o with
  | .next t => some t
  | _ => none

/-- A NOP on ring 2 writes DONE with its index and Phase 1 at the first receipt slot (Table ORD-5), and takes the order. -/
theorem test_nop : (after (exec (.nop 2) (withOrder live 2 (mkOrder 0 [])))).map (fun t =>
    (memReadN t.awn 0x1400000 8, (t.rings[(2 : RingId)]).head, (t.rings[(2 : RingId)]).rcpTail, t.turn))
      = some ([0x01, 0, 0, 0, 2, 0, 0, 0x80], 1, 1, 3) := by decide +kernel

/-- A doorbell beyond the depth sets BadDoorbell and writes Ledger code 0x05 (R54). -/
theorem test_bad_doorbell : (after (exec (.doorbell false 1 65537) live)).map (fun t =>
    ((t.rings[(1 : RingId)]).tail, (t.rings[(1 : RingId)]).status, t.led.entries.map (fun e => bitsOf e.toNat 152 8)))
      = some (0, 1, [0x05]) := by decide +kernel

/-- A strobe that jumps, and one that goes back (Table BEA-1). -/
theorem test_strobes :
    (after (exec (.beatStrobe 1005 none) live)).map (fun t => (t.beat.now, t.beat.status &&& 2)) = some (1005, 0) ∧
    (after (exec (.beatStrobe 999 none) live)).map (fun t => (t.beat.now, t.beat.status &&& 2)) = some (1000, 2) := by
  decide +kernel

/-- A FADD32 at the top of a region returns the old value and leaves the sum (Table MEM-7). -/
theorem test_fadd : (after (exec (.fadd32 0 false (addr1 + 4092) 0x3F800000) (withLayout (upSite live 0) 1 region))).map (fun t =>
    (t.outst.map (fun r => (r.cpl, r.data)), (reqRead t 1 region 0 4092 4).2.1)) = some ([(.ok, [0, 0, 0, 0])], [0, 0, 0x80, 0x3F]) := by
  decide +kernel

/-- A word of a lane instruction built from Table STL-3, and its effect in lane 7. -/
theorem test_stall_add :
    let v : FmtV := ⟨3, 1, 2, 0, 0⟩
    let u := { Stall.empty with regs := [(1, 0x3F800000#256 <<< 224), (2, 0x40000000#256 <<< 224)] }
    wordV 0x11 v = 0x44304200 ∧
    (after (exec (.add ⟨0, 0, 0⟩ v) { upSite live 0 with units := [(0, u)] })).map (fun t => lane ((getUnit t 0).reg 3) 7)
      = some 0x40400000 := by decide +kernel

/-! ### Witnesses: Ledger and Tally -/

/-- A Ledger with `n` unread entries from Seq 0. -/
def withLedger (s : State) (n : Nat) : State :=
  { s with led := { s.led with entries := (List.range n).map (fun i => BitVec.ofNat 256 (2 ^ 160 * i)) } }

/-- A LEDGER_DRAIN of `n` entries from Seq 0. -/
def withDrain (s : State) (n : Nat) : State :=
  { s with inflight := [flight (mkOrder 0x64 [(8, 1010)]) 1 1 (.drain n 0 0)] }

/-- Entries in Seq order: an empty, a nearly full and a full ring, with a drain that has an entry to copy and without. -/
theorem wit_ledger :
    (∀ n i : Nat, ∀ h : i < (withLedger live n).led.entries.length,
      ((withLedger live n).led.entries[i]).extractLsb' 160 16 = BitVec.ofNat 16 ((withLedger live n).led.head + i)) ∧
    (∀ n, (withLedger live n).led.entries.length = n) ∧
    live.cfg.ledRec ≠ 0 ∧ ({ live.cfg with ledRec := 0 } : Cfg).ledRec = 0 ∧ live.cfg.fillLevel ≤ 65535 ∧
    drainPending (withLedger live 65536) = false ∧ drainPending (withDrain (withLedger live 65536) 1) = true := by
  refine ⟨fun n i h => ?_, fun n => by simp [withLedger], by decide, rfl, by decide, rfl, rfl⟩
  have hh : (withLedger live n).led.head = 0 := rfl
  rw [hh]
  apply BitVec.eq_of_toNat_eq
  simp [withLedger, Nat.shiftRight_eq_div_pow]
  omega

/-- TALLYs of groups 1 and 6 due in this beat and one of group 3 due in the next. -/
theorem wit_tally :
    let s := { live with
      tally := { live.tally with ctr := [(64, 1), (68, 2), (161, 3)], shadow := [(161, 9)], groupGen := [(2, 4)], gen := 65535 }
      inflight := [flight (mkOrder 0x63 [(8, 1000), (16, 2)]) 1 1 (.tally none),
        flight (mkOrder 0x63 [(8, 1000), (16, 64)]) 1 1 (.tally none), flight (mkOrder 0x63 [(8, 1001), (16, 8)]) 1 1 (.tally none)] }
    kvWf s.tally.ctr = true ∧ kvWf s.tally.shadow = true ∧ kvWf s.tally.groupGen = true ∧
      (s.inflight.map (toLatch s)) = [true, true, false] ∧
      (∀ i ∈ [64, 127, 4096], ∃ f ∈ s.inflight, toLatch s f = true ∧ (fld f.order 16 2).testBit (groupOf i) = true) ∧
      (∀ i ∈ [63, 128, 4095], ∀ f ∈ s.inflight, toLatch s f = true → (fld f.order 16 2).testBit (groupOf i) = false) ∧
      live.inflight.any (toLatch live) = false := by decide +kernel

end Sys2Proof.Tests
end

section
/-! PROOFS. Orders, receipts and mailboxes: what an access through the register port can do, what a command that takes an
order does, and the statements about secure orders, the secure register ranges, doorbells, receipt heads and mailboxes. -/

namespace Sys2Proof.Machine

/-! ### Accesses through the register port -/

/-- The ranges of R51 and R495. -/
theorem secureReg_iff (a : Nat) : secureReg a = true ↔
    0x280 ≤ a ∧ a ≤ 0x29C ∨ a = 0x2A4 ∨ 0x300 ≤ a ∧ a ≤ 0x35C ∨ 0x500 ≤ a ∧ a ≤ 0x540 ∨ 0x580 ≤ a ∧ a ≤ 0x5C0 ∨
      0xF00 ≤ a ∧ a ≤ 0x13FC := by
  simp only [secureReg, Bool.or_eq_true, decide_eq_true_eq, beq_iff_eq, or_assoc]

section Port
variable {s : State} {sec : Bool} {a : Nat} {strb : BitVec 4} {v : W32}

/-- R51: a write to a secure register from the non-secure world. -/
theorem axiWrite_nonSecure (h : s.power.inReset = none) (ha : secureReg a = true) :
    axiWrite s false a strb v = axiAnswer s 2 0 := by
  simp [axiWrite, h, ha]

/-- R51: a read of a secure register from the non-secure world. -/
theorem axiRead_nonSecure (h : s.power.inReset = none) (ha : secureReg a = true) :
    axiRead s false a = axiAnswer s 2 0 := by
  simp [axiRead, h, ha]

/-- R91: a write to a payload word of a full inbound mailbox. -/
theorem axiWrite_mbxBusy (h : s.power.inReset = none) (hb : mbxBusy s a = true) :
    axiWrite s sec a strb v = axiAnswer s 2 0 := by
  simp [axiWrite, h, hb]

/-- A whole aligned word written from a world that may write it, to no full mailbox, takes effect (R535, R536). -/
theorem axiWrite_taken (h : s.power.inReset = none) (ha : a % 4 = 0) (hw : sec = true ∨ secureReg a = false)
    (hb : mbxBusy s a = false) : axiWrite s sec a 15 v = axiAnswer (regPoke s sec a v) 0 0 := by
  rcases hw with rfl | hw
  · simp [axiWrite, h, ha, hb]
  · simp [axiWrite, h, ha, hb, hw]

/-- An aligned read from a world that may read gives the register as it stood before the read's effects (R541). -/
theorem axiRead_taken (h : s.power.inReset = none) (ha : a % 4 = 0) (hw : sec = true ∨ secureReg a = false) :
    axiRead s sec a = axiAnswer (readEffect s sec a) 0 (regPeek s sec a) := by
  rcases hw with rfl | hw
  · simp [axiRead, h, ha]
  · simp [axiRead, h, ha, hw]

end Port

/-! ### Ring registers -/

theorem ringOf_val (r : RingId) : ringOf r.val = r := Fin.ext (Nat.mod_eq_of_lt r.isLt)

/-- Of the ring registers the secure world alone reaches those of ring 4 (R51). -/
theorem secureReg_ringReg (r : RingId) {off : Nat} (ho : off ≤ 0x1C) : secureReg (ringReg r off) = decide (r = 4) := by
  have hr : r = 4 ↔ r.val = 4 := Fin.ext_iff
  rw [Bool.eq_iff_iff, secureReg_iff, decide_eq_true_iff, hr, ringReg]
  omega

theorem mbxBusy_ringReg (s : State) (r : RingId) {off : Nat} (ho : off ≤ 0x1C) : mbxBusy s (ringReg r off) = false := by
  have hns : ¬ (0x400 ≤ ringReg r off ∧ ringReg r off ≤ 0x43C) := by simp only [ringReg]; omega
  have hs : ¬ (0x500 ≤ ringReg r off ∧ ringReg r off ≤ 0x53C) := by simp only [ringReg]; omega
  simp [mbxBusy, hns, hs]

theorem regPoke_ringReg (s : State) (sec : Bool) (r : RingId) {off : Nat} (v : W32) (ho : off ≤ 0x1C) :
    regPoke s sec (ringReg r off) v = ringWrite s r (off / 4) v := by
  have hlo : 0x200 ≤ ringReg r off := by simp only [ringReg]; omega
  have hhi : ringReg r off < 0x2A0 := by simp only [ringReg]; omega
  have hring : (ringReg r off - 0x200) / 0x20 = r.val := by simp only [ringReg]; omega
  have hword : ringReg r off % 0x20 / 4 = off / 4 := by simp only [ringReg]; omega
  have hforce : ringReg r off ≠ 0x048 := by omega
  have hbeat : ringReg r off ≠ 0x118 := by omega
  have hlow : ringReg r off < 0x600 := by omega
  simp [regPoke, pokeLow, hlow, hforce, hbeat, hlo, hhi, hring, hword, ringOf_val]

/-- A write of a ring register from a world that may write it (R51, Table ORD-1). -/
theorem axiWrite_ringReg {s : State} {sec : Bool} {r : RingId} {off : Nat} (v : W32) (h : s.power.inReset = none)
    (hw : r = 4 → sec = true) (ho : off ≤ 0x1C) (ha : off % 4 = 0) :
    axiWrite s sec (ringReg r off) 15 v = axiAnswer (ringWrite s r (off / 4) v) 0 0 := by
  have haligned : ringReg r off % 4 = 0 := by simp only [ringReg]; omega
  have hworld : sec = true ∨ secureReg (ringReg r off) = false := by
    rw [secureReg_ringReg r ho, decide_eq_false_iff_not]
    exact (Decidable.em (r = 4)).imp_left hw
  rw [axiWrite_taken h haligned hworld (mbxBusy_ringReg s r ho), regPoke_ringReg s sec r v ho]

theorem exec_doorbell {s : State} {sec : Bool} {r : RingId} (v : W32) (h : s.power.inReset = none)
    (hw : r = 4 → sec = true) : exec (.doorbell sec r v) s = .next (axiAnswer (writeTail s r v) 0 0) :=
  congrArg Host.Outcome.next (axiWrite_ringReg v h hw (by decide) (by decide))

theorem exec_rcpHeadWrite {s : State} {sec : Bool} {r : RingId} (v : W32) (h : s.power.inReset = none)
    (hw : r = 4 → sec = true) : exec (.rcpHeadWrite sec r v) s = .next (axiAnswer (writeRcpHead s r v) 0 0) :=
  congrArg Host.Outcome.next (axiWrite_ringReg v h hw (by decide) (by decide))

/-- R54: when a doorbell is ignored. -/
theorem writeTail_ignored {s : State} {r : RingId} {v : W32}
    (h : 2 ^ (s.rings[r]).depth < (v.toNat % 131072 + 131072 - (s.rings[r]).head) % 131072 ∨
      (v.toNat % 131072 + 131072 - (s.rings[r]).head) % 131072 < (s.rings[r]).occupancy) :
    writeTail s r v = ledAdd (ringStatus s r 1) 0x05 (Place.ring r.val) 0 v.toNat :=
  if_pos h

/-- R54: when a doorbell is taken. -/
theorem writeTail_taken {s : State} {r : RingId} {v : W32}
    (hd : (v.toNat % 131072 + 131072 - (s.rings[r]).head) % 131072 ≤ 2 ^ (s.rings[r]).depth)
    (ho : (s.rings[r]).occupancy ≤ (v.toNat % 131072 + 131072 - (s.rings[r]).head) % 131072) :
    writeTail s r v = modRing s r (fun g => { g with tail := v.toNat % 131072 }) :=
  if_neg (not_or.2 ⟨hd.not_gt, ho.not_gt⟩)

/-- R55: when a receipt head is ignored. -/
theorem writeRcpHead_ignored {s : State} {r : RingId} {v : W32}
    (h : (s.rings[r]).unread < (v.toNat % 131072 + 131072 - (s.rings[r]).rcpHead) % 131072) :
    writeRcpHead s r v = ringStatus s r 2 :=
  if_pos h

/-- R55: when a receipt head is taken. -/
theorem writeRcpHead_taken {s : State} {r : RingId} {v : W32}
    (h : (v.toNat % 131072 + 131072 - (s.rings[r]).rcpHead) % 131072 ≤ (s.rings[r]).unread) :
    writeRcpHead s r v = modRing s r (fun g => { g with rcpHead := v.toNat % 131072 }) :=
  if_neg h.not_gt

/-! ### Mailbox registers -/

/-- The write of the last payload word commits the message (R90). -/
theorem mbxPut_lastWord (m : Mbx) (v : W32) : mbxPut m 0x3C v = { m with d := m.d.set 15 v, full := true } := by
  simp [mbxPut]

/-- R93: the last payload word as the outside end of an outbound mailbox reads it. -/
theorem mbxPeek_lastWord (m : Mbx) : mbxPeek m false 0x3C = if m.full then m.d[15] else 0 := by
  cases hf : m.full <;> simp [mbxPeek, hf]

theorem regPoke_mbxNsInLast (s : State) (sec : Bool) (v : W32) :
    regPoke s sec 0x43C v = { s with mbxNsIn := { s.mbxNsIn with d := s.mbxNsIn.d.set 15 v, full := true } } := by
  simp [regPoke, pokeLow, mbxPut_lastWord]

theorem regPoke_mbxSInLast (s : State) (sec : Bool) (v : W32) :
    regPoke s sec 0x53C v =
      noteImage { s with mbxSIn := { s.mbxSIn with d := s.mbxSIn.d.set 15 v, full := true } } := by
  simp [regPoke, pokeLow, mbxPut_lastWord]

theorem regPeek_mbxNsOutLast (s : State) (sec : Bool) :
    regPeek s sec 0x4BC = if s.mbxNsOut.full then s.mbxNsOut.d[15] else 0 := by
  simp [regPeek, peekOrd, mbxPeek_lastWord]

theorem regPeek_mbxSOutLast (s : State) (sec : Bool) :
    regPeek s sec 0x5BC = if s.mbxSOut.full then s.mbxSOut.d[15] else 0 := by
  simp [regPeek, peekOrd, mbxPeek_lastWord]

theorem mbxBusy_nsIn {s : State} {a : Nat} (hf : s.mbxNsIn.full = true) (hlo : 0x400 ≤ a) (hhi : a ≤ 0x43C) :
    mbxBusy s a = true := by
  simp [mbxBusy, hf, hlo, hhi]

theorem mbxBusy_sIn {s : State} {a : Nat} (hf : s.mbxSIn.full = true) (hlo : 0x500 ≤ a) (hhi : a ≤ 0x53C) :
    mbxBusy s a = true := by
  simp [mbxBusy, hf, hlo, hhi]

theorem exec_registerWrite_mbxBusy {s : State} {sec : Bool} {a : Nat} {v : W32} (h : s.power.inReset = none)
    (hb : mbxBusy s a = true) : exec (.registerWrite sec a 15 v) s = .next (axiAnswer s 2 0) :=
  congrArg Host.Outcome.next (axiWrite_mbxBusy h hb)

theorem exec_mbxNsInCommit_empty {s : State} (sec : Bool) (v : W32) (h : s.power.inReset = none)
    (hf : s.mbxNsIn.full = false) : exec (.mbxNsInCommit sec v) s = .next (axiAnswer
      { s with mbxNsIn := { s.mbxNsIn with d := s.mbxNsIn.d.set 15 v, full := true } } 0 0) := by
  have hb : mbxBusy s 0x43C = false := by simp [mbxBusy, hf]
  rw [← regPoke_mbxNsInLast s sec]
  exact congrArg Host.Outcome.next (axiWrite_taken h rfl (.inr rfl) hb)

theorem exec_mbxSInCommit_empty {s : State} (v : W32) (h : s.power.inReset = none) (hf : s.mbxSIn.full = false) :
    exec (.mbxSInCommit true v) s = .next (axiAnswer (noteImage
      { s with mbxSIn := { s.mbxSIn with d := s.mbxSIn.d.set 15 v, full := true } }) 0 0) := by
  have hb : mbxBusy s 0x53C = false := by simp [mbxBusy, hf]
  rw [← regPoke_mbxSInLast s true]
  exact congrArg Host.Outcome.next (axiWrite_taken h rfl (.inl rfl) hb)

/-- R92: the read of the last word empties the outbound mailbox of the non-secure pair. -/
theorem exec_mbxNsOutD15Read {s : State} (sec : Bool) (h : s.power.inReset = none) :
    exec (.mbxNsOutD15Read sec) s = .next (axiAnswer { s with mbxNsOut := { s.mbxNsOut with full := false } } 0
      (if s.mbxNsOut.full then s.mbxNsOut.d[15] else 0)) := by
  rw [← regPeek_mbxNsOutLast s sec]
  exact congrArg Host.Outcome.next (axiRead_taken h rfl (.inr rfl))

/-- R92: the read of the last word empties the outbound mailbox of the secure pair. -/
theorem exec_mbxSOutD15Read {s : State} (h : s.power.inReset = none) :
    exec (.mbxSOutD15Read true) s = .next (axiAnswer { s with mbxSOut := { s.mbxSOut with full := false } } 0
      (if s.mbxSOut.full then s.mbxSOut.d[15] else 0)) := by
  rw [← regPeek_mbxSOutLast s true]
  exact congrArg Host.Outcome.next (axiRead_taken h rfl (.inl rfl))

/-! ### Commands that take an order -/

/-- Each command that takes an order is the taking of its opcode. -/
theorem exec_of_mem_orderOps {r : RingId} {i : Instr} {c : Opcode} (h : (i, c) ∈ orderOps r) (s : State) :
    exec i s = .next (takeOrder c s r) :=
  have hall : (orderOps r).map (fun p => exec p.1 s) = (orderOps r).map (fun p => .next (takeOrder p.2 s r)) := rfl
  List.map_inj_left.1 hall (i, c) h

/-- The next order of a ring, outside a cycle: it is judged with the order off its ring, and the cycle ends (R73). -/
theorem takeOrder_next {c : Opcode} {s : State} {r : RingId} (hc : s.batching = false) (hn : nextIs s r c.is = true) :
    takeOrder c s r = endBatch (judge c (begun s r) r (headOf s r) (orderAt s r (headOf s r))) := by
  simp only [takeOrder, hn, if_true, batch, hc]
  rfl

/-- R61: a well-formed secure order of ring 0 to 3 is refused before its chapter's checks. -/
theorem judge_secureOnly {c : Opcode} {s : State} {r : RingId} {idx : Nat} {o : Order} (hh : headerMal o = [])
    (hm : c.mal s o = []) (hs : secureOnly o = true) (hr : r.val < 4) :
    judge c s r idx o = refuseOrder s r idx o 0x14 0 s.beat.now := by
  have hleast : leastOf (headerMal o ++ c.mal s o) = none := by rw [hh, hm]; rfl
  simp only [judge, hleast]
  exact if_pos ⟨hs, hr.ne⟩

theorem begun_beat (s : State) (r : RingId) : (begun s r).beat = s.beat := by simp [begun]

/-! ### The statements -/

/-- Settles O7: the judgement reaches the world's test with no offending byte. -/
theorem secureOrderNeedsRing4 : Obligations.SecureOrderNeedsRing4 := by
  intro r s i c hmem hcalm hnext hheader hfields hsecure hring
  rw [exec_of_mem_orderOps hmem, takeOrder_next hcalm hnext, judge_secureOnly hheader hfields hsecure hring, begun_beat]

/-- Settles O22: every address named is one that the non-secure world does not reach. -/
theorem nonSecureAccessRefused : Obligations.NonSecureAccessRefused := by
  intro s a strb v hreset ha
  have hsec : secureReg a = true := (secureReg_iff a).2 (by omega)
  refine ⟨congrArg Host.Outcome.next (axiWrite_nonSecure hreset hsec), axiRead_nonSecure hreset hsec,
    congrArg Host.Outcome.next (axiRead_nonSecure hreset rfl), ?_⟩
  rintro r rfl d i hi
  have hwrite : ∀ (b : Nat) (w : W32), secureReg b = true →
      Host.Outcome.next (axiWrite s false b 15 w) = (.next (axiAnswer s 2 0) : Host.Outcome State Fault Refusal) :=
    fun b w hb => congrArg Host.Outcome.next (axiWrite_nonSecure hreset hb)
  simp only [List.mem_cons, List.not_mem_nil, or_false] at hi
  rcases hi with rfl | rfl | rfl | rfl | rfl | rfl
  exacts [hwrite (ringReg 4 0x08) _ rfl, hwrite (ringReg 4 0x10) _ rfl, hwrite (ringReg 4 0) _ rfl,
    hwrite (ringReg 4 0) _ rfl, hwrite (ringReg 4 0) _ rfl, hwrite 0x53C _ rfl]

/-- Settles O24: the conditions are those of the two writes, each with its complement. -/
theorem doorbellAndReceiptHead : Obligations.DoorbellAndReceiptHead := by
  intro sec r v s hreset hworld
  rw [exec_doorbell v hreset hworld, exec_rcpHeadWrite v hreset hworld]
  refine ⟨⟨fun hdepth hocc => ?_, fun hbad => ?_⟩, fun hok => ?_, fun hbad => ?_⟩
  · rw [writeTail_taken hdepth hocc]
  · rw [writeTail_ignored hbad, ringStatus]
  · rw [writeRcpHead_taken hok]
  · rw [writeRcpHead_ignored hbad, ringStatus]

/-- Settles O26: an inbound mailbox that is full answers by R91, one that is not takes the word; the reads by R92. -/
theorem mailboxWords : Obligations.MailboxWords := by
  intro s sec v hreset
  refine ⟨exec_mbxNsInCommit_empty sec v hreset, fun hfull => ?_, exec_mbxSInCommit_empty v hreset, fun hfull => ?_,
    fun hfull a hlo hhi => exec_registerWrite_mbxBusy hreset (mbxBusy_nsIn hfull hlo hhi),
    fun hfull a hlo hhi => exec_registerWrite_mbxBusy hreset (mbxBusy_sIn hfull hlo hhi),
    exec_mbxNsOutD15Read sec hreset, exec_mbxSOutD15Read hreset⟩
  · exact exec_registerWrite_mbxBusy hreset (mbxBusy_nsIn (a := 0x43C) hfull (by decide) (by decide))
  · exact exec_registerWrite_mbxBusy hreset (mbxBusy_sIn (a := 0x53C) hfull (by decide) (by decide))

end Sys2Proof.Machine
end

section
/-! PROOFS. Security: the registers of the security chapter (16_security.md, Table SEC-4) belong to the secure world alone. -/

namespace Sys2Proof.Machine

/-- R495: the range of the security registers. -/
theorem secureReg_security {a : Nat} (hlo : 0xF00 ≤ a) (hhi : a ≤ 0x13FC) : secureReg a = true :=
  (secureReg_iff a).2 (by omega)

/-- Table SEC-4: the words of the 64 firewall entries lie within the range of R495. -/
theorem secureReg_firewallWord (e : Fin 64) (w : Fin 3) : secureReg (0x1000 + 16 * e.val + 4 * w.val) = true :=
  secureReg_security (by omega) (by omega)

/-- Settles O23: each command is an access through the port, to an address of the range. -/
theorem securityRegistersAreSecure : Obligations.SecurityRegistersAreSecure := by
  intro s hreset
  refine ⟨?_, fun a hlo hhi => axiRead_nonSecure hreset (secureReg_security hlo hhi)⟩
  rintro i (rfl | rfl | ⟨e, w, v, rfl⟩ | ⟨a, strb, v, rfl, hlo, hhi⟩)
  · exact congrArg Host.Outcome.next (axiWrite_nonSecure (a := 0xF00) hreset rfl)
  · exact congrArg Host.Outcome.next (axiRead_nonSecure (a := 0xF08) hreset rfl)
  · exact congrArg Host.Outcome.next (axiWrite_nonSecure hreset (secureReg_firewallWord e w))
  · exact congrArg Host.Outcome.next (axiWrite_nonSecure hreset (secureReg_security hlo hhi))

end Sys2Proof.Machine
end

section
/-! PROOFS. The machine as a whole: the invariant, the integration parameters, and what a step runs. -/

namespace Sys2Proof.Machine

/-- Every command keeps the parameters, the invariant's facts and the end of its cycle: each by the law of its meaning. -/
theorem exec_keeps {a s : State} (h : Keeps a s) (i : Instr) : OKeeps a (exec i s) :=
  match i with
  | .nop r => execNop_keeps h r
  | .config r => execConfig_keeps h r
  | .layoutDef r => execLayoutDef_keeps h r
  | .layoutFree r => execLayoutFree_keeps h r
  | .repack r => execRepack_keeps h r
  | .updOpen r => execUpdOpen_keeps h r
  | .updOpenAdmitAfterWait r => execUpdOpenAdmitAfterWait_keeps h r
  | .updAbort r => execUpdAbort_keeps h r
  | .ruleLoad r => execRuleLoad_keeps h r
  | .verRelease r => execVerRelease_keeps h r
  | .fetchPull r => execFetchPull_keeps h r
  | .fetchServe r => execFetchServe_keeps h r
  | .snapshot r => execSnapshot_keeps h r
  | .exportImage r => execExportImage_keeps h r
  | .importImage r => execImportImage_keeps h r
  | .ctxSave r => execCtxSave_keeps h r
  | .ctxRestore r => execCtxRestore_keeps h r
  | .push r => execPush_keeps h r
  | .tread r => execTread_keeps h r
  | .stashPut r => execStashPut_keeps h r
  | .stashGet r => execStashGet_keeps h r
  | .queueDefDefine r => execQueueDefDefine_keeps h r
  | .queueDefDelete r => execQueueDefDelete_keeps h r
  | .queueDefRelease r => execQueueDefRelease_keeps h r
  | .gather r => execGather_keeps h r
  | .scatter r => execScatter_keeps h r
  | .scatterAdd r => execScatterAdd_keeps h r
  | .ewAdd r => execEwAdd_keeps h r
  | .ewMul r => execEwMul_keeps h r
  | .ewFma r => execEwFma_keeps h r
  | .ewScale r => execEwScale_keeps h r
  | .ewRelu r => execEwRelu_keeps h r
  | .ewGelu r => execEwGelu_keeps h r
  | .ewSilu r => execEwSilu_keeps h r
  | .ewTanh r => execEwTanh_keeps h r
  | .ewConvert r => execEwConvert_keeps h r
  | .ewKeep r => execEwKeep_keeps h r
  | .ewMask r => execEwMask_keeps h r
  | .ewGumbelAdd r => execEwGumbelAdd_keeps h r
  | .ewGumbelMax r => execEwGumbelMax_keeps h r
  | .reduceSum r => execReduceSum_keeps h r
  | .reduceMax r => execReduceMax_keeps h r
  | .reduceMin r => execReduceMin_keeps h r
  | .reduceNoisymax r => execReduceNoisymax_keeps h r
  | .retireRow r => execRetireRow_keeps h r
  | .retireBankPair r => execRetireBankPair_keeps h r
  | .fenceStall r => execFenceStall_keeps h r
  | .fenceChannel r => execFenceChannel_keeps h r
  | .fenceSite r => execFenceSite_keeps h r
  | .zeroizeFreeRows r => execZeroizeFreeRows_keeps h r
  | .zeroizeLayout r => execZeroizeLayout_keeps h r
  | .tally r => execTally_keeps h r
  | .ledgerDrain r => execLedgerDrain_keeps h r
  | .drzSeed r => execDrzSeed_keeps h r
  | .drzSeedDelete r => execDrzSeedDelete_keeps h r
  | .timedOrderComplete r idx inp => execTimedOrderComplete_keeps h r idx inp
  | .lotStart r idx => execLotStart_keeps h r idx
  | .heldReceiptWrite r => execHeldReceiptWrite_keeps h r
  | .doorbell sec r v => execDoorbell_keeps h sec r v
  | .rcpHeadWrite sec r v => execRcpHeadWrite_keeps h sec r v
  | .ringEnable sec r depth => execRingEnable_keeps h sec r depth
  | .ringDisable sec r depth => execRingDisable_keeps h sec r depth
  | .ringDepthWrite sec r v => execRingDepthWrite_keeps h sec r v
  | .mbxNsInCommit sec d => execMbxNsInCommit_keeps h sec d
  | .mbxSInCommit sec d => execMbxSInCommit_keeps h sec d
  | .mbxNsOutD15Read sec => execMbxNsOutD15Read_keeps h sec
  | .mbxSOutD15Read sec => execMbxSOutD15Read_keeps h sec
  | .beatNowLoRead sec => execBeatNowLoRead_keeps h sec
  | .stepNowLoRead sec => execStepNowLoRead_keeps h sec
  | .talBeatLoRead sec => execTalBeatLoRead_keeps h sec
  | .talDataLoRead sec => execTalDataLoRead_keeps h sec
  | .cirPeakRead sec => execCirPeakRead_keeps h sec
  | .ityFirstRead sec => execItyFirstRead_keeps h sec
  | .secDenyRead sec => execSecDenyRead_keeps h sec
  | .pwrPeakRead sec => execPwrPeakRead_keeps h sec
  | .debugUnlock sec => execDebugUnlock_keeps h sec
  | .firewallEntryWrite sec e word v => execFirewallEntryWrite_keeps h sec e word v
  | .irqForceWrite sec v => execIrqForceWrite_keeps h sec v
  | .registerWrite sec addr strb v => execRegisterWrite_keeps h sec addr strb v
  | .imageDesc => execImageDesc_keeps h
  | .imageDigest => execImageDigest_keeps h
  | .digestCheckEnd fetchOk image => execDigestCheckEnd_keeps h fetchOk image
  | .keyLoad => execKeyLoad_keeps h
  | .keyClear => execKeyClear_keeps h
  | .mark => execMark_keeps h
  | .status sec => execStatus_keeps h sec
  | .beatStrobe n step => execBeatStrobe_keeps h n step
  | .sequencerStopped => execSequencerStopped_keeps h
  | .tilePacket src offset hdr payload => execTilePacket_keeps h src offset hdr payload
  | .tileContributionAdded layout tile contrib => execTileContributionAdded_keeps h layout tile contrib
  | .parcelDispatch site layout parcel => execParcelDispatch_keeps h site layout parcel
  | .passSwitch u => execPassSwitch_keeps h u
  | .parcelSealWritten u layout parcel => execParcelSealWritten_keeps h u layout parcel
  | .stallParityMismatch u layout parcel openCol first retry => execStallParityMismatch_keeps h u layout parcel openCol first retry
  | .resealComplete layout => execResealComplete_keeps h layout
  | .rollbackComplete layout => execRollbackComplete_keeps h layout
  | .queuePiece node hdr payload => execQueuePiece_keeps h node hdr payload
  | .fetchRequest node hdr => execFetchRequest_keeps h node hdr
  | .fetchData node hdr payload => execFetchData_keeps h node hdr payload
  | .fetchRefusal node hdr => execFetchRefusal_keeps h node hdr
  | .fetchNoServeRetry r idx => execFetchNoServeRetry_keeps h r idx
  | .fetchRangeReRequest r idx => execFetchRangeReRequest_keeps h r idx
  | .fetchPullGiveUp r idx => execFetchPullGiveUp_keeps h r idx
  | .close node epoch reason => execClose_keeps h node epoch reason
  | .sync node epoch reason => execSync_keeps h node epoch reason
  | .syncAck node epoch reason => execSyncAck_keeps h node epoch reason
  | .syncResend node => execSyncResend_keeps h node
  | .linkDown => execLinkDown_keeps h
  | .linkUp => execLinkUp_keeps h
  | .graceEnd => execGraceEnd_keeps h
  | .requesterRead p ns crit addr len => execRequesterRead_keeps h p ns crit addr len
  | .requesterWrite p ns posted addr data => execRequesterWrite_keeps h p ns posted addr data
  | .narrowRead o crit addr size => execNarrowRead_keeps h o crit addr size
  | .narrowWrite o addr data => execNarrowWrite_keeps h o addr data
  | .narrowHoldRelease => execNarrowHoldRelease_keeps h
  | .fadd32 p ns addr x => execFadd32_keeps h p ns addr x
  | .fmax32 p ns addr x => execFmax32_keeps h p ns addr x
  | .fmin32 p ns addr x => execFmin32_keeps h p ns addr x
  | .iadd32 p ns addr x => execIadd32_keeps h p ns addr x
  | .iadd64 p ns addr x => execIadd64_keeps h p ns addr x
  | .swap32 p ns addr x => execSwap32_keeps h p ns addr x
  | .swap64 p ns addr x => execSwap64_keeps h p ns addr x
  | .cas32 p ns addr cmp x => execCas32_keeps h p ns addr cmp x
  | .cas64 p ns addr cmp x => execCas64_keeps h p ns addr cmp x
  | .requestCompletion id => execRequestCompletion_keeps h id
  | .arbitrationGrant pt ns => execArbitrationGrant_keeps h pt ns
  | .sitePowerGood site => execSitePowerGood_keeps h site
  | .trainingComplete site lanes => execTrainingComplete_keeps h site lanes
  | .retrainStart site c trig => execRetrainStart_keeps h site c trig
  | .retrainComplete site c ok => execRetrainComplete_keeps h site c ok
  | .laneRepairRequest site c lane => execLaneRepairRequest_keeps h site c lane
  | .laneRepairComplete site c => execLaneRepairComplete_keeps h site c
  | .commandParityAlert site c => execCommandParityAlert_keeps h site c
  | .stackTrip site => execStackTrip_keeps h site
  | .temperatureRead site readings => execTemperatureRead_keeps h site readings
  | .siteShutdownPowerOff site => execSiteShutdownPowerOff_keeps h site
  | .junctionRead readings => execJunctionRead_keeps h readings
  | .refreshDue site c k => execRefreshDue_keeps h site c k
  | .refp site c k => execRefp_keeps h site c k
  | .sfnc site c k => execSfnc_keeps h site c k
  | .rmap site c bank row entry valid => execRmap_keeps h site c bank row entry valid
  | .seal site c bank row count => execSeal_keeps h site c bank row count
  | .pause site c k => execPause_keeps h site c k
  | .resume site c k => execResume_keeps h site c k
  | .rstw site c k word data => execRstw_keeps h site c k word data
  | .passd site c k data => execPassd_keeps h site c k data
  | .latg site c k group data => execLatg_keeps h site c k group data
  | .statq site c k => execStatq_keeps h site c k
  | .tempq site c => execTempq_keeps h site c
  | .bdreg site idx write => execBdreg_keeps h site idx write
  | .stallNop st => execStallNop_keeps h st
  | .ld st f => execLd_keeps h st f
  | .ldg st f => execLdg_keeps h st f
  | .stc st f => execStc_keeps h st f
  | .stw st f => execStw_keeps h st f
  | .bcst st f => execBcst_keeps h st f
  | .draw st f => execDraw_keeps h st f
  | .fma st f => execFma_keeps h st f
  | .add st f => execAdd_keeps h st f
  | .mul st f => execMul_keeps h st f
  | .min st f => execMin_keeps h st f
  | .max st f => execMax_keeps h st f
  | .abs st f => execAbs_keeps h st f
  | .sign st f => execSign_keeps h st f
  | .sel st f => execSel_keeps h st f
  | .cmp st f => execCmp_keeps h st f
  | .clamp st f => execClamp_keeps h st f
  | .cvt st f => execCvt_keeps h st f
  | .rsqrt st f => execRsqrt_keeps h st f
  | .rcp st f => execRcp_keeps h st f
  | .exp2 st f => execExp2_keeps h st f
  | .log2 st f => execLog2_keeps h st f
  | .errorRetry site c bank row block first retry rd => execErrorRetry_keeps h site c bank row block first retry rd
  | .bucketLeakTick site c transient => execBucketLeakTick_keeps h site c transient
  | .scrubRow site c => execScrubRow_keeps h site c
  | .scrubPassLate site c => execScrubPassLate_keeps h site c
  | .spotCheck site layout parcel memErr => execSpotCheck_keeps h site layout parcel memErr
  | .spotCheckSkip site layout parcel => execSpotCheckSkip_keeps h site layout parcel
  | .stallHardFault st => execStallHardFault_keeps h st
  | .reliefEngineHardFault site => execReliefEngineHardFault_keeps h site
  | .reliefEngineRestartDone site => execReliefEngineRestartDone_keeps h site
  | .siteControllerFault site => execSiteControllerFault_keeps h site
  | .fatalFault writable => execFatalFault_keeps h writable
  | .clockLoss clk writable => execClockLoss_keeps h clk writable
  | .powerOnReset => execPowerOnReset_keeps h
  | .powerOnResetRelease => execPowerOnResetRelease_keeps h
  | .siteEnable => execSiteEnable_keeps h
  | .sitePowerGoodTimeout site => execSitePowerGoodTimeout_keeps h site
  | .selfTestComplete site t => execSelfTestComplete_keeps h site t
  | .ready t => execReady_keeps h t
  | .blockReset => execBlockReset_keeps h
  | .blockResetRelease => execBlockResetRelease_keeps h
  | .railPowerGoodLoss => execRailPowerGoodLoss_keeps h
  | .sitePowerGoodLoss site => execSitePowerGoodLoss_keeps h site
  | .squallHold => execSquallHold_keeps h
  | .bus48WarnDeassert => execBus48WarnDeassert_keeps h
  | .squallHoldEnd => execSquallHoldEnd_keeps h
  | .rippleStart => execRippleStart_keeps h
  | .squallLate x => execSquallLate_keeps h x
  | .bus48Reset => execBus48Reset_keeps h
  | .bus48ResetRelease => execBus48ResetRelease_keeps h
  | .peakLimiter est => execPeakLimiter_keeps h est
  | .axiPortReset => execAxiPortReset_keeps h
  | .testLogicReset => execTestLogicReset_keeps h
  | .extest => execExtest_keeps h
  | .idcode => execIdcode_keeps h
  | .samplePreload => execSamplePreload_keeps h
  | .wrapsel site => execWrapsel_keeps h site
  | .dbgsel => execDbgsel_keeps h
  | .bypass => execBypass_keeps h
  | .reservedEncodingOrder r => execReservedEncodingOrder_keeps h r
  | .mailboxMessageMalformed sec => execMailboxMessageMalformed_keeps h sec
  | .faultAllowanceExceeded x => execFaultAllowanceExceeded_keeps h x

theorem step_of_pending {s : State} {i : Instr} {rest : List Instr} (h : s.pending = i :: rest) :
    step s = exec i { s with pending := rest } := by
  simp only [step, h]

theorem step_of_idle {s : State} (h : s.pending = []) : step s = .next { s with ts := s.ts + 1 } := by
  simp only [step, h]

/-- A step is a tick or a command on the rest of the queue; neither touches a field of the invariant by itself. -/
theorem step_keeps (s : State) : OKeeps s (step s) := by
  cases h : s.pending with
  | nil =>
    rw [step_of_idle h]
    exact ok_next ((Keeps.refl s).eqs rfl rfl rfl rfl rfl rfl rfl rfl rfl rfl rfl rfl)
  | cons i rest =>
    rw [step_of_pending h]
    exact exec_keeps (s := { s with pending := rest })
      ((Keeps.refl s).eqs rfl rfl rfl rfl rfl rfl rfl rfl rfl rfl rfl rfl) i

/-! ### The statements -/

/-- Settles O1: the default parameters have enough memory for the Awning. -/
theorem invAtReset : Obligations.InvAtReset := resetWith_inv Params.default 1 (by decide)

/-- Settles O2: every step keeps the invariant, by the law of the command it runs. -/
theorem stepKeepsInv : Obligations.StepKeepsInv := fun s t hs ht => (step_keeps s t ht).inv hs

/-- Settles O3: the parameters are among what every step keeps. -/
theorem paramsNeverChange : Obligations.ParamsNeverChange := fun s t ht => (step_keeps s t ht).par

/-- Settles O4. -/
theorem stepRunsFrontCommand : Obligations.StepRunsFrontCommand := fun _ _ _ h => step_of_pending h

/-- Settles O5. -/
theorem idleStepIsOneTick : Obligations.IdleStepIsOneTick := fun _ h => step_of_idle h

end Sys2Proof.Machine
end

section
/-! PROOFS. The lattice code (13_data_integrity.md, The lattice code): parities are linear in the stored bits, so what a read
finds depends on the error alone, whatever the data. -/

namespace Sys2Proof.Machine

/-! ### Parities of a sum of columns -/

theorem foldl_op_op {β : Type} (op : β → β → β) [Std.Associative op] [Std.Commutative op] (f g : Nat → β) (l : List Nat)
    (x y : β) : l.foldl (fun a j => op a (op (f j) (g j))) (op x y)
      = op (l.foldl (fun a j => op a (f j)) x) (l.foldl (fun a j => op a (g j)) y) := by
  induction l generalizing x y with
  | nil => rfl
  | cons j l ih =>
    have hswap : op (op x y) (op (f j) (g j)) = op (op x (f j)) (op y (g j)) := by ac_rfl
    rw [List.foldl_cons, hswap, ih, List.foldl_cons, List.foldl_cons]

theorem parity8_xor (x y : Byte) : parity8 (x ^^^ y) = (parity8 x != parity8 y) := by
  simp only [parity8, BitVec.getLsbD_xor, Bool.bne_eq_xor]
  have : Std.Associative Bool.xor := ⟨Bool.xor_assoc⟩
  have : Std.Commutative Bool.xor := ⟨Bool.xor_comm⟩
  exact foldl_op_op Bool.xor x.getLsbD y.getLsbD (List.range 8) false false

theorem parity8_bit : ∀ k < 8, parity8 (1#8 <<< k) = true := by decide

/-- The binary digits of a number that is put together from its bits, the lowest first. -/
theorem testBit_foldr_bits (p : Nat → Bool) (l : List Nat) (i : Nat) :
    (l.foldr (fun j acc => (if p j then 1 else 0) + 2 * acc) 0).testBit i = (l[i]?.map p).getD false := by
  induction l generalizing i with
  | nil => simp
  | cons j l ih =>
    cases i with
    | zero => cases hp : p j <;> simp [hp, Nat.testBit_zero, Nat.add_mod]
    | succ i =>
      have hdiv : ∀ b n : Nat, b < 2 → (b + 2 * n) / 2 = n := by omega
      rw [List.foldr_cons, Nat.testBit_succ, hdiv _ _ (by split <;> decide), ih, List.getElem?_cons_succ]

theorem getLsbD_evenParity (c : Col) {j : Nat} (h : j < 32) :
    (evenParity c).getLsbD j = parity8 (c.extractLsb' (8 * j) 8) := by
  rw [evenParity, BitVec.getLsbD_ofNat, testBit_foldr_bits, List.getElem?_range h]
  simp [h]

theorem evenParity_xor (c d : Col) : evenParity (c ^^^ d) = evenParity c ^^^ evenParity d := by
  refine BitVec.eq_of_getLsbD_eq fun j hj => ?_
  rw [BitVec.getLsbD_xor, getLsbD_evenParity _ hj, getLsbD_evenParity _ hj, getLsbD_evenParity _ hj,
    BitVec.extractLsb'_xor, parity8_xor, Bool.bne_eq_xor]

/-- The bytes of a column with one bit set. -/
theorem byte_of_bit (i j : Nat) (hi : i < 256) :
    (1#256 <<< i).extractLsb' (8 * j) 8 = if j = i / 8 then 1#8 <<< (i % 8) else 0#8 := by
  refine BitVec.eq_of_getLsbD_eq fun k hk => ?_
  split
  · simp only [BitVec.getLsbD_extractLsb', ← BitVec.twoPow_eq, BitVec.getLsbD_twoPow, hk, hi, Nat.mod_lt, decide_true,
      Bool.true_and, decide_eq_decide, Nat.zero_lt_succ]
    omega
  · simp only [BitVec.getLsbD_extractLsb', ← BitVec.twoPow_eq, BitVec.getLsbD_twoPow, hk, hi, decide_true, Bool.true_and,
      BitVec.getLsbD_zero, decide_eq_false_iff_not]
    omega

theorem evenParity_bit {i : Nat} (hi : i < 256) : evenParity (1#256 <<< i) = 1#32 <<< (i / 8) := by
  refine BitVec.eq_of_getLsbD_eq fun j hj => ?_
  have hrow : i / 8 < 32 := by omega
  rw [getLsbD_evenParity _ hj, byte_of_bit i j hi, ← BitVec.twoPow_eq 32, BitVec.getLsbD_twoPow]
  by_cases h : j = i / 8
  · simp [h, hrow, parity8_bit _ (Nat.mod_lt i (by decide))]
  · have hz : parity8 0#8 = false := rfl
    simp [h, Ne.symm h, hz]

theorem xorBytes_xor (c d : Col) : xorBytes (c ^^^ d) = xorBytes c ^^^ xorBytes d := by
  simp only [xorBytes, BitVec.extractLsb'_xor]
  exact foldl_op_op (· ^^^ ·) (fun j => c.extractLsb' (8 * j) 8) (fun j => d.extractLsb' (8 * j) 8) (List.range 32) 0 0

theorem foldl_xor_single {w : Nat} (v : BitVec w) (m n : Nat) :
    (List.range n).foldl (fun a j => a ^^^ (if j = m then v else 0#w)) 0#w = if m < n then v else 0#w := by
  induction n with
  | zero => rfl
  | succ n ih =>
    rw [List.range_succ, List.foldl_append, ih, List.foldl_cons, List.foldl_nil]
    rcases Nat.lt_trichotomy m n with h | rfl | h
    · simp [h, h.ne', Nat.lt_succ_of_lt h]
    · simp
    · simp [h.ne, h.not_gt, Nat.not_lt.2 h]

theorem xorBytes_bit {i : Nat} (hi : i < 256) : xorBytes (1#256 <<< i) = 1#8 <<< (i % 8) := by
  have hrow : i / 8 < 32 := by omega
  simp only [xorBytes, byte_of_bit i _ hi]
  exact (foldl_xor_single _ _ _).trans (if_pos hrow)

theorem evenParity_zero : evenParity 0#256 = 0#32 := by simpa using evenParity_xor 0 0

theorem xorBytes_zero : xorBytes 0#256 = 0#8 := by simpa using xorBytes_xor 0 0

/-! ### The syndrome -/

/-- What Table ITY-2 makes of a block with the data given, from its row syndromes and its column syndrome. -/
def latticeMend (a b : Col) (sa sb : BitVec 32) (q : BitVec 8) : ReadRes × Col × Col :=
  let rows := sa.toNat + 2 ^ 32 * sb.toNat
  if popcount rows 64 = 0 ∧ popcount q.toNat 8 = 0 then (.clean, a, b)
  else if popcount rows 64 = 1 ∧ popcount q.toNat 8 = 1 then
    if Nat.log2 rows < 32 then (.corrected, a ^^^ (1#256 <<< (8 * Nat.log2 rows + Nat.log2 q.toNat)), b)
    else (.corrected, a, b ^^^ (1#256 <<< (8 * (Nat.log2 rows - 32) + Nat.log2 q.toNat)))
  else if popcount rows 64 + popcount q.toNat 8 = 1 then (.corrected, a, b)
  else (.bad, a, b)

theorem extractLsb'_lowParity (q : BitVec 4) (p : BitVec 32) : (q ++ p).extractLsb' 0 32 = p := by
  refine BitVec.eq_of_getLsbD_eq fun i hi => ?_
  simp only [BitVec.getLsbD_extractLsb', BitVec.getLsbD_append, Nat.zero_add, hi, decide_true, Bool.true_and, if_true]

theorem extractLsb'_highLattice (q : BitVec 4) (p : BitVec 32) : (q ++ p).extractLsb' 32 4 = q := by
  refine BitVec.eq_of_getLsbD_eq fun i hi => ?_
  have h : ¬ 32 + i < 32 := by omega
  simp only [BitVec.getLsbD_extractLsb', BitVec.getLsbD_append, hi, h, decide_true, Bool.true_and, if_false,
    Nat.add_sub_cancel_left]

theorem append_nibbles (q : BitVec 8) : q.extractLsb' 4 4 ++ q.extractLsb' 0 4 = q := by
  refine BitVec.eq_of_getLsbD_eq fun i hi => ?_
  rw [BitVec.getLsbD_append]
  by_cases h : i < 4
  · simp [h]
  · have h4 : i - 4 < 4 := by omega
    have hs : 4 + (i - 4) = i := by omega
    simp [h, h4, hs]

theorem append_xor_append {m n : Nat} (a c : BitVec m) (b d : BitVec n) :
    (a ^^^ c) ++ (b ^^^ d) = (a ++ b) ^^^ (c ++ d) := by
  refine BitVec.eq_of_getLsbD_eq fun i _ => ?_
  simp only [BitVec.getLsbD_append, BitVec.getLsbD_xor]
  split <;> rfl

theorem latticeDecode_eq (a b : Col) (ca cb : BitVec 36) : latticeDecode a b ca cb =
    latticeMend a b (evenParity a ^^^ ca.extractLsb' 0 32) (evenParity b ^^^ cb.extractLsb' 0 32)
      (colParity a b ^^^ (cb.extractLsb' 32 4 ++ ca.extractLsb' 32 4)) := by
  simp only [latticeDecode, latticeMend]

/-- The row syndromes of a column that was sealed with parity `evenParity c`. -/
theorem rowSyndrome_error (c e : Col) (q : BitVec 4) (f : BitVec 36) :
    evenParity (c ^^^ e) ^^^ ((q ++ evenParity c) ^^^ f).extractLsb' 0 32 = evenParity e ^^^ f.extractLsb' 0 32 := by
  rw [evenParity_xor, BitVec.extractLsb'_xor, extractLsb'_lowParity, BitVec.xor_comm (evenParity c), BitVec.xor_assoc,
    ← BitVec.xor_assoc (evenParity c), BitVec.xor_self, BitVec.zero_xor]

/-- The column syndrome of a block that was sealed with column parity `q`. -/
theorem colSyndrome_error (q e : Byte) (pa pb : BitVec 32) (fa fb : BitVec 36) :
    q ^^^ e ^^^ (((q.extractLsb' 4 4 ++ pb) ^^^ fb).extractLsb' 32 4 ++ ((q.extractLsb' 0 4 ++ pa) ^^^ fa).extractLsb' 32 4)
      = e ^^^ (fb.extractLsb' 32 4 ++ fa.extractLsb' 32 4) := by
  rw [BitVec.extractLsb'_xor, BitVec.extractLsb'_xor, extractLsb'_highLattice, extractLsb'_highLattice,
    append_xor_append, append_nibbles, BitVec.xor_comm q, BitVec.xor_assoc, ← BitVec.xor_assoc q,
    BitVec.xor_self, BitVec.zero_xor]

theorem colParity_xor (a b c d : Col) :
    colParity (a ^^^ c) (b ^^^ d) = colParity a b ^^^ (xorBytes c ^^^ xorBytes d) := by
  rw [colParity, colParity, xorBytes_xor, xorBytes_xor]
  ac_rfl

/-- A block with errors `ea`, `eb` in its data and `fa`, `fb` in its check fields decodes by the parities of the errors
alone. -/
theorem latticeDecode_error (a b ea eb : Col) (fa fb : BitVec 36) :
    latticeDecode (a ^^^ ea) (b ^^^ eb) ((sealedChk a b).1 ^^^ fa) ((sealedChk a b).2 ^^^ fb)
      = latticeMend (a ^^^ ea) (b ^^^ eb) (evenParity ea ^^^ fa.extractLsb' 0 32) (evenParity eb ^^^ fb.extractLsb' 0 32)
        (xorBytes ea ^^^ xorBytes eb ^^^ (fb.extractLsb' 32 4 ++ fa.extractLsb' 32 4)) := by
  rw [latticeDecode_eq, sealedChk, rowSyndrome_error, rowSyndrome_error, colParity_xor, colSyndrome_error]

/-! ### Outcomes by the number of bits set -/

theorem popcount_eq_card (x n : Nat) : popcount x n = ((Finset.range n).filter (fun i => x.testBit i = true)).card := by
  simp [popcount, Finset.card, Finset.filter, Finset.range, Multiset.range]

theorem popcount_zero (n : Nat) : popcount 0 n = 0 := by simp [popcount]

theorem popcount_of_bit {x n k : Nat} (hk : k < n) (h : ∀ i, x.testBit i = true ↔ i = k) : popcount x n = 1 := by
  rw [popcount_eq_card, Finset.card_eq_one]
  refine ⟨k, Finset.ext fun i => ?_⟩
  rw [Finset.mem_filter, h, Finset.mem_singleton, Finset.mem_range]
  omega

theorem popcount_of_bits {x n k m : Nat} (hk : k < n) (hm : m < n) (hne : k ≠ m)
    (h : ∀ i, x.testBit i = true ↔ i = k ∨ i = m) : popcount x n = 2 := by
  rw [popcount_eq_card, Finset.card_eq_two]
  refine ⟨k, m, hne, Finset.ext fun i => ?_⟩
  rw [Finset.mem_filter, h, Finset.mem_insert, Finset.mem_singleton, Finset.mem_range]
  omega

theorem popcount_twoPow {k n : Nat} (h : k < n) : popcount (2 ^ k) n = 1 :=
  popcount_of_bit h fun i => by rw [Nat.testBit_two_pow, decide_eq_true_iff, eq_comm]

theorem toNat_bit {w k : Nat} (h : k < w) : (1#w <<< k).toNat = 2 ^ k := by
  rw [← BitVec.twoPow_eq, BitVec.toNat_twoPow_of_lt h]

theorem testBit_bit {w k : Nat} (h : k < w) (i : Nat) : (1#w <<< k).getLsbD i = true ↔ i = k := by
  rw [← BitVec.twoPow_eq, BitVec.getLsbD_twoPow, Bool.and_eq_true, decide_eq_true_iff, decide_eq_true_iff]
  omega

/-- Two different bits of one word. -/
theorem testBit_bits {w k m : Nat} (hk : k < w) (hm : m < w) (hne : k ≠ m) (i : Nat) :
    (1#w <<< k ^^^ 1#w <<< m).getLsbD i = true ↔ i = k ∨ i = m := by
  rw [BitVec.getLsbD_xor, Bool.xor_iff_ne, Ne, Bool.eq_iff_iff, testBit_bit hk, testBit_bit hm]
  omega

/-- The row syndromes of the two columns of a block, as one number. -/
theorem testBit_rows (sa sb : BitVec 32) (i : Nat) :
    (sa.toNat + 2 ^ 32 * sb.toNat).testBit i = if i < 32 then sa.getLsbD i else sb.getLsbD (i - 32) := by
  rw [Nat.add_comm, Nat.testBit_two_pow_mul_add _ sa.isLt]
  rfl

section Mend
variable (a b : Col) (sa sb : BitVec 32) (q : BitVec 8)

theorem latticeMend_zero : latticeMend a b 0#32 0#32 0#8 = (.clean, a, b) := by
  simp [latticeMend, popcount_zero]

/-- One row and one column: the bit where they cross. -/
theorem latticeMend_cross {n m : Nat} (hrows : sa.toNat + 2 ^ 32 * sb.toNat = 2 ^ n) (hn : n < 64) (hm : m < 8) :
    latticeMend a b sa sb (1#8 <<< m) = if n < 32 then (.corrected, a ^^^ (1#256 <<< (8 * n + m)), b)
      else (.corrected, a, b ^^^ (1#256 <<< (8 * (n - 32) + m))) := by
  simp only [latticeMend, hrows, toNat_bit hm, popcount_twoPow hn, popcount_twoPow hm, Nat.log2_two_pow]
  rfl

/-- A row without a column, or a column without a row: a check bit. -/
theorem latticeMend_check (h : popcount (sa.toNat + 2 ^ 32 * sb.toNat) 64 + popcount q.toNat 8 = 1) :
    latticeMend a b sa sb q = (.corrected, a, b) := by
  rw [latticeMend, if_neg (by omega), if_neg (by omega), if_pos h]

theorem latticeMend_bad (h : 2 ≤ popcount (sa.toNat + 2 ^ 32 * sb.toNat) 64 + popcount q.toNat 8)
    (hne : ¬(popcount (sa.toNat + 2 ^ 32 * sb.toNat) 64 = 1 ∧ popcount q.toNat 8 = 1)) :
    (latticeMend a b sa sb q).1 = .bad := by
  rw [latticeMend, if_neg (by omega), if_neg hne, if_neg (by omega)]

variable {a b sa sb q}

theorem latticeMend_twoRows {k m : Nat} (hk : k < 64) (hm : m < 64) (hne : k ≠ m)
    (h : ∀ i, (sa.toNat + 2 ^ 32 * sb.toNat).testBit i = true ↔ i = k ∨ i = m) : (latticeMend a b sa sb q).1 = .bad := by
  have h2 := popcount_of_bits hk hm hne h
  exact latticeMend_bad a b sa sb q (by omega) (by omega)

end Mend

/-! ### Errors of a sealed block -/

section Errors
variable (a b : Col)

theorem latticeDecode_dataError (ea eb : Col) : latticeDecode (a ^^^ ea) (b ^^^ eb) (sealedChk a b).1 (sealedChk a b).2
    = latticeMend (a ^^^ ea) (b ^^^ eb) (evenParity ea) (evenParity eb) (xorBytes ea ^^^ xorBytes eb) := by
  simpa using latticeDecode_error a b ea eb 0 0

theorem latticeDecode_checkError (fa fb : BitVec 36) :
    latticeDecode a b ((sealedChk a b).1 ^^^ fa) ((sealedChk a b).2 ^^^ fb) = latticeMend a b (fa.extractLsb' 0 32)
      (fb.extractLsb' 0 32) (fb.extractLsb' 32 4 ++ fa.extractLsb' 32 4) := by
  simpa [evenParity_zero, xorBytes_zero] using latticeDecode_error a b 0 0 fa fb

theorem latticeDecode_firstError (e : Col) : latticeDecode (a ^^^ e) b (sealedChk a b).1 (sealedChk a b).2
    = latticeMend (a ^^^ e) b (evenParity e) 0#32 (xorBytes e) := by
  simpa [evenParity_zero, xorBytes_zero] using latticeDecode_dataError a b e 0

theorem latticeDecode_secondError (e : Col) : latticeDecode a (b ^^^ e) (sealedChk a b).1 (sealedChk a b).2
    = latticeMend a (b ^^^ e) 0#32 (evenParity e) (xorBytes e) := by
  simpa [evenParity_zero, xorBytes_zero] using latticeDecode_dataError a b 0 e

theorem latticeDecode_sealed : latticeDecode a b (sealedChk a b).1 (sealedChk a b).2 = (.clean, a, b) := by
  simpa [evenParity_zero, xorBytes_zero, latticeMend_zero] using latticeDecode_dataError a b 0 0

theorem rows_first (s : BitVec 32) : s.toNat + 2 ^ 32 * (0#32).toNat = s.toNat := by simp

theorem rows_second (s : BitVec 32) : (0#32).toNat + 2 ^ 32 * s.toNat = 2 ^ 32 * s.toNat := by simp

theorem xor_xor_cancel {w : Nat} (x e : BitVec w) : x ^^^ e ^^^ e = x := by
  rw [BitVec.xor_assoc, BitVec.xor_self, BitVec.xor_zero]

theorem latticeDecode_firstBit {i : Nat} (hi : i < 256) :
    latticeDecode (a ^^^ 1#256 <<< i) b (sealedChk a b).1 (sealedChk a b).2 = (.corrected, a, b) := by
  have hrow : i / 8 < 32 := by omega
  rw [latticeDecode_firstError, evenParity_bit hi, xorBytes_bit hi,
    latticeMend_cross _ _ _ _ ((rows_first _).trans (toNat_bit hrow)) (by omega) (Nat.mod_lt _ (by decide)), if_pos hrow,
    Nat.div_add_mod, xor_xor_cancel]

theorem latticeDecode_secondBit {i : Nat} (hi : i < 256) :
    latticeDecode a (b ^^^ 1#256 <<< i) (sealedChk a b).1 (sealedChk a b).2 = (.corrected, a, b) := by
  have hrow : i / 8 < 32 := by omega
  have hrows : (0#32).toNat + 2 ^ 32 * (1#32 <<< (i / 8)).toNat = 2 ^ (32 + i / 8) := by
    rw [rows_second, toNat_bit hrow, pow_add]
  rw [latticeDecode_secondError, evenParity_bit hi, xorBytes_bit hi,
    latticeMend_cross _ _ _ _ hrows (by omega) (Nat.mod_lt _ (by decide)), if_neg (by omega), Nat.add_sub_cancel_left,
    Nat.div_add_mod, xor_xor_cancel]

/-- A bit of the check field of either column is a row parity or a bit of the column parity. -/
theorem checkBit_parts : ∀ i < 36,
    (popcount ((1#36 <<< i).extractLsb' 0 32).toNat 64
      + popcount (0#4 ++ (1#36 <<< i).extractLsb' 32 4 : BitVec 8).toNat 8 = 1) ∧
    (popcount (2 ^ 32 * ((1#36 <<< i).extractLsb' 0 32).toNat) 64
      + popcount ((1#36 <<< i).extractLsb' 32 4 ++ 0#4 : BitVec 8).toNat 8 = 1) := by
  decide

theorem latticeDecode_firstCheckError (f : BitVec 36) : latticeDecode a b ((sealedChk a b).1 ^^^ f) (sealedChk a b).2
    = latticeMend a b (f.extractLsb' 0 32) 0#32 (0#4 ++ f.extractLsb' 32 4) := by
  simpa using latticeDecode_checkError a b f 0

theorem latticeDecode_secondCheckError (f : BitVec 36) : latticeDecode a b (sealedChk a b).1 ((sealedChk a b).2 ^^^ f)
    = latticeMend a b 0#32 (f.extractLsb' 0 32) (f.extractLsb' 32 4 ++ 0#4) := by
  simpa using latticeDecode_checkError a b 0 f

theorem latticeDecode_firstCheckBit {i : Nat} (hi : i < 36) :
    latticeDecode a b ((sealedChk a b).1 ^^^ 1#36 <<< i) (sealedChk a b).2 = (.corrected, a, b) := by
  rw [latticeDecode_firstCheckError, latticeMend_check]
  rw [rows_first]
  exact (checkBit_parts i hi).1

theorem latticeDecode_secondCheckBit {i : Nat} (hi : i < 36) :
    latticeDecode a b (sealedChk a b).1 ((sealedChk a b).2 ^^^ 1#36 <<< i) = (.corrected, a, b) := by
  rw [latticeDecode_secondCheckError, latticeMend_check]
  rw [rows_second]
  exact (checkBit_parts i hi).2

theorem xorBytes_bits {i j : Nat} (hi : i < 256) (hj : j < 256) :
    xorBytes (1#256 <<< i ^^^ 1#256 <<< j) = 1#8 <<< (i % 8) ^^^ 1#8 <<< (j % 8) := by
  rw [xorBytes_xor, xorBytes_bit hi, xorBytes_bit hj]

theorem evenParity_bits {i j : Nat} (hi : i < 256) (hj : j < 256) :
    evenParity (1#256 <<< i ^^^ 1#256 <<< j) = 1#32 <<< (i / 8) ^^^ 1#32 <<< (j / 8) := by
  rw [evenParity_xor, evenParity_bit hi, evenParity_bit hj]

/-- Two bits of one byte leave its row even and show in two columns. -/
theorem popcount_xorBytes_sameRow {i j : Nat} (hi : i < 256) (hj : j < 256) (hne : i ≠ j) (h : i / 8 = j / 8) :
    popcount (xorBytes (1#256 <<< i ^^^ 1#256 <<< j)).toNat 8 = 2 := by
  have hi8 : i % 8 < 8 := Nat.mod_lt _ (by decide)
  have hj8 : j % 8 < 8 := Nat.mod_lt _ (by decide)
  have hmod : i % 8 ≠ j % 8 := by omega
  rw [xorBytes_bits hi hj]
  exact popcount_of_bits hi8 hj8 hmod (testBit_bits hi8 hj8 hmod)

/-- R405: two bad bits of one column. -/
theorem latticeDecode_firstBits {i j : Nat} (hi : i < 256) (hj : j < 256) (hne : i ≠ j) :
    (latticeDecode (a ^^^ 1#256 <<< i ^^^ 1#256 <<< j) b (sealedChk a b).1 (sealedChk a b).2).1 = .bad := by
  have hri : i / 8 < 32 := by omega
  have hrj : j / 8 < 32 := by omega
  rw [BitVec.xor_assoc, latticeDecode_firstError]
  by_cases h : i / 8 = j / 8
  · have h2 := popcount_xorBytes_sameRow hi hj hne h
    exact latticeMend_bad _ _ _ _ _ (by omega) (by omega)
  · refine latticeMend_twoRows (k := i / 8) (m := j / 8) (by omega) (by omega) h fun n => ?_
    rw [rows_first, evenParity_bits hi hj]
    exact testBit_bits hri hrj h n

theorem latticeDecode_secondBits {i j : Nat} (hi : i < 256) (hj : j < 256) (hne : i ≠ j) :
    (latticeDecode a (b ^^^ 1#256 <<< i ^^^ 1#256 <<< j) (sealedChk a b).1 (sealedChk a b).2).1 = .bad := by
  have hri : i / 8 < 32 := by omega
  have hrj : j / 8 < 32 := by omega
  rw [BitVec.xor_assoc, latticeDecode_secondError]
  by_cases h : i / 8 = j / 8
  · have h2 := popcount_xorBytes_sameRow hi hj hne h
    exact latticeMend_bad _ _ _ _ _ (by omega) (by omega)
  · refine latticeMend_twoRows (k := 32 + i / 8) (m := 32 + j / 8) (by omega) (by omega) (by omega) fun n => ?_
    rw [testBit_rows, evenParity_bits hi hj]
    by_cases hn : n < 32
    · rw [if_pos hn, BitVec.getLsbD_zero]
      exact iff_of_false Bool.false_ne_true (by omega)
    · rw [if_neg hn, testBit_bits hri hrj h]
      omega

/-- R405: one bad bit of each column. -/
theorem latticeDecode_bothBits {i j : Nat} (hi : i < 256) (hj : j < 256) :
    (latticeDecode (a ^^^ 1#256 <<< i) (b ^^^ 1#256 <<< j) (sealedChk a b).1 (sealedChk a b).2).1 = .bad := by
  have hri : i / 8 < 32 := by omega
  have hrj : j / 8 < 32 := by omega
  rw [latticeDecode_dataError]
  refine latticeMend_twoRows (k := i / 8) (m := 32 + j / 8) (by omega) (by omega) (by omega) fun n => ?_
  rw [testBit_rows, evenParity_bit hi, evenParity_bit hj]
  split
  · rw [testBit_bit hri]
    omega
  · rw [testBit_bit hrj]
    omega

end Errors

theorem natCast_bit (w i : Nat) : ((1 <<< i : Nat) : BitVec w) = 1#w <<< i := by
  refine BitVec.eq_of_toNat_eq ?_
  simpa [BitVec.toNat_shiftLeft, Nat.shiftLeft_eq] using (Nat.pow_mod 2 i (2 ^ w)).symm

/-- Settles O52: the syndrome of each error is that of Table ITY-2. -/
theorem latticeCode : Obligations.LatticeCode := by
  intro a b ka kb hk
  obtain ⟨rfl, rfl⟩ := Prod.mk.inj hk
  simp only [natCast_bit]
  exact ⟨latticeDecode_sealed a b,
    fun i hi => ⟨latticeDecode_firstBit a b hi, latticeDecode_secondBit a b hi⟩,
    fun i hi => ⟨latticeDecode_firstCheckBit a b hi, latticeDecode_secondCheckBit a b hi⟩,
    fun i hi j hj => ⟨fun hne => ⟨latticeDecode_firstBits a b hi hj hne, latticeDecode_secondBits a b hi hj hne⟩,
      latticeDecode_bothBits a b hi hj⟩⟩

end Sys2Proof.Machine
end

section
/-! PROOFS. Orders that complete at once: what a taken order's chapter answers, and what the command makes of it. -/

namespace Sys2Proof.Machine

/-! ### The answer of a taken order -/

section Taken
variable {c : Opcode} {r : RingId} {s t : State} {o : Order} {i : Instr}

/-- A taken order gets the answer of its chapter, and the cycle ends. -/
theorem exec_taken (hmem : (i, c) ∈ orderOps r) (h : Taken c s r o t) :
    exec i s = .next (endBatch (answer t r (headOf s r) o (c.chk t r (headOf s r) o))) := by
  obtain ⟨hcalm, hnext, rfl, rfl, hheader, hfields, hworld⟩ := h
  have hleast : leastOf (headerMal (orderAt s r (headOf s r)) ++ c.mal (begun s r) (orderAt s r (headOf s r))) = none := by
    rw [show headerMal (orderAt s r (headOf s r)) = [] from hheader,
      show c.mal (begun s r) (orderAt s r (headOf s r)) = [] from hfields]
    rfl
  have hmay : ¬ (secureOnly (orderAt s r (headOf s r)) = true ∧ r.val ≠ 4) :=
    fun ⟨hs, hr⟩ => hr (congrArg Fin.val (hworld hs))
  rw [exec_of_mem_orderOps hmem, takeOrder_next hcalm hnext]
  simp only [judge, hleast, if_neg hmay]
  rfl

theorem exec_taken_finish {st res : Nat} {u : State} (hmem : (i, c) ∈ orderOps r) (h : Taken c s r o t)
    (hchk : c.chk t r (headOf s r) o = .finish st res u) : exec i s = .next (doneNow u r (headOf s r) o st res) := by
  rw [exec_taken hmem h, hchk]
  rfl

theorem exec_taken_wait {u : State} (hmem : (i, c) ∈ orderOps r) (h : Taken c s r o t)
    (hchk : c.chk t r (headOf s r) o = .wait u) : exec i s = .next (endBatch u) := by
  rw [exec_taken hmem h, hchk]
  rfl

/-- The judgement is made within the cycle. -/
theorem Taken.batching (h : Taken c s r o t) : t.batching = true := by
  simp [h.taken, begun]

end Taken

/-- The firewall lets a finishing answer stand where it permits the order (R496, R497). -/
theorem fwGuard_finish {s u : State} {id : Nat} {n : Need} {st res : Nat} (h : fwOk s id n = true) :
    fwGuard s id n (.finish st res u) = .finish st res u := by
  simp [fwGuard, h]

/-! ### What each chapter answers -/

theorem chk_config {t : State} {r : RingId} {idx : Nat} {o : Order} (h : ∀ b ∈ cfgPairs, cfgForbidden t o b = false) :
    opConfig.chk t r idx o = .finish 0x01 0 (cfgApply t o) := by
  have hany : ¬ cfgPairs.any (cfgForbidden t o) = true :=
    fun hb => let ⟨b, hmem, hf⟩ := List.any_eq_true.1 hb; Bool.false_ne_true ((h b hmem).symm.trans hf)
  exact if_neg hany

theorem chk_layoutDef {t : State} {r : RingId} {idx : Nat} {o : Order} {ly : Layout} {desc : Bytes}
    (hdesc : desc = staged t (fld o 24 8) (fld o 20 4)) (hnew : getLayout t (fld o 16 2) = none)
    (hlive : ∀ i ∈ spanSites (parseDesc desc).span, foldMask t i ≠ 0) (hpolicy : descPolicy t (parseDesc desc) = false)
    (hplace : placeLayout t (newLayout t (fld o 16 2) (parseDesc desc) desc) = some ly)
    (hfw : fwOk t (fld o 16 2) (worldOnly r) = true) :
    opLayoutDef.chk t r idx o = .finish 0x01 (layoutResult t ly) (putLayout t (fld o 16 2) ly) := by
  subst hdesc
  have hany : (spanSites (parseDesc (staged t (fld o 24 8) (fld o 20 4))).span).any (fun i => foldMask t i == 0) = false := by
    rw [List.any_eq_false]
    exact fun i hi => by simpa using hlive i hi
  simp only [opLayoutDef, hnew, hany, hpolicy, hplace, fwGuard_finish hfw]
  rfl

theorem chk_layoutFree {t : State} {r : RingId} {idx : Nat} {o : Order} {ly : Layout}
    (hly : getLayout t (fld o 16 2) = some ly) (hnamed : layoutNamed t (fld o 16 2) = false) (hupd : ly.shard.upd = none)
    (hheld : regionHeld t (fld o 16 2) = false) (hfw : fwOk t (fld o 16 2) (worldOnly r) = true) :
    opLayoutFree.chk t r idx o = .finish 0x01 0 (freeLayout t (fld o 16 2)) := by
  simp [opLayoutFree, hly, hnamed, hupd, hheld, fwGuard_finish hfw]

theorem chk_ruleDelete {t : State} {r : RingId} {idx : Nat} {o : Order} (huse : ruleInUse t (fld o 16 1) = false)
    (hzero : fld o 18 1 + fld o 19 1 = 0) (hrule : (kvGet t.rules (fld o 16 1)).isSome = true) :
    opRuleLoad.chk t r idx o = .finish 0x01 0 { t with rules := kvDel t.rules (fld o 16 1) } := by
  have hsome : (kvGet t.rules (fld o 16 1)).isNone = false := by rw [← Option.not_isSome, hrule]; rfl
  simp only [opRuleLoad, if_pos hzero, hsome, huse]
  rfl

theorem chk_ruleLoad {t : State} {r : RingId} {idx : Nat} {o : Order} {ws : List W32} {rule : Rule}
    (huse : ruleInUse t (fld o 16 1) = false) (hsome : fld o 18 1 + fld o 19 1 ≠ 0)
    (hws : ws = stagedWords t (fld o 24 8) (fld o 18 1 + fld o 19 1))
    (hok : checkRule (fld o 17 1) (fld o 18 1) (fld o 19 1) (fldBits o 20 0 3) ws = none)
    (hrule : rule = { stateLayout := fld o 17 1, prologue := ws.take (fld o 18 1), body := ws.drop (fld o 18 1),
                      auxStore := fldBits o 20 0 3, mixMaster := o.getLsbD 163 }) :
    opRuleLoad.chk t r idx o
      = .finish 0x01 (ruleResult (fld o 17 1) rule.body) { t with rules := kvPut t.rules (fld o 16 1) rule } := by
  subst hrule hws
  simp only [opRuleLoad, if_neg hsome, hok, huse]
  rfl

theorem verRelease_readable {t : State} {id slot v : Nat} {ly : Layout} (hly : getLayout t id = some ly)
    (hkind : ly.kind ≠ 3) (hslot : slot < ly.slots) (hst : ly.slotSt.getD slot .released = .readable v) :
    verRelease t id slot v = .finish 0x01 0 (giveUpSlot t id slot v) := by
  have hok : ¬ (ly.kind = 3 ∨ ly.slots ≤ slot) := not_or.2 ⟨hkind, hslot.not_ge⟩
  simp only [verRelease, hly, if_neg hok, hst, if_neg (lt_irrefl v)]

theorem chk_verRelease {t : State} {r : RingId} {idx : Nat} {o : Order} {ly : Layout}
    (hfw : fwOk t (fld o 16 2) (worldOnly r) = true) (hly : getLayout t (fld o 16 2) = some ly) (hkind : ly.kind ≠ 3)
    (hslot : fld o 18 1 < ly.slots) (hst : ly.slotSt.getD (fld o 18 1) .released = .readable (fld o 20 5)) :
    opVerRelease.chk t r idx o = .finish 0x01 0 (giveUpSlot t (fld o 16 2) (fld o 18 1) (fld o 20 5)) := by
  simp only [opVerRelease, verRelease_readable hly hkind hslot hst, fwGuard_finish hfw]

/-- A slot whose version is given up drains while it is read (R274, R278). -/
theorem giveUpSlot_eq {t : State} {id v ver : Nat} {ly : Layout} (hly : getLayout t id = some ly) :
    giveUpSlot t id v ver =
      if hasReaders t id v then putLayout t id (setSlot ly v (.draining ver)) else releaseSlot t id v := by
  have hget : kvGet t.layouts id = some ly := hly
  simp only [giveUpSlot, modLayout, hget]

theorem chk_queueDefine {t : State} {r : RingId} {idx : Nat} {o : Order} {ly : Layout}
    (hly : getLayout t (fld o 18 2) = some ly) (hkind : ly.kind = 3) (hopen : ly.isOpen = false)
    (hundef : (t.queues[queueId o]).defined = false) (hfits : fld o 20 1 * entryBytes (partsOf o) ≤ ly.length)
    (hroom : reserveLacks t (fld o 24 4) = none) (hfw : fwOk t (fld o 18 2) (worldOnly r) = true) :
    opQueueDefine.chk t r idx o = .finish 0x01 0 (setQueue t (queueId o) (fun x =>
      { defined := true, layout := fld o 18 2, depth := fld o 20 1, parts := partsOf o, reserve := fld o 24 4,
        since := t.beat.now, slots := [], irqEn := x.irqEn })) := by
  simp only [opQueueDefine, hly, hkind, hopen, hundef, if_neg hfits.not_gt, hroom, fwGuard_finish hfw]
  rfl

theorem chk_queueDelete {t : State} {r : RingId} {idx : Nat} {o : Order} (h : (t.queues[queueId o]).defined = true) :
    opQueueDelete.chk t r idx o
      = .finish 0x01 0 (setQueue t (queueId o) (fun x => { Queue.reset with irqEn := x.irqEn })) :=
  if_pos h

theorem chk_queueRelease {t : State} {r : RingId} {idx i : Nat} {o : Order} (h : (t.queues[queueId o]).defined = true)
    (hi : i = fld o 24 5 % (t.queues[queueId o]).depth)
    (hocc : (kvGetD (t.queues[queueId o]).slots i QSlot.empty).occ = some (fld o 24 5)) :
    opQueueRelease.chk t r idx o = .finish 0x01 0 (setQueue t (queueId o) (fun x =>
      { x with slots := kvPut x.slots i ⟨none, false, [], some (fld o 24 5)⟩ })) := by
  subst hi
  simp only [opQueueRelease, h, if_pos hocc]
  rfl

theorem chk_drzSeed {t : State} {r : RingId} {idx : Nat} {o : Order} (hnamed : streamNamed t (fld o 16 2) = false)
    (hroom : (kvGet t.streams (fld o 16 2)).isSome = true ∨ t.streams.length < 1024) :
    opDrzSeed.chk t r idx o = .finish 0x01 0
      { t with streams := kvPut t.streams (fld o 16 2) ⟨BitVec.ofNat 64 (fld o 24 8), fld o 32 5⟩ } := by
  have hok : ¬ ((kvGet t.streams (fld o 16 2)).isNone ∧ 1024 ≤ t.streams.length) := by
    rintro ⟨hnone, hfull⟩
    rcases hroom with h | h
    · rw [← Option.not_isSome, h] at hnone
      exact Bool.false_ne_true hnone
    · omega
  simp only [opDrzSeed, hnamed, if_neg hok]
  rfl

theorem chk_drzDelete {t : State} {r : RingId} {idx : Nat} {o : Order} (hnamed : streamNamed t (fld o 16 2) = false)
    (hsome : (kvGet t.streams (fld o 16 2)).isSome = true) :
    opDrzDelete.chk t r idx o = .finish 0x01 0 { t with streams := kvDel t.streams (fld o 16 2) } := by
  have hnone : (kvGet t.streams (fld o 16 2)).isNone = false := by rw [← Option.not_isSome, hsome]; rfl
  simp only [opDrzDelete, hnone, hnamed]
  rfl

/-! ### The statements -/

/-- Settles O10: the fold over the four pairs is their four settings in turn. -/
theorem nopAndConfigComplete : Obligations.NopAndConfigComplete := by
  intro r s t o
  refine ⟨fun h => exec_taken_finish (c := opNop) (by simp [orderOps, immediateOps]) h rfl, fun h hpairs => ?_⟩
  exact exec_taken_finish (c := opConfig) (by simp [orderOps, immediateOps]) h (chk_config hpairs)

/-- Settles O11: every check of Table LAY-5 and of R106 is passed. -/
theorem layoutOrdersComplete : Obligations.LayoutOrdersComplete := by
  intro r s t o
  refine ⟨fun ly desc h hdesc hnew hlive hpolicy hplace hfw => ?_, fun ly h hly hnamed hupd hheld hfw => ?_⟩
  · exact exec_taken_finish (c := opLayoutDef) (by simp [orderOps, immediateOps]) h
      (chk_layoutDef hdesc hnew hlive hpolicy hplace hfw)
  · exact exec_taken_finish (c := opLayoutFree) (by simp [orderOps, immediateOps]) h
      (chk_layoutFree hly hnamed hupd hheld hfw)

/-- Settles O13: the rows of Table NUM-8 and Table VER-2 that do the work. -/
theorem ruleAndVersionOrdersComplete : Obligations.RuleAndVersionOrdersComplete := by
  intro r s t o
  refine ⟨fun h huse => ⟨fun hzero hrule => ?_, fun ws rule hsome hws hok hrule => ?_⟩,
    fun ly h hfw hly hkind hslot hst => ?_⟩
  · exact exec_taken_finish (c := opRuleLoad) (by simp [orderOps, immediateOps]) h (chk_ruleDelete huse hzero hrule)
  · exact exec_taken_finish (c := opRuleLoad) (by simp [orderOps, immediateOps]) h
      (chk_ruleLoad huse hsome hws hok hrule)
  · rw [← giveUpSlot_eq hly]
    exact exec_taken_finish (c := opVerRelease) (by simp [orderOps, immediateOps]) h
      (chk_verRelease hfw hly hkind hslot hst)

/-- Settles O14: the rows of R324, R331 and Table STA-7. -/
theorem queueOrdersComplete : Obligations.QueueOrdersComplete := by
  intro r s t o
  refine ⟨fun ly h hly hkind hopen hundef hfits hroom hfw => ?_, fun h hdef => ?_, fun i h hdef hi hocc => ?_⟩
  · exact exec_taken_finish (c := opQueueDefine) (by simp [orderOps, immediateOps]) h
      (chk_queueDefine hly hkind hopen hundef hfits hroom hfw)
  · exact exec_taken_finish (c := opQueueDelete) (by simp [orderOps, immediateOps]) h (chk_queueDelete hdef)
  · exact exec_taken_finish (c := opQueueRelease) (by simp [orderOps, immediateOps]) h (chk_queueRelease hdef hi hocc)

/-- Settles O15: the rows of Table DRZ-4 that do the work. -/
theorem drizzleOrdersComplete : Obligations.DrizzleOrdersComplete := by
  intro r s t o hnamed
  refine ⟨fun h hroom => ?_, fun h hsome => ?_⟩
  · exact exec_taken_finish (c := opDrzSeed) (by simp [orderOps, immediateOps]) h (chk_drzSeed hnamed hroom)
  · exact exec_taken_finish (c := opDrzDelete) (by simp [orderOps, immediateOps]) h (chk_drzDelete hnamed hsome)

/-- Settles O6: a malformed order is refused before anything else is looked at. -/
theorem malformedOrderRefused : Obligations.MalformedOrderRefused := by
  intro r s i c b hmem hcalm hnext hleast
  rw [exec_of_mem_orderOps hmem, takeOrder_next hcalm hnext]
  simp only [judge, hleast, begun_beat]

end Sys2Proof.Machine
end

section
/-! PROOFS. Receipts and the scheduler: what writing a receipt makes of its ring and of the ring window, what a refusal
changes, and which ring's order is taken next. -/

namespace Sys2Proof.Machine

/-! ### Writing a receipt -/

/-- The bytes of a receipt in its slot, and the tail of its ring (R66). -/
def stampReceipt (s : State) (r : RingId) (w : BitVec 64) (b : BitVec 192) : State :=
  modRing { s with awn := memWriteN s.awn (nextSlot s r) (leBytes 32 (w.toNat
      + 2 ^ 63 * (if (s.rings[r]).rcpTail.testBit (s.rings[r]).depth then 0 else 1) + 2 ^ 64 * b.toNat)) } r
    (fun g => { g with rcpTail := (g.rcpTail + 1) % 131072 })

/-- The counters of a receipt, and the Ledger entry of a late notice (R43, Table TEL-1). -/
def noteReceipt (s : State) (r : RingId) (w : BitVec 64) : State :=
  if w.toNat % 256 = 0x30 then
    ledAdd (if 1 ≤ (w >>> 36).toNat % 16 ∧ (w >>> 36).toNat % 16 ≤ 7 then
        count (count s 26 1) (17 + (w >>> 36).toNat % 16) 1 else count s 26 1) 0x50 (Place.ring r.val) 0
      ((w >>> 36).toNat % 16 + 16 * ((w >>> 16).toNat % 65536))
  else if w.toNat % 256 = 0x31 then count (count s 26 1) 25 1
  else if isRefusal (w.toNat % 256) then count (count s 26 1) (7 + w.toNat % 256 - 0x10) 1 else count s 26 1

section Put
variable (s : State) (r : RingId) (w : BitVec 64) (b : BitVec 192) (q : Bool)

/-- A receipt is stamped and noted, and its ring's interrupt bit may be set. -/
theorem putReceipt_cases : putReceipt s r w b q = noteReceipt (stampReceipt s r w b) r w ∨
    putReceipt s r w b q = ringIrq (noteReceipt (stampReceipt s r w b) r w) r := by
  rw [or_comm]
  exact ite_eq_or_eq ..

theorem noteReceipt_awn : (noteReceipt s r w).awn = s.awn := by
  unfold noteReceipt
  repeat' split
  all_goals simp only [ledAdd_fields, count_fields]

theorem noteReceipt_rings : (noteReceipt s r w).rings = s.rings := by
  unfold noteReceipt
  repeat' split
  all_goals simp only [ledAdd_fields, count_fields]

/-- A refusal is counted and nothing else; it makes no Ledger entry. -/
theorem noteReceipt_refusal (h : isRefusal (w.toNat % 256) = true) : noteReceipt s r w =
    { s with tally := { s.tally with ctr := (noteReceipt s r w).tally.ctr } } := by
  have hst : 0x10 ≤ w.toNat % 256 ∧ w.toNat % 256 ≤ 0x1A := of_decide_eq_true h
  unfold noteReceipt
  rw [if_neg (by omega), if_neg (by omega), if_pos h]
  rfl

/-- Of the ring window a receipt writes its own 32 bytes. -/
theorem putReceipt_awn : (putReceipt s r w b q).awn = (stampReceipt s r w b).awn := by
  rcases putReceipt_cases s r w b q with h | h <;> rw [h]
  · exact noteReceipt_awn ..
  · simp only [ringIrq_fields]
    exact noteReceipt_awn ..

/-- Of the rings a receipt advances the tail of its own. -/
theorem putReceipt_rings : (putReceipt s r w b q).rings = (stampReceipt s r w b).rings := by
  rcases putReceipt_cases s r w b q with h | h <;> rw [h]
  · exact noteReceipt_rings ..
  · simp only [ringIrq_fields]
    exact noteReceipt_rings ..

end Put

/-! ### The ring of a receipt -/

section Stamp
variable (s : State) (r : RingId) (w : BitVec 64) (b : BitVec 192)

theorem stampReceipt_ring : (stampReceipt s r w b).rings[r]
    = { s.rings[r] with rcpTail := ((s.rings[r]).rcpTail + 1) % 131072 } := modRing_same ..

theorem stampReceipt_other {q : RingId} (h : q ≠ r) : (stampReceipt s r w b).rings[q] = s.rings[q] := modRing_other _ _ h

theorem writeFirst_rings (h : Held) (rest : List Held) (q : RingId) : (writeFirst s r h rest).rings[q] =
    if q = r then { s.rings[r] with
      held := rest, owed := if h.owes then (s.rings[r]).owed - 1 else (s.rings[r]).owed,
      rcpTail := ((s.rings[r]).rcpTail + 1) % 131072 }
    else s.rings[q] := by
  rw [writeFirst, putReceipt_rings]
  by_cases hq : q = r
  · subst hq
    rw [stampReceipt_ring, modRing_same, if_pos rfl]
  · rw [stampReceipt_other _ _ _ _ hq, modRing_other _ _ hq, if_neg hq]

theorem stampReceipt_awn : (stampReceipt s r w b).awn = memWriteN s.awn (nextSlot s r) (leBytes 32 (w.toNat
    + 2 ^ 63 * (if (s.rings[r]).rcpTail.testBit (s.rings[r]).depth then 0 else 1) + 2 ^ 64 * b.toNat)) := rfl

theorem nextSlot_calm (x : Bool) : nextSlot { s with batching := x } r = nextSlot s r := rfl

/-- The slot of a receipt does not depend on what its ring holds or owes. -/
theorem nextSlot_modRing (f : RingSt → RingSt) (ht : (f s.rings[r]).rcpTail = (s.rings[r]).rcpTail)
    (hd : (f s.rings[r]).depth = (s.rings[r]).depth) : nextSlot (modRing s r f) r = nextSlot s r := by
  rw [nextSlot, modRing_same, ht, hd, nextSlot]

end Stamp

/-! ### Writing what a ring holds -/

theorem drainRing_single {s : State} {r : RingId} {h : Held} (hheld : (s.rings[r]).held = [h])
    (hroom : heldRoom s.rings[r] h = true) : drainRing 1 s r = writeFirst s r h [] := by
  simp only [drainRing, hheld, hroom, if_true]

theorem filterMap_eq_singleton {α β : Type} {f : α → Option β} {l : List α} {a : α} {x : β} (hn : l.Nodup) (hmem : a ∈ l)
    (ha : f a = some x) (ho : ∀ b, b ≠ a → f b = none) : l.filterMap f = [x] := by
  obtain ⟨l1, l2, rfl⟩ := List.append_of_mem hmem
  have hsplit := List.nodup_append.1 hn
  have hnone : ∀ m : List α, a ∉ m → m.filterMap f = [] := fun m hm =>
    List.filterMap_eq_nil_iff.2 fun b hb => ho b fun e => hm (e ▸ hb)
  have h1 : a ∉ l1 := fun h => hsplit.2.2 a h a (List.mem_cons_self ..) rfl
  have h2 : a ∉ l2 := (List.nodup_cons.1 hsplit.2.1).1
  rw [List.filterMap_append, List.filterMap_cons, ha, hnone _ h1, hnone _ h2, List.nil_append]

/-- Has no ring a receipt that it holds and has room for? -/
def quiet (s : State) : Prop := ∀ q : RingId, ∀ h ∈ (s.rings[q]).held.head?, heldRoom s.rings[q] h = false

theorem nextDue_quiet {s : State} (hq : quiet s) : nextDue s = none := by
  have hnil : (List.finRange 5).filterMap (fun r => match (s.rings[r]).held with
      | h :: rest => if heldRoom s.rings[r] h then some (r, h, rest) else none
      | [] => none) = [] := by
    refine List.filterMap_eq_nil_iff.2 fun q _ => ?_
    have hq := hq q
    split
    · next h rest hheld => rw [hq h (by rw [hheld]; rfl)]; rfl
    · rfl
  exact congrArg (List.foldl _ none) hnil

theorem nextDue_single {s : State} {r : RingId} {h : Held} {rest : List Held} (hheld : (s.rings[r]).held = h :: rest)
    (hroom : heldRoom s.rings[r] h = true) (hothers : othersQuiet s r) : nextDue s = some (r, h, rest) := by
  have hone : (List.finRange 5).filterMap (fun r => match (s.rings[r]).held with
      | h :: rest => if heldRoom s.rings[r] h then some (r, h, rest) else none
      | [] => none) = [(r, h, rest)] := by
    refine filterMap_eq_singleton (List.nodup_finRange 5) (List.mem_finRange r) ?_ fun q hne => ?_
    · simp only [hheld, hroom, if_true]
    · have hq := hothers q hne
      split
      · next x l hx => rw [hq x (by rw [hx]; rfl)]; rfl
      · rfl
  exact congrArg (List.foldl _ none) hone

theorem flushReceipts_quiet {s : State} (n : Nat) (hq : quiet s) : flushReceipts n s = s := by
  cases n with
  | zero => rfl
  | succ n => simp only [flushReceipts, nextDue_quiet hq]

/-- At the end of a cycle in which nothing can be written, nothing is. -/
theorem endBatch_quiet {s : State} (hq : quiet s) : endBatch s = { s with batching := false } :=
  flushReceipts_quiet (s := { s with batching := false }) _ hq

/-- At the end of a cycle in which one receipt can be written, it is. -/
theorem endBatch_single {s : State} {r : RingId} {h : Held} (hheld : (s.rings[r]).held = [h])
    (hroom : heldRoom s.rings[r] h = true) (hothers : othersQuiet s r) :
    endBatch s = writeFirst { s with batching := false } r h [] := by
  have hpos : 1 ≤ (s.rings.toList.map (fun g => g.held.length)).sum := by
    have hmem : (s.rings[r]).held.length ∈ s.rings.toList.map (fun g => g.held.length) :=
      List.mem_map.2 ⟨s.rings[r], by simp, rfl⟩
    have hle := List.le_sum_of_mem hmem
    rw [hheld] at hle
    exact hle
  obtain ⟨n, hn⟩ := Nat.exists_eq_add_of_le' hpos
  have hdue : nextDue { s with batching := false } = some (r, h, []) := nextDue_single hheld hroom hothers
  rw [endBatch, hn, flushReceipts, hdue]
  refine flushReceipts_quiet n fun q x hx => ?_
  dsimp only at hx
  rw [writeFirst_rings] at hx ⊢
  split at hx
  · cases hx
  · next hne =>
    rw [if_neg hne]
    exact hothers q hne x hx

/-! ### A refusal -/

theorem takable_held {s : State} {r : RingId} (h : takable s r = true) : (s.rings[r]).held = [] := by
  simp only [takable, Bool.and_eq_true] at h
  obtain ⟨⟨⟨⟨⟨-, hheld⟩, -⟩, -⟩, -⟩, -⟩ := h
  exact List.isEmpty_iff.1 hheld

theorem takable_fatal {s : State} {r : RingId} (h : takable s r = true) : s.fatal = false := by
  simp only [takable, Bool.and_eq_true] at h
  obtain ⟨⟨⟨⟨⟨⟨⟨⟨⟨-, hfatal⟩, -⟩, -⟩, -⟩, -⟩, -⟩, -⟩, -⟩, -⟩ := h
  exact Bool.not_eq_true' _ ▸ hfatal

/-- R80, R81: there is room for the receipts of the order that is taken. -/
theorem takable_room {s : State} {r : RingId} (h : takable s r = true) :
    (s.rings[r]).owed + (if isTimed (ordOp (orderAt s r (headOf s r))) then 2 else 1) ≤ (s.rings[r]).freeRcp := by
  simp only [takable, Bool.and_eq_true] at h
  obtain ⟨⟨-, hroom⟩, -⟩ := h
  exact of_decide_eq_true hroom

/-- R75: no order with its fence bit set passes an incomplete one. -/
theorem takable_fence {s : State} {r : RingId} (h : takable s r = true)
    (hf : ordFence (orderAt s r (headOf s r)) = true) : ringBusy s r.val = false := by
  simp only [takable, Bool.and_eq_true] at h
  obtain ⟨-, hfence⟩ := h
  have hf' : ordFence (orderAt s r (s.rings[r]).head) = true := hf
  simpa only [hf', Bool.true_and, Bool.not_eq_true'] using hfence

theorem takable_of_nextRing {s : State} {r : RingId} (h : nextRing s = some r) : takable s r = true := by
  unfold nextRing at h
  split at h
  · next h4 => exact Option.some.inj h ▸ h4
  · exact List.find?_some h

theorem takable_of_nextIs {s : State} {r : RingId} {is : Order → Bool} (h : nextIs s r is = true) : takable s r = true := by
  rw [nextIs, Bool.and_eq_true, beq_iff_eq] at h
  exact takable_of_nextRing h.1

/-- Of a state, what a receipt leaves as it is, beside the same of another state. -/
def withReceiptsOf (s t : State) : State :=
  { t with rings := s.rings, turn := s.turn, awn := s.awn, tally := { t.tally with ctr := s.tally.ctr },
           regs := { t.regs with ordIrq := s.regs.ordIrq, ordSirq := s.regs.ordSirq } }

theorem eq_with_of_withReceiptsOf {s u : State} (h : withReceiptsOf s u = s) :
    u = { s with rings := u.rings, turn := u.turn, awn := u.awn, tally := { s.tally with ctr := u.tally.ctr },
                 regs := { s.regs with ordIrq := u.regs.ordIrq, ordSirq := u.regs.ordSirq } } := by
  rw [← h]
  rfl

theorem withReceiptsOf_putReceipt (s t : State) (r : RingId) (w : BitVec 64) (b : BitVec 192) (q : Bool)
    (h : isRefusal (w.toNat % 256) = true) : withReceiptsOf s (putReceipt t r w b q) = withReceiptsOf s t := by
  have hnote : withReceiptsOf s (noteReceipt (stampReceipt t r w b) r w) = withReceiptsOf s t := by
    rw [noteReceipt_refusal _ _ _ h]
    rfl
  rcases putReceipt_cases t r w b q with hp | hp <;> rw [hp]
  · exact hnote
  · rw [← hnote, ringIrq]
    split <;> rfl

theorem withReceiptsOf_modRing (s t : State) (r : RingId) (f : RingSt → RingSt) :
    withReceiptsOf s (modRing t r f) = withReceiptsOf s t := rfl

theorem withReceiptsOf_calm (s t : State) (b : Bool) :
    withReceiptsOf s { t with batching := b } = { withReceiptsOf s t with batching := b } := rfl

theorem withReceiptsOf_begun (s t : State) (r : RingId) :
    withReceiptsOf s (begun t r) = { withReceiptsOf s t with batching := true } := by
  unfold begun advanceHead
  dsimp only
  split <;> rfl

/-- The status of a receipt is the low byte of its word 0. -/
theorem word0_status {st : Nat} (kind idx ring cause tag : Nat) (h : st < 256) :
    (word0 st kind idx ring cause tag).toNat % 256 = st := by
  simp only [word0, BitVec.toNat_ofNat]
  omega

theorem isRefusal_lt {st : Nat} (h : isRefusal st = true) : st < 256 := by
  have := of_decide_eq_true (p := 0x10 ≤ st ∧ st ≤ 0x1A) h
  omega

theorem begun_rings_same (s : State) (r : RingId) :
    (begun s r).rings[r] = { s.rings[r] with head := ((s.rings[r]).head + 1) % 131072 } := by
  unfold begun advanceHead
  dsimp only
  split <;> exact modRing_same ..

theorem begun_rings_other (s : State) {r q : RingId} (h : q ≠ r) : (begun s r).rings[q] = s.rings[q] := by
  unfold begun advanceHead
  dsimp only
  split <;> exact modRing_other { s with batching := true } _ h

/-- The receipt of a refusal. -/
def refusalHeld (r : RingId) (idx : Nat) (o : Order) (st detail beat : Nat) : Held :=
  ⟨0, false, 0, 0, idx, word0 st (ordOp o) idx r.val 0 (ordTag o), bodyG beat detail 0, ordIrq o⟩

/-- Within the cycle that takes it, the refusal of an order is the one receipt that its ring holds. -/
theorem refuseOrder_begun {s : State} {r : RingId} {idx : Nat} {o : Order} {st detail beat : Nat}
    (ht : takable s r = true) (hst : isRefusal st = true) :
    refuseOrder (begun s r) r idx o st detail beat
      = modRing (begun s r) r (fun g => { g with held := insertHeld g.head (refusalHeld r idx o st detail beat) g.held }) := by
  have hfatal : (begun s r).fatal = false := by
    simp only [begun, advanceHead_fields]
    exact takable_fatal ht
  have hbatching : (begun s r).batching = true := by simp only [begun, advanceHead_fields]
  simp only [refuseOrder, emitReceipt, dueReceipt, hfatal, hbatching, hst, or_true, if_true, refusalHeld]
  rfl

/-- R36, R71: the receipt of a refused order is written, on a state that differs from the one before in the order's own
ring alone. -/
theorem endBatch_refuseOrder {s : State} {r : RingId} {idx : Nat} {o : Order} {st detail beat : Nat}
    (hcalm : s.batching = false) (ht : takable s r = true) (hst : isRefusal st = true) (hothers : othersQuiet s r) :
    ∃ v : State, endBatch (refuseOrder (begun s r) r idx o st detail beat)
        = putReceipt v r (refusalHeld r idx o st detail beat).word0 (bodyG beat detail 0) (ordIrq o) ∧
      withReceiptsOf s v = s ∧ v.awn = s.awn ∧ nextSlot v r = nextSlot s r ∧ ∀ q, q ≠ r → v.rings[q] = s.rings[q] := by
  have hring : ∀ f, (modRing (begun s r) r f).rings[r] = f { s.rings[r] with head := ((s.rings[r]).head + 1) % 131072 } :=
    fun f => by rw [modRing_same, begun_rings_same]
  have hsame : ∀ f q, q ≠ r → (modRing (begun s r) r f).rings[q] = s.rings[q] :=
    fun f q hne => by rw [modRing_other _ _ hne, begun_rings_other _ hne]
  rw [refuseOrder_begun ht hst, endBatch_single (r := r) (h := refusalHeld r idx o st detail beat)]
  · refine ⟨_, rfl, ?_, ?_, ?_, fun q hne => ?_⟩
    · rw [withReceiptsOf_modRing, withReceiptsOf_calm, withReceiptsOf_modRing, withReceiptsOf_begun, ← hcalm]
      rfl
    · simp only [modRing_fields, begun, advanceHead_fields]
    · simp only [nextSlot_modRing, nextSlot_calm]
      rw [nextSlot, begun_rings_same, nextSlot]
    · rw [modRing_other _ _ hne]
      exact hsame _ q hne
  · rw [hring, takable_held ht]
    rfl
  · have hroom : 1 ≤ (s.rings[r]).freeRcp := by
      have := takable_room ht
      split at this <;> omega
    rw [hring]
    exact decide_eq_true hroom
  · intro q hne h hh
    rw [hsame _ q hne] at hh ⊢
    exact hothers q hne h hh

/-- A refused order changes its receipt's bytes, its ring, counters and interrupt bits. -/
theorem refuseOrder_frame {s : State} {r : RingId} {idx : Nat} {o : Order} {st detail beat : Nat} {u : State}
    (hcalm : s.batching = false) (ht : takable s r = true) (hst : isRefusal st = true) (hothers : othersQuiet s r)
    (hu : u = endBatch (refuseOrder (begun s r) r idx o st detail beat)) :
    u = { s with rings := u.rings, turn := u.turn, awn := u.awn, tally := { s.tally with ctr := u.tally.ctr },
                 regs := { s.regs with ordIrq := u.regs.ordIrq, ordSirq := u.regs.ordSirq } }
      ∧ (∀ q : RingId, q ≠ r → u.rings[q] = s.rings[q])
      ∧ (Memory.wf s.awn = true → ∀ x, x < nextSlot s r ∨ nextSlot s r + 32 ≤ x → memRead u.awn x = memRead s.awn x) := by
  obtain ⟨v, hv, hframe, hawn, hslot, hrings⟩ := endBatch_refuseOrder (idx := idx) (o := o) (detail := detail)
    (beat := beat) hcalm ht hst hothers
  rw [hv] at hu
  subst hu
  have hword : isRefusal ((refusalHeld r idx o st detail beat).word0.toNat % 256) = true :=
    (word0_status _ _ _ _ _ (isRefusal_lt hst)).symm ▸ hst
  refine ⟨eq_with_of_withReceiptsOf ((withReceiptsOf_putReceipt s v _ _ _ _ hword).trans hframe), fun q hne => ?_,
    fun hwf x hx => ?_⟩
  · rw [putReceipt_rings, stampReceipt_other _ _ _ _ hne, hrings q hne]
  · rw [putReceipt_awn, stampReceipt_awn, hawn, hslot]
    exact memRead_writeN_outside hwf _ _ (by rwa [length_leBytes])

/-- R579: a receipt, a notice apart, that falls due outside a cycle on a ring that holds none and has a free entry is
written at once. -/
theorem dueReceipt_single {s : State} {r : RingId} {h : Held} (hnotice : h.notice = false) (hfatal : s.fatal = false)
    (hcalm : s.batching = false) (hheld : (s.rings[r]).held = []) (hfree : 1 ≤ (s.rings[r]).freeRcp) :
    ∃ v, dueReceipt s r h = putReceipt v r h.word0 h.body h.irqDone ∧
      v.awn = s.awn ∧ ((v.rings[r]).rcpTail = (s.rings[r]).rcpTail ∧ (v.rings[r]).depth = (s.rings[r]).depth) ∧
      ∀ q, q ≠ r → v.rings[q] = s.rings[q] := by
  generalize hs1 : modRing s r (fun g => { g with held := insertHeld g.head h g.held }) = s1
  have hring : s1.rings[r] = { s.rings[r] with held := [h] } := by
    rw [← hs1, modRing_same, hheld]
    rfl
  have hothers : ∀ q, q ≠ r → s1.rings[q] = s.rings[q] := fun q hne => by rw [← hs1, modRing_other _ _ hne]
  have hone : (s1.rings[r]).held = [h] := congrArg RingSt.held hring
  have hroom : heldRoom s1.rings[r] h = true := by
    rw [hring, heldRoom, hnotice]
    exact decide_eq_true hfree
  have hdrain : dueReceipt s r h = drainRing (s1.rings[r]).held.length s1 r := by
    rw [← hs1]
    simp only [dueReceipt, hfatal, hcalm, Bool.false_eq_true, if_false]
  refine ⟨modRing s1 r (fun g => { g with held := [], owed := if h.owes then g.owed - 1 else g.owed }), ?_, ?_, ?_,
    fun q hne => ?_⟩
  · rw [hdrain, hone]
    exact drainRing_single hone hroom
  · rw [← hs1]
    rfl
  · rw [modRing_same, hring]
    exact ⟨rfl, rfl⟩
  · rw [modRing_other _ _ hne, hothers q hne]

/-! ### The scheduler -/

/-- The ring that is `j` places after the turn. -/
def turnRing (s : State) (j : Nat) : RingId := ⟨(s.turn + j) % 4, by omega⟩

/-- Below ring 4, the ring taken is the first in turn order that can be (R73). -/
theorem nextRing_turn {s : State} {r : RingId} (h4 : takable s 4 = false) (h : nextRing s = some r) :
    ∃ j, j < 4 ∧ r = turnRing s j ∧ ∀ i, i < j → takable s (turnRing s i) = false := by
  have hfind : [turnRing s 0, turnRing s 1, turnRing s 2, turnRing s 3].find? (fun q => takable s q) = some r := by
    rw [nextRing, if_neg (by rw [h4]; exact Bool.false_ne_true)] at h
    exact h
  have hcons : ∀ (n : Nat) (l : List RingId), (∀ i, i < n → takable s (turnRing s i) = false) →
      (turnRing s n :: l).find? (fun q => takable s q) = some r →
      (r = turnRing s n ∧ ∀ i, i < n → takable s (turnRing s i) = false) ∨
        (l.find? (fun q => takable s q) = some r ∧ ∀ i, i < n + 1 → takable s (turnRing s i) = false) := by
    intro n l hbefore hf
    cases hn : takable s (turnRing s n) with
    | true =>
      rw [List.find?_cons_of_pos hn] at hf
      exact .inl ⟨(Option.some.inj hf).symm, hbefore⟩
    | false =>
      rw [List.find?_cons_of_neg (by rw [hn]; exact Bool.false_ne_true)] at hf
      refine .inr ⟨hf, fun i hi => ?_⟩
      rcases Nat.lt_succ_iff_lt_or_eq.1 hi with hi | rfl
      exacts [hbefore i hi, hn]
  rcases hcons 0 _ (fun i hi => absurd hi (Nat.not_lt_zero i)) hfind with ⟨hr, hb⟩ | ⟨h1, hb1⟩
  · exact ⟨0, by decide, hr, hb⟩
  rcases hcons 1 _ hb1 h1 with ⟨hr, hb⟩ | ⟨h2, hb2⟩
  · exact ⟨1, by decide, hr, hb⟩
  rcases hcons 2 _ hb2 h2 with ⟨hr, hb⟩ | ⟨h3, hb3⟩
  · exact ⟨2, by decide, hr, hb⟩
  rcases hcons 3 _ hb3 h3 with ⟨hr, hb⟩ | ⟨h4, -⟩
  · exact ⟨3, by decide, hr, hb⟩
  · cases h4

theorem advanceHead_turn {s : State} {r : RingId} (h : r.val < 4) : (advanceHead s r).turn = (r.val + 1) % 4 := by
  simp only [advanceHead, if_neg h.ne, count_fields]

theorem advanceHead_head (s : State) (r : RingId) :
    ((advanceHead s r).rings[r]).head = ((s.rings[r]).head + 1) % 131072 := by
  unfold advanceHead
  dsimp only
  split <;> exact congrArg RingSt.head (modRing_same ..)

/-! ### The statements -/

/-- Settles O8: each of the three refusals writes its receipt and nothing else. -/
theorem refusedOrderFrame : Obligations.RefusedOrderFrame := by
  intro r s t u o i c hmem hothers hcases hexec
  rw [exec_of_mem_orderOps hmem] at hexec
  have hu : u = takeOrder c s r := (Host.Outcome.next.inj hexec).symm
  rcases hcases with ⟨st, d, htaken, hchk, hst⟩ | ⟨hcalm, hnext, b, hleast⟩ |
    ⟨hcalm, hnext, hheader, hfields, hsecure, hring⟩
  · have hexec' := exec_taken hmem htaken
    rw [hchk, htaken.taken, exec_of_mem_orderOps hmem, ← hu] at hexec'
    exact refuseOrder_frame htaken.calm (takable_of_nextIs htaken.next) hst hothers (Host.Outcome.next.inj hexec')
  · have hmal : u = endBatch (refuseOrder (begun s r) r (headOf s r) (orderAt s r (headOf s r)) 0x10 b s.beat.now) := by
      rw [hu, takeOrder_next hcalm hnext]
      simp only [judge, hleast, begun_beat]
    exact refuseOrder_frame hcalm (takable_of_nextIs hnext) rfl hothers hmal
  · have hlt : r.val < 4 := by
      have : r.val ≠ 4 := fun h => hring (Fin.ext h)
      omega
    have hworld : u = endBatch (refuseOrder (begun s r) r (headOf s r) (orderAt s r (headOf s r)) 0x14 0 s.beat.now) := by
      rw [hu, takeOrder_next hcalm hnext, judge_secureOnly hheader hfields hsecure hlt, begun_beat]
    exact refuseOrder_frame hcalm (takable_of_nextIs hnext) rfl hothers hworld

/-- Settles O9: with a free entry the receipt is written at once, and what is written is what the slot then holds. -/
theorem receiptWritten : Obligations.ReceiptWritten := by
  intro s r st kind idx tag body irq hwf hfatal hcalm hheld h30 h31 hfree t
  obtain ⟨v, ht, hawn, hring, hothers⟩ : ∃ v, t = putReceipt v r (word0 st kind idx r.val 0 tag) body irq ∧
    v.awn = s.awn ∧ ((v.rings[r]).rcpTail = (s.rings[r]).rcpTail ∧ (v.rings[r]).depth = (s.rings[r]).depth) ∧
    ∀ q, q ≠ r → v.rings[q] = s.rings[q] :=
    dueReceipt_single (by rw [Held.notice]; split <;> rfl) hfatal hcalm hheld hfree
  have hslot : nextSlot v r = nextSlot s r := by rw [nextSlot, hring.1, hring.2, nextSlot]
  have hmem : t.awn = memWriteN s.awn (nextSlot s r) (leBytes 32 ((word0 st kind idx r.val 0 tag).toNat
      + 2 ^ 63 * (if (s.rings[r]).rcpTail.testBit (s.rings[r]).depth then 0 else 1) + 2 ^ 64 * body.toNat)) := by
    rw [ht, putReceipt_awn, stampReceipt_awn, hawn, hslot, hring.1, hring.2]
  refine ⟨?_, fun x hx => ?_, ?_, fun q hne => ?_⟩
  · rw [hmem]
    simpa only [length_leBytes] using memReadN_writeN hwf (nextSlot s r) (leBytes 32 _)
  · rw [hmem]
    exact memRead_writeN_outside hwf _ _ (by rwa [length_leBytes])
  · rw [ht, putReceipt_rings, stampReceipt_ring, hring.1]
  · rw [ht, putReceipt_rings, stampReceipt_other _ _ _ _ hne, hothers q hne]

/-- Settles O21: what the choice of the next ring asks of a ring, and the turn. -/
theorem schedulerOrder : Obligations.SchedulerOrder := by
  intro s r h
  have ht := takable_of_nextRing h
  refine ⟨ht, fun h4 => ?_, fun hr j hj => ?_, takable_fence ht, takable_room ht, advanceHead_turn, advanceHead_head s r⟩
  · rw [nextRing, if_pos h4] at h
    exact (Option.some.inj h).symm
  · have h4 : takable s 4 = false := by
      by_contra hne
      rw [nextRing, if_pos (by simpa using hne)] at h
      have := congrArg Fin.val (Option.some.inj h)
      simp at this
      omega
    obtain ⟨n, hn, rfl, hbefore⟩ := nextRing_turn h4 h
    refine hbefore j ?_
    simp only [turnRing] at hj
    omega

end Sys2Proof.Machine
end

section
/-! PROOFS. Placement and the admission test: the band that LAYOUT_DEF allocates, and the beats that an accepted order books. -/

namespace Sys2Proof.Machine

/-! ### Bands -/

theorem leastOf_mem {l : List Nat} {b : Nat} (h : leastOf l = some b) : b ∈ l := by
  induction l generalizing b with
  | nil => cases h
  | cons a l ih =>
    rw [leastOf] at h
    split at h
    · exact Option.some.inj h ▸ List.mem_cons_self ..
    · next m hm =>
      obtain rfl : Nat.min a m = b := Option.some.inj h
      rcases Nat.le_total a m with hle | hle
      · rw [show Nat.min a m = a from Nat.min_eq_left hle]
        exact List.mem_cons_self ..
      · rw [show Nat.min a m = m from Nat.min_eq_right hle]
        exact List.mem_cons_of_mem _ (ih hm)

theorem sharesUnit_of_mem {a b : List (Nat × BitVec 32)} {x y : Nat × BitVec 32} (hx : x ∈ a) (hy : y ∈ b)
    (hsite : x.1 = y.1) (hmask : x.2 &&& y.2 ≠ 0) : sharesUnit a b = true :=
  List.any_eq_true.2 ⟨x, hx, List.any_eq_true.2 ⟨y, hy, by rw [hsite, beq_self_eq_true, Bool.true_and]; exact bne_iff_ne.2 hmask⟩⟩

/-- A free row range meets the band of no layout that shares a bank with it. -/
theorem bandFree_disjoint {s : State} {masks : List (Nat × BitVec 32)} {base rows : Nat}
    (h : bandFree s masks base rows = true) {e : Nat × Layout} (he : e ∈ s.layouts)
    (hshare : sharesUnit masks e.2.masks = true) :
    base + rows ≤ e.2.rowBase ∨ e.2.rowBase + e.2.bandRows ≤ base := by
  have hall := List.all_eq_true.1 (Bool.and_eq_true_iff.1 h).1 e he
  simpa [hshare] using hall

/-- The band that is allocated lies within the rows of the stacks and is free (R103). -/
theorem allocBand_spec {s : State} {masks : List (Nat × BitVec 32)} {fcs : Bool} {rows b : Nat}
    (h : allocBand s masks fcs rows = some b) : b + rows ≤ rowLimit fcs ∧ bandFree s masks b rows = true := by
  have hmem := (List.mem_filter.1 (leastOf_mem h)).2
  rw [Bool.and_eq_true, decide_eq_true_iff] at hmem
  exact hmem

theorem placeLayout_spec {s : State} {ly l : Layout} (h : placeLayout s ly = some l) :
    allocBand s ly.masks (ly.fcs s) l.bandRows = some l.rowBase := by
  simp only [placeLayout] at h
  split at h
  · cases h
  · obtain ⟨b, hb, rfl⟩ := Option.map_eq_some_iff.1 h
    exact hb

/-! ### The beats of an accepted order -/

/-- Every booking lies after beat `lo` and no later than beat `hi`. -/
def bookedWithin (lo hi : Nat) (bk : List Booking) : Prop := ∀ k ∈ bk, lo < k.beat ∧ k.beat ≤ hi

theorem bookings_beat {b : Nat} {q : Rat} {x : List (Inst × Rat)} {k : Booking} (h : k ∈ bookings b q x) : k.beat = b := by
  rcases List.mem_append.1 h with h | h
  · obtain ⟨e, -, rfl⟩ := List.mem_map.1 h
    rfl
  · split at h
    · rw [List.mem_singleton.1 h]
    · cases h

theorem bookedWithin_append {lo hi b : Nat} {q : Rat} {x : List (Inst × Rat)} {acc : List Booking}
    (h : bookedWithin lo hi acc) (hlo : lo < b) (hhi : b ≤ hi) : bookedWithin lo hi (acc ++ bookings b q x) := by
  intro k hk
  rcases List.mem_append.1 hk with hk | hk
  · exact h k hk
  · rw [bookings_beat hk]
    exact ⟨hlo, hhi⟩

/-- The procedure books in the beats that it visits. -/
theorem scan_bookedWithin {s : State} {fs : List InFlight} {q : Rat} {t : List (Inst × Rat)} {dmin lo hi : Nat} (n : Nat) :
    ∀ {b : Nat} {body : List (Inst × Rat)} {acc : List Booking} {r : Nat × List Booking}, lo < b → b + n ≤ hi + 1 →
      bookedWithin lo hi acc → scan s fs q t dmin n b body acc = .ok r → bookedWithin lo hi r.2 := by
  induction n with
  | zero =>
    intro b body acc r _ _ _ h
    cases h
  | succ n ih =>
    intro b body acc r hlo hhi hacc h
    rw [scan] at h
    split at h
    · cases h
    · dsimp only at h
      split at h
      · cases h
        exact bookedWithin_append hacc hlo (by omega)
      · cases n with
        | zero => cases h
        | succ n => exact ih (by omega) (by omega) (bookedWithin_append hacc hlo (by omega)) h

/-- What an acceptance says: the promise span is kept, and the procedure found room by the due beat (R27, R28, R35). -/
theorem admission_accept {s : State} {due : Nat} {work tail : List (Inst × Rat)} {bk : List Booking}
    (h : admission s due work tail = .accept bk) :
    s.beat.valid = true ∧ s.cfg.period ≠ 0 ∧ s.beat.now + spanK s.cfg.period ≤ due ∧ due ≤ s.beat.now + 65535 ∧
      ∃ r : Nat × List Booking, r.2 = bk ∧ scan s s.inflight (workAt work .slots) (tailOf (bookable s tail)) due
        (due - s.beat.now) (s.beat.now + 1) (bodyOf (bookable s work) (bookable s tail)) [] = .ok r := by
  simp only [admission] at h
  split at h
  · cases h
  split at h
  · cases h
  next hvalid =>
    split at h
    · cases h
    split at h
    · cases h
    split at h
    · next r hr =>
      have hv := not_or.1 hvalid
      exact ⟨by simpa using hv.1, hv.2, by omega, by omega, r, by cases h; rfl, hr⟩
    · cases h

/-! ### The statements -/

/-- Settles O12: the range that is allocated was free. -/
theorem bandsAreDisjoint : Obligations.BandsAreDisjoint := by
  intro s ly l h
  obtain ⟨hrows, hfree⟩ := allocBand_spec (placeLayout_spec h)
  exact ⟨hrows, fun e he x y hx hy hsite hmask => bandFree_disjoint hfree he (sharesUnit_of_mem hx hy hsite hmask)⟩

/-- Settles O18: the beats visited begin after the current one and end with the due beat. -/
theorem admissionWithinBeats : Obligations.AdmissionWithinBeats := by
  intro s due work tail bk h
  obtain ⟨hvalid, hperiod, hspan, hfar, r, rfl, hscan⟩ := admission_accept h
  exact ⟨hvalid, hperiod, hspan, hfar,
    scan_bookedWithin (due - s.beat.now) (by omega) (by omega) (fun k hk => absurd hk List.not_mem_nil) hscan⟩

end Sys2Proof.Machine
end

section
/-! PROOFS. Timed orders: their admission, their lots, and what the end of their work makes of their record. -/

namespace Sys2Proof.Machine

/-! ### Records of admitted orders -/

theorem findInflight_self {s : State} {ring idx : Nat} {f : InFlight} (h : findInflight s ring idx = some f) :
    f.ring = ring ∧ f.idx = idx := by
  have := List.find?_some h
  simpa using this

theorem find?_map_replace {l : List InFlight} {f g : InFlight} {ring idx : Nat} (hring : g.ring = ring) (hidx : g.idx = idx)
    (h : l.find? (fun x => x.ring == ring && x.idx == idx) = some f) :
    (l.map (fun x => if x.ring == g.ring && x.idx == g.idx then g else x)).find? (fun x => x.ring == ring && x.idx == idx)
      = some g := by
  subst hring hidx
  induction l with
  | nil => cases h
  | cons x l ih =>
    by_cases hx : (x.ring == g.ring && x.idx == g.idx) = true
    · rw [List.map_cons, if_pos hx]
      exact List.find?_cons_of_pos (by simp)
    · have hskip : ∀ l', (x :: l').find? (fun x => x.ring == g.ring && x.idx == g.idx)
          = l'.find? (fun x => x.ring == g.ring && x.idx == g.idx) :=
        fun _ => List.find?_cons_of_neg hx
      rw [List.map_cons, if_neg hx, hskip]
      exact ih ((hskip l).symm.trans h)

/-- The record of an admitted order that is replaced is found. -/
theorem findInflight_putInflight {s : State} {ring idx : Nat} {f g : InFlight} (h : findInflight s ring idx = some f)
    (hring : g.ring = ring) (hidx : g.idx = idx) : findInflight (putInflight s g) ring idx = some g :=
  find?_map_replace hring hidx h

/-- An order is in flight no more once its record is dropped. -/
theorem findInflight_dropInflight (s : State) (ring idx : Nat) : findInflight (dropInflight s ring idx) ring idx = none := by
  rw [findInflight, List.find?_eq_none]
  intro f hf
  have hkept := (List.mem_filter.1 hf).2
  rw [Bool.not_eq_true'] at hkept
  exact Bool.not_eq_true _ ▸ hkept

theorem findInflight_completeWith (t : State) (f : InFlight) (st kind : Nat) (body : BitVec 192) :
    findInflight (completeWith t f st kind body) f.ring f.idx = none := by
  have h : (completeWith t f st kind body).inflight = (dropInflight t f.ring f.idx).inflight := by
    simp only [completeWith, dropNotice, dueReceipt_fields, modRing_fields]
  rw [findInflight, h]
  exact findInflight_dropInflight ..

/-! ### Lots -/

/-- A starting lot takes tracker entries, which the record keeps; where they are too few a bit of HT_CIR_STATUS says so. -/
theorem takeLotEntries_spec (s : State) (f : InFlight) :
    (takeLotEntries s f).1 = { s with regs := { s.regs with cirStatus := (takeLotEntries s f).1.regs.cirStatus } } ∧
      (takeLotEntries s f).2 = { f with entries := (takeLotEntries s f).2.entries } := by
  unfold takeLotEntries
  dsimp only
  split
  · dsimp only
    split <;> exact ⟨rfl, rfl⟩
  · exact ⟨rfl, rfl⟩

/-- R86, R352: a lot that staging is granted for starts. -/
theorem grantLot_granted {s : State} {ring idx : Nat} {f : InFlight} (h : findInflight s ring idx = some f)
    (hg : lotGranted s f = true) :
    ∃ g, findInflight (grantLot s ring idx) ring idx = some g ∧
      g = { f with lotsStarted := f.lotsStarted + 1, entries := g.entries } ∧
      grantLot s ring idx = { s with inflight := (grantLot s ring idx).inflight,
                                     regs := { s.regs with cirStatus := (grantLot s ring idx).regs.cirStatus,
                                                           cirPeak := (grantLot s ring idx).regs.cirPeak } } := by
  have heq : grantLot s ring idx = notePeak (putInflight (takeLotEntries s f).1
      { (takeLotEntries s f).2 with lotsStarted := f.lotsStarted + 1 }) := by
    simp only [grantLot, h, hg, if_true]
  obtain ⟨hstate, hrec⟩ := takeLotEntries_spec s f
  obtain ⟨hring, hidx⟩ := findInflight_self h
  have hfind : findInflight (takeLotEntries s f).1 ring idx = some f := by
    rw [hstate]
    exact h
  refine ⟨{ (takeLotEntries s f).2 with lotsStarted := f.lotsStarted + 1 }, ?_, ?_, ?_⟩
  · rw [heq]
    exact findInflight_putInflight hfind (by rw [hrec]; exact hring) (by rw [hrec]; exact hidx)
  · rw [hrec]
  · rw [heq, hstate]
    rfl

/-- Where no lot is granted nothing starts. -/
theorem grantLot_waits {s : State} {ring idx : Nat} {f : InFlight} (h : findInflight s ring idx = some f)
    (hg : lotGranted s f = false) : grantLot s ring idx = s := by
  simp only [grantLot, h, hg]
  rfl

/-- One grant changes the number of started lots by one at most, and of the state the records and two registers. -/
theorem grantLot_spec {s : State} {ring idx : Nat} {f : InFlight} (h : findInflight s ring idx = some f) :
    ∃ g, findInflight (grantLot s ring idx) ring idx = some g ∧
      g = { f with lotsStarted := g.lotsStarted, entries := g.entries } ∧ g.lotsStarted ≤ f.lotsStarted + 1 ∧
      (grantLot s ring idx).rings = s.rings ∧ (grantLot s ring idx).fatal = s.fatal ∧
      (grantLot s ring idx).batching = s.batching := by
  cases hg : lotGranted s f with
  | true =>
    obtain ⟨g, hfind, hrec, hstate⟩ := grantLot_granted h hg
    rw [hstate] at hfind ⊢
    exact ⟨g, hfind, by rw [hrec], by rw [hrec], rfl, rfl, rfl⟩
  | false =>
    rw [grantLot_waits h hg]
    exact ⟨f, h, rfl, Nat.le_succ _, rfl, rfl, rfl⟩

/-! ### Admission -/

/-- The ACCEPTED receipt of an order. -/
def acceptedHeld (t : State) (r : RingId) (idx : Nat) (o : Order) : Held :=
  ⟨0, false, 0, 0, idx, word0 0x00 (ordOp o) idx r.val 0 (ordTag o), bodyG t.beat.now 0 0, false⟩

/-- Within a cycle a receipt that falls due takes its place among those its ring holds. -/
theorem dueReceipt_batching {s : State} {r : RingId} {h : Held} (hfatal : s.fatal = false) (hb : s.batching = true) :
    dueReceipt s r h = modRing s r (fun g => { g with held := insertHeld g.head h g.held }) := by
  simp only [dueReceipt, hfatal, hb, if_true, Bool.false_eq_true, if_false]

/-- What admission makes of the records and of the ring (R71, R80, R86). -/
theorem admitOrder_spec {t : State} {r : RingId} {o : Order} {bk : List Booking} {ctx : OrderCtx} {idx : Nat}
    (hb : t.batching = true) (hfatal : t.fatal = false) (hnew : findInflight t r.val idx = none) :
    ∃ f, findInflight (admitOrder t r idx o bk ctx) r.val idx = some f ∧
      f = { admitted t r o bk ctx idx with lotsStarted := f.lotsStarted, entries := f.entries } ∧ f.lotsStarted ≤ 2 ∧
      (admitOrder t r idx o bk ctx).rings[r] = { t.rings[r] with
        owed := (t.rings[r]).owed + 1,
        held := insertHeld (t.rings[r]).head (acceptedHeld t r idx o) (t.rings[r]).held } := by
  have hrec : findInflight { t with inflight := t.inflight ++ [admitted t r o bk ctx idx], seq := t.seq + 1 } r.val idx
      = some (admitted t r o bk ctx idx) := by
    have hself : [admitted t r o bk ctx idx].find? (fun f => f.ring == r.val && f.idx == idx)
        = some (admitted t r o bk ctx idx) := List.find?_cons_of_pos (by simp [admitted])
    exact List.find?_append.trans ((congrArg (Option.or · _) hnew).trans hself)
  obtain ⟨f1, hf1, hr1, hl1, hrings1, hfatal1, hbatch1⟩ := grantLot_spec hrec
  obtain ⟨f2, hf2, hr2, hl2, hrings2, hfatal2, hbatch2⟩ := grantLot_spec hf1
  have hadmit : admitOrder t r idx o bk ctx = dueReceipt (modRing (grantLot (grantLot
      { t with inflight := t.inflight ++ [admitted t r o bk ctx idx], seq := t.seq + 1 } r.val idx) r.val idx) r
      (fun g => { g with owed := g.owed + 1 })) r (acceptedHeld t r idx o) := rfl
  generalize grantLot (grantLot { t with inflight := t.inflight ++ [admitted t r o bk ctx idx], seq := t.seq + 1 } r.val idx)
    r.val idx = u at hadmit hf2 hrings2 hfatal2 hbatch2
  have hstart : (admitted t r o bk ctx idx).lotsStarted = 0 := rfl
  rw [hadmit, dueReceipt_batching (s := modRing u r (fun g => { g with owed := g.owed + 1 }))
    (hfatal2.trans (hfatal1.trans hfatal)) (hbatch2.trans (hbatch1.trans hb))]
  refine ⟨f2, hf2, ?_, by omega, ?_⟩
  · rw [hr2, hr1]
  · rw [modRing_same, modRing_same, hrings2, hrings1]

theorem admission_refuse {s : State} {due : Nat} {work tail : List (Inst × Rat)} {st d b : Nat}
    (h : admission s due work tail = .refuse st d b) : st ∈ [0x11, 0x12, 0x13] := by
  simp only [admission] at h
  repeat' split at h
  all_goals simp only [Admission.refuse.injEq, reduceCtorEq] at h
  all_goals simp only [← h.1, List.mem_cons, true_or, or_true]

/-! ### The end of an order's work -/

theorem batch_calm {s : State} {g : State → State} (h : s.batching = false) :
    batch s g = endBatch (g { s with batching := true }) := by
  simp only [batch, h, Bool.false_eq_true, if_false]

section End
variable {r : RingId} {idx : Nat} {inp : EndpointInput} {s : State} {f : InFlight}

/-- The completion command of an order that is admitted and not held is its work, within a cycle. -/
theorem completeOrder_found (hf : findInflight s r.val idx = some f) (hh : orderHeld s f = false) (hc : s.batching = false) :
    completeOrder s r idx inp = endBatch (match perform (noteOrderReads { s with batching := true } f) f inp with
      | .done res t => if f.lotsStarted < f.lotsTotal then { s with batching := true }
        else endOrder { s with batching := true } f (.done res t)
      | p => endOrder { s with batching := true } f p) := by
  simp only [completeOrder, hf, hh, Bool.false_eq_true, if_false]
  exact batch_calm hc

theorem completeOrder_done {res : Nat} {t : State} (hf : findInflight s r.val idx = some f) (hh : orderHeld s f = false)
    (hc : s.batching = false) (hp : perform (noteOrderReads { s with batching := true } f) f inp = .done res t)
    (hlots : f.lotsTotal ≤ f.lotsStarted) : completeOrder s r idx inp
      = endBatch (settleSlots (completeWith t f 0x01 (ordOp f.order) (bodyG t.beat.now 0 res))) := by
  rw [completeOrder_found hf hh hc, hp]
  dsimp only
  rw [if_neg hlots.not_gt]
  rfl

theorem completeOrder_fail {st res n : Nat} {t : State} (hf : findInflight s r.val idx = some f)
    (hh : orderHeld s f = false) (hc : s.batching = false)
    (hp : perform (noteOrderReads { s with batching := true } f) f inp = .fail st res n t) (hst : st = 0x20 ∨ st = 0x21) :
    completeOrder s r idx inp = endBatch (settleSlots (completeWith t { f with lotsDone := n } st (ordOp f.order)
      (bodyG t.beat.now 0 (res + if cutOps.contains (ordOp f.order) then n + 2 ^ 32 * f.lotsTotal else 0)))) := by
  rw [completeOrder_found hf hh hc, hp]
  simp only [endOrder, completeG, hst, true_and]

end End

/-! ### The statements -/

/-- Settles O17: the answers of the admission test, and the records that admission makes. -/
theorem timedOrderAnswered : Obligations.TimedOrderAnswered := by
  have hmem : ∀ {r : RingId} {i : Instr} {c : Opcode}, (i, c) ∈ (Instr.updOpen r, opUpdOpen) :: timedOps r →
      (i, c) ∈ orderOps r := by
    intro r i c h
    rcases List.mem_cons.1 h with h | h
    · rw [h]
      simp [orderOps, immediateOps]
    · exact List.mem_append_left _ (List.mem_append_right _ h)
  refine ⟨fun r s t o i c work tail ctx eff bk hop htaken hchk haccept => ?_,
    fun r t o bk ctx idx hb hfatal hnew => admitOrder_spec hb hfatal hnew,
    fun r s t o i c work tail ctx eff st d b hop htaken hchk hrefuse => ⟨?_, admission_refuse hrefuse⟩⟩
  · rw [exec_taken (hmem hop) htaken, hchk]
    simp only [answer, haccept]
  · rw [exec_taken (hmem hop) htaken, hchk]
    simp only [answer, hrefuse]

/-- Settles O20: the branches of the completion, of the grant of a lot and of the writing of a held receipt. -/
theorem orderProgressAndCompletion : Obligations.OrderProgressAndCompletion := by
  refine ⟨?_, findInflight_completeWith, fun r s => ⟨fun idx f hf hmore => ⟨fun hg => ?_, fun hg hrun => ?_, fun hg hidle => ?_⟩,
    fun h rest hheld hfatal => ⟨fun hroom => ?_, fun hroom => ?_⟩⟩⟩
  · rintro r idx inp s b t f st res n hf hh hc rfl
    exact ⟨fun hp hlots => congrArg Host.Outcome.next (completeOrder_done hf hh hc hp hlots),
      fun hp hst => congrArg Host.Outcome.next (completeOrder_fail hf hh hc hp hst)⟩
  · obtain ⟨g, hfind, hrec, hstate⟩ := grantLot_granted hf hg
    refine ⟨grantLot s r.val idx, g, congrArg Host.Outcome.next ?_, hfind, hrec, hstate⟩
    simp only [startLot, hf, if_neg hmore.not_ge, hg, if_true]
  · refine congrArg Host.Outcome.next ?_
    simp only [startLot, hf, if_neg hmore.not_ge, hg, if_pos hrun, Bool.false_eq_true, if_false]
  · refine congrArg Host.Outcome.next ?_
    simp only [startLot, hf, if_neg hmore.not_ge, hg, if_neg hidle.not_gt, Bool.false_eq_true, if_false]
  · refine congrArg Host.Outcome.next ?_
    simp only [writeHeld, hheld, hroom, hfatal, Bool.not_false, Bool.and_self, if_true]
    rfl
  · refine congrArg Host.Outcome.next ?_
    simp only [writeHeld, hheld, hroom, Bool.false_and, Bool.false_eq_true, if_false]

end Sys2Proof.Machine
end

section
/-! PROOFS. What receipts, records and notices leave as it was, and the beat input. -/

namespace Sys2Proof.Machine

/-! ### What bookkeeping leaves as it was -/

/-- From `s` to `t` the clock, the beat, the stacks and the faults that were met stay. -/
structure SameHardware (s t : State) : Prop where
  ts : t.ts = s.ts
  beat : t.beat = s.beat
  sites : t.sites = s.sites
  chans : t.chans = s.chans
  fencedStalls : t.fencedStalls = s.fencedStalls
  faults : t.regs.faults = s.regs.faults
  unitFault : ∀ k, (getUnit t k).fault = (getUnit s k).fault

theorem SameHardware.of_eqs {s t : State} (ts : t.ts = s.ts) (beat : t.beat = s.beat) (sites : t.sites = s.sites)
    (chans : t.chans = s.chans) (fencedStalls : t.fencedStalls = s.fencedStalls) (faults : t.regs.faults = s.regs.faults)
    (units : t.units = s.units) : SameHardware s t :=
  ⟨ts, beat, sites, chans, fencedStalls, faults, fun k => by rw [getUnit, units]; rfl⟩

theorem SameHardware.refl (s : State) : SameHardware s s := .of_eqs rfl rfl rfl rfl rfl rfl rfl

theorem SameHardware.trans {a b c : State} (h1 : SameHardware a b) (h2 : SameHardware b c) : SameHardware a c :=
  ⟨h2.ts.trans h1.ts, h2.beat.trans h1.beat, h2.sites.trans h1.sites, h2.chans.trans h1.chans,
    h2.fencedStalls.trans h1.fencedStalls, h2.faults.trans h1.faults, fun k => (h2.unitFault k).trans (h1.unitFault k)⟩

theorem SameHardware.foldl {α : Type} {a : State} {g : State → α → State} (l : List α) {s : State} (h : SameHardware a s)
    (hg : ∀ t x, SameHardware t (g t x)) : SameHardware a (l.foldl g s) := by
  induction l generalizing s with
  | nil => exact h
  | cons x r ih => exact ih (h.trans (hg s x))

theorem SameHardware.ite {a s t : State} {c : Prop} [Decidable c] (h1 : SameHardware a s) (h2 : SameHardware a t) :
    SameHardware a (if c then s else t) := by split <;> assumption

theorem modRing_same_hw (s : State) (r : RingId) (f : RingSt → RingSt) : SameHardware s (modRing s r f) :=
  (.of_eqs rfl rfl rfl rfl rfl rfl rfl)

theorem count_same_hw (s : State) (i n : Nat) : SameHardware s (count s i n) := (.of_eqs rfl rfl rfl rfl rfl rfl rfl)

theorem putInflight_same_hw (s : State) (f : InFlight) : SameHardware s (putInflight s f) := (.of_eqs rfl rfl rfl rfl rfl rfl rfl)

theorem ledAdd_regs (s : State) (c : Nat) (p : Place) (l a : Nat) : (ledAdd s c p l a).regs = s.regs := by
  simp only [ledAdd_fields]

theorem ledAdd_same_hw (s : State) (c : Nat) (p : Place) (l a : Nat) : SameHardware s (ledAdd s c p l a) := by
  apply SameHardware.of_eqs <;> simp only [ledAdd_fields]

theorem fltIrq_same_hw (s : State) (b : Nat) : SameHardware s (fltIrq s b) := (.of_eqs rfl rfl rfl rfl rfl rfl rfl)

theorem noteReceipt_faults (s : State) (r : RingId) (w : BitVec 64) : (noteReceipt s r w).regs.faults = s.regs.faults := by
  unfold noteReceipt
  repeat' split
  all_goals simp only [ledAdd_fields, count_fields]

theorem ringIrq_faults (s : State) (r : RingId) : (ringIrq s r).regs.faults = s.regs.faults := by
  unfold ringIrq
  split <;> rfl

theorem putReceipt_faults (s : State) (r : RingId) (w : BitVec 64) (b : BitVec 192) (q : Bool) :
    (putReceipt s r w b q).regs.faults = s.regs.faults := by
  rcases putReceipt_cases (s := s) (r := r) (w := w) (b := b) (q := q) with h | h
  · rw [h, noteReceipt_faults]
    rfl
  · rw [h, ringIrq_faults, noteReceipt_faults]
    rfl

theorem writeFirst_same_hw (s : State) (r : RingId) (h : Held) (l : List Held) : SameHardware s (writeFirst s r h l) := by
  refine .of_eqs ?_ ?_ ?_ ?_ ?_ (putReceipt_faults ..) ?_ <;> simp only [writeFirst_fields]

theorem drainRing_same_hw (n : Nat) (s : State) (r : RingId) : SameHardware s (drainRing n s r) := by
  induction n generalizing s with
  | zero => exact .refl s
  | succ n ih =>
    rw [drainRing]
    split
    · exact .refl s
    · split
      · exact (writeFirst_same_hw ..).trans (ih _)
      · exact .refl s

theorem dueReceipt_same_hw (s : State) (r : RingId) (h : Held) : SameHardware s (dueReceipt s r h) := by
  unfold dueReceipt
  split
  · exact .refl s
  · dsimp only
    split
    · exact modRing_same_hw ..
    · exact (modRing_same_hw ..).trans (drainRing_same_hw ..)

theorem emitReceipt_same_hw (s : State) (r : RingId) (st k i t : Nat) (b : BitVec 192) (q : Bool) :
    SameHardware s (emitReceipt s r st k i t b q) := dueReceipt_same_hw ..

theorem refuseOrder_same_hw (s : State) (r : RingId) (i : Nat) (o : Order) (st d b : Nat) :
    SameHardware s (refuseOrder s r i o st d b) := emitReceipt_same_hw ..

theorem sendLate_same_hw (s : State) (f : InFlight) (e c : Nat) : SameHardware s (sendLate s f e c) :=
  (putInflight_same_hw s _).trans ((modRing_same_hw ..).trans (dueReceipt_same_hw ..))

theorem lateCheck_same_hw (s : State) (c : Nat) : SameHardware s (lateCheck s c) := by
  unfold lateCheck
  split
  · exact .refl s
  · refine SameHardware.foldl _ (.of_eqs rfl rfl rfl rfl rfl rfl rfl) fun t x => ?_
    dsimp only
    split
    · exact .refl t
    · split
      · exact sendLate_same_hw ..
      · exact .ite (.refl t) (.ite (sendLate_same_hw ..) (.refl t))

theorem lateAtStrobe_same_hw (s : State) : SameHardware s (lateAtStrobe s) := by
  unfold lateAtStrobe
  split
  · exact .refl s
  · dsimp only
    split
    · exact .refl s
    · exact SameHardware.foldl _ (.of_eqs rfl rfl rfl rfl rfl rfl rfl) fun t x =>
        .ite (.ite (sendLate_same_hw ..) (sendLate_same_hw ..)) (.refl t)

theorem completeWith_same_hw (s : State) (f : InFlight) (st k : Nat) (b : BitVec 192) :
    SameHardware s (completeWith s f st k b) :=
  SameHardware.trans (b := dropNotice (dropInflight s f.ring f.idx) (ringOf f.ring) f.idx) (.of_eqs rfl rfl rfl rfl rfl rfl rfl)
    (dueReceipt_same_hw ..)

theorem latchTallies_same_hw (s : State) : SameHardware s (latchTallies s) := by
  unfold latchTallies
  split
  · exact (.of_eqs rfl rfl rfl rfl rfl rfl rfl)
  · exact .refl s

theorem refuseWaiting_same_hw (s : State) : SameHardware s (refuseWaiting s) := by
  unfold refuseWaiting
  split
  · exact .refl s
  · refine SameHardware.foldl _ (.refl s) fun t w => ?_
    split
    · exact SameHardware.trans (b := { t with waiting := t.waiting.filter (fun v => v.ring != w.ring) })
        (.of_eqs rfl rfl rfl rfl rfl rfl rfl) ((ledAdd_same_hw ..).trans (refuseOrder_same_hw ..))
    · exact .refl t

/-! ### The clock -/

theorem charge_ts (s : State) (i : Inst) (n : Nat) : (charge s i n).ts = s.ts := by
  simp only [charge_fields]

theorem restartAt_ts (s : State) (i : Inst) (o : Option Nat) : (restartAt s i o).ts = s.ts := by
  unfold restartAt
  split
  · split
    · exact charge_ts ..
    · rfl
  · rfl

theorem settleSite_ts (s : State) (x : SiteId) : (settleSite s x).ts = s.ts := by
  have h : (if takeoverWaits s x then s else modSite s x (fun z => { z with stallFrom := none })).ts = s.ts := by
    split <;> rfl
  simp only [settleSite, modSite_fields, restartAt_ts, h]

theorem squallCirrus_ts (s : State) : (squallCirrus s).ts = s.ts := rfl

theorem settleSquall_ts (s : State) : (settleSquall s).ts = s.ts := by
  have hsites : ∀ l : List SiteId, (l.foldl (fun st x =>
      if kindOf st x.val != .none && !(st.sites[x]).fenced && !(st.sites[x]).rippled then squallSite st x else st) s).ts = s.ts :=
    fun l => foldl_keeps State.ts _ (fun t x => by split <;> rfl) l s
  unfold settleSquall
  split
  · dsimp only
    split
    · exact (squallCirrus_ts _).trans (hsites _)
    · exact hsites _
  · rfl

theorem settle_ts (s : State) : (settle s).ts = s.ts := by
  have hsites : ((List.finRange 20).foldl settleSite s).ts = s.ts := foldl_keeps State.ts _ settleSite_ts _ s
  simp only [settle, settleSquall_ts, restartAt_ts, hsites]

theorem modLayout_same_hw (s : State) (id : Nat) (f : Layout → Layout) : SameHardware s (modLayout s id f) := by
  apply SameHardware.of_eqs <;> simp only [modLayout_fields]

theorem releaseSlot_same_hw (s : State) (id v : Nat) : SameHardware s (releaseSlot s id v) :=
  (modLayout_same_hw ..).trans (.of_eqs rfl rfl rfl rfl rfl rfl rfl)

theorem settleSlots_same_hw (s : State) : SameHardware s (settleSlots s) := by
  refine SameHardware.foldl _ (.refl s) fun t e => SameHardware.foldl _ (.refl t) fun u v => ?_
  split
  · exact .ite (.refl u) (releaseSlot_same_hw ..)
  · exact .refl u

/-- The work of a serve reads only. -/
theorem servePerf_endOrder_same_hw (s : State) (f : InFlight) (e : Bool) :
    SameHardware s (endOrder s f (servePerf s f e)) := by
  have hend : ∀ t g st n, SameHardware s t → SameHardware s (settleSlots (completeG t g st n)) := fun t g st n h =>
    h.trans ((completeWith_same_hw ..).trans (settleSlots_same_hw _))
  unfold servePerf
  dsimp only
  repeat' split
  · exact hend _ _ _ _ (.of_eqs rfl rfl rfl rfl rfl rfl rfl)
  · exact hend _ _ _ _ (.refl s)
  · exact hend _ _ _ _ (.refl s)
  · exact .refl s
  · exact .refl s

theorem endServes_ts (s : State) (n : Nat) : (endServes s n).ts = s.ts :=
  (SameHardware.foldl _ (.refl s) fun t f => servePerf_endOrder_same_hw t f true).ts

/-! ### The beat -/

section Beat
variable (s : State) (step : Option (BitVec 40))

/-- A step number that a strobe records leaves the beat's other fields (R24). -/
theorem recordStep_beat : (recordStep s step).ts = s.ts ∧ (recordStep s step).beat.valid = s.beat.valid ∧
    (recordStep s step).beat.now = s.beat.now ∧ (recordStep s step).beat.start = s.beat.start ∧
    (recordStep s step).beat.measured = s.beat.measured := by
  unfold recordStep
  split
  · exact ⟨rfl, rfl, rfl, rfl, rfl⟩
  · dsimp only
    split <;> simp only [ledAdd_fields, and_self]

theorem recordStep_step {x : BitVec 40} : (recordStep s (some x)).beat.step = x.toNat ∧
    (recordStep s (some x)).beat.stepValid = true := by
  unfold recordStep
  dsimp only
  split <;> simp only [ledAdd_fields, and_self]

/-- What an adopted beat is once the receipts of the cycle are written. -/
theorem endBatch_refuseWaiting_beat (s : State) : (endBatch (refuseWaiting s)).beat = s.beat := by
  simp only [endBatch_fields, (refuseWaiting_same_hw s).beat]

theorem strobe_running (h : s.power.inReset = none) (hc : s.batching = false) {n : BitVec 48} :
    exec (.beatStrobe n step) s = .next (endBatch
      (if !s.beat.valid then refuseWaiting (latchTallies (recordStep (adoptBeat { s with
          batching := true, beat := { s.beat with lastStrobe := s.ts } } n.toNat) step))
        else if n.toNat ≤ s.beat.now then count (ledAdd (beatStatus { s with
          batching := true, beat := { s.beat with lastStrobe := s.ts } } 2) 0x02 Place.none 0 n.toNat) 1 1
        else nextBeat { s with batching := true, beat := { s.beat with lastStrobe := s.ts } } n.toNat step)) := by
  refine congrArg Host.Outcome.next ?_
  simp only [strobe, h, Option.isSome_none, Bool.false_eq_true, if_false]
  exact batch_calm hc

/-- The number of the beat, when it began, and the length measured of the one before. -/
def beatMark (s : State) : Nat × Nat × W32 := (s.beat.now, s.beat.start, s.beat.measured)

theorem beatMark_of_beat {s t : State} (h : t.beat = s.beat) : beatMark t = beatMark s := by rw [beatMark, h]; rfl

theorem recordStep_mark : beatMark (recordStep s step) = beatMark s := by
  obtain ⟨-, -, hnow, hstart, hmeasured⟩ := recordStep_beat s step
  rw [beatMark, hnow, hstart, hmeasured]
  rfl

/-- What a strobe notes of itself before it records the step leaves the mark of the beat. -/
theorem beatMark_noted (jump short : Bool) (n : Nat) :
    beatMark (if short then beatStatus (if jump then ledAdd (beatStatus s 1) 0x01 Place.none 0 n else s) 4
      else if jump then ledAdd (beatStatus s 1) 0x01 Place.none 0 n else s) = beatMark s := by
  have hjump : beatMark (if jump then ledAdd (beatStatus s 1) 0x01 Place.none 0 n else s) = beatMark s := by
    split
    · exact beatMark_of_beat (s := beatStatus s 1) (by simp only [ledAdd_fields])
    · rfl
  split
  · exact hjump
  · exact hjump

/-- A strobe above the current beat is adopted (Table BEA-1). -/
theorem nextBeat_mark (n : Nat) : beatMark (endBatch (nextBeat s n step))
    = (n, s.ts, BitVec.ofNat 32 (Nat.min (s.ts - s.beat.start) 0xFFFFFFFF)) := by
  have hfinish : ∀ t, beatMark (endBatch (refuseWaiting (lateAtStrobe (latchTallies t)))) = beatMark t := fun t =>
    beatMark_of_beat (by rw [endBatch_refuseWaiting_beat, (lateAtStrobe_same_hw _).beat, (latchTallies_same_hw _).beat])
  have hlate : ∀ (p : Bool) t, beatMark (if p then lateCheck t 6 else t) = beatMark t := fun p t => by
    split
    · exact beatMark_of_beat (lateCheck_same_hw ..).beat
    · rfl
  have hadopt : ∀ (u : State) m l, u.ts = s.ts → beatMark (adoptBeat { u with
      beat := { u.beat with measured := m }, inflight := l } n) = (n, s.ts, m) := fun u m l h => by
    rw [← h]
    rfl
  unfold nextBeat
  rw [hfinish, hlate, recordStep_mark, beatMark_noted, hadopt]
  exact (endServes_ts ..).trans (settle_ts s)

end Beat

/-- Settles O32: which beat a strobe leaves, and what is recorded of a stopped sequencer. -/
theorem beatStrobes : Obligations.BeatStrobes := by
  refine ⟨fun s n step hreset hc => ⟨fun hv => ?_, fun hv hn => ?_, fun hv hn => ?_⟩, fun s => ⟨fun hv hp hlate => ?_, fun h => ?_⟩⟩
  · refine ⟨_, strobe_running s step hreset hc, ?_⟩
    rw [hv, Bool.not_false, if_pos rfl, endBatch_refuseWaiting_beat, (latchTallies_same_hw _).beat]
    obtain ⟨-, hvalid, hnow, hstart, -⟩ := recordStep_beat
      (adoptBeat { s with batching := true, beat := { s.beat with lastStrobe := s.ts } } n.toNat) step
    refine ⟨hvalid, hnow, hstart, ?_⟩
    rintro x rfl
    exact recordStep_step ..
  · rw [strobe_running s step hreset hc, hv, if_neg (by simp), if_pos hn]
    rfl
  · refine ⟨_, strobe_running s step hreset hc, ?_⟩
    rw [hv, if_neg (by simp), if_neg hn.not_ge]
    simpa only [beatMark, Prod.mk.injEq] using nextBeat_mark _ step n.toNat
  · refine congrArg Host.Outcome.next ?_
    rw [stopped, if_pos ⟨hv, hp, hlate⟩]
    rfl
  · refine congrArg Host.Outcome.next (if_neg ?_)
    rintro ⟨hv, hp, hlate⟩
    rcases h with h | h | h
    · rw [hv] at h
      cases h
    · exact hp h
    · omega

end Sys2Proof.Machine
end

section
/-! PROOFS. The close of a step. -/

namespace Sys2Proof.Machine

/-- The counts of a step are kept in the Tally (R519). -/
theorem addShardCounts_frame (s : State) (id : Nat) (u : Upd) : (addShardCounts s id u).layouts = s.layouts ∧
    (addShardCounts s id u).rings = s.rings ∧ (addShardCounts s id u).awn = s.awn ∧
    (addShardCounts s id u).inflight = s.inflight ∧ (addShardCounts s id u).fatal = s.fatal := by
  unfold addShardCounts
  split
  · simp only [count_fields, and_self]
  · exact ⟨rfl, rfl, rfl, rfl, rfl⟩

theorem completeWith_layouts (s : State) (f : InFlight) (st k : Nat) (b : BitVec 192) :
    (completeWith s f st k b).layouts = s.layouts := by
  simp only [completeWith, dropNotice, dueReceipt_fields, modRing_fields]
  rfl

/-- The layout of a step that has closed (R197 to R199). -/
def closedLayout (s : State) (l : Layout) (u : Upd) : Layout :=
  { setSlot l u.slot (.readable u.step) with
    shard := { (setSlot l u.slot (.readable u.step)).shard with
      st := .resealing, step := u.step, prev := l.shard.last,
      last := some ⟨bodyU u, true, u.attempt, u.ruleId, ((ruleOf s u.ruleId).map Rule.body).getD [], u.slot, u.guarded⟩,
      undo := if u.guarded then some u.step else none, badUndo := [] } }

/-- The state at the close of a step, before its receipt falls due. -/
def closed (s : State) (id : Nat) (u : Upd) : State :=
  addShardCounts { modLayout s id (fun l => closedLayout s l u) with
    units := (modLayout s id (fun l => closedLayout s l u)).units.map (fun e => if e.2.layout = id then (e.1, e.2.idle) else e) } id u

theorem closed_frame (s : State) (id : Nat) (u : Upd) :
    (closed s id u).layouts = (modLayout s id (fun l => closedLayout s l u)).layouts ∧ (closed s id u).rings = s.rings ∧
    (closed s id u).awn = s.awn ∧ (closed s id u).inflight = s.inflight ∧ (closed s id u).fatal = s.fatal := by
  simp only [closed, addShardCounts_frame, modLayout_fields, and_self]

section Close
variable {s : State} {id : Nat} {ly : Layout} {u : Upd} {f : InFlight}

theorem closeStep_complete (hly : getLayout s id = some ly) (hu : ly.shard.upd = some u)
    (hf : findInflight s u.ring u.idx = some f) :
    closeStep s id = completeWith (closed s id u) f 0x01 0x23 (bodyU u) := by
  have hfind : findInflight (closed s id u) u.ring u.idx = some f := by
    rw [findInflight, (closed_frame s id u).2.2.2.1]
    exact hf
  have hclose : closeStep s id = match findInflight (closed s id u) u.ring u.idx with
      | some f => completeWith (closed s id u) f 0x01 0x23 (bodyU u)
      | none => closed s id u := by
    simp only [closeStep, hly, hu]
    rfl
  rw [hclose, hfind]

theorem getLayout_closed (hly : getLayout s id = some ly) : getLayout (closed s id u) id = some (closedLayout s ly u) := by
  rw [getLayout, (closed_frame s id u).1]
  exact (getLayout_modLayout ..).trans (congrArg (Option.map _) hly)

end Close

/-- Settles O37: the layout and the receipt of the close. -/
theorem stepClose : Obligations.StepClose := by
  rintro s t id ly u f - hly hu hf rfl
  rw [closeStep_complete hly hu hf]
  refine ⟨⟨closedLayout s ly u, ?_, rfl, rfl, fun hslot => ?_, rfl⟩, closed s id u, ?_⟩
  · rw [getLayout, completeWith_layouts]
    exact getLayout_closed hly
  · exact (List.getD_eq_getElem _ _ (by simpa [closedLayout, setSlot] using hslot)).trans (List.getElem_set_self _)
  · obtain ⟨-, hrings, hawn, hinflight, hfatal⟩ := closed_frame s id u
    exact ⟨hrings, hawn, hinflight, hfatal, rfl⟩

end Sys2Proof.Machine
end

section
/-! PROOFS. Finite maps by their entries; the Ledger and the Tally latch. -/

namespace Sys2Proof.Machine

/-! ### Finite maps by their entries -/

theorem kvWf_iff_pairwise {α : Type} (m : KV α) : kvWf m = true ↔ m.Pairwise (fun a b => a.1 < b.1) := by
  induction m with
  | nil => simp [kvWf_nil]
  | cons e r ih =>
    obtain ⟨a, x⟩ := e
    rw [kvWf_cons, List.pairwise_cons, ih]
    rfl

/-- A canonical map holds at a key what its entry says. -/
theorem kvGet_iff_mem {α : Type} {m : KV α} (hw : kvWf m = true) (a : Nat) (v : α) : kvGet m a = some v ↔ (a, v) ∈ m := by
  refine ⟨mem_of_kvGet, fun h => ?_⟩
  induction m with
  | nil => cases h
  | cons e r ih =>
    obtain ⟨b, y⟩ := e
    obtain ⟨habove, hr⟩ := (kvWf_cons ..).mp hw
    rcases List.mem_cons.mp h with h | h
    · obtain ⟨rfl, rfl⟩ := Prod.mk.injEq .. ▸ h
      simp [kvGet]
    · have hab : b < a := habove _ h
      rw [kvGet, if_neg (by omega), if_neg (by omega)]
      exact ih hr h

theorem kvGet_congr {α : Type} {m n : KV α} (hm : kvWf m = true) (hn : kvWf n = true) {a : Nat}
    (h : ∀ v, (a, v) ∈ m ↔ (a, v) ∈ n) : kvGet m a = kvGet n a :=
  Option.ext fun v => by rw [kvGet_iff_mem hm, kvGet_iff_mem hn, h]

theorem kvGet_filter {α : Type} {m : KV α} (hw : kvWf m = true) (p : Nat → Bool) (a : Nat) :
    kvGet (m.filter (fun e => p e.1)) a = if p a then kvGet m a else none := by
  split
  next h => exact kvGet_congr (kvFilter_wf hw _) hw fun v => by simp [h]
  next h =>
    refine Option.eq_none_iff_forall_ne_some.mpr fun v hv => ?_
    exact h (List.mem_filter.mp (mem_of_kvGet hv)).2

theorem kvGet_map {α : Type} (m : KV α) (f : Nat → α → α) (a : Nat) :
    kvGet (m.map (fun e => (e.1, f e.1 e.2))) a = (kvGet m a).map (f a) := by
  induction m with
  | nil => rfl
  | cons e r ih =>
    obtain ⟨b, y⟩ := e
    simp only [List.map_cons, kvGet]
    split
    next h => rw [h]; rfl
    next =>
      split
      · rfl
      · exact ih

/-- The same value put at some keys of a list. -/
theorem kvGet_foldl_put {α : Type} (l : List Nat) (p : Nat → Bool) (x : α) (m : KV α) (a : Nat) :
    kvGet (l.foldl (fun m g => if p g then kvPut m g x else m) m) a = if a ∈ l ∧ p a = true then some x else kvGet m a := by
  induction l generalizing m with
  | nil => simp
  | cons g l ih =>
    rw [List.foldl_cons, ih]
    by_cases ha : a = g
    · subst ha
      cases hp : p a <;> simp [kvGet_put_same]
    · have hput : kvGet (if p g then kvPut m g x else m) a = kvGet m a := by
        split
        · exact kvGet_put_other m x ha
        · rfl
      simp [ha, hput]

/-! ### The Ledger -/

section Ledger
variable {s : State} {code : Nat} {pl : Place} {layout arg : Nat}

theorem ledAdd_unrecorded (h : s.cfg.ledRec = 0 ∧ (code = 0x10 ∨ code = 0x12)) : ledAdd s code pl layout arg = s := if_pos h

/-- The entry that is written now. -/
def newEntry (s : State) (code : Nat) (pl : Place) (layout arg : Nat) : BitVec 256 :=
  ledEntry s.ts s.beat.now s.beat.step code (s.led.head + s.led.entries.length) s.led.lostNext pl layout arg

theorem ledAdd_room (h : ¬ (s.cfg.ledRec = 0 ∧ (code = 0x10 ∨ code = 0x12))) (hn : s.led.entries.length < 65536) :
    (ledAdd s code pl layout arg).led = { s.led with
      entries := s.led.entries ++ [newEntry s code pl layout arg], lostNext := false,
      irq := if s.cfg.fillLevel ≤ s.led.entries.length + 1 then s.led.irq ||| 1 else s.led.irq } := by
  rw [ledAdd, if_neg h]
  dsimp only
  rw [if_pos hn]
  rfl

/-- One entry more is lost; the count saturates. -/
def lostMore (n : W32) : W32 := if n = 0xFFFFFFFF then n else n + 1

theorem ledAdd_drained (h : ¬ (s.cfg.ledRec = 0 ∧ (code = 0x10 ∨ code = 0x12))) (hn : s.led.entries.length = 65536) (hd : drainPending s = true) :
    (ledAdd s code pl layout arg).led = { s.led with
      lostNext := true, lost := lostMore s.led.lost, irq := s.led.irq ||| 2, dropped := s.led.dropped + 1 } := by
  rw [ledAdd, if_neg h]
  dsimp only
  rw [if_neg (by omega), if_pos hd]
  rfl

/-- The bit that marks a gap before an entry. -/
def gapMark : BitVec 256 := ((1 <<< 176 : Nat) : BitVec 256)

/-- A full ring without its oldest entry, with a mark at the gap and the new entry at its end. -/
def dropOldest (l : List (BitVec 256)) (e : BitVec 256) : List (BitVec 256) :=
  (l.drop 1 ++ [e]).modifyHead (· ||| gapMark)

theorem ledAdd_dropped (h : ¬ (s.cfg.ledRec = 0 ∧ (code = 0x10 ∨ code = 0x12))) (hn : s.led.entries.length = 65536) (hd : drainPending s = false) :
    (ledAdd s code pl layout arg).led = { s.led with
      entries := dropOldest s.led.entries (newEntry s code pl layout arg), head := (s.led.head + 1) % 65536, lostNext := false,
      lost := lostMore s.led.lost, irq := s.led.irq ||| 3, dropped := s.led.dropped + 1 } := by
  rw [ledAdd, if_neg h]
  dsimp only
  rw [if_neg (by omega), hd, if_neg Bool.false_ne_true]
  unfold dropOldest newEntry lostMore
  cases s.led.entries.drop 1 <;> rfl

end Ledger

theorem lostMore_toNat (n : W32) : (lostMore n).toNat = Nat.min (n.toNat + 1) 0xFFFFFFFF := by
  unfold lostMore
  split
  next h =>
    subst h
    decide
  next h =>
    have hne : n.toNat ≠ 0xFFFFFFFF := fun hn => h (BitVec.eq_of_toNat_eq hn)
    have := n.isLt
    exact Eq.trans (by bv_omega) (Nat.min_eq_left (by omega)).symm

/-- The Seq of an entry (Table TEL-3). -/
def seqOf (e : BitVec 256) : BitVec 16 := e.extractLsb' 160 16

theorem seqOf_ledEntry (stamp beat step seq : Nat) {code : Nat} (lost : Bool) (pl : Place) (layout arg : Nat)
    (hcode : code < 256) : seqOf (ledEntry stamp beat step code seq lost pl layout arg) = BitVec.ofNat 16 seq := by
  refine BitVec.eq_of_toNat_eq ?_
  have hl : (if lost then 1 else 0 : Nat) ≤ 1 := by split <;> omega
  have h1 := Nat.mod_lt stamp (show 0 < 2 ^ 64 by decide)
  have h2 := Nat.mod_lt beat (show 0 < 2 ^ 48 by decide)
  have h3 := Nat.mod_lt step (show 0 < 2 ^ 40 by decide)
  simp only [seqOf, ledEntry, BitVec.extractLsb'_toNat, BitVec.toNat_ofNat, Nat.shiftRight_eq_div_pow]
  omega

theorem getLsbD_gapMark (i : Nat) : gapMark.getLsbD i = decide (i = 176) := by
  rw [gapMark, BitVec.natCast_eq_ofNat, BitVec.getLsbD_ofNat, Nat.one_shiftLeft, Nat.testBit_two_pow]
  by_cases h : i = 176
  · subst h
    decide
  · simp [h, Ne.symm h]

theorem seqOf_mark (e : BitVec 256) : seqOf (e ||| gapMark) = seqOf e := by
  ext i hi
  have hi : 160 + i ≠ 176 := by omega
  simp [seqOf, BitVec.getLsbD_or, getLsbD_gapMark, hi]

section DropOldest
variable (l : List (BitVec 256)) (e : BitVec 256)

theorem length_dropOldest (h : l ≠ []) : (dropOldest l e).length = l.length := by
  have := List.length_pos_iff.mpr h
  simp [dropOldest]
  omega

theorem getElem?_dropOldest {i : Nat} (h : 0 < i) : (dropOldest l e)[i]? = (l.drop 1 ++ [e])[i]? := by
  rw [dropOldest, List.getElem?_modifyHead, if_neg (by omega)]

theorem seqOf_dropOldest (i : Nat) : (dropOldest l e)[i]?.map seqOf = (l.drop 1 ++ [e])[i]?.map seqOf := by
  by_cases h : i = 0
  · rw [dropOldest, List.getElem?_modifyHead, if_pos h, Option.map_map]
    exact congrArg (fun g => Option.map g _) (funext seqOf_mark)
  · rw [getElem?_dropOldest l e (Nat.pos_of_ne_zero h)]

end DropOldest

/-! ### Entries in the order of their Seq -/

/-- Every entry has the Seq of its place. -/
def inSeq (l : List (BitVec 256)) (head : Nat) : Prop :=
  ∀ i, i < l.length → l[i]?.map seqOf = some (BitVec.ofNat 16 (head + i))

theorem inSeq_iff (l : List (BitVec 256)) (head : Nat) :
    inSeq l head ↔ ∀ (i : Nat) (h : i < l.length), l[i].extractLsb' 160 16 = BitVec.ofNat 16 (head + i) :=
  forall₂_congr fun i h => by rw [List.getElem?_eq_getElem h, Option.map_some, Option.some_inj]; rfl

theorem inSeq_append {l : List (BitVec 256)} {head : Nat} {e : BitVec 256} (h : inSeq l head)
    (he : seqOf e = BitVec.ofNat 16 (head + l.length)) : inSeq (l ++ [e]) head := by
  intro i hi
  rcases Nat.lt_or_ge i l.length with hlt | hge
  · rw [List.getElem?_append_left hlt]
    exact h i hlt
  · obtain rfl : i = l.length := by
      simp only [List.length_append, List.length_cons, List.length_nil] at hi
      omega
    rw [List.getElem?_concat_length, Option.map_some, he]

/-- Dropping the oldest entry moves the head on by one. -/
theorem inSeq_dropOldest {l : List (BitVec 256)} {head : Nat} {e : BitVec 256} (h : inSeq (l ++ [e]) head) (hl : l ≠ []) :
    inSeq (dropOldest l e) ((head + 1) % 65536) := by
  intro i hi
  rw [length_dropOldest l e hl] at hi
  have hplace : (l.drop 1 ++ [e])[i]? = (l ++ [e])[i + 1]? := by
    obtain ⟨x, r, rfl⟩ := List.exists_cons_of_ne_nil hl
    rfl
  rw [seqOf_dropOldest, hplace, h (i + 1) (by simp; omega)]
  refine congrArg some (BitVec.eq_of_toNat_eq ?_)
  simp only [BitVec.toNat_ofNat]
  omega

/-! ### The latch of a beat -/

theorem groupOf_mono {a b : Nat} (h : a ≤ b) : groupOf a ≤ groupOf b := by
  unfold groupOf
  split_ifs <;> omega

theorem groupOf_lt (i : Nat) : groupOf i < 7 := by
  unfold groupOf
  split_ifs <;> omega

/-- The shadows after a latch: of every group, from the counters where the group is latched. -/
def latchedShadow (t : Tally) (groups : Nat) : KV Nat :=
  (List.range 7).flatMap (fun g => (if groups.testBit g then t.ctr else t.shadow).filter (fun e => groupOf e.1 == g))

section Latch
variable {t : Tally} (groups : Nat)

theorem mem_latchedShadow (i v : Nat) :
    (i, v) ∈ latchedShadow t groups ↔ (i, v) ∈ if groups.testBit (groupOf i) then t.ctr else t.shadow := by
  simp only [latchedShadow, List.mem_flatMap, List.mem_range, List.mem_filter, beq_iff_eq]
  refine ⟨?_, fun h => ⟨groupOf i, groupOf_lt i, h, rfl⟩⟩
  rintro ⟨g, -, h, rfl⟩
  exact h

theorem latchedShadow_wf (hc : kvWf t.ctr = true) (hs : kvWf t.shadow = true) : kvWf (latchedShadow t groups) = true := by
  rw [kvWf_iff_pairwise, latchedShadow, List.pairwise_flatMap]
  refine ⟨fun g _ => ?_, List.pairwise_lt_range.imp fun {g g'} hg x hx y hy => ?_⟩
  · rw [← kvWf_iff_pairwise]
    refine kvFilter_wf ?_ _
    split
    · exact hc
    · exact hs
  · have hx := beq_iff_eq.mp (List.mem_filter.mp hx).2
    have hy := beq_iff_eq.mp (List.mem_filter.mp hy).2
    by_contra hlt
    have := groupOf_mono (Nat.le_of_not_lt hlt)
    omega

theorem kvGet_latchedShadow (hc : kvWf t.ctr = true) (hs : kvWf t.shadow = true) (i : Nat) :
    kvGet (latchedShadow t groups) i = kvGet (if groups.testBit (groupOf i) then t.ctr else t.shadow) i := by
  refine kvGet_congr (latchedShadow_wf groups hc hs) ?_ fun v => mem_latchedShadow groups i v
  split
  · exact hc
  · exact hs

end Latch

/-- The groups of the orders that take part in a latch (R522). -/
def latchMask (l : List InFlight) : Nat := l.foldl (fun a f => a ||| fld f.order 16 2 % 128) 0

theorem testBit_latchMask (l : List InFlight) {g : Nat} (hg : g < 7) :
    (latchMask l).testBit g = true ↔ ∃ f ∈ l, (fld f.order 16 2).testBit g = true := by
  have hfold : ∀ a : Nat, (l.foldl (fun a f => a ||| fld f.order 16 2 % 128) a).testBit g = true ↔
      a.testBit g = true ∨ ∃ f ∈ l, (fld f.order 16 2).testBit g = true := by
    induction l with
    | nil => simp
    | cons f l ih =>
      intro a
      have hbit : (fld f.order 16 2 % 128).testBit g = (fld f.order 16 2).testBit g := by
        rw [show (128 : Nat) = 2 ^ 7 from rfl, Nat.testBit_mod_two_pow]
        simp [hg]
      rw [List.foldl_cons, ih, Nat.testBit_or, hbit, Bool.or_eq_true, or_assoc]
      simp only [List.mem_cons, exists_eq_or_imp]
  rw [latchMask, hfold 0]
  simp

section LatchTallies
variable {s : State}

theorem latchTallies_none (h : s.inflight.any (toLatch s) = false) : latchTallies s = s := by
  rw [latchTallies, h]
  rfl

/-- What a latch makes of the record of an order. -/
def latchedOrder (s : State) (gen : Nat) (f : InFlight) : InFlight :=
  if toLatch s f then { f with ctx := .tally (some (s.beat.now, gen)) } else f

theorem latchTallies_some (h : s.inflight.any (toLatch s) = true) :
    latchTallies s = { s with
      tally := (latchGroups s (latchMask (s.inflight.filter (toLatch s)))).tally,
      inflight := s.inflight.map (latchedOrder s ((s.tally.gen + 1) % 65536)) } := by
  rw [latchTallies, h]
  rfl

theorem latchGroups_tally (groups : Nat) : (latchGroups s groups).tally = { s.tally with
    ctr := (latchGroups s groups).tally.ctr, shadow := latchedShadow s.tally groups,
    groupGen := (List.range 7).foldl (fun m g => if groups.testBit g then kvPut m g ((s.tally.gen + 1) % 65536) else m)
      s.tally.groupGen,
    gen := (s.tally.gen + 1) % 65536, latchBeat := s.beat.now } := rfl

theorem latchGroups_ctr (groups : Nat) {i : Nat} (h68 : i ≠ 68) (h75 : i ≠ 75) :
    kvGet (latchGroups s groups).tally.ctr i = kvGet s.tally.ctr i := by
  unfold latchGroups
  dsimp only
  split
  · rw [kvGet_put_other _ _ h75, kvGet_put_other _ _ h68]
  · rfl

end LatchTallies

/-! ### The statement -/

section Statement
variable {s : State} {code : Nat} {pl : Place} {layout arg : Nat}

theorem newEntry_seq (hcode : code < 256) :
    seqOf (newEntry s code pl layout arg) = BitVec.ofNat 16 (s.led.head + s.led.entries.length) :=
  seqOf_ledEntry _ _ _ _ _ _ _ _ hcode

/-- A new entry keeps the order of the Ledger and its bound (R525, R526). -/
theorem ledAdd_inSeq (hlen : s.led.entries.length ≤ 65536) (hcode : code < 256) :
    (ledAdd s code pl layout arg).led.entries.length ≤ 65536 ∧
      (inSeq s.led.entries s.led.head →
        inSeq (ledAdd s code pl layout arg).led.entries (ledAdd s code pl layout arg).led.head) := by
  by_cases hun : s.cfg.ledRec = 0 ∧ (code = 0x10 ∨ code = 0x12)
  · rw [ledAdd_unrecorded hun]
    exact ⟨hlen, id⟩
  rcases Nat.lt_or_ge s.led.entries.length 65536 with hroom | hfull
  · rw [ledAdd_room hun hroom]
    exact ⟨by simp; omega, fun h => inSeq_append h (newEntry_seq hcode)⟩
  have hfull : s.led.entries.length = 65536 := by omega
  cases hd : drainPending s with
  | true =>
    rw [ledAdd_drained hun hfull hd]
    exact ⟨hlen, id⟩
  | false =>
    have hne : s.led.entries ≠ [] := fun h => by rw [h] at hfull; cases hfull
    rw [ledAdd_dropped hun hfull hd]
    exact ⟨(length_dropOldest _ _ hne).trans_le hlen, fun h => inSeq_dropOldest (inSeq_append h (newEntry_seq hcode)) hne⟩

/-- The Ledger after its oldest entry was dropped (R527). -/
theorem dropOldest_spec (e : BitVec 256) (h : s.led.entries.length = 65536) :
    (dropOldest s.led.entries e).length = 65536 ∧
      (dropOldest s.led.entries e).head?.map (fun e => e.getLsbD 176) = some true ∧
      (dropOldest s.led.entries e).getLast? = some e ∧
      ∀ i : Nat, 0 < i → i < 65535 → (dropOldest s.led.entries e)[i]? = s.led.entries[i + 1]? := by
  have hne : s.led.entries ≠ [] := fun hn => by rw [hn] at h; cases h
  refine ⟨(length_dropOldest _ _ hne).trans h, ?_, ?_, fun i h0 hi => ?_⟩
  · unfold dropOldest
    cases s.led.entries.drop 1 <;> simp [getLsbD_gapMark]
  · rw [List.getLast?_eq_getElem?, length_dropOldest _ _ hne, h, getElem?_dropOldest _ _ (by omega)]
    rw [List.getElem?_append_right (by simp [h])]
    simp [h]
  · rw [getElem?_dropOldest _ _ h0, List.getElem?_append_left (by simp; omega), List.getElem?_drop, Nat.add_comm]

end Statement

/-- Settles O60: by the place of a new entry in the ring, and by the groups that the TALLYs of a beat latch. -/
theorem ledgerAndTallyLatch : Obligations.LedgerAndTallyLatch := by
  refine ⟨?_, ?_⟩
  · rintro s t code pl layout arg hlen hcode rfl
    obtain ⟨hbound, hseq⟩ := ledAdd_inSeq (pl := pl) (layout := layout) (arg := arg) hlen hcode
    refine ⟨ledAdd_eq .., hbound, fun h0 hc => ledAdd_unrecorded ⟨h0, hc⟩, by simpa only [inSeq_iff] using hseq,
      fun hrec => ?_⟩
    have hun : ¬ (s.cfg.ledRec = 0 ∧ (code = 0x10 ∨ code = 0x12)) := fun ⟨h0, hc⟩ => by
      obtain ⟨h10, h12⟩ := hrec h0
      exact hc.elim h10 h12
    refine ⟨fun hroom hfill => ?_, fun hroom => ?_, fun hfull => ?_, fun hfull hd => ?_, fun hfull hd => ?_⟩
    · rw [ledAdd_room hun hroom] at hfill ⊢
      rw [List.length_append, List.length_singleton] at hfill
      simp [if_pos hfill]
    · rw [ledAdd_room hun hroom]
      exact ⟨rfl, rfl, rfl, rfl⟩
    · cases hd : drainPending s with
      | true =>
        rw [ledAdd_drained hun hfull hd]
        exact ⟨by simp, lostMore_toNat _⟩
      | false =>
        rw [ledAdd_dropped hun hfull hd]
        exact ⟨by simp, lostMore_toNat _⟩
    · rw [ledAdd_drained hun hfull hd]
      exact ⟨rfl, rfl, rfl⟩
    · obtain ⟨hl, hmark, hlast, hmid⟩ := dropOldest_spec (newEntry s code pl layout arg) hfull
      rw [ledAdd_dropped hun hfull hd]
      refine ⟨rfl, rfl, hl, hmark, hlast.trans ?_, hmid⟩
      rw [newEntry, hfull]
  · rintro s t hctr hshadow hgen rfl
    cases hany : s.inflight.any (toLatch s) with
    | false =>
      have hnone : ∀ f ∈ s.inflight, toLatch s f ≠ true := List.any_eq_false.mp hany
      rw [latchTallies_none hany]
      refine ⟨rfl, rfl, hshadow, fun _ => rfl, fun h => (Bool.false_ne_true h).elim, fun f hf ht => (hnone f hf ht).elim,
        fun f hf _ => hf, fun i h => ?_, fun i _ => ⟨rfl, rfl⟩, fun i _ _ => rfl⟩
      obtain ⟨f, hf, ht, -⟩ := h
      exact (hnone f hf ht).elim
    | true =>
      have hbit := fun i => testBit_latchMask (s.inflight.filter (toLatch s)) (groupOf_lt i)
      generalize hm : latchMask (s.inflight.filter (toLatch s)) = m at hbit
      rw [latchTallies_some hany, hm, latchGroups_tally]
      refine ⟨rfl, List.length_map _, latchedShadow_wf m hctr hshadow, fun h => (Bool.true_eq_false_eq_False h).elim,
        fun _ => ⟨rfl, rfl⟩, fun f hf ht => ?_, fun f hf ht => ?_, fun i h => ?_, fun i h => ?_,
        fun i h68 h75 => latchGroups_ctr m h68 h75⟩
      · exact List.mem_map.mpr ⟨f, hf, if_pos ht⟩
      · exact List.mem_map.mpr ⟨f, hf, if_neg (Bool.eq_false_iff.mp ht)⟩
      · obtain ⟨f, hf, ht, hg⟩ := h
        have hset : m.testBit (groupOf i) = true := (hbit i).mpr ⟨f, List.mem_filter.mpr ⟨hf, ht⟩, hg⟩
        exact ⟨by rw [kvGet_latchedShadow m hctr hshadow, if_pos hset],
          (kvGet_foldl_put ..).trans (if_pos ⟨List.mem_range.mpr (groupOf_lt i), hset⟩)⟩
      · have hclear : ¬ m.testBit (groupOf i) = true := fun hset => by
          obtain ⟨f, hf, hg⟩ := (hbit i).mp hset
          obtain ⟨hf, ht⟩ := List.mem_filter.mp hf
          rw [h f hf ht] at hg
          cases hg
        exact ⟨by rw [kvGet_latchedShadow m hctr hshadow, if_neg hclear],
          (kvGet_foldl_put ..).trans (if_neg fun hg => hclear hg.2)⟩

end Sys2Proof.Machine
end

section
/-! PROOFS. Streams, the link, and the messages of the exchange port. -/

namespace Sys2Proof.Machine

/-! ### Streams -/

/-- What a pass over the streams makes of them, where each step puts the new record of its own stream or none. -/
theorem kvGet_foldl_streams {g : XStream → Option XStream} {f : State → Nat × XStream → State}
    (hf : ∀ st e, (f st e).xstreams = match g e.2 with
      | some y => kvPut st.xstreams e.1 y
      | none => st.xstreams) (l : KV XStream) (hl : kvWf l = true) (st : State) (n : Nat) :
    kvGet (l.foldl f st).xstreams n = ((kvGet l n).bind g).or (kvGet st.xstreams n) := by
  induction l generalizing st with
  | nil => rfl
  | cons e l ih =>
    obtain ⟨k, x⟩ := e
    obtain ⟨habove, hl⟩ := (kvWf_cons ..).mp hl
    rw [List.foldl_cons, ih hl, hf]
    by_cases hn : n = k
    · subst hn
      rw [kvGet_above habove (Nat.le_refl n)]
      cases hg : g x <;> simp [kvGet, hg, kvGet_put_same]
    · have hput : ∀ y, kvGet (kvPut st.xstreams k y) n = kvGet st.xstreams n := fun y => kvGet_put_other _ y hn
      have hhead : kvGet ((k, x) :: l) n = kvGet l n := by
        rw [kvGet, if_neg hn]
        split
        next hlt => exact (kvGet_above habove (Nat.le_of_lt hlt)).symm
        next => rfl
      rw [hhead]
      cases g x <;> simp [hput]

section Link
variable {s : State}

/-- Every stream that is Up is Down once the link has gone down. -/
def downStream (x : XStream) : Option XStream := if x.st == .up then some { x with st := .down } else none

/-- Every stream that is Down is Closed once the grace period has ended. -/
def closedStream (x : XStream) : Option XStream := if x.st == .down then some { x with st := .closed } else none

/-- What the return of the link makes of a stream (R458, R459). -/
def risenStream (ts : Nat) (x : XStream) : Option XStream :=
  match x.st with
  | .down => some { x with st := .up, lastUse := ts }
  | .closed => some { x with epoch := x.epoch + 1, st := .syncing, unconfirmed := false, reason := 0 }
  | _ => none

/-- What the fall of the link does to a stream. -/
def fallStream (st : State) (e : Nat × XStream) : State :=
  if e.2.st == .up then ledAdd (putStream st e.1 { e.2 with st := .down }) 0x26 (Place.stream e.1) 0 0 else st

theorem fallStream_xstreams (st : State) (e : Nat × XStream) : (fallStream st e).xstreams = match downStream e.2 with
    | some y => kvPut st.xstreams e.1 y
    | none => st.xstreams := by
  unfold fallStream downStream
  split
  · simp only [ledAdd_fields]
    rfl
  · rfl

/-- A state with the streams and the Ledger of another. -/
def withStreamsOf (s t : State) : State := { s with xstreams := t.xstreams, led := t.led }

theorem fallStream_frame (t st : State) (e : Nat × XStream) : withStreamsOf (fallStream st e) t = withStreamsOf st t := by
  unfold fallStream
  split
  · simp only [withStreamsOf, ledAdd_fields]
    rfl
  · rfl

/-- The state in which the fall of the link meets the streams. -/
def linkLost (s : State) : State := { s with
  link := 1, linkFrom := some s.ts, linkAt := s.ts,
  regs := { s.regs with linkDowns := if s.regs.linkDowns = 0xFFFF then s.regs.linkDowns else s.regs.linkDowns + 1 } }

theorem linkDown_up (h : s.link = 0) : linkDown s = s.xstreams.foldl fallStream (linkLost s) := if_neg (by simp [h])

theorem linkDown_streams (h : s.link = 0) (hw : kvWf s.xstreams = true) (n : Nat) :
    kvGet (linkDown s).xstreams n = ((kvGet s.xstreams n).bind downStream).or (kvGet s.xstreams n) := by
  rw [linkDown_up h]
  exact kvGet_foldl_streams fallStream_xstreams _ hw _ n

/-- The fall of the link changes the link's own state, the streams and the Ledger. -/
theorem linkDown_frame (h : s.link = 0) :
    linkDown s = { linkLost s with xstreams := (linkDown s).xstreams, led := (linkDown s).led } := by
  have hfold := foldl_keeps (withStreamsOf · (linkDown s)) fallStream (fallStream_frame (linkDown s)) s.xstreams (linkLost s)
  rw [← linkDown_up h] at hfold
  exact hfold

theorem chargeLink_frame (s : State) : (chargeLink s).xstreams = s.xstreams ∧ (chargeLink s).link = s.link ∧
    (chargeLink s).linkFrom = none ∧ (chargeLink s).xheld = s.xheld := by
  unfold chargeLink
  split
  · simp only [charge_fields, and_self]
  next h => exact ⟨rfl, rfl, h, rfl⟩

theorem lateCheck_link (s : State) (c : Nat) : (lateCheck s c).xstreams = s.xstreams ∧ (lateCheck s c).link = s.link ∧
    (lateCheck s c).linkFrom = s.linkFrom := by
  rw [lateCheck_eq]
  exact ⟨rfl, rfl, rfl⟩

/-- What the end of the grace period does to a stream. -/
def closeStream (st : State) (e : Nat × XStream) : State :=
  if e.2.st == .down then
    fltIrq (ledAdd (putStream st e.1 { e.2 with st := .closed }) 0x27 (Place.stream e.1) 0 0) 4
  else st

theorem closeStream_xstreams (st : State) (e : Nat × XStream) : (closeStream st e).xstreams = match closedStream e.2 with
    | some y => kvPut st.xstreams e.1 y
    | none => st.xstreams := by
  unfold closeStream closedStream
  split
  · simp only [fltIrq_fields, ledAdd_fields]
    rfl
  · rfl

theorem closeStream_link (st : State) (e : Nat × XStream) :
    (closeStream st e).link = st.link ∧ (closeStream st e).linkFrom = st.linkFrom := by
  unfold closeStream
  split
  · simp only [fltIrq_fields, ledAdd_fields, putStream_fields, and_self]
  · exact ⟨rfl, rfl⟩

theorem graceEnd_spec (h : s.link = 1) (hw : kvWf s.xstreams = true) :
    (graceEnd s).link = 2 ∧ (graceEnd s).linkFrom = none ∧
      ∀ n, kvGet (graceEnd s).xstreams n = ((kvGet s.xstreams n).bind closedStream).or (kvGet s.xstreams n) := by
  obtain ⟨hx, -, hfrom, -⟩ := chargeLink_frame s
  have heq : graceEnd s = lateCheck ((chargeLink s).xstreams.foldl closeStream { chargeLink s with link := 2 }) 3 :=
    if_neg (by simp [h])
  obtain ⟨hx', hlink', hfrom'⟩ := lateCheck_link ((chargeLink s).xstreams.foldl closeStream { chargeLink s with link := 2 }) 3
  rw [heq, hx', hlink', hfrom', foldl_keeps State.link _ fun st e => (closeStream_link st e).1,
    foldl_keeps State.linkFrom _ fun st e => (closeStream_link st e).2, hx]
  exact ⟨rfl, hfrom, fun n => (kvGet_foldl_streams closeStream_xstreams _ hw _ n).trans (by rw [hx])⟩

/-- What the return of the link does to a stream. -/
def riseStream (ts : Nat) (st : State) (e : Nat × XStream) : State :=
  match e.2.st with
  | .down => putStream st e.1 { e.2 with st := .up, lastUse := ts }
  | .closed => sendCtl (sendCtl (putStream st e.1
      { e.2 with epoch := e.2.epoch + 1, st := .syncing, unconfirmed := false, reason := 0 }) e.1 0x91 e.2.epoch 2) e.1 0x92
      (e.2.epoch + 1) 0
  | _ => st

theorem riseStream_xstreams (ts : Nat) (st : State) (e : Nat × XStream) :
    (riseStream ts st e).xstreams = match risenStream ts e.2 with
      | some y => kvPut st.xstreams e.1 y
      | none => st.xstreams := by
  unfold riseStream risenStream
  cases e.2.st <;> rfl

theorem riseStream_link (ts : Nat) (st : State) (e : Nat × XStream) : (riseStream ts st e).link = st.link ∧
    (riseStream ts st e).linkFrom = st.linkFrom ∧ (riseStream ts st e).xheld = st.xheld := by
  unfold riseStream
  cases e.2.st <;> exact ⟨rfl, rfl, rfl⟩

theorem drainHeld_nil (h : s.xheld = []) : drainHeld s = s := by
  cases s
  dsimp only at h
  subst h
  rfl

theorem linkRise_spec (h : s.link ≠ 0) (hheld : s.xheld = []) (hw : kvWf s.xstreams = true) :
    (linkRise s).link = 0 ∧ (linkRise s).linkFrom = none ∧
      ∀ n, kvGet (linkRise s).xstreams n = ((kvGet s.xstreams n).bind (risenStream s.ts)).or (kvGet s.xstreams n) := by
  obtain ⟨hx, -, hfrom, hxheld⟩ := chargeLink_frame s
  have hlate : ∀ st, (if s.link = 2 then lateCheck st 3 else st).xstreams = st.xstreams ∧
      (if s.link = 2 then lateCheck st 3 else st).link = st.link ∧
      (if s.link = 2 then lateCheck st 3 else st).linkFrom = st.linkFrom := by
    intro st
    split
    · exact lateCheck_link ..
    · exact ⟨rfl, rfl, rfl⟩
  have heq : linkRise s = if s.link = 2 then
      lateCheck (drainHeld ((chargeLink s).xstreams.foldl (riseStream s.ts) { chargeLink s with link := 0 })) 3
      else drainHeld ((chargeLink s).xstreams.foldl (riseStream s.ts) { chargeLink s with link := 0 }) := if_neg h
  have hkept : ((chargeLink s).xstreams.foldl (riseStream s.ts) { chargeLink s with link := 0 }).xheld = [] :=
    (foldl_keeps State.xheld _ (fun st e => (riseStream_link s.ts st e).2.2) ..).trans (hxheld.trans hheld)
  obtain ⟨hx', hlink', hfrom'⟩ := hlate (drainHeld ((chargeLink s).xstreams.foldl (riseStream s.ts) { chargeLink s with link := 0 }))
  rw [heq, hx', hlink', hfrom', drainHeld_nil hkept, foldl_keeps State.link _ fun st e => (riseStream_link s.ts st e).1,
    foldl_keeps State.linkFrom _ fun st e => (riseStream_link s.ts st e).2.1, hx]
  exact ⟨rfl, hfrom, fun n => (kvGet_foldl_streams (riseStream_xstreams s.ts) _ hw _ n).trans (by rw [hx])⟩

end Link

/-- SYNC brings a stream Up: of Reason 0x01, or at the Epoch of a Syncing stream or later (Table FLT-8). -/
theorem onSync_enters {s : State} {node : Nat} {epoch : BitVec 16} {reason : BitVec 8} {x : XStream}
    (hx : kvGet s.xstreams node = some x)
    (h : reason = 1 ∨ (x.st = .syncing ∧ (x.epoch = epoch ∨ laterEpoch epoch x.epoch = true))) :
    onSync s node epoch reason = enterUp (sendCtl s node 0x93 epoch 0) node x epoch := by
  by_cases hr : reason = 1
  · simp only [onSync, hx, hr, beq_self_eq_true, if_true]
  · obtain ⟨hst, he⟩ := h.resolve_left hr
    have hr : (reason == 1) = false := beq_eq_false_iff_ne.mpr hr
    have hup : (x.st == .up) = false := by rw [hst]; rfl
    have he : (x.st == .syncing && (x.epoch == epoch || laterEpoch epoch x.epoch)) = true := by simp [hst, he]
    simp only [onSync, hx, hr, hup, he, Bool.false_and, Bool.false_eq_true, if_false, if_true]

/-- The records of a cycle, and of its end, where they do not depend on the receipts. -/
theorem batch_field {α : Type} (g : State → α) (hg : ∀ u, g (endBatch u) = g u) (s : State) (f : State → State) :
    g (batch s f) = g (f { s with batching := true }) := by
  unfold batch
  split
  next h => exact congrArg (fun u => g (f u)) (by rw [← h])
  next => exact hg _

/-- Settles O42: the records of a control message, and what each link event makes of every stream. -/
theorem streamsAndLink : Obligations.StreamsAndLink := by
  refine ⟨?_, fun s hw => ⟨fun h => ?_, fun h => ?_, fun h hheld => ?_, fun h hgrace => ?_⟩⟩
  · rintro s s1 node epoch reason x rfl hx hreset
    have hrun : s.power.inReset.isNone = true := by rw [hreset]; rfl
    refine ⟨fun hup he => ?_, fun h => ?_, fun hr hup he => ?_, fun hst he => ?_, fun y hy hst => ?_⟩ <;>
      refine congrArg Host.Outcome.next ?_
    · simp only [hrun, if_true, onClose, hx, hup, he, beq_self_eq_true, Bool.and_self]
    · rw [if_pos hrun]
      exact onSync_enters hx h
    · have hr : (reason == 1) = false := beq_eq_false_iff_ne.mpr hr
      simp only [hrun, if_true, onSync, hx, hr, hup, he, beq_self_eq_true, Bool.and_self, Bool.false_eq_true, if_false]
    · simp only [hrun, if_true, onSyncAck, hx, hst, he, beq_self_eq_true, Bool.and_self]
    · simp only [hy, hst, beq_self_eq_true, if_true]
  · refine ⟨linkDown s, rfl, ?_⟩
    have hframe := linkDown_frame h
    rw [hframe]
    refine ⟨rfl, rfl, rfl, rfl, rfl, fun n x hx => (linkDown_streams h hw n).trans ?_⟩
    rw [hx, Option.bind_some, downStream]
    cases x.st <;> rfl
  · obtain ⟨hlink, hfrom, hstreams⟩ := graceEnd_spec h hw
    refine ⟨graceEnd s, rfl, hlink, hfrom, fun n x hx => ?_⟩
    rw [hstreams, hx, Option.bind_some, closedStream]
    cases x.st <;> rfl
  · have hlink : ({ s with batching := true } : State).link ≠ 0 := by
      change s.link ≠ 0
      omega
    have hearly : ¬ (s.link = 1 ∧ s.linkAt + s.par.graceUs * 1000 ≤ s.ts) := by omega
    obtain ⟨hl, hfrom, hstreams⟩ := linkRise_spec hlink hheld hw
    have hrise : ∀ {α : Type} (g : State → α), (∀ u, g (endBatch u) = g u) →
        g (linkUp s) = g (linkRise { s with batching := true }) := fun g hg =>
      (batch_field g hg s _).trans (congrArg (fun u => g (linkRise u)) (if_neg hearly))
    refine ⟨linkUp s, rfl, (hrise State.link fun u => ?_).trans hl, (hrise State.linkFrom fun u => ?_).trans hfrom,
      fun n x hx => ?_⟩
    · simp only [endBatch_fields]
    · simp only [endBatch_fields]
    · rw [hrise State.xstreams fun u => by simp only [endBatch_fields], hstreams]
      rw [hx, Option.bind_some, risenStream]
      cases x.st <;> rfl
  · refine congrArg Host.Outcome.next ?_
    unfold linkUp batch
    split
    · exact congrArg linkRise (if_pos ⟨h, hgrace⟩)
    · exact congrArg (fun u => endBatch (linkRise u)) (if_pos ⟨h, hgrace⟩)

end Sys2Proof.Machine
end

section
/-! PROOFS. Micro-batch pieces and fetches. -/

namespace Sys2Proof.Machine

/-! ### Pieces of a micro-batch -/

section Piece
variable {s s1 : State} {node : BitVec 24} {h : Order} {b : Bytes}

theorem exec_queuePiece (hopen : xchOpen s = true) (hs1 : s1 = fromNode s node b) {c : Nat} {t : State}
    (hj : judgePiece s1 h b = (c, t)) : exec (.queuePiece node h b) s = .next (sendPieceAck t node c h) := by
  subst hs1
  refine congrArg Host.Outcome.next ?_
  rw [if_pos hopen, hj]

variable {q : Fin 16} {ly : Layout} {p : QPart} {e : QSlot}

/-- A piece in form, of a defined queue that the firewall lets in, is judged by what its slot holds (R183, R327). -/
theorem judgePiece_taken (hkind : fld h 0 1 = 0xA5) (hver : fld h 1 1 = 0x01) (hzero : nonZero h (span 9 11 ++ span 28 63) = [])
    (hcrc : (crc32c b).toNat = fld h 20 4) (hq : qpQueue h = q.val) (hdef : (s1.queues[q]).defined = true)
    (hly : getLayout s1 (s1.queues[q]).layout = some ly)
    (hfw : fwOk s1 (s1.queues[q]).layout ⟨false, 65536, false, true, false⟩ = true) :
    judgePiece s1 h b = takePiece s1 q ly h b := by
  have hlt : qpQueue h < 16 := hq ▸ q.isLt
  obtain rfl : (⟨qpQueue h, hlt⟩ : Fin 16) = q := Fin.ext hq
  rw [judgePiece, if_neg (by simp [hkind, hver, hzero]), if_neg (fun hne => hne hcrc), dif_pos hlt]
  simp only [hdef, hly, hfw, Bool.not_true, Bool.false_eq_true, if_false]

/-- A piece of a part of the queue, of the right length, for the micro-batch that its slot holds or may hold (R328). -/
theorem takePiece_slot (hp : (s1.queues[q]).parts[qpPart h]? = some p) (hk : qpPiece h < partPieces p)
    (hlen : b.length = fld h 24 4) (hsize : fld h 24 4 = pieceCount p (qpPiece h) * (if p.wire = 1 then 4 else 2))
    (he : e = kvGetD (s1.queues[q]).slots (qpBatch h % (s1.queues[q]).depth) QSlot.empty)
    (hnew : ∀ g, e.highest = some g → g < qpBatch h) (hocc : e.occ = none ∨ e.occ = some (qpBatch h)) :
    takePiece s1 q ly h b = if e.bits.contains (qpPart h, qpPiece h) then (0x01, s1)
      else (0x00, queueFull (setQueue
        (areaWrite s1 (s1.queues[q]).layout ly 0 (piecePlace (s1.queues[q]) (qpBatch h % (s1.queues[q]).depth) (qpPart h)
          (qpPiece h) p) (pieceBytes p (pieceCount p (qpPiece h)) b)) q
        (fun y => { y with
          slots := kvPut y.slots (qpBatch h % (s1.queues[q]).depth)
            (addPiece (s1.queues[q]) e (qpBatch h) (qpPart h) (qpPiece h)) })) q
        (addPiece (s1.queues[q]) e (qpBatch h) (qpPart h) (qpPiece h)).full) := by
  have hfresh : ¬ (e.highest.map (fun g => decide (qpBatch h ≤ g))).getD false = true := by
    cases hg : e.highest with
    | none => simp
    | some g => simpa using hnew g hg
  have hmine : ¬ (e.occ.isSome = true ∧ e.occ ≠ some (qpBatch h)) := by
    rcases hocc with ho | ho <;> simp [ho]
  subst he
  simp only [takePiece, hp]
  rw [if_neg (by simp [hlen, ← hsize]; omega), if_neg hfresh, if_neg hmine]

end Piece

/-- Settles O40: by the form of the header, and by the bit of the piece in its slot. -/
theorem queuePieces : Obligations.QueuePieces := by
  rintro s s1 node h b hopen hs1
  refine ⟨fun hform => exec_queuePiece hopen hs1 (if_pos (hform.imp_right .inl)), ?_⟩
  intro q ly p e hkind hver hzero hcrc hq hdef hly hfw hp hk hlen hsize he hnew hocc
  have hjudge := (judgePiece_taken hkind hver hzero hcrc hq hdef hly hfw).trans
    (takePiece_slot hp hk hlen hsize he hnew hocc)
  refine ⟨fun hbit => ?_, fun hbit => ?_⟩ <;> rw [hbit] at hjudge <;> exact exec_queuePiece hopen hs1 hjudge

/-! ### Fetches -/

section Fetch
variable {s s1 : State} {node : BitVec 24} {h : Order}

theorem exec_fetchRequest (hreset : s.power.inReset = none) (hkind : fld h 0 1 = 0xB1) (hver : fld h 1 1 = 0x01)
    (hs1 : s1 = fromNode s node []) : exec (.fetchRequest node h) s = .next (answerFetch s1 node h) := by
  subst hs1
  exact congrArg Host.Outcome.next (if_pos (by simp [hreset, hkind, hver]))

theorem exec_fetchData {b : Bytes} {f : InFlight} (hopen : xchOpen s = true) (hkind : fld h 0 1 = 0xB2)
    (hver : fld h 1 1 = 0x01) (hlen : b.length ≤ 16384) (hs1 : s1 = fromNode s node b) (hf : pullOf s1 node h = some f) :
    exec (.fetchData node h b) s = .next (takeData s1 f h b) := by
  subst hs1
  refine congrArg Host.Outcome.next ((if_pos (by simp [hopen, hkind, hver, hlen])).trans ?_)
  simp only [hf]

theorem exec_fetchRefusal {f : InFlight} (hreset : s.power.inReset = none) (hkind : fld h 0 1 = 0xB3)
    (hver : fld h 1 1 = 0x01) (hs1 : s1 = fromNode s node []) (hf : pullOf s1 node h = some f) :
    exec (.fetchRefusal node h) s = .next (takeRefusal s1 f (fld h 9 1)) := by
  subst hs1
  refine congrArg Host.Outcome.next ((if_pos (by simp [hreset, hkind, hver])).trans ?_)
  simp only [hf]

end Fetch

/-- Settles O41: each message by its form and by the pull or the serve that it is for. -/
theorem fetches : Obligations.Fetches := by
  refine ⟨fun s s1 node h b => ⟨fun hreset hkind hver hs1 => ⟨fun c hc hfw => ?_, fun ly v f g t hok ht hg => ?_⟩, ?_⟩, ?_⟩
  · rw [exec_fetchRequest hreset hkind hver hs1, answerFetch, hc]
    simp only [if_neg hfw]
  · subst ht
    rw [exec_fetchRequest hreset hkind hver hs1, answerFetch, hok]
    simp only [hg]
  · intro f ly got last idle reason retry hopen hkind hver hlen hs1 hf hly hctx
    rw [exec_fetchData hopen hkind hver hlen hs1 hf]
    refine ⟨fun hcrc hl hne hend => congrArg Host.Outcome.next ?_, fun hcrc => congrArg Host.Outcome.next ?_⟩
    · simp only [takeData, hly, hctx]
      exact if_neg (by simp [hcrc, hl, hne]; omega)
    · simp only [takeData, hly, hctx]
      exact if_pos (.inl hcrc)
  · intro s s1 node h r idx f got last idle reason retry hctx
    refine ⟨fun hreset hkind hver hs1 hf => ?_, fun hf => ⟨fun hr => ?_, fun hl => ?_, fun hi => ?_⟩⟩
    · rw [exec_fetchRefusal hreset hkind hver hs1 hf]
      refine ⟨fun hc => congrArg Host.Outcome.next ?_, fun hlo hhi => congrArg Host.Outcome.next ?_⟩
      · simp only [takeRefusal, hc, if_true, hctx]
      · rw [takeRefusal, if_neg (by omega), if_pos ⟨hlo, hhi⟩, endPull]
    · subst hr
      refine congrArg Host.Outcome.next ?_
      simp only [retryPull, hf, hctx]
    · refine congrArg Host.Outcome.next ?_
      simp only [rerequestPull, hf, hctx, if_pos hl]
    · refine congrArg Host.Outcome.next ?_
      simp only [giveUpPull, hf, hctx, if_pos hi, endPull]

end Sys2Proof.Machine
end

section
/-! PROOFS. Security registers, the test access port, and resets. -/

namespace Sys2Proof.Machine

/-! ### Security registers -/

section Registers
variable {s : State} {v : W32}

/-- A secure write to a register outside the mailboxes takes effect. -/
theorem axiWrite_secure {a : Nat} (h : s.power.inReset = none) (ha : a % 4 = 0) (hb : a < 0x400 ∨ 0x600 ≤ a) :
    axiWrite s true a 15 v = axiAnswer (regPoke s true a v) 0 0 :=
  axiWrite_taken h ha (.inl rfl) (by simp [mbxBusy]; omega)

theorem regPoke_secCtrl (sec : Bool) : regPoke s sec 0xF00 v = writeSecCtrl s v := by simp [regPoke, pokeHigh]

/-- The words of a firewall entry (Table SEC-4). -/
theorem regPoke_firewall (sec : Bool) (i : Fin 64) (w : Fin 3) :
    regPoke s sec (0x1000 + 16 * i.val + 4 * w.val) v = fwWrite s i w.val v := by
  have hi : (0x1000 + 16 * i.val + 4 * w.val - 0x1000) / 16 % 64 = i.val := by omega
  have hw : (0x1000 + 16 * i.val + 4 * w.val) % 16 / 4 = w.val := by omega
  rw [regPoke, if_neg (by omega), pokeHigh]
  rw [if_neg (by omega), if_neg (by omega), if_neg (by omega), if_neg (by omega), if_neg (by omega), if_neg (by omega),
    if_neg (by omega), if_neg (by omega), if_neg (by omega), if_neg (by omega), if_neg (by omega), if_neg (by omega),
    if_neg (by omega), if_pos (by omega), hw]
  congr 1
  exact Fin.ext hi

theorem exec_firewallEntryWrite (h : s.power.inReset = none) (i : Fin 64) (w : Fin 3) :
    exec (.firewallEntryWrite true i w v) s = .next (axiAnswer (fwWrite s i w.val v) 0 0) :=
  congrArg Host.Outcome.next ((axiWrite_secure h (by omega) (by omega)).trans (by rw [regPoke_firewall]))

theorem exec_debugUnlock (h : s.power.inReset = none) :
    exec (.debugUnlock true) s = .next (axiAnswer (writeSecCtrl s 0) 0 0) :=
  congrArg Host.Outcome.next ((axiWrite_secure h rfl (.inr (by decide))).trans (by rw [regPoke_secCtrl]))

end Registers

/-- An unlocked register that is unlocked again. -/
theorem unlock_unlocked {s : State} (h : s.sec.debugLock = false) :
    { s with sec := { s.sec with debugLock := false } } = s :=
  congrArg (fun b => ({ s with sec := { s.sec with debugLock := b } } : State)) h.symm

/-- Settles O28: by the register that each command writes. -/
theorem securityRegisterWrites : Obligations.SecurityRegisterWrites := by
  intro s v sec hreset
  have hfw : ∀ (i : Fin 64) (w : Fin 3) {t : State}, fwWrite s i w.val v = t →
      exec (.firewallEntryWrite true i w v) s = .next (axiAnswer t 0 0) := by
    rintro i w t rfl
    exact exec_firewallEntryWrite hreset i w
  refine ⟨fun hl => ?_, fun hl => ?_, fun i hv => ⟨hfw i 0 (if_pos hv), hfw i 1 (if_pos hv), hfw i 2 (if_pos hv)⟩,
    fun i hv => ⟨hfw i 0 (if_neg ?_), hfw i 1 (if_neg ?_)⟩, ?_⟩
  · rw [exec_debugUnlock hreset, writeSecCtrl, hl]
    rfl
  · rw [exec_debugUnlock hreset, writeSecCtrl, hl]
    exact congrArg (fun t => Host.Outcome.next (axiAnswer t 0 0)) (unlock_unlocked hl)
  · exact Bool.eq_false_iff.mp hv
  · exact Bool.eq_false_iff.mp hv
  · exact congrArg Host.Outcome.next (axiWrite_taken hreset rfl (.inr rfl) (by simp [mbxBusy]))

/-! ### The test access port -/

/-- An instruction that DebugLock closes. -/
theorem tapLocked_spec {s : State} {f : State → State} {d : Tap}
    (h : ∀ u, u = f s → u = { s with tap := u.tap, fresh := u.fresh } ∧ u.tap = d) :
    ∃ t, (.next (tapLocked s f) : Host.Outcome State Fault Refusal) = .next t ∧ t = { s with tap := t.tap, fresh := t.fresh } ∧
      t.tap = if true && s.sec.debugLock then ⟨0xFF, 0, none, false⟩ else d := by
  refine ⟨_, rfl, ?_⟩
  unfold tapLocked
  rw [Bool.true_and]
  split
  · exact ⟨rfl, rfl⟩
  · exact h _ rfl

/-- Settles O59: one case for each instruction, open and closed by DebugLock. -/
theorem tapAndPortReset : Obligations.TapAndPortReset := by
  refine fun s x => ⟨fun e he => ?_, rfl, rfl⟩
  simp only [tapOps, List.mem_cons, List.not_mem_nil, or_false] at he
  rcases he with rfl | rfl | rfl | rfl | rfl | rfl
  · exact tapLocked_spec fun u hs => hs ▸ ⟨rfl, rfl⟩
  · exact ⟨_, rfl, rfl, rfl⟩
  · exact tapLocked_spec fun u hs => hs ▸ ⟨rfl, rfl⟩
  · exact tapLocked_spec fun u hs => hs ▸ ⟨rfl, rfl⟩
  · exact tapLocked_spec fun u hs => hs ▸ ⟨rfl, rfl⟩
  · exact ⟨_, rfl, rfl, rfl⟩

/-! ### Resets -/

theorem memRead_filter {m : Mem} (hw : Memory.wf m = true) (p : Nat → Bool) (a : Nat) :
    memRead (m.filter (fun c => p c.1)) a = if p a then memRead m a else 0 := by
  rw [memRead, kvGetD, kvGet_filter ((memWf_iff m).mp hw).1]
  split <;> rfl

/-- Settles O57: both resets leave `softReset`, and their releases end it. -/
theorem softResets : Obligations.SoftResets := by
  intro s i hw hreset hi
  simp only [List.mem_cons, List.not_mem_nil, or_false] at hi
  rcases hi with rfl | rfl
  · refine ⟨softReset s .block (causeBits s 2), ?_, rfl, memRead_filter hw fun a => railsHold s (keySite (a / 32)), rfl, rfl, rfl,
      rfl, rfl, rfl, rfl, rfl, rfl, fun _ => rfl, nofun⟩
    refine congrArg Host.Outcome.next ?_
    simp only [hreset]
  · refine ⟨{ softReset s .bus48 (causeBits s 4) with
      power := { (softReset s .bus48 (causeBits s 4)).power with rst48 := true } }, ?_, rfl,
      memRead_filter hw fun a => railsHold s (keySite (a / 32)), rfl, rfl, rfl, rfl, rfl, rfl, rfl, rfl, rfl, nofun,
      fun _ hq => congrArg Host.Outcome.next (if_pos ⟨rfl, hq⟩)⟩
    refine congrArg Host.Outcome.next ?_
    simp only [hreset]

/-- What a power-on reset is of a rail that was lost. -/
theorem powerOnRelease_needs {s : State} (h : s.power.needPorst = true) : powerOnRelease s = s := if_pos (.inr h)

/-- Settles O56: by the reset that holds, and for a site's power by whether one holds. -/
theorem powerOnResetAndReleases : Obligations.PowerOnResetAndReleases := by
  refine ⟨fun s => ⟨powerOnReset s, rfl, rfl, rfl, rfl, rfl, rfl, rfl, rfl, rfl, rfl, rfl, rfl, rfl, rfl, rfl, rfl, rfl,
    fun h => ⟨congrArg Host.Outcome.next (if_neg h), congrArg Host.Outcome.next (powerOnRelease_needs rfl)⟩⟩, fun s x => ⟨?_, ?_, ?_, ?_⟩⟩
  · intro hreset hneed h48
    have hrun : powerOnRelease s = if s.par.ok then leaveReset s
        else { leaveReset s with power := { (leaveReset s).power with phase := 6, paramOk := false } } := by
      rw [powerOnRelease, if_neg (by simp [hreset, hneed]), h48]
      rfl
    refine ⟨fun hok => congrArg Host.Outcome.next (hrun.trans (if_pos hok)), fun hok => ?_⟩
    exact ⟨_, congrArg Host.Outcome.next (hrun.trans (if_neg (Bool.eq_false_iff.mp hok))), rfl, rfl⟩
  · intro hreset hneed h48
    refine congrArg Host.Outcome.next ?_
    rw [powerOnRelease, if_neg (by simp [hreset, hneed]), if_pos h48]
  · intro hgood hreset
    have hin : s.power.inReset.isSome = true := Option.isSome_iff_ne_none.mpr hreset
    refine ⟨modSite (dropStack s x) x (fun y => { y with powerGood := false, selfRefresh := false }),
      congrArg Host.Outcome.next ?_, rfl, modSite_same .., fun e he => ?_⟩
    · rw [powerGoodLoss, hgood, hin]
      rfl
    · exact bne_iff_ne.mp (List.mem_filter.mp he).2
  · intro hgood hreset
    refine congrArg Host.Outcome.next ?_
    rw [powerGoodLoss, hgood, hreset]
    rfl

end Sys2Proof.Machine
end

section
/-! PROOFS. What fences, damage and the end of an update leave as it was; and the fences themselves. -/

namespace Sys2Proof.Machine

/-! ### Receipts of a cycle -/

theorem flushReceipts_same_hw (n : Nat) (s : State) : SameHardware s (flushReceipts n s) := by
  induction n generalizing s with
  | zero => exact .refl s
  | succ n ih =>
    rw [flushReceipts]
    split
    · exact (writeFirst_same_hw ..).trans (ih _)
    · exact .refl s

theorem endBatch_same_hw (s : State) : SameHardware s (endBatch s) :=
  SameHardware.trans (b := { s with batching := false }) (.of_eqs rfl rfl rfl rfl rfl rfl rfl) (flushReceipts_same_hw ..)

/-- What holds of the hardware after the happenings of a cycle. -/
theorem batch_same_hw {a s : State} {f : State → State} (h : SameHardware a (f { s with batching := true })) :
    SameHardware a (batch s f) := by
  unfold batch
  split
  next hb =>
    have hs : { s with batching := true } = s := by rw [← hb]
    rwa [hs] at h
  next => exact h.trans (endBatch_same_hw _)

/-! ### Messages and records -/

theorem send_same_hw (s : State) (e : Emit) : SameHardware s (send s e) := .of_eqs rfl rfl rfl rfl rfl rfl rfl

theorem putStream_same_hw (s : State) (n : Nat) (x : XStream) : SameHardware s (putStream s n x) :=
  .of_eqs rfl rfl rfl rfl rfl rfl rfl

theorem newStream_same_hw (s : State) (n : Nat) : SameHardware s (newStream s n) := .of_eqs rfl rfl rfl rfl rfl rfl rfl

theorem ensureStream_same_hw {s t : State} {n : Nat} (h : ensureStream s n = some t) : SameHardware s t := by
  unfold ensureStream at h
  split at h
  · cases h
    exact .refl _
  · split at h
    · cases h
      exact newStream_same_hw ..
    · split at h
      · cases h
      next m _ =>
        cases h
        exact SameHardware.trans (b := { s with xstreams := kvDel s.xstreams m }) (.of_eqs rfl rfl rfl rfl rfl rfl rfl)
          ((ledAdd_same_hw ..).trans (newStream_same_hw ..))

theorem sendOn_same_hw (s : State) (n : Nat) (e : Emit) : SameHardware s (sendOn s n e) := by
  unfold sendOn
  split
  · exact (putStream_same_hw ..).trans (send_same_hw ..)
  · exact send_same_hw ..

theorem sendX_same_hw (s : State) (n : Nat) (e : Emit) : SameHardware s (sendX s n e) := by
  unfold sendX
  split
  next h => exact (ensureStream_same_hw h).trans (sendOn_same_hw ..)
  next =>
    exact SameHardware.trans (b := { s with xheld := s.xheld ++ [(n, e)] }) (.of_eqs rfl rfl rfl rfl rfl rfl rfl)
      (lateCheck_same_hw ..)

theorem sendTileAck_same_hw (s : State) (src : Origin) (c : Nat) (h : Order) : SameHardware s (sendTileAck s src c h) := by
  unfold sendTileAck
  dsimp only
  split
  · exact (count_same_hw ..).trans (send_same_hw ..)
  · exact (count_same_hw ..).trans (sendX_same_hw ..)

theorem ackAdded_same_hw (s : State) (a : Adding) : SameHardware s (ackAdded s a) :=
  .foldl _ (sendTileAck_same_hw ..) fun t d => sendTileAck_same_hw t d.1 ackDup d.2

theorem flushTiles_same_hw (s : State) (u : Upd) : SameHardware s (flushTiles s u) :=
  .foldl _ (.refl s) fun t _ => .foldl _ (.refl t) ackAdded_same_hw

theorem dropSpots_same_hw (s : State) (p : Spot → Bool) : SameHardware s (dropSpots s p) :=
  .foldl _ (.of_eqs rfl rfl rfl rfl rfl rfl rfl) fun t _ => .ite (count_same_hw ..) (.refl t)

theorem addShardCounts_same_hw (s : State) (id : Nat) (u : Upd) : SameHardware s (addShardCounts s id u) :=
  .ite ((((count_same_hw ..).trans (count_same_hw ..)).trans (count_same_hw ..)).trans (count_same_hw ..)) (.refl s)

theorem endCounts_same_hw (s : State) (st id : Nat) (u : Upd) : SameHardware s (endCounts s st id u) :=
  .ite (.refl s) (addShardCounts_same_hw ..)

/-! ### Units -/

/-- Units that change and keep their fault flags. -/
theorem mapUnits_same_hw (s : State) {f : Nat × Stall → Nat × Stall} (hf : ∀ e, (f e).1 = e.1 ∧ (f e).2.fault = e.2.fault) :
    SameHardware s { s with units := s.units.map f } := by
  refine ⟨rfl, rfl, rfl, rfl, rfl, rfl, fun k => ?_⟩
  change (kvGetD (s.units.map f) k Stall.empty).fault = (kvGetD s.units k Stall.empty).fault
  generalize s.units = l
  induction l with
  | nil => rfl
  | cons e l ih =>
    obtain ⟨hkey, hfault⟩ := hf e
    simp only [kvGetD, kvGet, List.map_cons, hkey] at ih ⊢
    split
    · exact hfault
    · split
      · rfl
      · exact ih

/-- A unit that drops its pass keeps its key and its fault flag. -/
theorem idle_some_fault (p : Prop) [Decidable p] (e : Nat × Stall) : (if p then (e.1, e.2.idle) else e).1 = e.1 ∧
    (if p then (e.1, e.2.idle) else e).2.fault = e.2.fault := by
  split <;> exact ⟨rfl, rfl⟩

theorem idleUnits_same_hw (s : State) (p : Nat → Bool) : SameHardware s (idleUnits s p) :=
  mapUnits_same_hw s fun e => idle_some_fault (p e.1 = true) e

theorem putUnit_same_hw (s : State) (k : Nat) {u : Stall} (h : u.fault = (getUnit s k).fault) : SameHardware s (putUnit s k u) := by
  refine ⟨rfl, rfl, rfl, rfl, rfl, rfl, fun j => ?_⟩
  by_cases hj : j = k
  · rw [hj, getUnit_putUnit_same, h]
  · rw [getUnit_putUnit_other _ _ hj]

theorem dropPass_same_hw (s : State) (k : Nat) : SameHardware s (dropPass s k) := putUnit_same_hw s k rfl

/-! ### Updates, damage, and lost requests -/

theorem endUpdate_same_hw (s : State) (id st reason cnt : Nat) (sh : ShardSt) :
    SameHardware s (endUpdate s id st reason cnt sh) := by
  unfold endUpdate
  split
  · exact .refl s
  · split
    · exact modLayout_same_hw ..
    next u _ =>
      have hidle := mapUnits_same_hw (dropSpots (flushTiles s u) (fun z => z.layout == id && !z.committed))
        fun e => idle_some_fault (e.2.layout = id ∧ e.2.windowOpen = false) e
      have hstart := ((flushTiles_same_hw s u).trans (dropSpots_same_hw ..)).trans hidle
      dsimp only
      split
      · exact hstart.trans ((modLayout_same_hw ..).trans ((endCounts_same_hw ..).trans (completeWith_same_hw ..)))
      · exact hstart.trans ((modLayout_same_hw ..).trans (endCounts_same_hw ..))

theorem damageShard_same_hw (s : State) (id : Nat) : SameHardware s (damageShard s id) := by
  unfold damageShard
  split
  · exact .ite (endUpdate_same_hw ..) (modLayout_same_hw ..)
  · exact modLayout_same_hw ..

theorem damageLayouts_same_hw (s : State) (p : PUnit → Bool) : SameHardware s (damageLayouts s p) := by
  refine .foldl _ (.refl s) fun t e => .ite ?_ (.refl t)
  have h := (ledAdd_same_hw t 0x25 Place.none e.1 0).trans (fltIrq_same_hw _ 6)
  exact .ite h (.ite (h.trans (.of_eqs rfl rfl rfl rfl rfl rfl rfl)) (h.trans (damageShard_same_hw ..)))

theorem loseRequests_same_hw (s : State) (p : Nat → Bool) : SameHardware s (loseRequests s p) :=
  .of_eqs rfl rfl rfl rfl rfl rfl rfl

theorem reliefTakeover_units (s : State) (x c k : Nat) :
    (reliefTakeover s x c k).units = (dropPass s (stallKey x c k)).units := rfl

theorem reliefTakeover_same_hw (s : State) (x c k : Nat) : SameHardware s (reliefTakeover s x c k) := by
  refine ⟨rfl, rfl, rfl, rfl, rfl, rfl, fun j => ?_⟩
  rw [getUnit, reliefTakeover_units]
  exact (dropPass_same_hw s _).unitFault j

/-! ### Fences -/

section Fence
variable (s : State) (x : SiteId) (c : Nat)

/-- A stall is fenced, and nothing else of the hardware changes (Table FLT-5). -/
theorem fenceStallNow_same_hw {site ch pair : Nat} (h : stallFenced s site ch pair = false) :
    SameHardware { s with fencedStalls := kvPut s.fencedStalls (stallKey site ch pair) true } (fenceStallNow s site ch pair) := by
  rw [fenceStallNow, h, if_neg Bool.false_ne_true]
  refine batch_same_hw ?_
  refine SameHardware.trans (b := { s with
    batching := true, fencedStalls := kvPut s.fencedStalls (stallKey site ch pair) true }) ?_ ?_
  · exact .of_eqs rfl rfl rfl rfl rfl rfl rfl
  · exact (((ledAdd_same_hw ..).trans (fltIrq_same_hw ..)).trans (reliefTakeover_same_hw ..)).trans (lateCheck_same_hw ..)

theorem stallFenced_fenceStallNow {site ch pair : Nat} (h : stallFenced s site ch pair = false) :
    stallFenced (fenceStallNow s site ch pair) site ch pair = true := by
  rw [stallFenced, (fenceStallNow_same_hw s h).fencedStalls, kvHas, kvGet_put_same]
  rfl

theorem setLive_site (m : BitVec 32) : (setLive s x m).sites[x] = { s.sites[x] with live := m } := by
  unfold setLive
  split
  next h =>
    subst h
    rfl
  next => exact modSite_same ..

/-- The union of the holds of a site is kept in its site, which is else as it was (R394). -/
theorem syncHold_site : ∃ from_, (syncHold s x).sites[x] = { s.sites[x] with holdFrom := from_ } := by
  unfold syncHold
  split
  · exact ⟨_, modSite_same ..⟩
  · exact ⟨none, (modSite_same ..).trans (by simp only [charge_fields])⟩
  · exact ⟨_, rfl⟩

/-- A channel that is released, and then not live. -/
def chanFenced (s : State) (x : SiteId) (c : Nat) : State :=
  setLive (syncHold (modChan s x.val c Chan.release) x) x
    (((syncHold (modChan s x.val c Chan.release) x).sites[x]).live &&& ~~~ (1#32 <<< c))

theorem fenceChanNow_same_hw (h : (s.sites[x]).live.getLsbD c = true) :
    SameHardware (chanFenced { s with batching := true } x c) (fenceChanNow s x c) := by
  rw [fenceChanNow, h, if_neg (by decide)]
  exact batch_same_hw (((((ledAdd_same_hw ..).trans (fltIrq_same_hw ..)).trans (idleUnits_same_hw ..)).trans
    (loseRequests_same_hw ..)).trans (damageLayouts_same_hw ..) |>.trans (lateCheck_same_hw ..))

/-- The channel that is fenced is live no more (Table FLT-5). -/
theorem live_fenceChanNow (h : (s.sites[x]).live.getLsbD c = true) :
    ((fenceChanNow s x c).sites[x]).live.getLsbD c = false := by
  have hc : c < 32 := by
    by_contra hge
    rw [BitVec.getLsbD_of_ge _ _ (Nat.le_of_not_lt hge)] at h
    cases h
  rw [(fenceChanNow_same_hw s x c h).sites, chanFenced, setLive_site]
  simp [hc]

/-- A site whose channels are released, and which is then fenced. -/
def siteFenced (s : State) (x : SiteId) (responds : Bool) : State :=
  modSite (setLive (syncHold { s with chans := s.chans.map (fun e => if e.1 / 32 = x.val then (e.1, e.2.release) else e) } x)
    x 0) x (fun y => { y with fenced := true, state := 3, selfRefresh := responds && y.powerGood, cke := y.cke && !responds })

theorem fenceSiteNow_same_hw (responds : Bool) (h : (s.sites[x]).fenced = false) :
    SameHardware (siteFenced { s with batching := true } x responds) (fenceSiteNow s x responds) := by
  rw [fenceSiteNow, h, if_neg Bool.false_ne_true]
  exact batch_same_hw (((((ledAdd_same_hw ..).trans (fltIrq_same_hw ..)).trans (idleUnits_same_hw ..)).trans
    (loseRequests_same_hw ..)).trans (damageLayouts_same_hw ..) |>.trans (lateCheck_same_hw ..))

/-- What a site fence makes of its site (Table FLT-5). -/
theorem site_fenceSiteNow (responds : Bool) (h : (s.sites[x]).fenced = false) :
    ∃ from_, (fenceSiteNow s x responds).sites[x] = { s.sites[x] with
      holdFrom := from_, live := 0, fenced := true, state := 3, selfRefresh := responds && (s.sites[x]).powerGood,
      cke := (s.sites[x]).cke && !responds } := by
  obtain ⟨from_, hsync⟩ := syncHold_site { s with
    batching := true, chans := s.chans.map (fun e => if e.1 / 32 = x.val then (e.1, e.2.release) else e) } x
  refine ⟨from_, ?_⟩
  rw [(fenceSiteNow_same_hw s x responds h).sites, siteFenced, modSite_same, setLive_site, hsync]

end Fence

end Sys2Proof.Machine
end

section
/-! PROOFS. Fence orders and hard faults. -/

namespace Sys2Proof.Machine

/-! ### FENCE -/

section Fence
variable {s t : State} {r : RingId} {o : Order} {scope x c k idx : Nat}

theorem lt_of_kindOf (h : kindOf t x ≠ .none) : x < 20 := by
  by_contra hx
  exact h (dif_neg hx)

theorem siteOf_val (h : x < 20) : (siteOf x).val = x := Nat.mod_eq_of_lt h

theorem foldMask_eq (h : x < 20) : foldMask t x = (t.sites[siteOf x]).live := by
  have hsame : ∀ y : SiteId, y.val = x → (t.sites[x]'h).live = (t.sites[y]).live := by
    rintro y rfl
    rfl
  rw [foldMask, dif_pos h]
  exact hsame _ (siteOf_val h)

theorem fenceGone_iff : fenceGone t scope x c k = true ↔ (t.sites[siteOf x]).fenced = true ∨
    (scope < 2 ∧ (foldMask t x).getLsbD c = false) ∨ (scope = 0 ∧ stallFenced t x c k = true) := by
  simp [fenceGone, or_assoc]

/-- What the chapter answers of a FENCE that names a site of the right kind (Table FLT-4). -/
theorem chk_fence (hkind : kindOf t (fld o 17 1) ≠ .none) (hfcs : scope = 0 → isFcs t (fld o 17 1) = true) :
    (opFence scope).chk t r idx o = if fenceGone t scope (fld o 17 1) (fld o 18 1) (fld o 19 1) then .finish 0x02 0 t
      else .wait (requestDeferred t ⟨scope, fld o 17 1, fld o 18 1, fld o 19 1, [], some (r.val, idx, o)⟩) := by
  have hno : ¬ (scope = 0 ∧ (!isFcs t (fld o 17 1)) = true) := fun ⟨h0, hn⟩ => by simp [hfcs h0] at hn
  change fenceChk scope t r idx o = _
  simp only [fenceChk]
  rw [if_neg hkind, if_neg hno]

/-- What takes effect at once of a request within a cycle (R12). -/
theorem requestDeferred_now {d : Deferred} {u : State} (hb : t.batching = true)
    (hw : windowIn t d.scope d.site d.ch d.pair = false) (hgone : fenceGone t d.scope d.site d.ch d.pair = false)
    (hord : d.ord = some (r.val, idx, o)) (hu : u = match d.scope with
      | 0 => fenceStallNow t d.site d.ch d.pair
      | 1 => fenceChanNow t (siteOf d.site) d.ch
      | 2 => fenceSiteNow t (siteOf d.site) true
      | 4 => damageShard t d.site
      | _ => putUnit t (stallKey d.site d.ch d.pair) { getUnit t (stallKey d.site d.ch d.pair) with paused := true }) :
    requestDeferred t d = finishNow u r idx o 0x01 0 := by
  subst hu
  rw [requestDeferred, hw, if_neg Bool.false_ne_true, applyDeferred, batch, if_pos hb]
  simp only [hgone, hord, ringOf_val, Bool.false_eq_true, if_false] <;> rfl

end Fence

/-- Settles O16: by whether the unit is out of service already, and else by the open windows of the scope. -/
theorem fenceOrdersComplete : Obligations.FenceOrdersComplete := by
  intro r s t o scope x c k i f hmem htaken hx hc hk hkind hfcs
  subst hx hc hk
  have hop : (i, opFence scope) ∈ orderOps r := by
    simp only [List.mem_cons, Prod.mk.injEq, List.not_mem_nil, or_false] at hmem
    rcases hmem with ⟨rfl, rfl, -⟩ | ⟨rfl, rfl, -⟩ | ⟨rfl, rfl, -⟩ <;> simp [orderOps, immediateOps]
  have hchk := fun idx => chk_fence (r := r) (idx := idx) hkind hfcs
  refine ⟨fun hsound hlive hstall => ?_, fun hgone =>
    exec_taken_finish hop htaken ((hchk _).trans (if_pos (fenceGone_iff.mpr hgone)))⟩
  have hgone : fenceGone t scope (fld o 17 1) (fld o 18 1) (fld o 19 1) = false := by
    rw [Bool.eq_false_iff, Ne, fenceGone_iff]
    rintro (h | ⟨h, h'⟩ | ⟨h, h'⟩)
    · exact Bool.false_ne_true (hsound.symm.trans h)
    · exact Bool.false_ne_true (h'.symm.trans (hlive h))
    · exact Bool.false_ne_true ((hstall h).symm.trans h')
  have hwait := (hchk (headOf s r)).trans (if_neg (Bool.eq_false_iff.mp hgone))
  refine ⟨fun hw => ?_, fun hw => (exec_taken_wait hop htaken hwait).trans (by rw [requestDeferred, if_pos hw])⟩
  have hdone : ∀ {u}, u = f t → requestDeferred t ⟨scope, fld o 17 1, fld o 18 1, fld o 19 1, [], some (r.val, headOf s r, o)⟩
      = finishNow u r (headOf s r) o 0x01 0 → exec i s = .next (doneNow (f t) r (headOf s r) o 0x01 0) := by
    rintro u rfl hu
    rw [exec_taken_wait hop htaken hwait, hu, doneNow]
  simp only [List.mem_cons, Prod.mk.injEq, List.not_mem_nil, or_false] at hmem
  rcases hmem with ⟨rfl, -, rfl⟩ | ⟨rfl, -, rfl⟩ | ⟨rfl, -, rfl⟩
  · refine ⟨hdone rfl (requestDeferred_now htaken.batching hw hgone rfl rfl), fun _ => ?_, nofun, nofun⟩
    exact stallFenced_fenceStallNow t (hstall rfl)
  · refine ⟨hdone rfl (requestDeferred_now htaken.batching hw hgone rfl rfl), nofun, fun _ => ?_, nofun⟩
    exact live_fenceChanNow t _ _ ((congrArg (fun m => BitVec.getLsbD m (fld o 18 1)) (foldMask_eq (lt_of_kindOf hkind))).symm.trans
      (hlive (by decide)))
  · refine ⟨hdone rfl (requestDeferred_now htaken.batching hw hgone rfl rfl), nofun, nofun, fun _ => ?_⟩
    obtain ⟨from_, hsite⟩ := site_fenceSiteNow t (siteOf (fld o 17 1)) true hsound
    rw [hsite]
    exact ⟨rfl, rfl⟩

end Sys2Proof.Machine
end

section
/-! PROOFS. Hard faults, and interruptions beyond the allowance. -/

namespace Sys2Proof.Machine

/-! ### What a cut parcel and the close of a step leave as it was -/

theorem putRaw_same_hw (s : State) (p : Nat) (c : Col) (k : BitVec 36) : SameHardware s (putRaw s p c k) :=
  .ite (.of_eqs rfl rfl rfl rfl rfl rfl rfl) (.of_eqs rfl rfl rfl rfl rfl rfl rfl)

theorem writeSealed_same_hw (s : State) (k : Nat) (c : Col) : SameHardware s (writeSealed s k c) := by
  unfold writeSealed
  dsimp only
  split
  · exact .ite (putRaw_same_hw ..) ((putRaw_same_hw ..).trans (putRaw_same_hw ..))
  · exact putRaw_same_hw ..

theorem unitWrite_same_hw (relief : Bool) (s : State) (w : Nat × Col) : SameHardware s (unitWrite relief s w) :=
  .ite (writeSealed_same_hw ..) (putRaw_same_hw ..)

theorem commitWrites_same_hw (s : State) (ly : Layout) (up : Upd) (r : Rule) (q : Nat) (t : Stall) (relief : Bool) (n : Nat) :
    SameHardware s (commitWrites s ly up r q t relief n) := .foldl _ (.refl s) (unitWrite_same_hw relief)

theorem modUpd_same_hw (s : State) (id : Nat) (f : Upd → Upd) : SameHardware s (modUpd s id f) := modLayout_same_hw ..

theorem leaveOpen_same_hw (s : State) (un : UnitId) (id q : Nat) : SameHardware s (leaveOpen s un id q) :=
  (modUpd_same_hw ..).trans (ledAdd_same_hw ..)

theorem bump_same_hw (s : State) : SameHardware s (bump s) := .of_eqs rfl rfl rfl rfl rfl rfl rfl

theorem cutParcel_same_hw (s : State) (un : UnitId) (t : Stall) (restores : Bool) (n : Nat) :
    SameHardware s (cutParcel s un t restores n) := by
  unfold cutParcel
  split
  · split
    · exact .refl s
    · split
      · exact .refl s
      · have h := fun ly up r q t1 m => (commitWrites_same_hw s ly up r q t1 (isReliefUnit un) m).trans (bump_same_hw _)
        exact .ite (bump_same_hw s) (.ite ((h ..).trans (modUpd_same_hw ..)) ((h ..).trans (leaveOpen_same_hw ..)))
  · exact .refl s

theorem closed_same_hw (s : State) (id : Nat) (u : Upd) : SameHardware s (closed s id u) :=
  ((modLayout_same_hw ..).trans (mapUnits_same_hw _ fun e => idle_some_fault (e.2.layout = id) e)).trans
    (addShardCounts_same_hw ..)

theorem closeStep_same_hw (s : State) (id : Nat) : SameHardware s (closeStep s id) := by
  unfold closeStep
  split
  · exact .refl s
  · split
    · exact .refl s
    · dsimp only
      split
      · exact (closed_same_hw ..).trans (completeWith_same_hw ..)
      · exact closed_same_hw ..

theorem closeIfDone_same_hw (s : State) (id : Nat) : SameHardware s (closeIfDone s id) := by
  unfold closeIfDone
  split
  · split
    · exact .ite (closeStep_same_hw ..) (.refl s)
    · exact .refl s
  · exact .refl s

/-! ### Stall hard faults -/

/-- A stall is fenced with its fault flag set, and `n` faults are counted. -/
structure Struck (st : StallId) (n : BitVec 16) (t : State) : Prop where
  fenced : stallFenced t st.site.val st.ch.val st.pair.val = true
  flag : (getUnit t (unitKey (.stall st))).fault = true
  faults : t.regs.faults = n

theorem Struck.mono {st : StallId} {n : BitVec 16} {s t : State} (h : Struck st n s) (hst : SameHardware s t) : Struck st n t :=
  ⟨by rw [stallFenced, hst.fencedStalls]; exact h.fenced, (hst.unitFault _).trans h.flag, hst.faults.trans h.faults⟩

section Stall
variable {s : State} {st : StallId}

/-- The stall is fenced at once and its base die sets the flag (R443). -/
theorem struck_at_once (h : stallFenced s st.site.val st.ch.val st.pair.val = false) {u : State}
    (hu : u = fenceStallNow (dropPass (ledAdd (countFault s) 0x20 (placeOf (.stall st)) 0 0) (unitKey (.stall st))) st.site.val
      st.ch.val st.pair.val) :
    Struck st (sat16w s.regs.faults) (putUnit u (unitKey (.stall st)) { getUnit u (unitKey (.stall st)) with fault := true }) := by
  have hstop : SameHardware (countFault s)
      (dropPass (ledAdd (countFault s) 0x20 (placeOf (.stall st)) 0 0) (unitKey (.stall st))) :=
    (ledAdd_same_hw ..).trans (dropPass_same_hw ..)
  have hfree : stallFenced (dropPass (ledAdd (countFault s) 0x20 (placeOf (.stall st)) 0 0) (unitKey (.stall st))) st.site.val
      st.ch.val st.pair.val = false := by
    rw [stallFenced, hstop.fencedStalls]
    exact h
  have hfence := fenceStallNow_same_hw _ hfree
  refine ⟨?_, ?_, ?_⟩
  · subst hu
    exact stallFenced_fenceStallNow _ hfree
  · rw [getUnit_putUnit_same]
  · subst hu
    exact hfence.faults.trans hstop.faults

theorem stallFault_spec (hup : chanUp s st.site st.ch.val = true) (hfcs : isFcs s st.site.val = true)
    (hfree : stallFenced s st.site.val st.ch.val st.pair.val = false) (hc : s.batching = false) :
    ∃ t, stallFault s st = endBatch (afterClose t) ∧ Struck st (sat16w s.regs.faults) t := by
  have hrun : ¬ (!chanUp s st.site st.ch.val || !isFcs s st.site.val || stallFenced s st.site.val st.ch.val st.pair.val) = true := by
    simp [hup, hfcs, hfree]
  rw [stallFault, if_neg hrun]
  refine ⟨_, batch_calm hc, ?_⟩
  have hstruck := struck_at_once (s := { s with batching := true }) hfree rfl
  have hclose : ∀ {n t} (p : Bool) (id : Nat) (f : Site → Site) (d : List Deferred), Struck st n t →
      Struck st n (if id = 0 then (if p then modSite { t with defer := d } st.site f else { t with defer := d })
        else closeIfDone (if p then modSite { t with defer := d } st.site f else { t with defer := d }) id) := by
    intro n t p id f d h
    have hsite : Struck st n (if p then modSite { t with defer := d } st.site f else { t with defer := d }) := by
      split <;> exact ⟨h.fenced, h.flag, h.faults⟩
    split
    · exact hsite
    · exact hsite.mono (closeIfDone_same_hw ..)
  refine hclose _ _ _ _ ?_
  split
  · exact hstruck.mono (cutParcel_same_hw ..)
  · exact hstruck

end Stall

/-! ### Relief engines -/

theorem modSite_congr {s : State} {x : SiteId} {f g : Site → Site} (h : f s.sites[x] = g s.sites[x]) :
    modSite s x f = modSite s x g :=
  congrArg (fun y => ({ s with sites := s.sites.set x y } : State)) h

/-- A site that changes as an interruption is charged. -/
theorem modSite_charge_eq (s : State) (i : Inst) (n : Nat) (x : SiteId) (f : Site → Site) : modSite (charge s i n) x f
    = { s with sites := (modSite (charge s i n) x f).sites, charges := (charge s i n).charges } :=
  congrArg (fun u : State => { u with sites := (modSite (charge s i n) x f).sites }) (charge_eq s i n)

/-- Settles O54: by the unit that fails, and by what the interruptions charged to it add up to. -/
theorem hardFaults : Obligations.HardFaults := by
  refine ⟨fun s x st hreset => ⟨fun hup hfcs hfree hc => ?_, fun hup => ⟨fun hnone => ?_, fun t0 ht0 hrecent => ?_⟩,
    fun hdown => ?_, fun hkind => ?_⟩, fun s i hreset => ⟨fun hover => ⟨?_, fun hsquall => ?_⟩, fun hunder => ⟨?_, ?_⟩⟩⟩
  · obtain ⟨t, ht, hstruck⟩ := stallFault_spec hup hfcs hfree hc
    exact ⟨t, congrArg Host.Outcome.next ht, hstruck.fenced, hstruck.flag, hstruck.faults⟩
  · refine congrArg Host.Outcome.next ?_
    simp only [reliefFault, hup, hnone, Bool.not_true, Bool.false_eq_true, if_false, List.filter_nil, if_true]
    rfl
  · refine congrArg Host.Outcome.next ?_
    have hne : (s.sites[x]).reliefFaults.filter (fun t => decide (s.ts ≤ t + suspectNs s)) ≠ [] :=
      List.ne_nil_of_mem (List.mem_filter.mpr ⟨ht0, decide_eq_true hrecent⟩)
    simp only [reliefFault, hup, Bool.not_true, Bool.false_eq_true, if_false, if_neg hne]
    exact congrArg (fun u => requestDeferred (restartRelief u x) _) (modSite_congr rfl)
  · have hrun : ¬ (!(s.sites[x]).reliefDown || s.power.inReset.isSome) = true := by
      rw [hdown, hreset]
      decide
    refine ⟨_, congrArg Host.Outcome.next (if_neg hrun), ?_⟩
    split
    · exact ⟨by rw [modSite_same], modSite_charge_eq ..⟩
    · exact ⟨by rw [modSite_same], rfl⟩
  · refine congrArg Host.Outcome.next (if_pos ?_)
    simp [sitePresent, hreset, hkind]
  · exact congrArg Host.Outcome.next (if_pos hover)
  · refine congrArg Host.Outcome.next (if_pos ?_)
    rw [hreset, hover, hsquall]
    rfl
  · exact congrArg Host.Outcome.next (if_neg (Bool.eq_false_iff.mp hunder))
  · refine congrArg Host.Outcome.next (if_neg ?_)
    rw [hunder, Bool.and_false]
    exact Bool.false_ne_true

end Sys2Proof.Machine
end

section
/-! PROOFS. Holds of channels, and the heat of stacks. -/

namespace Sys2Proof.Machine

/-! ### Holds -/

theorem getChan_of_chans {s t : State} (h : t.chans = s.chans) (x c : Nat) : getChan t x c = getChan s x c := by
  rw [getChan, h]
  rfl

theorem siteEvent_chan (s : State) (x : SiteId) (b : Nat) (p : Place) (n y c : Nat) :
    getChan (siteEvent s x b p n) y c = getChan s y c := getChan_of_chans (by simp only [siteEvent_fields]) ..

theorem siteEvent_site (s : State) (x : SiteId) (b : Nat) (p : Place) (n : Nat) :
    (siteEvent s x b p n).sites[x] = { s.sites[x] with event := (s.sites[x]).event ||| (1 <<< b) } := by
  rw [siteEvent, (ledAdd_same_hw ..).sites, modSite_same]

section Holds
variable {s : State} {x : SiteId} {c : Nat}

/-- Where nothing follows a hold the channel serves again (R393). -/
theorem nextHold_free (hrepair : (getChan s x.val c).pendRepair = []) (hretrain : (getChan s x.val c).pendRetrain = false)
    (b : Bool) : nextHold s x c b = syncHold (modChan s x.val c (fun z => { z with hold := none })) x := by
  simp only [nextHold, hrepair, hretrain]

/-- The channel after its hold has ended, and its site. -/
theorem nextHold_spec (hrepair : (getChan s x.val c).pendRepair = []) (hretrain : (getChan s x.val c).pendRetrain = false)
    (b : Bool) : getChan (nextHold s x c b) x.val c = { getChan s x.val c with hold := none } ∧
      ∃ from_, (nextHold s x c b).sites[x] = { s.sites[x] with holdFrom := from_ } := by
  rw [nextHold_free hrepair hretrain]
  refine ⟨(getChan_of_chans (s := modChan s x.val c (fun z => { z with hold := none })) (by simp only [syncHold_fields])
    ..).trans (getChan_modChan_same ..), ?_⟩
  exact syncHold_site _ x

/-- The state in which a hold of channel `c` has ended: its site and the channel change, and a site event is noted. -/
def holdNoted (s : State) (x : SiteId) (c bit arg ctr : Nat) (f : Site → Site) (g : Chan → Chan) : State :=
  modChan (count (siteEvent (modSite s x f) x bit (Place.chan x.val c) arg) ctr 1) x.val c g

theorem holdNoted_chan (bit arg ctr : Nat) (f : Site → Site) (g : Chan → Chan) :
    getChan (holdNoted s x c bit arg ctr f g) x.val c = g (getChan s x.val c) := by
  rw [holdNoted, getChan_modChan_same]
  exact congrArg g ((siteEvent_chan ..).trans rfl)

theorem holdNoted_site (bit arg ctr : Nat) (f : Site → Site) (g : Chan → Chan) :
    (holdNoted s x c bit arg ctr f g).sites[x] = { f s.sites[x] with event := (f s.sites[x]).event ||| (1 <<< bit) } := by
  refine (siteEvent_site (modSite s x f) x bit (Place.chan x.val c) arg).trans ?_
  rw [modSite_same]

/-- The end of a hold that nothing follows. -/
theorem nextHold_holdNoted (bit arg ctr : Nat) (f : Site → Site) (g : Chan → Chan) (b : Bool)
    (hrepair : (g (getChan s x.val c)).pendRepair = []) (hretrain : (g (getChan s x.val c)).pendRetrain = false) :
    getChan (nextHold (holdNoted s x c bit arg ctr f g) x c b) x.val c = { g (getChan s x.val c) with hold := none } ∧
      ∃ from_, (nextHold (holdNoted s x c bit arg ctr f g) x c b).sites[x]
        = { f s.sites[x] with event := (f s.sites[x]).event ||| (1 <<< bit), holdFrom := from_ } := by
  have hchan := holdNoted_chan (s := s) (x := x) (c := c) bit arg ctr f g
  obtain ⟨hafter, from_, hsite⟩ := nextHold_spec (s := holdNoted s x c bit arg ctr f g) (by rw [hchan, hrepair])
    (by rw [hchan, hretrain]) b
  rw [hchan] at hafter
  rw [holdNoted_site] at hsite
  exact ⟨hafter, from_, hsite⟩

/-- What a retrain that succeeds makes of its site, and of its channel (R390, R427). -/
def retrainedSite (c : Nat) (y : Site) : Site := { y with lastChannel := BitVec.ofNat 5 c, retrainCount := bump8 y.retrainCount }
def retrainedChan (y : Chan) : Chan :=
  { y with fails := 0, tempRef := none, parity := [], clearTran := false, tran := if y.clearTran then 0 else y.tran,
           tranOver := y.tranOver && !y.clearTran }

/-- A retrain that succeeds (R390, R391). -/
theorem endRetrain_eq (h : holding s x c .retrain = true) : ∃ arg, endRetrain s x c true
      = nextHold (holdNoted s x c 0 arg (1536 + 16 * x.val) (retrainedSite c) retrainedChan) x c true := by
  refine ⟨heldNs s x c, ?_⟩
  have hfails : ¬ 2 ≤ (getChan (holdNoted s x c 0 (heldNs s x c) (1536 + 16 * x.val) (retrainedSite c) retrainedChan)
      x.val c).fails := by
    rw [holdNoted_chan]
    exact Nat.not_succ_le_zero 1
  rw [endRetrain, h]
  exact if_neg hfails

theorem endRetrain_spec (h : holding s x c .retrain = true) (hrepair : (getChan s x.val c).pendRepair = [])
    (hretrain : (getChan s x.val c).pendRetrain = false) :
    (getChan (endRetrain s x c true) x.val c).hold = none ∧ (getChan (endRetrain s x c true) x.val c).fails = 0 ∧
      ((endRetrain s x c true).sites[x]).lastChannel = BitVec.ofNat 5 c ∧
      ((endRetrain s x c true).sites[x]).retrainCount = bump8 (s.sites[x]).retrainCount ∧
      ((endRetrain s x c true).sites[x]).event = (s.sites[x]).event ||| 1 := by
  obtain ⟨arg, heq⟩ := endRetrain_eq h
  obtain ⟨hchan, from_, hsite⟩ := nextHold_holdNoted (s := s) (x := x) (c := c) 0 arg (1536 + 16 * x.val) (retrainedSite c)
    retrainedChan true hrepair hretrain
  rw [heq, hchan, hsite]
  exact ⟨rfl, rfl, rfl, rfl, rfl⟩

/-- What a lane repair makes of its site, and of its channel (R392). -/
def repairedSite (c : Nat) (z : Site) : Site :=
  { z with lastChannel := BitVec.ofNat 5 c, repairCount := bump8 z.repairCount, lane := z.lane ||| (1 <<< c) }
def repairedChan (lane : BitVec 8) (z : Chan) : Chan := { z with spares := z.spares + 1, laneMap := z.laneMap ++ [lane] }

theorem endRepair_eq (h : holding s x c .repair = true) : endRepair s x c
    = nextHold (holdNoted s x c 1 (heldNs s x c + 2 ^ 32 * (getChan s x.val c).lane.toNat) (1537 + 16 * x.val) (repairedSite c)
      (repairedChan (getChan s x.val c).lane)) x c false := by
  rw [endRepair, h]
  rfl

theorem endRepair_spec (h : holding s x c .repair = true) (hrepair : (getChan s x.val c).pendRepair = [])
    (hretrain : (getChan s x.val c).pendRetrain = false) :
    (getChan (endRepair s x c) x.val c).hold = none ∧
      (getChan (endRepair s x c) x.val c).spares = (getChan s x.val c).spares + 1 ∧
      (getChan (endRepair s x c) x.val c).laneMap = (getChan s x.val c).laneMap ++ [(getChan s x.val c).lane] ∧
      ((endRepair s x c).sites[x]).lane = (s.sites[x]).lane ||| (1 <<< c) ∧
      ((endRepair s x c).sites[x]).repairCount = bump8 (s.sites[x]).repairCount := by
  obtain ⟨hchan, from_, hsite⟩ := nextHold_holdNoted (s := s) (x := x) (c := c) 1
    (heldNs s x c + 2 ^ 32 * (getChan s x.val c).lane.toNat) (1537 + 16 * x.val) (repairedSite c)
    (repairedChan (getChan s x.val c).lane) false hrepair hretrain
  rw [endRepair_eq h, hchan, hsite]
  exact ⟨rfl, rfl, rfl, rfl, rfl⟩

/-- A parity alert of a channel in service, with the alerts of the last 1 ms (R390). -/
theorem parityAlert_up {s0 : State} {l : List Nat} (hup : chanUp s x c = true)
    (hs0 : s0 = (if isFcs s x.val then
      bump (modSite s x (fun z => { z with die := { z.die with parity := Config.parityRecord c s.fresh } })) else s))
    (hl : l = (getChan s x.val c).parity.filter (fun z => decide (s.ts ≤ z + 1000000))) :
    parityAlert s x c = if 3 ≤ (l ++ [s.ts]).length then
        startRetrain (modChan (siteEvent s0 x 2 (Place.chan x.val c) 0) x.val c (fun z => { z with parity := [] })) x c
      else modChan (siteEvent s0 x 2 (Place.chan x.val c) 0) x.val c (fun z => { z with parity := l ++ [s.ts] }) := by
  have hchan : getChan (siteEvent s0 x 2 (Place.chan x.val c) 0) x.val c = getChan s x.val c := by
    refine (siteEvent_chan ..).trans (getChan_of_chans ?_ ..)
    subst hs0
    split <;> rfl
  simp only [chanUp, Bool.and_eq_true, Option.isNone_iff_eq_none, beq_iff_eq, Bool.not_eq_true'] at hup
  obtain ⟨⟨⟨hreset, hstate⟩, hfenced⟩, hlive⟩ := hup
  subst hs0 hl
  rw [← hchan]
  simp only [parityAlert, hreset, hstate, hfenced, hlive]
  rfl

end Holds

/-- Settles O47: by the hold that the channel has, and by what waits for its end. -/
theorem channelHolds : Obligations.ChannelHolds := by
  intro s s0 x c g lane hup hc
  have hrun : ¬ (!chanUp s x c.val) = true := by simp [hup]
  have hretrain : exec (.retrainStart x c g) s = .next (startRetrain s x c.val) := rfl
  have hrepair : exec (.laneRepairRequest x c lane) s = .next (requestRepair s x c.val lane) := rfl
  refine ⟨fun hnone => ⟨?_, fun hs => ?_, fun hs => ?_⟩, fun hrep => ⟨fun hstart hwait => ?_, fun hearly => ?_⟩, fun hret => ?_,
    fun hsome => ?_, fun hhold hr hn => ?_, fun hhold hr hn => ?_, fun l hl hs0 => ⟨fun hlen => ?_, fun hlen => ?_⟩⟩
  · rw [hretrain, startRetrain, if_neg hrun, hnone]
  · rw [hrepair, requestRepair, if_neg hrun]
    simp only [hnone, if_neg hs.not_ge]
  · rw [hrepair, requestRepair, if_neg hrun]
    simp only [hnone, if_pos hs]
    rfl
  · rw [hretrain, startRetrain, if_neg hrun, hrep]
    simp [hstart, hwait]
  · rw [hretrain, startRetrain, if_neg hrun, hrep]
    have hfirst : (decide ((getChan s x.val c.val).holdStart = s.ts) || (getChan s x.val c.val).waitWindow) = true := by
      simpa using hearly
    simp only [hfirst, if_true]
  · rw [hretrain, startRetrain, if_neg hrun, hret]
  · obtain ⟨k, hk⟩ := Option.ne_none_iff_exists'.mp hsome
    rw [hrepair, requestRepair, if_neg hrun]
    simp only [hk]
  · exact ⟨_, congrArg Host.Outcome.next (batch_calm hc), endRetrain_spec (s := { s with batching := true }) hhold hr hn⟩
  · exact ⟨_, congrArg Host.Outcome.next (batch_calm hc), endRepair_spec (s := { s with batching := true }) hhold hr hn⟩
  · refine congrArg Host.Outcome.next ((parityAlert_up hup hs0 hl).trans (if_neg ?_))
    simp
    omega
  · refine congrArg Host.Outcome.next ((parityAlert_up hup hs0 hl).trans (if_pos ?_))
    simp
    omega

/-! ### Heat -/

theorem cutSite_same_hw (s : State) (x : SiteId) : SameHardware s (cutSite s x) :=
  .foldl _ (.refl s) fun _ _ => (cutParcel_same_hw ..).trans (dropPass_same_hw ..)

theorem markUntested_same_hw (s : State) (x : SiteId) : SameHardware s (markUntested s x) :=
  .ite (.refl s) (.of_eqs rfl rfl rfl rfl rfl rfl rfl)

theorem pwrIrq_same_hw (s : State) (b : Nat) : SameHardware s (pwrIrq s b) := .of_eqs rfl rfl rfl rfl rfl rfl rfl

section Heat
variable {s : State} {x : SiteId}

/-- The state of a trip before what its fence lets through (R487). -/
def tripped (s : State) (x : SiteId) : State :=
  let noted := ledAdd (pwrIrq (siteEvent (modSite s x (fun y => { y with trip := true })) x 3 (Place.site x.val) 0) 4) 0x35
    (Place.site x.val) 0 0
  powerOff (fenceSiteNow (cutSite (if (s.sites[x]).powerEn then markUntested noted x else noted) x) x false) x

/-- A trip fences its site and takes its power (R487). -/
theorem tripped_site (h : (s.sites[x]).fenced = false) : ∃ from_, (tripped s x).sites[x] = { s.sites[x] with
    trip := true, event := (s.sites[x]).event ||| (1 <<< 3), holdFrom := from_, live := 0, fenced := true, state := 3,
    selfRefresh := false, cke := false, powerEn := false, powerGood := false, shutdown := false } := by
  have hnoted : ∀ (u : State) (p : Bool), SameHardware (siteEvent u x 3 (Place.site x.val) 0)
      (cutSite (if p then markUntested (ledAdd (pwrIrq (siteEvent u x 3 (Place.site x.val) 0) 4) 0x35 (Place.site x.val) 0 0) x
        else ledAdd (pwrIrq (siteEvent u x 3 (Place.site x.val) 0) 4) 0x35 (Place.site x.val) 0 0) x) := fun u p =>
    (((pwrIrq_same_hw ..).trans (ledAdd_same_hw ..)).trans (.ite (markUntested_same_hw ..) (.refl _))).trans (cutSite_same_hw ..)
  have hsites := (hnoted (modSite s x (fun y => { y with trip := true })) (s.sites[x]).powerEn).sites
  unfold tripped
  dsimp only
  generalize (cutSite (if (s.sites[x]).powerEn then _ else _) x) = u at hsites ⊢
  have hu : u.sites[x] = { s.sites[x] with trip := true, event := (s.sites[x]).event ||| (1 <<< 3) } := by
    rw [hsites, siteEvent_site, modSite_same]
  obtain ⟨from_, hfence⟩ := site_fenceSiteNow u x false (by rw [hu]; exact h)
  exact ⟨from_, (modSite_same ..).trans (by rw [hfence, hu])⟩

theorem stackTrip_spec (hreset : s.power.inReset = none) (hc : s.batching = false) (hkind : kindOf s x.val ≠ .none)
    (hpin : (s.sites[x]).tripPin = false) : stackTrip s x
      = endBatch (afterClose (tripped { modSite s x (fun y => { y with tripPin := true }) with batching := true } x)) := by
  have hrun : ¬ (kindOf s x.val == .none || (s.sites[x]).tripPin) = true := by
    rw [hpin, Bool.or_false, beq_iff_eq]
    exact hkind
  have hpresent : sitePresent s x = true := by simp [sitePresent, hreset, hkind]
  rw [stackTrip, if_neg hrun]
  exact (if_pos hpresent).trans (batch_calm hc)

/-- The junction has a reading and a level, and the memories, the layouts and the sites are as in `s`. -/
structure JunctionAt (s : State) (level : Nat) (reading : BitVec 11) (t : State) : Prop where
  level : t.power.juncLevel = level
  reading : t.power.junc = reading
  dram : t.dram = s.dram
  layouts : t.layouts = s.layouts
  sites : t.sites = s.sites

theorem JunctionAt.pwrIrq_if {n : Nat} {j : BitVec 11} {t : State} (h : JunctionAt s n j t) (p : Prop) [Decidable p] (b : Nat) :
    JunctionAt s n j (if p then pwrIrq t b else t) := by
  split
  · exact ⟨h.level, h.reading, h.dram, h.layouts, h.sites⟩
  · exact h

theorem JunctionAt.thermalCheck {n : Nat} {j : BitVec 11} {t : State} (h : JunctionAt s n j t) (old : State)
    (is : List Inst) : JunctionAt s n j (thermalCheck old t is) := by
  unfold Machine.thermalCheck
  dsimp only
  split
  · rw [lateCheck_eq]
    exact ⟨h.level, h.reading, h.dram, h.layouts, h.sites⟩
  · exact h

/-- A readout sets the reading, and the level that the thresholds and the hysteresis give (R488). -/
theorem readJunction_spec {r : List (BitVec 11)} (hreset : s.power.inReset = none) (hr : r ≠ []) :
    JunctionAt s (nextLevel s.power.juncLevel (hottest r).1.toNat (8 * s.cfg.hyst) juncThr) (hottest r).1
      (readJunction s r) := by
  have hrun : ¬ (s.power.inReset.isSome || r.isEmpty) = true := by
    rw [hreset, List.isEmpty_eq_false_iff.mpr hr]
    exact Bool.false_ne_true
  rw [readJunction, if_neg hrun]
  dsimp only
  split
  next hsame => exact ⟨hsame.symm, rfl, rfl, rfl, rfl⟩
  next =>
    refine JunctionAt.thermalCheck (.pwrIrq_if (.pwrIrq_if ?_ ..) ..) ..
    constructor <;> simp only [ledAdd_fields]

end Heat

/-- Settles O48: by the reading, and by what the site was. -/
theorem heatOfStacksAndJunction : Obligations.HeatOfStacksAndJunction := by
  intro s s0 s1 x a l hreset hc
  refine ⟨fun hstate hfenced hs0 hs1 => ?_, fun hsame => ?_, ?_, fun hshut hfenced => ?_, fun hkind hfenced hpin => ?_⟩
  · have hrun : ¬ (s.power.inReset.isSome || (s.sites[x]).state != 2 || (s.sites[x]).fenced || (a :: l).isEmpty) = true := by
      rw [hreset, hstate, hfenced]
      exact Bool.false_ne_true
    subst hs0 hs1
    exact ⟨fun hlow => congrArg Host.Outcome.next (((if_neg hrun).trans (batch_calm hc)).trans
        (congrArg endBatch (if_neg (Nat.not_le.mpr hlow)))),
      fun hhigh => congrArg Host.Outcome.next (((if_neg hrun).trans (batch_calm hc)).trans
        (congrArg endBatch (if_pos hhigh)))⟩
  · refine congrArg Host.Outcome.next ?_
    rw [readJunction, hreset]
    exact if_pos hsame
  · have hread := readJunction_spec hreset (List.cons_ne_nil a l)
    exact ⟨_, rfl, hread.level, hread.reading, hread.dram, hread.layouts, hread.sites⟩
  · refine congrArg Host.Outcome.next (if_pos ?_)
    rw [hshut, hfenced]
    rfl
  · refine ⟨_, congrArg Host.Outcome.next (stackTrip_spec hreset hc hkind hpin), ?_⟩
    obtain ⟨from_, hsite⟩ := tripped_site
      (s := { modSite s x (fun y => { y with tripPin := true }) with batching := true }) (x := x)
      (by rw [modSite_same]; exact hfenced)
    rw [hsite]
    exact ⟨by rw [modSite_same], rfl, rfl, rfl, rfl, rfl⟩

end Sys2Proof.Machine
end

section
/-! PROOFS. Refresh, and the stack commands. -/

namespace Sys2Proof.Machine

/-! ### Refresh -/

theorem drawPair_refresh (s : State) (x : SiteId) (k ns : Nat) : (drawPair s x k ns).refreshDebt = s.refreshDebt ∧
    (drawPair s x k ns).refreshPtr = s.refreshPtr ∧ (drawPair s x k ns).tally = s.tally := by
  unfold drawPair
  split <;> exact ⟨rfl, rfl, rfl⟩

section Refresh
variable {s : State} {x : SiteId} {c k : Nat}

theorem sendRefp_debt (n : Nat) : (sendRefp s x c k n).refreshDebt
    = kvPut s.refreshDebt (stallKey x.val c k) (kvGetD s.refreshDebt (stallKey x.val c k) 0 - n) :=
  (drawPair_refresh ..).1

theorem kvGetD_put_same {α : Type} (m : KV α) (a : Nat) (v d : α) : kvGetD (kvPut m a v) a d = v := by
  rw [kvGetD, kvGet_put_same, Option.getD_some]

/-- The controller catches up with what is owed beyond its limit, where a refresh may enter. -/
theorem catchUp_owed {d : Int} (h : kvGetD s.refreshDebt (stallKey x.val c k) 0 = d) :
    catchUp s x c k = if (decide ((refreshLimit s x : Int) < d) && refreshFree s x c k) then
      sendRefp s x c k (d - refreshLimit s x).toNat else s := by
  subst h
  rfl

theorem refreshLimit_le (s : State) (x : SiteId) : refreshLimit s x ≤ 4 := by
  unfold refreshLimit
  split <;> decide

theorem refreshDue_up (hup : chanUp s x c = true) (hself : (s.sites[x]).selfRefresh = false) {d : Int}
    (hd : d = kvGetD s.refreshDebt (stallKey x.val c k) 0) :
    refreshDue s x c k = if (decide ((refreshLimit s x : Int) < d + 1) && refreshFree s x c k) then
      sendRefp { s with refreshDebt := kvPut s.refreshDebt (stallKey x.val c k) (d + 1) } x c k (d + 1 - refreshLimit s x).toNat
      else { s with refreshDebt := kvPut s.refreshDebt (stallKey x.val c k) (d + 1) } := by
  subst hd
  have hrun : (chanUp s x c && !(s.sites[x]).selfRefresh) = true := by
    rw [hup, hself]
    rfl
  exact (if_pos hrun).trans (catchUp_owed (kvGetD_put_same ..))

end Refresh

/-- A stack command that a channel can be sent takes effect where it may, and otherwise waits. -/
theorem stackCmd_eq (s : State) (d : Deferred) :
    stackCmd s d = if deferReady s d then runDefer s d else { s with defer := s.defer ++ [d] } := rfl

/-- Settles O49: by what is owed, and by whether a refresh may enter. -/
theorem refreshWithinFour : Obligations.RefreshWithinFour := by
  rintro s s1 x c k d key rfl hd -
  refine ⟨fun hup hself hs1 => ⟨fun hle => ?_, fun hlt hfree => ?_, fun hfree hlo hhi => ?_⟩, fun hreach => ⟨fun hready => ?_,
    fun hwait => ?_⟩, fun n => ⟨?_, (drawPair_refresh ..).2.1, (drawPair_refresh ..).2.2⟩⟩
  · subst hs1
    refine congrArg Host.Outcome.next ((refreshDue_up hup hself hd).trans (if_neg ?_))
    rw [Bool.and_eq_true, decide_eq_true_eq]
    rintro ⟨hlt, hfree⟩
    rcases hle with h | h
    · omega
    · exact Bool.false_ne_true (h.symm.trans hfree)
  · subst hs1
    exact congrArg Host.Outcome.next ((refreshDue_up hup hself hd).trans (if_pos (by simp [hlt, hfree])))
  · refine ⟨_, congrArg Host.Outcome.next (refreshDue_up hup hself hd), ?_⟩
    have hlimit := refreshLimit_le s x
    split
    next h =>
      simp only [Bool.and_eq_true, decide_eq_true_eq] at h
      rw [sendRefp_debt, kvGetD_put_same, kvGetD_put_same]
      omega
    next h =>
      simp only [hfree, Bool.and_true, decide_eq_true_eq] at h
      rw [kvGetD_put_same]
      omega
  · have hsite : siteOf x.val = x := Fin.ext (siteOf_val x.isLt)
    have hcmd : exec (.refp x c k) s = .next (refp s x c.val k.val) := by
      refine congrArg Host.Outcome.next ((if_pos hreach).trans ?_)
      rw [stackCmd_eq, if_pos hready]
      simp only [runDefer, stackDefer, hsite, hreach]
      rfl
    rw [hcmd, refp, ← hd]
    exact ⟨fun h => by rw [if_pos h], fun h => by rw [if_neg (by omega)]⟩
  · refine congrArg Host.Outcome.next ((if_pos hreach).trans ?_)
    rw [stackCmd_eq, hwait]
    rfl
  · rw [sendRefp_debt, ← hd]

/-! ### Stack commands -/

section Commands
variable {s : State} {x : SiteId} {c k : Nat}

theorem canSend_reachable (h : canSend s x c = true) : reachable s x c = true := by
  simp only [canSend, reachable, Bool.and_eq_true] at h ⊢
  exact h.1

/-- The base-die registers answer where the controller can send to a channel. -/
theorem canSend_stack (h : canSend s x c = true) {i : Nat} (hi : i < 65536) : (s.power.inReset.isNone && isFcs s x.val
    && (s.sites[x]).state == 2 && !(s.sites[x]).selfRefresh && decide (i < 65536)) = true := by
  simp only [canSend, chanUp, Bool.and_eq_true] at h
  obtain ⟨⟨⟨⟨⟨⟨hreset, hstate⟩, -⟩, -⟩, hfcs⟩, hself⟩, -⟩ := h
  rw [hreset, hfcs, hstate, hself, decide_eq_true hi]
  rfl

theorem stallTakes_of (h : canSend s x c = true) (hf : stallFenced s x.val c k = false) : stallTakes s x c k = true := by
  rw [stallTakes, h, hf]
  rfl

end Commands

/-- Settles O50: one case for each command, and for those that wait by whether they may take effect. -/
theorem stackCommands : Obligations.StackCommands := by
  rintro s x c k data key hsend rfl
  have hreach := canSend_reachable hsend
  have hsite : siteOf x.val = x := Fin.ext (siteOf_val x.isLt)
  refine ⟨fun hfree => ?_, ?_, fun i v hi => ?_, fun bank d => ⟨fun row e v he hd => ?_, fun r n hrn hd => ?_⟩⟩
  · have htakes := stallTakes_of hsend hfree
    refine ⟨congrArg Host.Outcome.next (if_pos htakes), congrArg Host.Outcome.next (if_pos htakes),
      congrArg Host.Outcome.next (if_pos htakes), fun w => congrArg Host.Outcome.next (if_pos htakes),
      congrArg Host.Outcome.next (if_pos htakes), fun g hg hlatch => congrArg Host.Outcome.next (if_pos ?_),
      ⟨_, congrArg Host.Outcome.next (if_pos htakes)⟩⟩
    rw [htakes, hlatch, decide_eq_true hg]
    rfl
  · exact congrArg Host.Outcome.next (if_pos hsend)
  · exact ⟨congrArg Host.Outcome.next (if_pos (canSend_stack hsend hi)),
      congrArg Host.Outcome.next (if_pos (canSend_stack hsend hi))⟩
  · subst hd
    have hcmd : exec (.rmap x c bank row e v) s = .next (stackCmd s (stackDefer 6 x c.val (bank.val / 2)
        [bank.val, row.toNat, e.toNat, if v then 1 else 0])) :=
      congrArg Host.Outcome.next (if_pos (by rw [hreach, decide_eq_true he]; rfl))
    rw [hcmd, stackCmd_eq]
    refine ⟨fun hready => ?_, fun hwait => by rw [hwait]; rfl⟩
    rw [if_pos hready]
    simp only [runDefer, stackDefer, hsite, hreach]
    cases v <;> rfl
  · subst hd
    have hcmd : exec (.seal x c bank r n) s = .next (stackCmd s (stackDefer 5 x c.val (bank.val / 2) [bank.val, r, n])) :=
      congrArg Host.Outcome.next (if_pos (by rw [hreach, decide_eq_true hrn]; rfl))
    rw [hcmd, stackCmd_eq]
    refine ⟨fun hready => ?_, fun hwait => by rw [hwait]; rfl⟩
    rw [if_pos hready]
    simp only [runDefer, stackDefer, hsite, hreach]
    rfl

end Sys2Proof.Machine
end

section
/-! PROOFS. Stall instructions. -/

namespace Sys2Proof.Machine

/-! ### Fields of a Format V word -/

section Word
variable (op : Nat) (f : FmtV)

theorem wOp_wordV (h : op < 64) : wOp (wordV op f) = op := by
  simp only [wOp, wordV, BitVec.extractLsb'_append_eq_ite]
  simpa using h

theorem wD_wordV : wD (wordV op f) = f.d.toNat := by
  simp only [wD, wordV, BitVec.extractLsb'_append_eq_ite]
  simp

theorem wA_wordV : wA (wordV op f) = f.a.toNat := by
  simp only [wA, wordV, BitVec.extractLsb'_append_eq_ite]
  simp

theorem wB_wordV : wB (wordV op f) = f.b.toNat := by
  simp only [wB, wordV, BitVec.extractLsb'_append_eq_ite]
  simp

theorem wC_wordV : wC (wordV op f) = f.c.toNat := by
  simp only [wC, wordV, BitVec.extractLsb'_append_eq_ite]
  simp

theorem mode_wordV : (wordV op f).extractLsb' 0 2 = f.m := by
  simp only [wordV, BitVec.extractLsb'_append_eq_ite]
  simp

theorem wM_wordV : wM (wordV op f) = f.m.toNat := congrArg BitVec.toNat (mode_wordV op f)

end Word

/-! ### Units -/

theorem unitWrite_units (relief : Bool) (s : State) (w : Nat × Col) : (unitWrite relief s w).units = s.units := by
  have hraw : ∀ (t : State) p c k, (putRaw t p c k).units = t.units := fun t p c k => by
    unfold putRaw
    split <;> rfl
  unfold unitWrite writeSealed
  dsimp only
  repeat' split
  all_goals simp only [hraw, writeOpen]

/-- The writes before a window go to memory alone (R157). -/
theorem writeBefore_units (s : State) (u : Stall) : (writeBefore s u).units = s.units := by
  unfold writeBefore
  split
  · split
    · exact foldl_keeps State.units _ (unitWrite_units false) ..
    · rfl
  · rfl

theorem nextCursor_regs (s : State) (u0 u : Stall) (w : W32) : (nextCursor s u0 u w).regs = u.regs := by
  have hadvance : u.advance.regs = u.regs := by
    unfold Stall.advance
    split <;> rfl
  unfold nextCursor
  dsimp only
  split
  · split <;> exact hadvance
  · rfl

theorem reg_setReg_same (u : Stall) (r : Nat) (c : Col) : (u.setReg r c).reg r = c := kvGetD_put_same ..

theorem reg_setReg_other (u : Stall) {r q : Nat} (c : Col) (h : q % 64 ≠ r % 64) : (u.setReg r c).reg q = u.reg q := by
  rw [Stall.reg, Stall.setReg, kvGetD, kvGet_put_other _ _ h]
  rfl

/-- Every instruction of Format V goes over the lanes. -/
theorem doWord_lane (u : Stall) (ld : Loads) {w : W32} (h : 7 ≤ wOp w) : doWord u ld w = doLane u w := by
  unfold doWord
  split
  case h_8 => rfl
  all_goals omega

/-! ### Instructions as commands -/

/-- The state in which an instruction that makes `v` of `u` changes its unit. -/
def beforeIssue (s : State) (u v : Stall) : State := if v.windowOpen && !u.windowOpen then writeBefore s v else s

theorem beforeIssue_units (s : State) (u v : Stall) : (beforeIssue s u v).units = s.units := by
  unfold beforeIssue
  split
  · exact writeBefore_units s v
  · rfl

theorem beforeIssue_closed (s : State) {u v : Stall} (h : v.windowOpen = false ∨ u.windowOpen = true) : beforeIssue s u v = s :=
  if_neg (by rcases h with h | h <;> simp [h])

theorem beforeIssue_opens (s : State) {u v : Stall} (hv : v.windowOpen = true) (hu : u.windowOpen = false) :
    beforeIssue s u v = writeBefore s v := if_pos (by simp [hv, hu])

section Issue
variable {s : State} {st : StallId} {i : Instr} {w : W32} {u n : Stall}

theorem exec_stallWords {m : FmtM} {v : FmtV} (h : (i, w) ∈ stallWords st m v) (s : State) : exec i s = stallWord st w s := by
  simp only [stallWords, List.mem_cons, Prod.mk.injEq, List.not_mem_nil, or_false] at h
  rcases h with ⟨rfl, rfl⟩ | ⟨rfl, rfl⟩ | ⟨rfl, rfl⟩ | ⟨rfl, rfl⟩ | ⟨rfl, rfl⟩ | ⟨rfl, rfl⟩ | ⟨rfl, rfl⟩ | ⟨rfl, rfl⟩ |
    ⟨rfl, rfl⟩ | ⟨rfl, rfl⟩ | ⟨rfl, rfl⟩ | ⟨rfl, rfl⟩ | ⟨rfl, rfl⟩ | ⟨rfl, rfl⟩ | ⟨rfl, rfl⟩ | ⟨rfl, rfl⟩ | ⟨rfl, rfl⟩ |
    ⟨rfl, rfl⟩ | ⟨rfl, rfl⟩ | ⟨rfl, rfl⟩ | ⟨rfl, rfl⟩ | ⟨rfl, rfl⟩ <;> rfl

theorem stallWord_runs (hword : reservedWord w = false) (hrun : stallRuns s st = true) :
    stallWord st w s = .next (issueWord s st w) := by
  rw [stallWord, hword, hrun]
  rfl

/-- An instruction changes its unit, the counter of free values, and what the writes before its window change. -/
theorem issueWord_eq (hu : u = getUnit s (unitKey (.stall st))) (hn : n = nextCursor s u (doWord u (stallLoads s u) w) w) :
    ∃ free, issueWord s st w = putUnit { beforeIssue s u n with fresh := free } (unitKey (.stall st)) n := by
  subst hu hn
  by_cases hop : wOp w = 1
  · exact ⟨_, congrArg (putUnit · _ _) (if_pos hop)⟩
  · exact ⟨_, congrArg (putUnit · _ _) (if_neg hop)⟩

end Issue

/-- CVT rounds by its mode (R145). -/
theorem laneOp_cvt (v : FmtV) (a b c : W32) : laneOp (wordV 0x1A v) a b c
    = (cvt v.c.toNat (if v.m = 0 then .rne else if v.m = 1 then .zero else .stoch b.toNat) a).getD 0 := by
  have hop : wOp (wordV 0x1A v) = 0x1A := wOp_wordV 0x1A v (by decide)
  simp only [laneOp, hop, wM_wordV, wC_wordV]
  split
  next h =>
    have hm : v.m = 0 := BitVec.eq_of_toNat_eq h
    rw [if_pos hm]
  next h =>
    have hm : v.m = 1 := BitVec.eq_of_toNat_eq h
    rw [if_neg (by rw [hm]; decide), if_pos hm]
  next h0 h1 => rw [if_neg fun h => h0 (by rw [h]; rfl), if_neg fun h => h1 (by rw [h]; rfl)]

section LaneFns
variable {st : StallId} {v : FmtV} {i : Instr} {w : W32} {f : W32 → W32 → W32 → W32}

theorem mem_laneFns (h : (i, w, f) ∈ laneFns st v) :
    (i, w) ∈ stallWords st ⟨0, 0, false, 0, 0⟩ v ∧ ∃ op, 7 ≤ op ∧ op < 64 ∧ w = wordV op v := by
  simp only [laneFns, List.mem_cons, Prod.mk.injEq, List.not_mem_nil, or_false] at h
  rcases h with ⟨rfl, rfl, -⟩ | ⟨rfl, rfl, -⟩ | ⟨rfl, rfl, -⟩ | ⟨rfl, rfl, -⟩ | ⟨rfl, rfl, -⟩ | ⟨rfl, rfl, -⟩ | ⟨rfl, rfl, -⟩ |
    ⟨rfl, rfl, -⟩ | ⟨rfl, rfl, -⟩ | ⟨rfl, rfl, -⟩ | ⟨rfl, rfl, -⟩ | ⟨rfl, rfl, -⟩ | ⟨rfl, rfl, -⟩ | ⟨rfl, rfl, -⟩ | ⟨rfl, rfl, -⟩
  all_goals exact ⟨by simp [stallWords], _, by decide, by decide, rfl⟩

/-- What the Format V instructions compute on a lane is what their words say (Table STL-4). -/
theorem laneOp_laneFns (h : (i, w, f) ∈ laneFns st v) : laneOp w = f := by
  have hsel : ∀ a b c : W32, (if c != 0 then a else b) = if c = 0 then b else a := fun a b c => by
    by_cases hc : c = 0 <;> simp [hc]
  funext a b c
  simp only [laneFns, List.mem_cons, Prod.mk.injEq, List.not_mem_nil, or_false] at h
  rcases h with ⟨-, rfl, rfl⟩ | ⟨-, rfl, rfl⟩ | ⟨-, rfl, rfl⟩ | ⟨-, rfl, rfl⟩ | ⟨-, rfl, rfl⟩ | ⟨-, rfl, rfl⟩ | ⟨-, rfl, rfl⟩ |
    ⟨-, rfl, rfl⟩ | ⟨-, rfl, rfl⟩ | ⟨-, rfl, rfl⟩ | ⟨-, rfl, rfl⟩ | ⟨-, rfl, rfl⟩ | ⟨-, rfl, rfl⟩ | ⟨-, rfl, rfl⟩ | ⟨-, rfl, rfl⟩
  case inr.inr.inr.inr.inr.inr.inr.inr.inr.inr.inl => exact laneOp_cvt v a b c
  all_goals simp (disch := decide) only [laneOp, wOp_wordV, mode_wordV, hsel]

end LaneFns

/-- Settles O51: by the word of the instruction, and for Format V by what the word computes on a lane. -/
theorem stallInstructions : Obligations.StallInstructions := by
  refine ⟨fun s st m v i w u n hmem => ⟨fun hword => ?_, fun hword hidle => ?_, fun hword hrun hu hn => ?_⟩,
    fun s st v i w f u hmem hword hrun hu => ?_⟩
  · rw [exec_stallWords hmem, stallWord, if_pos hword]
  · rw [exec_stallWords hmem, stallWord, hword, hidle]
    rfl
  · obtain ⟨free, hissue⟩ := issueWord_eq hu hn
    refine ⟨_, (exec_stallWords hmem s).trans (stallWord_runs hword hrun), ?_⟩
    rw [hissue]
    refine ⟨getUnit_putUnit_same .., fun key hkey => ?_, fun hclosed => ?_, fun hopen hshut => ?_⟩
    · refine (getUnit_putUnit_other _ _ hkey).trans ?_
      change kvGetD (beforeIssue s u n).units key Stall.empty = _
      rw [beforeIssue_units]
      rfl
    · rw [beforeIssue_closed s hclosed]
      rfl
    · rw [beforeIssue_opens s hopen hshut]
      exact ⟨rfl, rfl⟩
  · have hlane := laneOp_laneFns hmem
    obtain ⟨hwords, op, hlo, hhi, rfl⟩ := mem_laneFns hmem
    refine ⟨_, (exec_stallWords hwords s).trans (stallWord_runs hword hrun), ?_⟩
    obtain ⟨free, hissue⟩ := issueWord_eq hu rfl
    rw [hissue, getUnit_putUnit_same]
    have hreg : ∀ r, (nextCursor s u (doWord u (stallLoads s u) (wordV op v)) (wordV op v)).reg r
        = (doLane u (wordV op v)).reg r := fun r => by
      rw [Stall.reg, nextCursor_regs, doWord_lane u _ (by rwa [wOp_wordV op v hhi])]
      rfl
    refine ⟨(hreg _).trans ?_, fun r hr hne => (hreg r).trans ?_⟩
    · rw [doLane, wD_wordV, wA_wordV, wB_wordV, wC_wordV, reg_setReg_same, hlane]
    · have hd := v.d.isLt
      rw [doLane, wD_wordV, reg_setReg_other _ _ (by omega)]

end Sys2Proof.Machine
end

section
/-! PROOFS. Requests at a requester port: wide requests (O43), narrow accesses, grants and completions (O44), and atomics
(O45). -/

namespace Sys2Proof.Machine

/-! ### Waiting at the arbitration points -/

/-- A request that waits at its points changes the lists of the points alone. -/
theorem foldl_enqueue_eq (s : State) (cls id : Nat) (l : List Nat) :
    l.foldl (fun st k => enqueue st k cls id) s
      = { s with arb := (l.foldl (fun st k => enqueue st k cls id) s).arb } := by
  have h := foldl_keeps (fun t : State => { t with arb := s.arb }) (fun st k => enqueue st k cls id) (fun _ _ => rfl) l s
  exact congrArg (fun t : State => { t with arb := (l.foldl (fun st k => enqueue st k cls id) s).arb }) h

theorem awaitService_performed {s : State} {o : Origin} {cls addr : Nat} {narrow posted write : Bool} {op : ReqOp}
    (h : mustWait s s.outst (opCols s narrow op) = false) :
    (awaitService s o cls narrow posted write addr op).dram = (performOp s narrow op).1.dram ∧
    (awaitService s o cls narrow posted write addr op).outst = (performOp s narrow op).1.outst ++
      (if posted then [] else [⟨s.nextReq, o, narrow, posted, (performOp s narrow op).2.2, (performOp s narrow op).2.1, false,
        opCols s narrow op, none⟩]) := by
  simp only [awaitService, h]
  rw [foldl_enqueue_eq]
  cases posted
  · exact ⟨rfl, rfl⟩
  · exact ⟨rfl, (List.append_nil _).symm⟩

theorem awaitService_kept_out {s : State} {o : Origin} {cls addr : Nat} {narrow posted write : Bool} {op : ReqOp}
    (h : mustWait s s.outst (opCols s narrow op) = true) :
    (awaitService s o cls narrow posted write addr op).dram = s.dram ∧
    (awaitService s o cls narrow posted write addr op).cache = s.cache ∧
    (awaitService s o cls narrow posted write addr op).outst
      = s.outst ++ [⟨s.nextReq, o, narrow, posted, .ok, [], false, opCols s narrow op, some op⟩] := by
  simp only [awaitService, h]
  rw [foldl_enqueue_eq]
  cases posted <;> exact ⟨rfl, rfl, rfl⟩

/-! ### Wide requests -/

theorem exec_requesterRead {s : State} {p : PortId} {ns : Bool} (crit : Bool) (addr len : Nat)
    (h : accepts s (.port p ns) = true) :
    exec (.requesterRead p ns crit addr len) s
      = .next (acceptRead s (.port p ns) crit false (wideOk addr len) addr len) := congrArg Host.Outcome.next (if_pos h)

theorem inReset_of_accepts {s : State} {o : Origin} (h : accepts s o = true) : s.power.inReset.isNone = true :=
  (Bool.and_eq_true_iff.mp h).1

theorem exec_requesterWrite {s : State} {p : PortId} {ns posted : Bool} (addr : Nat) (data : Bytes)
    (hreset : s.power.inReset.isNone = true) (h : (posted || accepts s (.port p ns)) = true) :
    exec (.requesterWrite p ns posted addr data) s = .next (acceptWrite (countOrigin s (.port p ns) data.length)
      (.port p ns) posted false (wideOk addr data.length) addr data) :=
  congrArg Host.Outcome.next (if_pos (Bool.and_eq_true_iff.mpr ⟨hreset, h⟩))

/-- An access that fits its port and names the staging window is good. -/
theorem judgeAccess_stage {s : State} {o : Origin} {k : ReqKind} {wide : Bool} {addr n off : Nat}
    (hport : portBad s o = false) (ht : targetOf s wide addr n = some (.stage off)) :
    judgeAccess s o k true wide addr n = (some (.stage off), .ok, false) := by
  simp only [judgeAccess, hport, ht, Bool.not_true, Bool.or_self, Bool.false_eq_true, if_false]

/-- A posted write to the staging window writes its bytes, and waits at the points for their time. -/
theorem acceptWrite_stage {s : State} {o : Origin} {fits : Bool} {addr off : Nat} {data : Bytes}
    (h : judgeAccess s o .write fits true addr data.length = (some (.stage off), .ok, false)) :
    acceptWrite s o true false fits addr data = { s with
      stage := memWriteN s.stage off data
      nextReq := s.nextReq + 1
      arb := (acceptWrite s o true false fits addr data).arb } := by
  simp only [acceptWrite, Bool.not_false, h, awaitAwning, if_true]
  exact foldl_enqueue_eq ..

/-- Settles O43. -/
theorem wideRequests : Obligations.WideRequests := by
  unfold Obligations.WideRequests
  refine ⟨?_, ?_, ?_⟩
  · intro s s1 p ns crit posted addr len id a off data c hacc hs1
    subst hs1
    rw [exec_requesterRead crit addr len hacc,
      exec_requesterWrite addr data (inReset_of_accepts hacc) (by rw [hacc, Bool.or_true])]
    refine ⟨?_, ?_, ?_, ?_, ?_, ?_⟩ <;> intro h
    all_goals simp only [acceptRead, acceptWrite, refuseWrite, Bool.not_false, h]
  · intro s o cls narrow posted write addr op cols hcols
    subst hcols
    exact ⟨awaitService_performed, awaitService_kept_out⟩
  · intro s p ns addr off data hreset hwf hport hfits ht
    have hjudge : judgeAccess (countOrigin s (.port p ns) data.length) (.port p ns) .write (wideOk addr data.length) true addr
        data.length = (some (.stage off), .ok, false) := by
      rw [hfits]
      exact judgeAccess_stage hport ht
    refine ⟨_, exec_requesterWrite addr data (Option.isNone_iff_eq_none.mpr hreset) rfl, ?_⟩
    rw [acceptWrite_stage hjudge]
    exact ⟨memReadN_writeN hwf off data, fun c hc => memRead_writeN_outside hwf off data hc, rfl⟩

/-! ### Narrow accesses -/

theorem narrowArrives_eq {s : State} {a : HeldNarrow} (h : accepts s a.origin = true) :
    narrowArrives s a = if entryFree (heardBy s a.origin) ∧ (heardBy s a.origin).heldNarrow = []
      then startNarrow (heardBy s a.origin) a
      else count { heardBy s a.origin with
        heldNarrow := (heardBy s a.origin).heldNarrow ++ [a]
        regs := { (heardBy s a.origin).regs with cirStatus := (heardBy s a.origin).regs.cirStatus ||| 1 } } 74 1 := by
  obtain ⟨o, crit, addr, size, write⟩ := a
  cases o <;> exact if_neg (by rw [h]; exact Bool.false_ne_true)

theorem narrowArrives_starts {s : State} {a : HeldNarrow} (h : accepts s a.origin = true)
    (hfree : entryFree (heardBy s a.origin) = true) (hnone : (heardBy s a.origin).heldNarrow = []) :
    narrowArrives s a = startNarrow (heardBy s a.origin) a := (narrowArrives_eq h).trans (if_pos ⟨hfree, hnone⟩)

theorem narrowArrives_held {s : State} {a : HeldNarrow} (h : accepts s a.origin = true)
    (hfull : entryFree (heardBy s a.origin) = false ∨ (heardBy s a.origin).heldNarrow ≠ []) :
    narrowArrives s a = count { heardBy s a.origin with
      heldNarrow := (heardBy s a.origin).heldNarrow ++ [a]
      regs := { (heardBy s a.origin).regs with cirStatus := (heardBy s a.origin).regs.cirStatus ||| 1 } } 74 1 := by
  refine (narrowArrives_eq h).trans (if_neg fun ⟨hfree, hnone⟩ => ?_)
  rcases hfull with hfull | hfull
  · exact Bool.false_ne_true (hfull.symm.trans hfree)
  · exact hfull hnone

/-- The state with the tracker and the outstanding requests alone is left by what reads an area. -/
theorem noteOpenReads_requests (s : State) (cols : List Nat) :
    (noteOpenReads s cols).tracker = s.tracker ∧ (noteOpenReads s cols).outst = s.outst :=
  Prod.ext_iff.mp (foldl_keeps (fun t : State => (t.tracker, t.outst)) _ (fun _ _ => by simp only [modChan_fields]) _ s)

/-- A narrow read leaves the tracker and the outstanding requests. -/
theorem performOp_narrow_read_requests (s : State) (id a off n : Nat) :
    (performOp s true (.read id a off n)).1.tracker = s.tracker ∧
    (performOp s true (.read id a off n)).1.outst = s.outst := by
  unfold performOp
  split
  · exact ⟨rfl, rfl⟩
  · simp only [readPlace]
    split
    · exact ⟨rfl, rfl⟩
    · split
      · exact noteOpenReads_requests s _
      · simp only [if_true, lookup]
        split <;> exact noteOpenReads_requests s _

/-- A narrow read that waits for its service is outstanding, and holds its tracker entry. -/
theorem awaitService_narrow_read (s : State) (o : Origin) (cls addr id a off n : Nat) :
    (awaitService s o cls true false false addr (.read id a off n)).tracker = s.tracker ∧
    (awaitService s o cls true false false addr (.read id a off n)).outst.length = s.outst.length + 1 := by
  obtain ⟨htracker, houtst⟩ := performOp_narrow_read_requests s id a off n
  simp only [awaitService, Bool.false_and, Bool.false_eq_true, if_false]
  rw [foldl_enqueue_eq]
  split
  · exact ⟨rfl, List.length_append⟩
  · exact ⟨htracker, List.length_append.trans (by rw [houtst]; rfl)⟩

theorem startNarrow_read_waits {s : State} {o : Origin} {crit : Bool} {addr n id ar off : Nat}
    (h : judgeAccess (takeEntry s) o .read (narrowOk addr n) false addr n = (some (.area id ar off), .ok, false)) :
    (startNarrow s ⟨o, crit, addr, n, none⟩).tracker = s.tracker + 1 ∧
    (startNarrow s ⟨o, crit, addr, n, none⟩).outst.length = s.outst.length + 1 := by
  obtain ⟨htracker, houtst⟩ := awaitService_narrow_read (takeEntry s) o (clsOf crit) addr id ar off n
  have hne : (awaitService (takeEntry s) o (clsOf crit) true false false addr (.read id ar off n)).outst.length
      ≠ (takeEntry s).outst.length := by omega
  simp only [startNarrow, acceptRead, Bool.not_true, h, if_neg hne]
  exact ⟨htracker, houtst⟩

/-- A request of a port that is refused leaves the tracker and the outstanding requests. -/
theorem refuseReq_port_requests (s : State) (p : PortId) (ns : Bool) (c : Cpl) :
    (refuseReq s (.port p ns) c).tracker = s.tracker ∧ (refuseReq s (.port p ns) c).outst = s.outst := ⟨rfl, rfl⟩

theorem startNarrow_read_refused {s : State} {p : PortId} {ns crit d : Bool} {addr n : Nat} {c : Cpl}
    (h : judgeAccess (takeEntry s) (.port p ns) .read (narrowOk addr n) false addr n = (none, c, d)) :
    (startNarrow s ⟨.port p ns, crit, addr, n, none⟩).tracker = s.tracker ∧
    (startNarrow s ⟨.port p ns, crit, addr, n, none⟩).outst = s.outst := by
  obtain ⟨htracker, houtst⟩ := refuseReq_port_requests (takeEntry s) p ns c
  simp only [startNarrow, acceptRead, Bool.not_true, h, houtst, if_true, count_fields, htracker]
  exact ⟨Nat.add_sub_cancel .., rfl⟩

/-! ### Grants and completions -/

theorem arbNow_beat (s : State) (pt : ArbPt) : (arbNow s pt).beat = s.beat.now := by
  unfold arbNow
  extract_lets a
  split
  case isTrue h => exact h
  case isFalse => rfl

section Grant
variable {s : State} {pt : ArbPt} {ns : Nat} (hopen : pointOpen s pt = true)
include hopen

theorem grant_none (h : choose s pt (arbNow s pt) false = none) : grant s pt ns = s := by
  simp only [grant, hopen, h, Bool.not_true, Bool.false_eq_true, if_false]

theorem grant_work {w : Due} (h : choose s pt (arbNow s pt) false = some (.work w)) :
    grant s pt ns = count (serveWork s pt w) 70 ns := by
  simp only [grant, hopen, h, Bool.not_true, Bool.false_eq_true, if_false]

theorem grant_item {i : ArbItem} (h : choose s pt (arbNow s pt) false = some (.item i)) :
    grant s pt ns = noteGranted (count { drawAccess s pt i.id ns with
      arb := kvPut (drawAccess s pt i.id ns).arb (arbKey pt) ⟨s.beat.now, (arbNow s pt).used0 + (if i.cls = 0 then ns else 0),
        (arbNow s pt).used3, (arbNow s pt).waiting.erase i⟩ } (69 + i.cls) ns) i.id := by
  simp only [grant, hopen, h, arbNow_beat, Bool.not_true, Bool.false_eq_true, if_false]

end Grant

/-- The state once a request is outstanding no more and waits at no point. -/
def requestGone (s : State) (id : Nat) : State := leavePoints { s with outst := s.outst.filter (fun z => z.id != id) } id

section Completion
variable {s : State} {id : Nat} {q : PendReq} (hq : s.outst.find? (fun z => z.id == id) = some q)
  (hfree : reqHeld s q = false)
include hq hfree

theorem completeRequest_wide (h : q.narrow = false) :
    completeRequest s id = sendCpl (requestGone s id) q.origin id q.cpl q.data := by
  simp only [completeRequest, hq, hfree, h, Bool.false_eq_true, if_false, requestGone]

theorem completeRequest_narrow (h : q.narrow = true) :
    completeRequest s id = sendCpl (count { requestGone s id with tracker := s.tracker - 1 } 73 1) q.origin id q.cpl q.data := by
  simp only [completeRequest, hq, hfree, h, Bool.false_eq_true, if_true, if_false]
  rfl

end Completion

/-- Settles O44. -/
theorem narrowAccessesAndService : Obligations.NarrowAccessesAndService := by
  unfold Obligations.NarrowAccessesAndService
  refine ⟨?_, ?_, ?_⟩
  · intro s t o p ns crit addr n data a rest ht
    subst ht
    refine ⟨fun hacc hfree hnone => ?_, fun hacc hfull => ?_, fun hheld hfree hacc => ?_, fun id ar off h => ?_, fun c d h => ?_⟩
    · exact ⟨congrArg Host.Outcome.next (narrowArrives_starts hacc hfree hnone),
        congrArg Host.Outcome.next (narrowArrives_starts hacc hfree hnone)⟩
    · exact ⟨congrArg Host.Outcome.next (narrowArrives_held hacc hfull),
        congrArg Host.Outcome.next (narrowArrives_held hacc hfull)⟩
    · have hrelease : releaseNarrow s = startNarrow { s with heldNarrow := rest } a := by
        simp only [releaseNarrow, hheld, hfree, hacc, Bool.and_self, if_true]
      exact congrArg Host.Outcome.next hrelease
    · exact startNarrow_read_waits h
    · exact startNarrow_read_refused h
  · intro s u v pt ns a hopen ha
    subst ha
    refine ⟨fun h => congrArg Host.Outcome.next (grant_none hopen h),
      fun w h => congrArg Host.Outcome.next (grant_work hopen h), fun i h hu hv => ?_⟩
    subst hu hv
    exact congrArg Host.Outcome.next (grant_item hopen h)
  · intro s id q hq hfree
    exact ⟨fun hwide => congrArg Host.Outcome.next (completeRequest_wide hq hfree hwide),
      fun hnarrow => ⟨_, congrArg Host.Outcome.next (completeRequest_narrow hq hfree hnarrow), rfl, rfl⟩⟩

/-! ### Atomics -/

section Atomic
variable {s : State} {o : Origin} {addr n operands cmp x : Nat} {k : AtomKind} (hacc : accepts s o = true)
include hacc

theorem atomicOp_waits {id a off : Nat} (h : judgeAccess (countOrigin s o operands) o .atomic (addr % n == 0) false addr n
      = (some (.area id a off), .ok, false)) :
    atomicOp s o addr n operands k cmp x
      = awaitService (countOrigin s o operands) o 2 false false false addr (.atomic id a off n k cmp x) := by
  simp only [atomicOp, hacc, h, Bool.not_true, Bool.false_eq_true, if_false]

theorem atomicOp_refused {c : Cpl} {d : Bool}
    (h : judgeAccess (countOrigin s o operands) o .atomic (addr % n == 0) false addr n = (none, c, d)) :
    atomicOp s o addr n operands k cmp x = refuseReq (countOrigin s o operands) o c := by
  simp only [atomicOp, hacc, h, Bool.not_true, Bool.false_eq_true, if_false]

end Atomic

section Perform
variable {u : State} {id a off n cmp x : Nat} {k : AtomKind} {ly : Layout} (hly : getLayout u id = some ly)
include hly

theorem performOp_atomic_stores (h : (readPlace u false id a off n).2.2 = true) :
    performOp u false (.atomic id a off n k cmp x)
      = (count (storeAtomic (readPlace u false id a off n).1 id a off
          (leBytes n (k.apply n cmp x (leNat (readPlace u false id a off n).2.1)))) 66 1,
        (readPlace u false id a off n).2.1, .ok) := by
  simp only [performOp, ReqOp.place, hly, atomicPlace, h, Option.isNone_some, Bool.false_eq_true, if_true, if_false]

theorem performOp_atomic_poison (h : (readPlace u false id a off n).2.2 = false) :
    performOp u false (.atomic id a off n k cmp x)
      = ((readPlace u false id a off n).1, (readPlace u false id a off n).2.1, .poison) := by
  simp only [performOp, ReqOp.place, hly, atomicPlace, h, Option.isNone_some, Bool.false_eq_true, if_false]

end Perform

/-- What one atomic does: it waits or is refused as an access of `n` bytes with `operands` operand bytes, and when it is
performed it stores the value that its kind gives. -/
def AtomicLaw (p : PortId) (ns : Bool) (addr : Nat) (i : Instr) (n operands : Nat) (op : Nat → Nat → Nat → ReqOp)
    (f : Nat → Nat) : Prop :=
  ∃ k cmp x, (∀ s, exec i s = .next (atomicOp s (.port p ns) addr n operands k cmp x)) ∧
    (op = fun id a off => .atomic id a off n k cmp x) ∧ f = k.apply n cmp x

theorem on32_toNat (g : W32 → W32 → W32) (x : W32) :
    (fun old => (g (BitVec.ofNat 32 old) x).toNat) = on32 g x.toNat := by
  funext old
  rw [on32, BitVec.ofNat_toNat, BitVec.setWidth_eq]

/-- Every atomic of Table MEM-7 is an `AtomicLaw`. -/
theorem atomicLaw_of_mem {p : PortId} {ns : Bool} {addr : Nat} {x cx : BitVec 32} {y cy : BitVec 64} {i : Instr} {n k : Nat}
    {op : Nat → Nat → Nat → ReqOp} {f : Nat → Nat} (h : (i, n, k, op, f) ∈ atomicOps p ns addr x cx y cy) :
    AtomicLaw p ns addr i n k op f := by
  simp only [atomicOps, List.mem_cons, List.not_mem_nil, or_false, Prod.mk.injEq] at h
  rcases h with ⟨rfl, rfl, rfl, rfl, rfl⟩ | ⟨rfl, rfl, rfl, rfl, rfl⟩ | ⟨rfl, rfl, rfl, rfl, rfl⟩ | ⟨rfl, rfl, rfl, rfl, rfl⟩ |
    ⟨rfl, rfl, rfl, rfl, rfl⟩ | ⟨rfl, rfl, rfl, rfl, rfl⟩ | ⟨rfl, rfl, rfl, rfl, rfl⟩ | ⟨rfl, rfl, rfl, rfl, rfl⟩ |
    ⟨rfl, rfl, rfl, rfl, rfl⟩
  case inl => exact ⟨.fadd, 0, x.toNat, fun _ => rfl, rfl, on32_toNat fadd x⟩
  case inr.inl => exact ⟨.fmax, 0, x.toNat, fun _ => rfl, rfl, on32_toNat fmax x⟩
  case inr.inr.inl => exact ⟨.fmin, 0, x.toNat, fun _ => rfl, rfl, on32_toNat fmin x⟩
  all_goals exact ⟨_, _, _, fun _ => rfl, rfl, rfl⟩

/-- Settles O45. -/
theorem atomics : Obligations.Atomics := by
  unfold Obligations.Atomics
  intro s s1 p ns addr x cx y cy i n k op f hmem hacc hs1
  obtain ⟨kind, cmp, v, hexec, rfl, rfl⟩ := atomicLaw_of_mem hmem
  subst hs1
  refine ⟨fun id a off h => (hexec s).trans (congrArg Host.Outcome.next (atomicOp_waits hacc h)),
    fun c d h => (hexec s).trans (congrArg Host.Outcome.next (atomicOp_refused hacc h)), fun u id a off ly r hly hr => ?_⟩
  subst hr
  exact ⟨performOp_atomic_stores hly, performOp_atomic_poison hly⟩

end Sys2Proof.Machine
end

section
/-! PROOFS. Tile packets (O33), the dispatch, commit and parity mismatches of parcels (O35, O36, O38). -/

namespace Sys2Proof.Machine

/-! ### Tile packets -/

/-- A tile packet that is placed as Table MEM-1 asks: of a port in service within the intake window, or of a node. -/
def WellPlaced (s : State) (src : Origin) (off : Nat) : Prop :=
  (∃ p ns, src = .port p ns ∧ portBad s src = false ∧ off % 32768 = 0 ∧ off < 1048576) ∨ ∃ n, src = .node n ∧ xchBad s = false

/-- A well-placed packet is counted and taken in. -/
theorem tileArrives_taken {s : State} {src : Origin} {off : Nat} (h : Order) {data : Bytes} (hacc : accepts s src = true)
    (hplace : WellPlaced s src off) (hlen : data.length = 16384) :
    tileArrives s src off h data = takeTile (countOrigin (heardBy s src) src (64 + data.length)) src h data := by
  rcases hplace with ⟨p, ns, rfl, hport, halign, hwin⟩ | ⟨n, rfl, hxch⟩
  · have hgood : (portBad s (.port p ns) || off % 32768 != 0 || decide (1048576 ≤ off) || data.length != 16384) = false := by
      simp [hport, halign, hwin, hlen]
    simp only [tileArrives, hacc, hgood, heardBy, Bool.not_true, Bool.false_eq_true, if_false]
  · have hgood : (xchBad s || data.length != 16384) = false := by simp [hxch, hlen]
    simp only [tileArrives, hacc, hgood, heardBy, Bool.not_true, Bool.false_eq_true, if_false]

/-- A packet of a port that is not well placed completes with UNMAPPED. -/
theorem tileArrives_unmapped {s : State} {p : PortId} {ns : Bool} {off : Nat} (h : Order) {data : Bytes}
    (hacc : accepts s (.port p ns) = true) (hbad : off % 32768 ≠ 0 ∨ 1048576 ≤ off ∨ data.length ≠ 16384) :
    tileArrives s (.port p ns) off h data
      = completeReq (countOrigin s (.port p ns) (64 + data.length)) (.port p ns) .unmapped [] := by
  have hrefused : (portBad s (.port p ns) || off % 32768 != 0 || decide (1048576 ≤ off) || data.length != 16384) = true := by
    simp only [Bool.or_eq_true, bne_iff_ne, decide_eq_true_eq]
    tauto
  simp only [tileArrives, hacc, hrefused, Bool.not_true, Bool.false_eq_true, if_false, if_true]

/-- Settles O33: a packet is taken in by its classification. -/
theorem tilePackets : Obligations.TilePackets := by
  unfold Obligations.TilePackets
  intro s t src off h data hacc ht
  subst ht
  refine ⟨fun hplace hlen => ?_, fun p ns hsrc hbad => ?_⟩
  · have hexec : exec (.tilePacket src off h data) s = .next (takeTile _ src h data) :=
      congrArg Host.Outcome.next (tileArrives_taken h hacc hplace hlen)
    refine ⟨fun c hc => ?_, fun hc => ?_, fun hc => ?_, fun hc => ?_⟩ <;>
      exact hexec.trans (by simp only [takeTile, hc])
  · subst hsrc
    exact congrArg Host.Outcome.next (tileArrives_unmapped h hacc hbad)

/-! ### Dispatch -/

section Dispatch
variable {s : State} {x : SiteId} {u : UnitId} {id q : Nat} {ly : Layout} {up : Upd} {r : Rule}
  (hly : getLayout s id = some ly) (hupd : ly.shard.upd = some up) (hrule : ruleOf s up.ruleId = some r)
  (hbest : bestPass s (unitKey u) = some id)
include hly hupd hrule hbest

section Begins
variable (hopen : ly.shard.st = .isOpen) (hunit : u = unitFor s ly q) (hsite : unitSite u = x)
  (hwaits : (waitingParcels s id up).contains q = true) (hmay : mayBegin s u (ly.parcelUnit s q).ch = true)
  (hlower : lowerWaits s ly (ly.geo s) up q = false)
include hopen hunit hsite hwaits hmay hlower

/-- A parcel dispatched for the first time takes the gradient that is ready for it. -/
theorem dispatchParcel_first {grad : List (BitVec 16)} (hd : kvGet up.disp q = none) (hg : kvGet up.ready q = some grad) :
    dispatchParcel s x id q = beginParcel (endTakeover s u) id q ly up r u grad 0 := by
  subst hunit hsite
  simp only [dispatchParcel, hly, hupd, hrule, hopen, hwaits, hmay, hbest, hlower, hd, hg, ne_eq, not_true_eq_false, decide_false,
    bne_self_eq_false, Bool.not_true, Bool.or_self, Bool.false_eq_true, if_false]

/-- A parcel dispatched again keeps its gradient. -/
theorem dispatchParcel_again {d : Disp} (hd : kvGet up.disp q = some d) (hwhole : d.restore = false) :
    dispatchParcel s x id q = beginParcel (endTakeover s u) id q ly up r u d.grad d.tries := by
  subst hunit hsite
  simp only [dispatchParcel, hly, hupd, hrule, hopen, hwaits, hmay, hbest, hlower, hd, hwhole, ne_eq, not_true_eq_false,
    decide_false, bne_self_eq_false, Bool.not_true, Bool.or_self, Bool.false_eq_true, if_false]

/-- A parcel whose row a hard fault cut is dispatched again on the restored row. -/
theorem dispatchParcel_restored {d : Disp} {t : State} (hd : kvGet up.disp q = some d) (hcut : d.restore = true)
    (hrestore : restoreCut (endTakeover s u) ly q d = some t) :
    dispatchParcel s x id q = beginParcel t id q ly up r u d.grad d.tries := by
  subst hunit hsite
  simp only [dispatchParcel, hly, hupd, hrule, hopen, hwaits, hmay, hbest, hlower, hd, hcut, hrestore, ne_eq,
    not_true_eq_false, decide_false, bne_self_eq_false, Bool.not_true, Bool.or_self, Bool.false_eq_true, if_false, if_true]

end Begins

/-- A unit that rests between parcels enters the pass it takes next. -/
theorem passSwitch_enters (hparcel : (getUnit s (unitKey u)).parcel = none) (hpaused : (getUnit s (unitKey u)).paused = false)
    (hfault : (getUnit s (unitKey u)).fault = false) (hreset : s.power.inReset = none) :
    passSwitch s u = putUnit s (unitKey u) (enterNow s (getUnit s (unitKey u)) id ly up r) := by
  simp only [passSwitch, hparcel, hpaused, hfault, hreset, hbest, hly, hupd, hrule, Option.isSome_none, Bool.or_self,
    Bool.false_eq_true, if_false]

end Dispatch

/-- Settles O35. -/
theorem parcelDispatched : Obligations.ParcelDispatched := by
  unfold Obligations.ParcelDispatched
  intro s x u id q ly up r grad hly hupd hrule hbest
  refine ⟨fun hopen hunit hsite hwaits hmay hlower => ⟨fun hd hg => ?_, fun d hd => ⟨fun hwhole => ?_, fun t hcut ht => ?_⟩⟩,
    fun hparcel hpaused hfault hreset => ?_⟩
  · exact congrArg Host.Outcome.next
      (dispatchParcel_first hly hupd hrule hbest hopen hunit hsite hwaits hmay hlower hd hg)
  · exact congrArg Host.Outcome.next
      (dispatchParcel_again hly hupd hrule hbest hopen hunit hsite hwaits hmay hlower hd hwhole)
  · exact congrArg Host.Outcome.next
      (dispatchParcel_restored hly hupd hrule hbest hopen hunit hsite hwaits hmay hlower hd hcut ht)
  · exact congrArg Host.Outcome.next (passSwitch_enters hly hupd hrule hbest hparcel hpaused hfault hreset)

/-! ### Commit -/

/-- A commit's window holds one write for each column it stores, and the seal's. -/
theorem length_writesInside (s : State) (ly : Layout) (up : Upd) (r : Rule) (q : Nat) (t : Stall) :
    (writesInside s ly up r q t).length = (commitCols ly.stateLayout r.auxStore).length + 1 := by
  simp only [writesInside, List.length_append, List.length_map, List.length_singleton]

/-- A commit that goes on to its seal makes every write. -/
theorem commitWrites_all (s : State) (ly : Layout) (up : Upd) (r : Rule) (q : Nat) (t : Stall) (relief : Bool) :
    commitWrites s ly up r q t relief ((commitCols ly.stateLayout r.auxStore).length + 1)
      = (writesBefore s ly up q t ++ writesInside s ly up r q t).foldl (unitWrite relief) s := by
  rw [commitWrites, List.take_of_length_le (length_writesInside ..).le]

theorem finishParcel_commits {s : State} {u : UnitId} {id q : Nat} {ly : Layout} {up : Upd} {r : Rule}
    (hlayout : (getUnit s (unitKey u)).layout = id) (hparcel : (getUnit s (unitKey u)).parcel = some q)
    (hly : getLayout s id = some ly) (hupd : ly.shard.upd = some up) (hrule : ruleOf s up.ruleId = some r)
    (hmay : mayFinish s u (getUnit s (unitKey u)) (ly.parcelUnit s q).ch (ly.shard.st == .isOpen) = true)
    (hloads : ((getUnit s (unitKey u)).windowOpen || loadsGood (isReliefUnit u) s ly q (getUnit s (unitKey u))) = true) :
    finishParcel s u id q = batch s fun b =>
      afterClose (closeIfDone (parcelSealed (commitWrites b ly up r q
        (runParcel (getUnit s (unitKey u)) (rowLoads (isReliefUnit u) b ly q)) (isReliefUnit u)
        ((commitCols ly.stateLayout r.auxStore).length + 1)) u id q ly r
        (runParcel (getUnit s (unitKey u)) (rowLoads (isReliefUnit u) b ly q))) id) := by
  simp only [finishParcel, hlayout, hparcel, hly, hupd, hrule, hmay, hloads, ne_eq, not_true_eq_false, decide_false,
    bne_self_eq_false, Bool.not_true, Bool.or_self, Bool.false_eq_true, if_false]

/-- Settles O36. -/
theorem parcelSealed_obligation : Obligations.ParcelSealed := by
  unfold Obligations.ParcelSealed
  intro s b u id q ly up r t v ht hcalm hb hlayout hparcel hly hupd hrule hmay hloads hv
  subst ht hb hv
  rw [← Bool.or_eq_true] at hloads
  refine congrArg Host.Outcome.next ((finishParcel_commits hlayout hparcel hly hupd hrule hmay hloads).trans ?_)
  rw [batch_calm hcalm]
  simp only [commitWrites_all]

/-! ### Parity mismatches -/

/-- What the loads of a mismatch leave: an open column and an uncorrectable first read cost the wait of a retry, and
corrected blocks are mended unless the column is open or the error lasts. -/
def mismatchRead (s : State) (x : SiteId) (ly : Layout) (q : Nat) (t : Stall) (openCol : Bool) (first : Option FirstRead)
    (lasting : Bool) : State :=
  let s1 := if openCol || first == some .uncorrectable then chargeRetry s x else s
  if openCol || lasting then s1 else mendLoads s1 ly q t

/-- The same, by whether the column is open. -/
theorem mismatchRead_eq (s : State) (x : SiteId) (ly : Layout) (q : Nat) (t : Stall) (openCol : Bool)
    (first : Option FirstRead) (lasting : Bool) : mismatchRead s x ly q t openCol first lasting =
    if openCol then chargeRetry s x
    else if lasting then (if first = some .uncorrectable then chargeRetry s x else s)
    else mendLoads (if first = some .uncorrectable then chargeRetry s x else s) ly q t := by
  cases openCol <;> simp [mismatchRead]

/-- The state in which a mismatch has been recorded: the unit has dropped its parcel. -/
def mismatchRecorded (s : State) (un : UnitId) (q : Nat) (ly : Layout) (openCol : Bool) (first : Option FirstRead)
    (retry : RetryRead) : State :=
  let t := getUnit s (unitKey un)
  let x := siteOf (ly.parcelUnit s q).site
  let code := mismatchCode openCol first retry
  recordError (mismatchRead (putUnit s (unitKey un) { t with
    parcel := none, commit := [], wcodes := [], wscales := [], wpend := [] }) x ly q t openCol first code.2)
    x (ly.parcelUnit s q).ch code.1

/-- What follows once a mismatch has been recorded (R205). -/
def mismatchEnd (s : State) (id q : Nat) (d : Disp) (lasting : Bool) : State :=
  if lasting || 1 ≤ d.tries then
    match (getLayout s id).bind (fun l => l.shard.upd) with
    | some u => uncorrectable s id q u
    | none => s
  else modUpd s id (fun v => { v with disp := kvPut v.disp q { d with tries := d.tries + 1 } })

theorem mismatch_eq {s : State} {un : UnitId} {id q : Nat} (openCol : Bool) (first : Option FirstRead) (retry : RetryRead)
    {ly : Layout} {u : Upd} {d : Disp} (hlayout : (getUnit s (unitKey un)).layout = id)
    (hparcel : (getUnit s (unitKey un)).parcel = some q) (hwindow : (getUnit s (unitKey un)).windowOpen = false)
    (hreset : s.power.inReset = none) (hly : getLayout s id = some ly) (hupd : ly.shard.upd = some u)
    (hd : kvGet u.disp q = some d) : mismatch s un id q openCol first retry
      = mismatchEnd (mismatchRecorded s un q ly openCol first retry) id q d (mismatchCode openCol first retry).2 := by
  unfold mismatch
  rw [if_neg (by simp [hlayout, hparcel, hwindow, hreset])]
  simp only [hly, hupd, hd]
  rfl

/-- The first mismatch that does not last: the parcel is to be dispatched once more. -/
theorem mismatchEnd_retried (s : State) (id q : Nat) {d : Disp} {lasting : Bool} (hpasses : lasting = false)
    (htries : d.tries = 0) : mismatchEnd s id q d lasting
      = modUpd s id (fun v => { v with disp := kvPut v.disp q { d with tries := 1 } }) := by
  simp only [mismatchEnd, hpasses, htries]
  exact if_neg (by decide)

/-- A lasting error, or a second mismatch, ends the step for the parcel. -/
theorem mismatchEnd_ends {s : State} {id : Nat} (q : Nat) {d : Disp} {lasting : Bool} {u : Upd}
    (hends : lasting = true ∨ 1 ≤ d.tries) (hu : (getLayout s id).bind (fun l => l.shard.upd) = some u) :
    mismatchEnd s id q d lasting = uncorrectable s id q u := by
  rw [mismatchEnd, if_pos (by rwa [Bool.or_eq_true, decide_eq_true_eq]), hu]

/-- Settles O38. -/
theorem parityMismatch : Obligations.ParityMismatch := by
  unfold Obligations.ParityMismatch
  intro s s1 s2 un id q openCol first retry ly u u2 d t x ht hlayout hparcel hwindow hreset hly hupd hd hx hs1 hs2
  subst ht hx hs1
  rw [← mismatchRead_eq] at hs2
  subst hs2
  have hexec : exec (.stallParityMismatch un id q openCol first retry) s = _ :=
    congrArg Host.Outcome.next (mismatch_eq openCol first retry hlayout hparcel hwindow hreset hly hupd hd)
  exact ⟨fun hcode htries => hexec.trans (congrArg Host.Outcome.next (mismatchEnd_retried _ id q hcode htries)),
    fun hends hu2 => hexec.trans (congrArg Host.Outcome.next (mismatchEnd_ends q hends hu2))⟩

end Sys2Proof.Machine
end

section
/-! PROOFS. Errors by their first read and retry, leak ticks, scrub rows and spot checks (O53). -/

namespace Sys2Proof.Machine

/-! ### Errors -/

section Error
variable {s : State} {x : SiteId} {c bank row blk : Nat} (hup : chanUp s x c = true) (hfree : (getChan s x.val c).held = false)
include hup hfree

/-- An error that the sealer does not meet is recorded by its code, and then mended or handed to its reader. -/
theorem classifyError_read (first : FirstRead) (retry : RetryRead) {rd : Reader} (hrd : rd ≠ .sealer) :
    classifyError s x c bank row blk first retry rd =
      let s1 := recordError (if first == .corrected then s else chargeRetry s x) x c (errorCode first retry)
      if errorCode first retry = 0x11 then writeBack s1 (blockKey s x c bank row blk)
      else if errorCode first retry = 0x13 ∨ errorCode first retry = 0x14 then poisonReader s1 (blockKey s x c bank row blk) rd
      else s1 := by
  simp only [classifyError, hup, hfree, Bool.not_true, Bool.or_self, Bool.false_eq_true, if_false]
  cases rd
  case sealer => exact absurd rfl hrd
  all_goals rfl

/-- A lasting parity error that the sealer reports is judged by the seal checks that cover its block. -/
theorem classifyError_sealer_good (h : sealerVerdict (chargeRetry s x) (blockKey s x c bank row blk) = some true) :
    classifyError s x c bank row blk .parityOpen .bad .sealer
      = recordError (sealBlock (chargeRetry s x) (blockKey s x c bank row blk)) x c 0x11 := by
  have hcharge : (if FirstRead.parityOpen == .corrected then s else chargeRetry s x) = chargeRetry s x :=
    if_neg (by decide)
  have hbad : ¬ (RetryRead.bad == .clean) = true := by decide
  simp only [classifyError, hup, hfree, Bool.not_true, Bool.or_self, Bool.false_eq_true, if_false, hcharge, if_neg hbad, h]

theorem classifyError_sealer_bad (h : sealerVerdict (chargeRetry s x) (blockKey s x c bank row blk) ≠ some true) :
    classifyError s x c bank row blk .parityOpen .bad .sealer = recordError (chargeRetry s x) x c 0x14 := by
  have hcharge : (if FirstRead.parityOpen == .corrected then s else chargeRetry s x) = chargeRetry s x :=
    if_neg (by decide)
  have hbad : ¬ (RetryRead.bad == .clean) = true := by decide
  simp only [classifyError, hup, hfree, Bool.not_true, Bool.or_self, Bool.false_eq_true, if_false, hcharge, if_neg hbad]

end Error

/-! ### Leak ticks -/

theorem live_of_chanUp {s : State} {x : SiteId} {c : Nat} (h : chanUp s x c = true) :
    s.power.inReset.isSome = false ∧ (s.sites[x]).live.getLsbD c = true := by
  simp only [chanUp, Bool.and_eq_true] at h
  obtain ⟨⟨⟨hreset, -⟩, -⟩, hlive⟩ := h
  exact ⟨by rw [← Option.not_isNone, hreset]; rfl, hlive⟩

theorem leakTick_live {s : State} {x : SiteId} {c : Nat} (h : chanUp s x c = true) {transient : Bool}
    (hts : s.ts % leakNs s transient = 0) : leakTick s x c transient = modChan s x.val c (fun y =>
      if transient then { y with tran := y.tran - 1, tranOver := y.tranOver && decide (s.cfg.tranThr ≤ 2 * (y.tran - 1)) }
      else { y with lasting := y.lasting - 1, lastOver := y.lastOver && decide (s.cfg.lastThr ≤ 2 * (y.lasting - 1)) }) := by
  obtain ⟨hreset, hlive⟩ := live_of_chanUp h
  exact if_neg (by simp only [hreset, hlive, hts]; decide)

/-! ### Scrub -/

section Scrub
variable {s : State} {x : SiteId} {c : ChId} (hup : chanUp s x c.val = true)
include hup

section Row
variable {b r : Nat} (hturn : bgTurn s (.channel x c) = true)
  (hat : scrubAt s x c.val (List.range (banksOf s x.val)) (getChan s x.val c.val).scrubPos = some (b, r))
include hturn hat

theorem scrubNext_waits (hrow : rowFree s x c.val b r = false) : scrubNext s x c = s := by
  simp only [scrubNext, hup, hturn, hat, hrow, Bool.not_true, Bool.not_false, Bool.or_self, Bool.false_eq_true, if_false,
    if_true]

theorem scrubNext_scrubs (hrow : rowFree s x c.val b r = true) : scrubNext s x c = nextScrub (scrubRow
    (takeBg (if scrubReads s x c.val b r then drawPair s x (stallKey x.val c.val (b / 2))
      (scrubNs (scrubReads s x c.val b r)) else s) (.channel x c) (scrubNs (scrubReads s x c.val b r))) x c.val b r)
    x c.val := by
  simp only [scrubNext, hup, hturn, hat, hrow, Bool.not_true, Bool.or_self, Bool.false_eq_true, if_false]

end Row

theorem scrubLate_late (h : (getChan s x.val c.val).scrubFrom + s.cfg.scrubS * 1000000000 ≤ s.ts) :
    scrubLate s x c.val = ityIrq (ledAdd (modChan s x.val c.val (fun z => { z with scrubPos := 0, scrubFrom := s.ts })) 0x18
      (Place.chan x.val c.val) 0 0) 5 :=
  if_neg (by rw [hup, scrubPeriod, decide_eq_false h.not_gt]; exact Bool.false_ne_true)

omit hup in
theorem scrubLate_in_time (h : s.ts < (getChan s x.val c.val).scrubFrom + s.cfg.scrubS * 1000000000) :
    scrubLate s x c.val = s := if_pos (by rw [scrubPeriod, decide_eq_true h, Bool.or_true])

end Scrub

/-! ### Spot checks -/

section Spot
variable {s : State} {x : SiteId} {id q : Nat} {z : Spot} (hspot : findSpot s x id q = some z)
include hspot

theorem spotCheck_runs {ly : Layout} (hly : getLayout s id = some ly) (me : Bool) (hfree : checkFree s x = true)
    (hturn : bgTurn s (.channel x (chOf (ly.parcelUnit s q).ch)) = true) (htime : s.ts ≤ z.sealedAt + 1000000)
    (hstep : (parseSeal (rowCol s ly q 63)).step = z.step) : spotCheck s x id q me = compareSpot (toFp64
      (takeBg s (.channel x (chOf (ly.parcelUnit s q).ch)) (scrubNs true)) x) z ly me := by
  simp only [spotCheck, hspot, hly, hfree, hturn, hstep, decide_eq_false htime.not_gt, ne_eq, not_true_eq_false,
    Bool.not_true, Bool.or_self, Bool.false_eq_true, if_false]

theorem skipSpot_late (htime : z.sealedAt + 1000000 ≤ s.ts) :
    skipSpot s x id q = count (dropSpot s z) (1544 + 16 * x.val) 1 := by
  simp only [skipSpot, hspot, if_pos htime]

end Spot

/-- Settles O53. -/
theorem errorsAndScrub : Obligations.ErrorsAndScrub := by
  unfold Obligations.ErrorsAndScrub
  intro s s1 x c bank row blk p rd hup hp
  subst hp
  refine ⟨fun hheld hrd => ⟨?_, ?_, ?_, ?_, ?_⟩, fun hheld => ⟨fun h => ?_, fun h => ?_⟩, fun hts => ?_, fun hts => ?_,
    fun b r hturn hat => ⟨fun hrow => ?_, fun hrow hs1 => ?_⟩, fun h => ?_, fun h => ?_,
    fun id q me z ly pt hspot hly hpt => ⟨fun hfree hturn htime hstep => ?_, fun htime => ?_⟩⟩
  · exact congrArg Host.Outcome.next (classifyError_read hup hheld .corrected .clean hrd)
  · exact congrArg Host.Outcome.next (classifyError_read hup hheld .corrected .corrected hrd)
  · exact congrArg Host.Outcome.next (classifyError_read hup hheld .uncorrectable .clean hrd)
  · exact congrArg Host.Outcome.next (classifyError_read hup hheld .uncorrectable .bad hrd)
  · exact congrArg Host.Outcome.next (classifyError_read hup hheld .parityOpen .bad hrd)
  · exact congrArg Host.Outcome.next (classifyError_sealer_good hup hheld h)
  · exact congrArg Host.Outcome.next (classifyError_sealer_bad hup hheld h)
  · exact congrArg Host.Outcome.next (leakTick_live hup (transient := true) hts)
  · exact congrArg Host.Outcome.next (leakTick_live hup (transient := false) hts)
  · exact congrArg Host.Outcome.next (scrubNext_waits hup hturn hat hrow)
  · subst hs1
    refine congrArg Host.Outcome.next ((scrubNext_scrubs hup hturn hat hrow).trans ?_)
    cases scrubReads s x c.val b r <;> rfl
  · exact congrArg Host.Outcome.next (scrubLate_late hup h)
  · exact congrArg Host.Outcome.next (scrubLate_in_time h)
  · subst hpt
    exact congrArg Host.Outcome.next (spotCheck_runs hspot hly me hfree hturn htime hstep)
  · exact congrArg Host.Outcome.next (skipSpot_late hspot htime)

end Sys2Proof.Machine
end
